-- ==== Sys2Proof/Word.lean ====
section
/-! DEFINITION. The word types of the Tamvos D9 and their plainest arithmetic (R1, R116, R143). -/

namespace Sys2Proof

/-- One byte of memory. -/
abbrev Byte := BitVec 8

/-- One main register, uniform register or tangent word. -/
abbrev W32 := BitVec 32

/-- A register pair, an address or a program counter. -/
abbrev W64 := BitVec 64

/-- One instruction word (R116). -/
abbrev W96 := BitVec 96

/-- A set of lanes of a wavelet, lane L at bit L. -/
abbrev Mask := BitVec 64

/-- The lanes of a mask in ascending order, among the first `w`. -/
def Mask.lanes (m : Mask) (w : Nat) : List Nat :=
  (List.range w).filter fun l => m.getLsbD l

/-- The mask of a list of lanes. -/
def Mask.ofLanes (ls : List Nat) : Mask :=
  ls.foldl (fun m l => m ||| BitVec.twoPow 64 l) 0

/-- Whether lane `l` is in the mask. -/
def Mask.has (m : Mask) (l : Nat) : Bool := m.getLsbD l

/-- The bits `[hi:lo]` of a number (R1). -/
def natBits (n hi lo : Nat) : Nat := (n >>> lo) % 2 ^ (hi + 1 - lo)

end Sys2Proof
end

