-- ==== Sys2Proof/Config.lean ====
section
/-! DEFINITION. What is fixed for the device (R4, R74) and the free values the spec leaves open (log 4).
A free value is an opaque constant without a body: nothing can evaluate it. -/

namespace Sys2Proof.Config

/-- Clusters of the package, 96 on each compute die (R4). -/
def clusters : Nat := 192

/-- Clusters of one compute die (R4). -/
def clustersPerDie : Nat := 96

/-- Issue slices of a cluster (R4). -/
def slices : Nat := 6

/-- Scratchpad bytes of a cluster (R4). -/
def scratchBytes : Nat := 384 * 1024

/-- Main-file bytes of a slice (R4, R249). -/
def mainFileBytes : Nat := 192 * 1024

/-- Tangent-file bytes of a slice (R4, R74). -/
def tangentFileBytes : Nat := 131072

/-- Operand-memory slots of a cluster (R197). -/
def slots : Nat := 16

/-- Instructions a run may hold before its seal (R24). -/
def runLimit : Nat := 24

/-- Tasks the region dependence unit holds (R247). -/
def rduTasks : Nat := 4096

/-- The largest queue handle and the most queues of a process (R242). -/
def maxQueues : Nat := 256

/-- Entries of the divergence history table (R19). -/
def divEntries : Nat := 512

/-- The ISA level of the device (R12, R128). -/
def isaLevel : Nat := 1

/-- Control cores (R4). -/
def controlCores : Nat := 8

/-- Bytes of HBM, a decimal figure of R4; they are physical addresses 0 and up (log 7). -/
def hbmBytes : Nat := 640 * 10 ^ 9

/-- Where the second-tier range of physical addresses begins; the spec gives no physical map (R163, log 7). -/
def tierBase : Nat := 2 ^ 40

/-- Bytes of the second tier of the TVD9-M, a decimal figure of R4. -/
def moduleTierBytes : Nat := 3072 * 10 ^ 9

/-- Lines of a cluster's L1 data cache, 128 KiB in lines of 128 bytes (R4, R154). -/
def l1Lines : Nat := 128 * 1024 / 128

/-- Tags of a cluster's victim tag array (R250). -/
def victimTags : Nat := 2048

/-- Slices and bytes of the last-level cache (R4, R155). -/
def llcSlices : Nat := 96
def llcBytes : Nat := 96 * 2 * 2 ^ 20

/-- Ways of a set of the last-level cache, and those that may hold evict-last lines (R161). -/
def llcWays : Nat := 16
def llcLastWays : Nat := 12

/-- Sets of the last-level cache, in lines of 128 bytes (R4, R155, R161). -/
def llcSets : Nat := llcBytes / (128 * llcWays)

/-- Texture units of a cluster, and splat units of the device, one per 8 clusters (R4). -/
def textureUnits : Nat := 4
def splatUnits : Nat := clusters / 8

/-- Packages of the largest system (R4, R14). -/
def maxPackages : Nat := 9216

/-- The PCIe generation of the host port (R6). -/
def pcieGen : Nat := 7

/-- Free choice `n`: a number the spec does not fix (log 4). -/
opaque freeNat : Nat → Nat

/-- Free 32-bit value `n` (log 4). -/
opaque freeWord : Nat → BitVec 32

/-- Reference clocks that pass before step `n` (R260, log 8). -/
opaque elapsed : Nat → Nat

/-- Cluster clocks a cluster runs before step `n` (R260, log 8). -/
opaque clusterClocks : Nat → Nat → Nat

/-- The set of the last-level cache of a line or sector; the spec hashes the address and gives no hash (R155, log 23). -/
opaque llcSet : Nat → Nat

/-- Whether the line or sector of a number compresses to half its size when it is filled in a step (R160, log 23). -/
opaque compresses : Nat → Nat → Bool

/-- The bytes in which nx_vf_report writes its contents (function, LLC charges, time received), which the spec does not
lay out (R242, log 4). -/
opaque vfReport : List (Nat × Nat × Nat) → List (BitVec 8)

end Sys2Proof.Config
end

