-- ==== Sys2Proof/Machine/Sparse.lean ====
section
/-! DEFINITION. Finite maps as lists: `Sparse` holds numbered entries that differ from a default in rising order
(memory, registers); `Assoc` holds named entries in order of arrival. -/

namespace Sys2Proof

namespace Sparse

/-- The entry at `k`, the default where none is listed. -/
def get {β : Type} (d : β) : List (Nat × β) → Nat → β
  | [], _ => d
  | (k', v) :: xs, k => if k' == k then v else get d xs k

/-- Insert before the first greater key; the default is not listed. -/
def put {β : Type} [DecidableEq β] (d : β) : List (Nat × β) → Nat → β → List (Nat × β)
  | [], k, v => if v = d then [] else [(k, v)]
  | (k', v') :: xs, k, v =>
    if k < k' then (if v = d then (k', v') :: xs else (k, v) :: (k', v') :: xs)
    else if k = k' then (if v = d then xs else (k, v) :: xs)
    else (k', v') :: put d xs k v

/-- The canonical form: keys strictly rising, no entry equal to the default. -/
def wf {β : Type} [DecidableEq β] (d : β) : List (Nat × β) → Bool
  | [] => true
  | (k, v) :: xs => (v != d) && (match xs with | [] => true | (k', _) :: _ => k < k') && wf d xs

/-- `n` bytes from `a`, least significant first, as a number. -/
def readN (m : List (Nat × Byte)) (a : Nat) : Nat → Nat
  | 0 => 0
  | n + 1 => (get 0 m a).toNat + 256 * readN m (a + 1) n

/-- Write the `n` low bytes of a number from `a`. -/
def writeN (m : List (Nat × Byte)) (a : Nat) : Nat → Nat → List (Nat × Byte)
  | 0, _ => m
  | n + 1, v => writeN (put 0 m a (BitVec.ofNat 8 v)) (a + 1) n (v / 256)

end Sparse

namespace Assoc

/-- The entry of a key. -/
def get? {α β : Type} [DecidableEq α] : List (α × β) → α → Option β
  | [], _ => none
  | (k', v) :: xs, k => if k' = k then some v else get? xs k

/-- Replace the entry of a key, or add it at the end. -/
def put {α β : Type} [DecidableEq α] : List (α × β) → α → β → List (α × β)
  | [], k, v => [(k, v)]
  | (k', v') :: xs, k, v => if k' = k then (k, v) :: xs else (k', v') :: put xs k v

/-- Drop the entry of a key. -/
def del {α β : Type} [DecidableEq α] (xs : List (α × β)) (k : α) : List (α × β) := xs.filter (·.1 ≠ k)

end Assoc

/-- Insert into a sorted list, after the elements that are not greater. -/
def insBy {α : Type} (le : α → α → Bool) (x : α) : List α → List α
  | [] => [x]
  | y :: ys => if le y x then y :: insBy le x ys else x :: y :: ys

/-- Stable insertion sort. -/
def sortBy {α : Type} (le : α → α → Bool) (xs : List α) : List α := xs.foldl (fun ys x => insBy le x ys) []

/-- Replace the element at a position. -/
def listSet {α : Type} : List α → Nat → α → List α
  | [], _, _ => []
  | _ :: xs, 0, y => y :: xs
  | x :: xs, n + 1, y => x :: listSet xs n y

/-- Apply a function at a position. -/
def listModify {α : Type} (f : α → α) : List α → Nat → List α
  | [], _ => []
  | x :: xs, 0 => f x :: xs
  | x :: xs, n + 1 => x :: listModify f xs n

end Sys2Proof
end

