-- ==== Sys2Proof/Syntax.lean ====
section
/-! DEFINITION. The instruction syntax: operand names (R47), type codes (R94), the fields every word
has (R116), the data that device events bring, and `Instr`, one constructor per row of the opcode table. -/

namespace Sys2Proof

/-- The sixteen type codes (R94), in code order. -/
inductive Ty where
  | b32 | s32 | n32 | f32 | f64 | f16 | bf16 | e4m3 | e5m2 | i4o | s64 | n64 | s16x2 | n16x2 | s8x4 | n8x4
  deriving DecidableEq, Repr

/-- The literals of R48, in encoding order from 497. -/
inductive Lit where
  | one | two | half | mone | pinf | ninf | qnan | lane | allones
  deriving DecidableEq, Repr

/-- An operand name that is not reserved (R47). -/
inductive Name where
  /-- Main register of the strand. -/
  | v (n : Fin 448)
  /-- Operand-file entry. -/
  | o (n : Fin 16)
  /-- Last-result entry. -/
  | q (n : Fin 4)
  /-- Uniform register. -/
  | w (n : Fin 16)
  /-- Reads as zero, discards writes. -/
  | zero
  | lit (l : Lit)
  deriving DecidableEq, Repr

/-- A guard (R54): predicate 7 always reads as true. -/
structure Guard where
  neg  : Bool
  pred : Fin 8
  deriving DecidableEq, Repr

/-- The fields of an instruction word (R116), decoded. `imm32` is used by formats RI and X alone,
`imm` by the others; a field its format does not use holds `zero` or 0 (R118). -/
structure Fields where
  d     : Name
  a     : Name
  b     : Name
  c     : Name
  guard : Guard
  /-- Retain field RT (R65). -/
  rt    : BitVec 2
  /-- Empty policy FE: bit 2 for A, bit 1 for B, bit 0 for C (R58). -/
  fe    : BitVec 3
  /-- Tangent mode TM = 1 (R121). -/
  tz    : Bool
  ty    : Ty
  md    : BitVec 4
  ha    : BitVec 4
  hb    : BitVec 3
  hc    : BitVec 3
  imm   : BitVec 16
  imm32 : BitVec 32
  deriving DecidableEq, Repr

/-- Which wavelet: its span, the position of its block in the span, its index in the block. -/
structure WavId where
  span : Nat
  blk  : Nat
  wid  : Nat
  deriving DecidableEq, Repr

/-- What the caches hold as one piece: a line of 128 bytes of an ordinary page (R155), a sector of a pitched page by the
physical address of its first byte (R157), a line of a wavelet's private memory or of one of its planes (R66, R67). -/
inductive LlcKey where
  | line (n : Nat)
  | sector (pa pitch : Nat)
  | priv (w : WavId) (plane n : Nat)
  deriving DecidableEq, Repr

/-- A page to be mapped: its virtual base address and its 128-bit leaf descriptor (R149). -/
structure Mapping where
  va   : W64
  leaf : BitVec 128
  deriving DecidableEq, Repr

/-- The page request of a data section (R140); the defaults are those of a section without `.page`. -/
structure PageReq where
  fmt  : Ty := .b32
  /-- `blk=32`. -/
  blk  : Bool := false
  /-- Tangent planes: 0, 2, 4 or 8. -/
  tp   : Nat := 0
  psc  : Nat := 0
  /-- Row pitch in bytes, 0 for an ordinary page. -/
  two  : Nat := 0
  cmp  : Bool := false
  icls : Nat := 0
  /-- 0 none, 1 first, 2 last. -/
  ev   : Nat := 0
  /-- 0, 1, 2, 3: 8 KiB, 64 KiB, 2 MiB, 512 MiB. -/
  size : Nat := 0
  deriving DecidableEq, Repr

/-- What a section is (R133); `other` is one that holds no part of the program: symbols, strings, relocations. -/
inductive SecKind where
  | text | data | kernels | note | other
  deriving DecidableEq, Repr

/-- A section of a code object (R133): its alignment, its bytes, and for data its page request (R140). -/
structure Section where
  kind  : SecKind
  align : Nat
  bytes : List Byte
  page  : PageReq := {}
  deriving DecidableEq, Repr

/-- What a symbol stands for under the ELF rules (R136): an offset in a section, a value that no place changes, a symbol of
another object, or a weak one of which no object need be loaded. -/
inductive SymVal where
  | sec (n offset : Nat)
  | absolute (v : W64)
  | extern
  | weak
  deriving DecidableEq, Repr

/-- A symbol (R133, R136), exported or not; `isWeak` says that its binding is weak. -/
structure Symbol where
  name     : List Byte
  val      : SymVal
  isGlobal : Bool
  isWeak   : Bool := false
  deriving DecidableEq, Repr

/-- A relocation (R136): type, the section and offset written, the symbol and the addend of its address. -/
structure Reloc where
  kind   : Nat
  sec    : Nat
  offset : Nat
  sym    : Nat
  addend : W64
  deriving DecidableEq, Repr

/-- A code object as the loader reads it (R133): the fields of its ELF header, its sections, symbols and relocations. -/
structure CodeObject where
  /-- EI_CLASS: 2 for 64 bits. -/
  cls      : Nat
  /-- EI_DATA: 1 for little-endian. -/
  data     : Nat
  /-- e_type: 1 for a relocatable file. -/
  type     : Nat
  machine  : Nat
  sections : List Section
  symbols  : List Symbol
  relocs   : List Reloc
  deriving DecidableEq, Repr

/-- Where Pewter places a section: its virtual address and the physical address of its first byte (log 9). -/
structure SectionPlace where
  va : W64
  pa : Nat
  deriving DecidableEq, Repr

/-- A call of nx_object_load (R262): the bytes of the object as control-program memory holds them from a0, a1 of them; the
page requests of its sections by index, whose form in the file the spec does not give (R140); and the places that Pewter
chose for its sections (log 9). -/
structure PlacedObject where
  bytes  : List Byte
  pages  : List (Nat × PageReq)
  places : List SectionPlace
  deriving DecidableEq, Repr

/-- A fetched image as the boot ROM tests it (R10). -/
structure BootImage where
  sigOk     : Bool
  version   : Nat
  forModule : Bool
  bytes     : List Byte
  deriving DecidableEq, Repr

/-- A 64-byte unit that bears a check value (R164): of physical memory, or of a wavelet's private memory, in its space (plane
0) or in private tangent plane `plane - 1` (R66, R67). -/
inductive UnitKey where
  | phys (n : Nat)
  | priv (w : WavId) (plane n : Nat)
  deriving DecidableEq, Repr

/-- A copy of a unit that a refetch brings (R165), and its source: 0 the next level behind, 1 host memory, 2 storage. -/
structure GoodCopy where
  unit  : UnitKey
  src   : Nat
  bytes : List Byte
  deriving DecidableEq, Repr

/-- Where bytes leave the device (R164): a host read, a Floeb link send, a storage write. -/
inductive Exit where
  | host | fabric | storage
  /-- A read by another host that shares the second tier (R6, R7). -/
  | otherHost
  /-- A request for the package's identity certificate, by the host or by management software (R10). -/
  | identity
  deriving DecidableEq, Repr

/-- `n` bytes that leave the device, and the copies that the refetch of their failing units brings (R164, R165). -/
structure HostBytes where
  n      : Nat
  copies : List GoodCopy
  via    : Exit := .host
  deriving DecidableEq, Repr

/-- An address in a process's memory that Pewter reads, and the copies that the refetch of failing units brings (R13). -/
structure CallRead where
  at'    : W64
  copies : List GoodCopy := []
  deriving DecidableEq, Repr

/-- A task that completes, and the copies that the refetch of its signal's failing unit brings (R13, R244). -/
structure TaskEnd where
  task   : Nat
  copies : List GoodCopy := []
  deriving DecidableEq, Repr

/-- A store of bytes by a control core, and the copies that the refetch of its failing units brings (R165, R184). -/
structure CoreBytes where
  bytes  : List Byte
  copies : List GoodCopy
  deriving DecidableEq, Repr

/-- A change of a page table (R150): a leaf and, for a page of private memory, its wavelet and lane (R66). -/
structure PageChange where
  map    : Mapping
  strand : Option (WavId × Nat)
  deriving DecidableEq, Repr

/-- The wavelets of a cluster that one barrier release let go (R256). -/
structure Release where
  cluster : Nat
  phase   : Nat
  deriving DecidableEq, Repr

/-- The CXL Type 3 device behind the root port (R7): its CXL version and its bytes. -/
structure CxlDevice where
  version : Nat
  bytes   : Nat
  deriving DecidableEq, Repr

/-- The rows of the opcode table. The first group are instruction words; `f` holds the word's fields.
The second group are device events, which have no word (log 1); their arguments are what the event brings. -/
inductive Instr where
  -- arithmetic
  | abs (f : Fields) | neg (f : Fields) | add (f : Fields) | sub (f : Fields) | addc (f : Fields)
  | div (f : Fields) | rem (f : Fields) | dot2 (f : Fields) | dot4 (f : Fields) | fma (f : Fields)
  | frnd (f : Fields) | max (f : Fields) | min (f : Fields) | mul (f : Fields) | mul24 (f : Fields)
  | mulhi (f : Fields)
  -- logic and bits
  | and (f : Fields) | or (f : Fields) | xor (f : Fields) | not (f : Fields) | bfe (f : Fields)
  | bfi (f : Fields) | brev (f : Fields) | clz (f : Fields) | popc (f : Fields) | mov (f : Fields)
  | sel (f : Fields) | movi (f : Fields) | rotL (f : Fields) | rotR (f : Fields) | shl (f : Fields)
  | shr (f : Fields) | sra (f : Fields)
  -- compare and predicate
  | cmp (f : Fields) (cond : Fin 8) | matchKey (f : Fields) | plog (f : Fields) (op : Fin 5)
  | voteAll (f : Fields) | voteAny (f : Fields) | voteBallot (f : Fields)
  -- conversion
  | cvt (f : Fields) | cvtblkEnc (f : Fields) | cvtblkDec (f : Fields) | pack4 (f : Fields) | unpk4 (f : Fields)
  -- special function
  | cos (f : Fields) | sin (f : Fields) | ex2 (f : Fields) | lg2 (f : Fields) | rsq (f : Fields)
  | rcp (f : Fields) | sqrt (f : Fields)
  -- tangent
  | tev (f : Fields) | tget (f : Fields) | tset (f : Fields) | tzero (f : Fields)
  -- cross-lane
  | laneRank (f : Fields) | laneBack (f : Fields) | laneFwd (f : Fields) | laneMate (f : Fields)
  | lred (f : Fields) (op : Fin 6) | lscan (f : Fields) (op : Fin 6) (ex : Bool)
  -- memory
  | ld (f : Fields) | st (f : Fields) | spc (f : Fields) | spcastSp (f : Fields) | spcastSpan (f : Fields)
  | spcastOff (f : Fields)
  | atomAdd (f : Fields) | atomMin (f : Fields) | atomMax (f : Fields) | atomAnd (f : Fields)
  | atomOr (f : Fields) | atomXor (f : Fields) | atomExch (f : Fields) | atomcas (f : Fields)
  | fence (f : Fields) (scope : Fin 5) | fenceSys (f : Fields)
  -- copy and matrix
  | cpl (f : Fields) (size : Fin 3) | cpt (f : Fields) | cpkick (f : Fields)
  | mamax (f : Fields) | mamaxClr (f : Fields) | mclaim (f : Fields) | mrel (f : Fields)
  | mld (f : Fields) | mldT (f : Fields)
  | mconstIdent (f : Fields) | mconstExch (f : Fields) | mconstPerm (f : Fields)
  | mconstOnesrow (f : Fields) | mconstOnescol (f : Fields) | mconstShift (f : Fields)
  | mma (f : Fields) | mdual (f : Fields) | mfence (f : Fields) | mwait (f : Fields)
  -- reservoir and distribution
  | rsvinit (f : Fields) | rsvupd (f : Fields) | rsvmerge (f : Fields) | rsvfin (f : Fields)
  | rsvget (f : Fields) | rsvld (f : Fields) | rsvst (f : Fields)
  | dset (f : Fields) | dtag (f : Fields) | dadd (f : Fields) | daddSub (f : Fields) | dmul (f : Fields)
  | dmomMean (f : Fields) | dmomVar (f : Fields) | dmomM3 (f : Fields) | dmomMin (f : Fields)
  | dmomMax (f : Fields) | dqtl (f : Fields) | dld (f : Fields) | dsto (f : Fields)
  -- graphics and fabric
  | splsub (f : Fields) | splwait (f : Fields) | tex (f : Fields) | texLod (f : Fields) | texd (f : Fields)
  | coll (f : Fields) | collwait (f : Fields)
  -- control, synchronisation and system
  | bra (f : Fields) | jmp (f : Fields) | jmpInd (f : Fields) | call (f : Fields) | callInd (f : Fields)
  | ret (f : Fields) | retX (f : Fields) | retXSkip (f : Fields) | exit (f : Fields) | brk (f : Fields)
  | trap (f : Fields) | nop (f : Fields)
  | seal (f : Fields) (y : Bool) (w : Bool)
  | bar (f : Fields) | bararr (f : Fields) | barinit (f : Fields) | barinv (f : Fields) | barwait (f : Fields)
  | fwait (f : Fields) | getsr (f : Fields)
  | setsrSeed (f : Fields) | setsrMode (f : Fields) | setsrSplAlpha (f : Fields) | setsrPwrRatio (f : Fields)
  | syscPagein (f : Fields) | syscAbort (f : Fields) | syscVersion (f : Fields)
  | task (f : Fields) | tstamp (f : Fields)
  -- events of the clusters and their engines; `op` numbers an outstanding operation
  | barrierWakeWave (rel : Release)
  | pwrRatioEffect (cluster slice : Nat)
  | loadFill (op : Nat) | atomicReturn (op : Nat) | cplComplete (op : Nat)
  | bulkCopyRow (op : Nat) | bulkCopyFail (op : Nat) (cause : Nat)
  | mldFill (op : Nat) | matrixDrain (op : Nat) | matrixCommandFail (op : Nat) (cause : Nat)
  | mclaimGrant (w : WavId) | texComplete (op : Nat) | splatBatchComplete (op : Nat)
  | collComplete (op : Nat) (peers : List (List W32))
  | rankDropout (group rank : Nat) (reached : List (Nat × List Nat))
  -- faults and recovery
  | faultResolve (w : WavId) (maps : List Mapping) | faultDecline (w : WavId)
  | integrityRefetch (w : WavId) (copies : List GoodCopy)
  | fetchFault (w : WavId) | fetchFaultResolved (w : WavId) (map : Option Mapping)
  | uncorrectableStateError (w : WavId)
  | preemptRequest (span : Nat) | spanRestore (span : Nat) (clusters : List Nat)
  | leaseExpiry (cluster : Nat) (key : LlcKey)
  | syscAnswer (w : WavId) (maps : List Mapping)
  -- Pewter's calls; `ctx` is the calling process
  | nxQueueCreate (ctx prio cap : Nat) | nxQueueDestroy (ctx qid : Nat) | nxLaunch (ctx : Nat) (rec : CallRead)
  | nxSignalWait (ctx : Nat) (sig : CallRead) (count timeout : Nat)
  | signalWaitTimeout (ctx : Nat) (sig : CallRead)
  | nxVfReport (ctx : Nat) (buf : W64) | nxObjectLoad (ctx : Nat) (obj : PlacedObject)
  | nxTaskFault (ctx : Nat) (sig buf : W64)
  -- scheduling
  | arbiterSelect | vfSliceExpiry | gracePeriodExpiry | rduEnter (task : Nat)
  | dispatchSpan (task : Nat) (clusters : List Nat) | taskComplete (task : TaskEnd)
  | lostLocalityWindow (cluster : Nat)
  -- clocks and power
  | droopDetect (cluster fall : Nat) | droopStretchEnd (cluster : Nat) | droopHalveEnd (cluster : Nat)
  | idleEnter | idleExit | latencyToleranceReport (ns : Nat)
  -- memory system
  | pageMigrate (ctx : Nat) (va : W64) (base : Nat) | pageTableChange (ctx : Nat) (change : PageChange)
  | hostLinkTrain (hostGen hostCxl : Nat) (widths : List Nat) (goodLanes : Nat)
  | floebNegotiate (port partnerGen : Nat) | flitResend (port : Nat)
  | dataEntryCrc (unit : Nat) (bytes : List Byte)
  -- boot
  | bootReset | imageFetchComplete (img : BootImage) | dhcpTimeout | sourceTimeout | transferBreak
  | bootRetryWaitExpiry
  -- system scale
  | spareJoining (group rank : Nat)
  | correctedError (store : Nat)
  | uncorrectableErrorInFlight (op : Nat)
  | hostRead (addr : Nat) (read : HostBytes)
  | controlCoreAccess (addr : Nat) (store : CoreBytes)
  | lineModeSwitch (on : Bool)
  | cxlRootPortTrain (dev : CxlDevice) (width : Nat)
  | pwrLimitsSet (slope droop : Nat)
  | arbiterParametersSet (vf slice grace : Nat) (weights : List (Nat × Nat)) (boost : List (Nat × Bool))
  deriving DecidableEq, Repr

end Sys2Proof
end

