-- ==== Sys2Proof/Machine/Types.lean ====
section
/-! DEFINITION. Facts about type codes (R94, R122, R152), format tags (R55) and operand name codes (R47). -/

namespace Sys2Proof

/-- The 4-bit code of a type (R94). -/
def Ty.code : Ty → Nat
  | .b32 => 0 | .s32 => 1 | .n32 => 2 | .f32 => 3 | .f64 => 4 | .f16 => 5 | .bf16 => 6 | .e4m3 => 7
  | .e5m2 => 8 | .i4o => 9 | .s64 => 10 | .n64 => 11 | .s16x2 => 12 | .n16x2 => 13 | .s8x4 => 14 | .n8x4 => 15

/-- The type of a 4-bit code; the code is taken modulo 16 (R94). -/
def Ty.ofCode (n : Nat) : Ty :=
  match n % 16 with
  | 0 => .b32 | 1 => .s32 | 2 => .n32 | 3 => .f32 | 4 => .f64 | 5 => .f16 | 6 => .bf16 | 7 => .e4m3
  | 8 => .e5m2 | 9 => .i4o | 10 => .s64 | 11 => .n64 | 12 => .s16x2 | 13 => .n16x2 | 14 => .s8x4 | _ => .n8x4

/-- Whether a value of the type occupies a register pair (R49). -/
def Ty.wide : Ty → Bool
  | .f64 | .s64 | .n64 => true
  | _ => false

/-- P(TY): elements of one register (or pair) of the type (R152). -/
def Ty.perReg : Ty → Nat
  | .f16 | .bf16 | .s16x2 | .n16x2 => 2
  | .e4m3 | .e5m2 | .s8x4 | .n8x4 => 4
  | .i4o => 8
  | _ => 1

/-- Bits of one element. -/
def Ty.elemBits (t : Ty) : Nat := (if t.wide then 64 else 32) / t.perReg

/-- Bytes of a register (or pair) of the type (R153). -/
def Ty.regBytes (t : Ty) : Nat := if t.wide then 8 else 4

/-- Bytes that n elements of a page format of this code take (R152); half a byte for `i4o`. -/
def Ty.memBytes (t : Ty) (n : Nat) : Nat := n * t.elemBits / 8

/-- Floating formats. -/
def Ty.isFloat : Ty → Bool
  | .f32 | .f64 | .f16 | .bf16 | .e4m3 | .e5m2 => true
  | _ => false

/-- Signed integer formats. -/
def Ty.isSigned : Ty → Bool
  | .s32 | .s64 | .s16x2 | .s8x4 => true
  | _ => false

/-- Integer formats, signed or unsigned, without `b32` and `i4o`. -/
def Ty.isInt : Ty → Bool
  | .s32 | .n32 | .s64 | .n64 | .s16x2 | .n16x2 | .s8x4 | .n8x4 => true
  | _ => false

/-- Formats whose registers carry tangents (R75). -/
def Ty.hasTan : Ty → Bool
  | .f32 | .f64 | .f16 | .bf16 => true
  | _ => false

/-- A 5-bit format tag (R55). -/
abbrev Tag := BitVec 5

def Tag.rsv : Tag := 16
def Tag.dis : Tag := 17
def Tag.ptr : Tag := 18
def Tag.none : Tag := 31

/-- The tag of a type (R55). -/
def Ty.tag (t : Ty) : Tag := BitVec.ofNat 5 t.code

/-- Whether a tag names a format held in a pair: `f64`, `s64`, `n64` or PTR (R325). -/
def Tag.wide (t : Tag) : Bool := t == Ty.f64.tag || t == Ty.s64.tag || t == Ty.n64.tag || t == Tag.ptr

/-- The type a tag names, if it names one (R55). -/
def Tag.ty? (t : Tag) : Option Ty := if t.toNat < 16 then some (Ty.ofCode t.toNat) else .none

/-- Type classes of the opcode map (R122). -/
def Ty.clsF : List Ty := [.f32, .f64, .f16, .bf16]
def Ty.clsE : List Ty := [.e4m3, .e5m2]
def Ty.clsS : List Ty := [.s32, .s64]
def Ty.clsN : List Ty := [.n32, .n64]
def Ty.clsI : List Ty := [.s32, .s64, .n32, .n64]
def Ty.clsP : List Ty := [.s16x2, .n16x2, .s8x4, .n8x4]
def Ty.clsMX : List Ty := [.bf16, .f16, .e4m3, .e5m2, .i4o, .f64]
def Ty.all : List Ty := (List.range 16).map Ty.ofCode

/-- The literal of an operand code from 497 (R47). -/
def Lit.ofCode (n : Nat) : Option Lit :=
  match n with
  | 497 => some .one | 498 => some .two | 499 => some .half | 500 => some .mone | 501 => some .pinf
  | 502 => some .ninf | 503 => some .qnan | 504 => some .lane | 505 => some .allones
  | _ => none

/-- The operand code of a literal (R47). -/
def Lit.code : Lit → Nat
  | .one => 497 | .two => 498 | .half => 499 | .mone => 500 | .pinf => 501 | .ninf => 502 | .qnan => 503
  | .lane => 504 | .allones => 505

/-- The operand name of a 9-bit code; none for a reserved code (R47). -/
def Name.ofCode (n : Nat) : Option Name :=
  if h : n < 448 then some (.v ⟨n, h⟩)
  else if h : n - 448 < 16 then some (.o ⟨n - 448, h⟩)
  else if h : n - 464 < 4 then some (.q ⟨n - 464, h⟩)
  else if n < 480 then none
  else if h : n - 480 < 16 then some (.w ⟨n - 480, h⟩)
  else if n = 496 then some .zero
  else (Lit.ofCode n).map .lit

/-- The 9-bit code of an operand name (R47). -/
def Name.code : Name → Nat
  | .v n => n | .o n => 448 + n | .q n => 464 + n | .w n => 480 + n | .zero => 496 | .lit l => l.code

/-- Whether the literal has a value in the type (R48). -/
def Lit.okIn (l : Lit) (t : Ty) : Bool :=
  match l with
  | .half | .qnan => t.isFloat
  | .pinf | .ninf => t != .b32 && t != .e4m3 && t != .i4o
  | _ => t != .i4o

/-- The immediate of formats M read as a signed byte offset (R119). -/
def Fields.offset (f : Fields) : W64 := f.imm.signExtend 64

/-- Rounding field MD[2:0] and saturation bit MD[3] (R104). -/
def Fields.rm (f : Fields) : Nat := natBits f.md.toNat 2 0
def Fields.sat (f : Fields) : Bool := f.md.getLsbD 3

end Sys2Proof
end

