-- ==== Sys2Proof/Machine/Exact.lean ====
section
/-! DEFINITION. Exact values, the floating formats (R95) and the one rounding (R104-R108, R98).
A quotient or a root is held as a long enough truncation beside a sticky mark, so its rounding is exact. -/

namespace Sys2Proof

/-- A decoded value: the magnitude is `m·2^e`, or lies strictly between it and `(m+1)·2^e` when `sticky`. -/
inductive Num where
  | nan
  | inf (neg : Bool)
  | fin (neg : Bool) (m : Nat) (e : Int) (sticky : Bool)
  deriving DecidableEq, Repr

/-- A binary floating format (R95); `inf` says whether it holds infinities. -/
structure Fmt where
  ew   : Nat
  f    : Nat
  bias : Nat
  inf  : Bool
  deriving DecidableEq, Repr

namespace Fmt
def f64 : Fmt := ⟨11, 52, 1023, true⟩
def f32 : Fmt := ⟨8, 23, 127, true⟩
def f16 : Fmt := ⟨5, 10, 15, true⟩
def bf16 : Fmt := ⟨8, 7, 127, true⟩
def e5m2 : Fmt := ⟨5, 2, 15, true⟩
def e4m3 : Fmt := ⟨4, 3, 7, false⟩

/-- Position of the sign bit. -/
def signBit (t : Fmt) : Nat := t.ew + t.f
/-- Magnitude bits of the largest finite value (R95). -/
def maxMag (t : Fmt) : Nat := if t.inf then (2 ^ t.ew - 1) * 2 ^ t.f - 1 else 2 ^ (t.ew + t.f) - 2
/-- Magnitude bits of infinity. -/
def infMag (t : Fmt) : Nat := (2 ^ t.ew - 1) * 2 ^ t.f
/-- The canonical quiet NaN (R95, R48). -/
def qnan (t : Fmt) : Nat := if t.inf then t.infMag + 2 ^ (t.f - 1) else 2 ^ (t.ew + t.f) - 1
/-- A magnitude with a sign. -/
def signed (t : Fmt) (neg : Bool) (mag : Nat) : Nat := mag + (if neg then 2 ^ t.signBit else 0)
end Fmt

/-- The floating format of a type; integer types name none. -/
def Ty.fmt? : Ty → Option Fmt
  | .f64 => some .f64 | .f32 => some .f32 | .f16 => some .f16 | .bf16 => some .bf16
  | .e4m3 => some .e4m3 | .e5m2 => some .e5m2
  | _ => none

/-- Decode the bits of a floating element (R95). -/
def Fmt.decode (t : Fmt) (x : Nat) : Num :=
  let neg := x.testBit t.signBit
  let mag := x % 2 ^ t.signBit
  let ex := mag >>> t.f
  let fr := mag % 2 ^ t.f
  if t.inf && ex == 2 ^ t.ew - 1 then (if fr == 0 then .inf neg else .nan)
  else if !t.inf && mag == 2 ^ t.signBit - 1 then .nan
  else if ex == 0 then .fin neg fr (1 - (t.bias : Int) - t.f) false
  else .fin neg (fr + 2 ^ t.f) ((ex : Int) - t.bias - t.f) false

namespace Num

def zero : Num := .fin false 0 0 false
def ofInt (i : Int) : Num := .fin (i < 0) i.natAbs 0 false
def ofNat (n : Nat) : Num := .fin false n 0 false

def isNan : Num → Bool | .nan => true | _ => false
def isInf : Num → Bool | .inf _ => true | _ => false
def isFin : Num → Bool | .fin .. => true | _ => false
def isZero : Num → Bool | .fin _ 0 _ false => true | _ => false
def sign : Num → Bool | .nan => false | .inf n => n | .fin n .. => n

def neg : Num → Num
  | .nan => .nan | .inf n => .inf (!n) | .fin n m e s => .fin (!n) m e s

def abs : Num → Num
  | .nan => .nan | .inf _ => .inf false | .fin _ m e s => .fin false m e s

/-- The signed mantissa of a finite value at exponent `q ≤ e`. -/
def mant (n : Bool) (m : Nat) (e q : Int) : Int :=
  let v : Int := (m <<< (e - q).toNat : Nat)
  if n then -v else v

/-- Exact product; `0·∞` is NaN (R304). -/
def mul : Num → Num → Num
  | .nan, _ | _, .nan => .nan
  | .inf a, .inf b => .inf (a != b)
  | .inf a, .fin b m _ _ => if m == 0 then .nan else .inf (a != b)
  | .fin a m _ _, .inf b => if m == 0 then .nan else .inf (a != b)
  | .fin a m e _, .fin b n g _ => .fin (a != b) (m * n) (e + g) false

/-- Least exponent among finite terms. -/
def minExp (ts : List Num) : Int :=
  ts.foldl (fun q t => match t with | .fin _ m e _ => if m == 0 then q else min q e | _ => q) 100000

/-- Exact sum of exact terms with the zero and special rules of R105 and R109; `rd` says the mode is RD. -/
def sum (rd : Bool) (ts : List Num) : Num :=
  if ts.any isNan then .nan
  else if ts.contains (.inf true) then (if ts.contains (.inf false) then .nan else .inf true)
  else if ts.contains (.inf false) then .inf false
  else if ts.all (fun t => t.isZero && t.sign) && !ts.isEmpty then .fin true 0 0 false
  else if ts.all (fun t => t.isZero && !t.sign) then zero
  else
    let q := minExp ts
    let v := ts.foldl (fun (a : Int) t => match t with
      | .fin n m e _ => if m == 0 then a else a + mant n m e q
      | _ => a) 0
    if v == 0 then .fin rd 0 0 false else .fin (v < 0) v.natAbs q false

/-- Exact sum of two terms. -/
def add (rd : Bool) (a b : Num) : Num := sum rd [a, b]

/-- Quotient (R293). -/
def div : Num → Num → Num
  | .nan, _ | _, .nan => .nan
  | .inf _, .inf _ => .nan
  | .inf a, .fin b _ _ _ => .inf (a != b)
  | .fin a _ _ _, .inf b => .fin (a != b) 0 0 false
  | .fin a m e _, .fin b n g _ =>
    if n == 0 then (if m == 0 then .nan else .inf (a != b))
    else if m == 0 then .fin (a != b) 0 0 false
    else
      let k := 160 + Nat.log2 n
      let x := m <<< k
      .fin (a != b) (x / n) (e - g - k) (x % n != 0)

/-- Integer square root by bits, from bit `k` down. -/
def isqrt (n : Nat) : Nat → Nat → Nat
  | 0, r => r
  | k + 1, r => let t := r + 2 ^ k; isqrt n k (if t * t ≤ n then t else r)

/-- Square root rounded down. -/
def natSqrt (n : Nat) : Nat := isqrt n (Nat.log2 n / 2 + 1) 0

/-- Square root (R348). -/
def sqrt : Num → Num
  | .nan => .nan
  | .inf n => if n then .nan else .inf false
  | .fin n m e s =>
    if m == 0 then .fin n 0 0 false
    else if n then .nan
    else
      let x := m <<< (320 + (e % 2).toNat)
      let r := natSqrt x
      .fin false r ((e - e % 2) / 2 - 160) (s || r * r != x)

/-- Reciprocal square root (R340). -/
def rsq : Num → Num
  | .nan => .nan
  | .inf n => if n then .nan else zero
  | .fin n m e _ =>
    if m == 0 then .inf n
    else if n then .nan
    else
      let x := m <<< (e % 2).toNat
      let k := 160 + Nat.log2 x
      let r := natSqrt (2 ^ (2 * k) / x)
      .fin false r (-(k : Int) - (e - e % 2) / 2) (r * r * x != 2 ^ (2 * k))

/-- Compare two finite or infinite values; NaN operands are the caller's matter. -/
def cmp (a b : Num) : Ordering :=
  match a, b with
  | .inf x, .inf y => if x == y then .eq else if x then .lt else .gt
  | .inf x, _ => if x then .lt else .gt
  | _, .inf y => if y then .gt else .lt
  | .fin n m e _, .fin p k g _ =>
    let q := min e g
    compare (mant n m e q) (mant p k g q)
  | _, _ => .eq

def lt (a b : Num) : Bool := !a.isNan && !b.isNan && cmp a b == .lt
def le (a b : Num) : Bool := !a.isNan && !b.isNan && cmp a b != .gt
def eq (a b : Num) : Bool := !a.isNan && !b.isNan && cmp a b == .eq

end Num

/-- A finite value cut at quantum `2^q`: `n` whole quanta, the rest compared with a half, and the draw
threshold `d` of R107. -/
structure Cut where
  neg     : Bool
  n       : Nat
  q       : Int
  half    : Ordering
  inexact : Bool
  d       : Nat
  deriving DecidableEq, Repr

/-- Cut the magnitude `m·2^e` at `2^q`. -/
def Cut.at (neg : Bool) (m : Nat) (e q : Int) (sticky : Bool) : Cut :=
  if q ≤ e then
    ⟨neg, m <<< (e - q).toNat, q, if sticky then .lt else .lt, sticky, 0⟩
  else
    let sh := (q - e).toNat
    let r := m % 2 ^ sh
    let c := compare (2 * r) (2 ^ sh)
    ⟨neg, m >>> sh, q, if c == .eq && sticky then .gt else c, r != 0 || sticky, (r * 2 ^ 32) / 2 ^ sh⟩

/-- Where a format cuts a finite value: its quantum, unbounded above. -/
def Fmt.cut (t : Fmt) (neg : Bool) (m : Nat) (e : Int) (sticky : Bool) : Cut :=
  let top : Int := e + Nat.log2 m
  Cut.at neg m e (max top (1 - (t.bias : Int)) - t.f) sticky

/-- Whether the magnitude moves up, in mode `rm` (R104) with draw `r` (R107). -/
def Cut.up (c : Cut) (rm r : Nat) : Bool :=
  c.inexact && match rm with
  | 0 => c.half == .gt || (c.half == .eq && c.n % 2 == 1)
  | 1 => false
  | 2 => !c.neg
  | 3 => c.neg
  | _ => r < c.d

/-- A rounded element: its bits; whether a clamp or a saturation changed the value (R80, R98); whether the
saturation is of the kind that sets CNVSAT outside `cvt` (R98, R106). -/
structure Rounded where
  bits  : Nat
  clamp : Bool
  sat98 : Bool
  deriving DecidableEq, Repr

/-- Round to a floating format in mode `rm`, with SAT (R105, R106, R98); `r` is the draw of R107. -/
def Fmt.round (t : Fmt) (rm : Nat) (sat : Bool) (r : Nat) : Num → Rounded
  | .nan => ⟨t.qnan, false, false⟩
  | .inf n =>
    if sat then ⟨t.signed n t.maxMag, true, false⟩
    else ⟨t.signed n (if t.inf then t.infMag else t.qnan), false, false⟩
  | .fin n m e s =>
    if m == 0 then ⟨t.signed n 0, false, false⟩
    else
      let c := t.cut n m e s
      let mag := (c.q + t.f + t.bias - 1).toNat * 2 ^ t.f + c.n + (if c.up rm r then 1 else 0)
      if mag ≤ t.maxMag then ⟨t.signed n mag, false, false⟩
      else if !t.inf then ⟨t.signed n t.maxMag, true, !sat⟩
      else if rm ≥ 4 then ⟨t.signed n t.maxMag, true, false⟩
      else if rm == 1 || (rm == 3 && !n) || (rm == 2 && n) then ⟨t.signed n t.maxMag, false, false⟩
      else if sat then ⟨t.signed n t.maxMag, true, false⟩
      else ⟨t.signed n t.infMag, false, false⟩

/-- Round to the nearest (R105). -/
def Fmt.rn (t : Fmt) (x : Num) : Nat := (t.round 0 false 0 x).bits

/-- d(i) of R107 for a floating result. -/
def Fmt.dOf (t : Fmt) : Num → Nat
  | .fin n m e s => if m == 0 then 0 else (t.cut n m e s).d
  | _ => 0

/-- The integer a value rounds to, in a mode; finite values alone. -/
def Num.toInt (rm r : Nat) : Num → Int
  | .fin n m e s =>
    let c := Cut.at n m e 0 s
    let k : Int := (c.n + (if c.up rm r then 1 else 0) : Nat)
    if n then -k else k
  | _ => 0

/-- d(i) of R107 for an integer result. -/
def Num.dInt : Num → Nat
  | .fin n m e s => (Cut.at n m e 0 s).d
  | _ => 0

/-- mix32 of R107. -/
def mix32 (x : W32) : W32 :=
  let x := (x ^^^ (x >>> 16)) * 0x7FEB352D#32
  let x := (x ^^^ (x >>> 15)) * 0x846CA68B#32
  x ^^^ (x >>> 16)

/-- The draw of element index `e`, where `d` gives d of an element index (R107). -/
def srDraw (seed : W32) (d : Nat → Nat) (e : Nat) : Nat :=
  let i := e % 32
  let g := e - i
  let at' := fun k => BitVec.ofNat 32 (d (g + k % 32))
  (mix32 (seed ^^^ (at' (i + 31) <<< 16) ^^^ at' (i + 1) ^^^ BitVec.ofNat 32 i)).toNat

/-! FP32 arithmetic rounded to the nearest, as R78 and the engines write it. -/
namespace F32

def num (a : W32) : Num := Fmt.f32.decode a.toNat
def ofNum (x : Num) : W32 := BitVec.ofNat 32 (Fmt.f32.rn x)
def add (a b : W32) : W32 := ofNum ((num a).add false (num b))
def neg (a : W32) : W32 := a ^^^ 0x80000000#32
def sub (a b : W32) : W32 := add a (neg b)
def mul (a b : W32) : W32 := ofNum ((num a).mul (num b))
def div (a b : W32) : W32 := ofNum ((num a).div (num b))
def fma (a b c : W32) : W32 := ofNum (((num a).mul (num b)).add false (num c))
def sqrt (a : W32) : W32 := ofNum (num a).sqrt
def lt (a b : W32) : Bool := (num a).lt (num b)
def le (a b : W32) : Bool := (num a).le (num b)
def isNan (a : W32) : Bool := (num a).isNan
def one : W32 := 0x3F800000
def qnan : W32 := 0x7FC00000
def maxFin : W32 := 0x7F7FFFFF
def inf : W32 := 0x7F800000
/-- The nearest BF16 value, as 16 bits (R92); one that BF16 holds is kept bit for bit. -/
def toBf (a : W32) : Nat := if a.toNat % 2 ^ 16 = 0 then a.toNat / 2 ^ 16 else Fmt.bf16.rn (num a)
/-- A value rounded RN to BF16, a NaN to the canonical one (R96, log 17). -/
def rnBf (a : W32) : Nat := Fmt.bf16.rn (num a)
/-- A BF16 value widened. -/
def ofBf (x : Nat) : W32 := BitVec.ofNat 32 (x % 2 ^ 16) <<< 16
/-- Greater magnitude-ordered maximum of two non-NaN values; the first on ties. -/
def max (a b : W32) : W32 := if lt a b then b else a
def min (a b : W32) : W32 := if lt b a then b else a

end F32

/-! The special functions (R284): enclosures at growing precision, rounded when both ends agree (log 10). -/
namespace Special

/-- Sum of the alternating or plain series `Σ ±t_k/(2k+1)`, `t_{k+1} = t_k·num/den`. -/
def oddSeries (den : Nat) (alt : Bool) : Nat → Nat → Nat → Int → Int
  | 0, _, _, a => a
  | n + 1, k, t, a =>
    let v : Int := (t / (2 * k + 1) : Nat)
    oddSeries den alt n (k + 1) (t / den) (if alt && k % 2 == 1 then a - v else a + v)

/-- π·2^p, with an error below 2^16. -/
def pi (p : Nat) : Nat :=
  (16 * oddSeries 25 true (p / 4 + 4) 0 (2 ^ p / 5) 0 - 4 * oddSeries 57121 true (p / 15 + 4) 0 (2 ^ p / 239) 0).toNat

/-- ln 2·2^p, with an error below 2^16. -/
def ln2 (p : Nat) : Nat := (2 * oddSeries 9 false (p / 3 + 4) 0 (2 ^ p / 3) 0).toNat

/-- Taylor terms `y^k/k!` summed with a sign pattern; `sg k` is the sign of term k, or 0. -/
def taylor (p y : Nat) (sg : Nat → Int) : Nat → Nat → Nat → Int → Int
  | 0, _, _, a => a
  | n + 1, k, t, a => taylor p y sg n (k + 1) (t * y / 2 ^ p / (k + 1)) (a + sg k * t)

/-- An enclosure: the value lies between `lo·2^-p` and `hi·2^-p`. -/
structure Box where
  lo : Int
  hi : Int
  p  : Nat

def box (v : Int) (p : Nat) : Box := ⟨v - 2 ^ 24, v + 2 ^ 24, p⟩

/-- Exact dyadic of a signed integer at scale 2^-p. -/
def dyad (v : Int) (p : Nat) : Num := .fin (v < 0) v.natAbs (-(p : Int)) false

/-- Fixed-point value of a finite magnitude at scale 2^-p, rounded down. -/
def fix (m : Nat) (e : Int) (p : Nat) : Nat :=
  let s := e + p
  if 0 ≤ s then m <<< s.toNat else m >>> (-s).toNat

/-- sin or cos of `m·2^e` (R285, R346). -/
def trig (isCos : Bool) (neg : Bool) (m : Nat) (e : Int) (p : Nat) : Box :=
  let w := p + 160
  let x := fix m e w
  let h := pi w / 2
  let k := x / h
  let y := (x % h) >>> 160
  let quad := (k + if isCos then 1 else 0) % 4
  let terms := p / 3 + 10
  let s := taylor p y (fun k => if k % 4 == 1 then 1 else if k % 4 == 3 then -1 else 0) terms 0 (2 ^ p) 0
  let c := taylor p y (fun k => if k % 4 == 0 then 1 else if k % 4 == 2 then -1 else 0) terms 0 (2 ^ p) 0
  let v := match quad with | 0 => s | 1 => c | 2 => -s | _ => -c
  box (if neg && !isCos then -v else v) p

/-- 2^x for `x = ±m·2^e`, scaled by `2^-i` with `i = ⌊x⌋` (R302): the enclosure of 2^(x-i), and i. -/
def exp2 (neg : Bool) (m : Nat) (e : Int) (p : Nat) : Box × Int :=
  let x : Int := let v : Int := fix m e p; if neg then -v else v
  let i := x / 2 ^ p
  let f := (x % 2 ^ p).toNat
  let y := f * ln2 p / 2 ^ p
  (box (taylor p y (fun _ => 1) (p / 3 + 10) 0 (2 ^ p) 0) p, i)

/-- log2 of `m·2^e` (R312). -/
def log2 (m : Nat) (e : Int) (p : Nat) : Box :=
  let l := Nat.log2 m
  let f := (m <<< p) >>> l
  let z := ((f - 2 ^ p) <<< p) / (f + 2 ^ p)
  let z2 := z * z / 2 ^ p
  let rec go : Nat → Nat → Nat → Nat → Nat
    | 0, _, _, a => a
    | n + 1, k, t, a => go n (k + 1) (t * z2 / 2 ^ p) (a + t / (2 * k + 1))
  let ln := 2 * go (p / 3 + 10) 0 z 0
  box ((e + l) * 2 ^ p + ((ln <<< p) / ln2 p : Nat)) p

/-- Round an enclosure when both ends agree; its upper end after the last precision (log 10). -/
def settle (t : Fmt) (shift : Int) (f : Nat → Box) : List Nat → Nat
  | [] => 0
  | p :: ps =>
    let b := f p
    let at' := fun (v : Int) => match dyad v b.p with
      | .fin n m e s => t.rn (.fin n m (e + shift) s)
      | x => t.rn x
    if at' b.lo == at' b.hi || ps.isEmpty then at' b.hi else settle t shift f ps

/-- Precisions tried. -/
def steps : List Nat := [192, 768]

/-- The sine, rounded to the nearest (R346). -/
def sin (t : Fmt) : Num → Nat
  | .fin n m e _ => if m == 0 then t.signed n 0 else settle t 0 (trig false n m e) steps
  | _ => t.qnan

/-- The cosine (R285). -/
def cos (t : Fmt) : Num → Nat
  | .fin n m e _ => if m == 0 then t.rn (.ofNat 1) else settle t 0 (trig true n m e) steps
  | _ => t.qnan

/-- 2^x (R302). -/
def ex2 (t : Fmt) : Num → Nat
  | .nan => t.qnan
  | .inf n => if n then 0 else t.infMag
  | .fin n m e _ =>
    if m == 0 then t.rn (.ofNat 1)
    else if (Nat.log2 m : Int) + e ≥ 10 then (if n then 0 else t.infMag)
    else
      let i := (exp2 n m e 192).2
      if e ≥ 0 || m % 2 ^ (-e).toNat == 0 then t.rn (.fin false 1 i false)
      else settle t i (fun p => (exp2 n m e p).1) steps

/-- The base-2 logarithm (R312). -/
def lg2 (t : Fmt) : Num → Nat
  | .nan => t.qnan
  | .inf n => if n then t.qnan else t.infMag
  | .fin n m e _ =>
    if m == 0 then t.signed true t.infMag
    else if n then t.qnan
    else if m == 2 ^ Nat.log2 m then t.rn (.ofInt (e + Nat.log2 m))
    else settle t 0 (log2 m e) steps

end Special

end Sys2Proof
end

