-- ==== Sys2Proof/Machine/Value.lean ====
section
/-! DEFINITION. Tagged values of up to 64 bits with their tangents, element access (R95, R100), literals (R48),
element conversion (R108, R288) and the tangent formulas' plumbing (R75, R78). -/

namespace Sys2Proof

/-- A value as an operand-file entry holds it (R50): bits, format tag and tangent words, trailing zeros dropped. -/
structure Val where
  bits : W64
  tag  : Tag
  tan  : List W32
  deriving DecidableEq, Repr

/-- Drop trailing +0 words, so that equal shadows are equal lists. -/
def trimTan (ts : List W32) : List W32 := (ts.reverse.dropWhile (· == 0)).reverse

/-- Formats whose registers carry tangents, by tag (R75). -/
def Tag.hasTan (t : Tag) : Bool := t == Ty.f32.tag || t == Ty.f64.tag || t == Ty.f16.tag || t == Ty.bf16.tag

/-- A value of a tag; a tag that carries no tangents clears them (R75). -/
def Val.of (bits : Nat) (tag : Tag) (tan : List W32 := []) : Val :=
  ⟨BitVec.ofNat 64 bits, tag, if tag.hasTan then trimTan tan else []⟩

/-- A value of a type, without tangents. -/
def Val.ofTy (t : Ty) (bits : Nat) : Val := Val.of bits t.tag

/-- Component word k of a shadow. -/
def Val.word (v : Val) (k : Nat) : W32 := v.tan.getD k 0

/-- The low `n` fields of `w` bits of a number, lowest first. -/
def splitBits (w n x : Nat) : List Nat := (List.range n).map fun j => (x >>> (j * w)) % 2 ^ w

/-- The elements of a register of a type, in order (R95, R100). -/
def Ty.elems (t : Ty) (bits : Nat) : List Nat := splitBits t.elemBits t.perReg bits

/-- Join elements into a register. -/
def joinBits (w : Nat) : List Nat → Nat
  | [] => 0
  | x :: xs => x % 2 ^ w + joinBits w xs * 2 ^ w

/-- The integer an element holds. -/
def Ty.intOf (t : Ty) (x : Nat) : Int :=
  if t.isSigned && x.testBit (t.elemBits - 1) then (x : Int) - 2 ^ t.elemBits else x

/-- The least and greatest integers of an element. -/
def Ty.lo (t : Ty) : Int := if t.isSigned then -(2 ^ (t.elemBits - 1) : Nat) else 0
def Ty.hi (t : Ty) : Int := (2 ^ (if t.isSigned then t.elemBits - 1 else t.elemBits) : Nat) - 1

/-- An integer wrapped into an element. -/
def Ty.wrap (t : Ty) (i : Int) : Nat := (i % (2 ^ t.elemBits : Nat)).toNat

/-- An integer clamped to an element's range. -/
def Ty.clamp (t : Ty) (i : Int) : Int := if i < t.lo then t.lo else if t.hi < i then t.hi else i

/-- Decode a floating element; `ftz` reads `f16` and `bf16` subnormals as zero of their sign (R97). -/
def Ty.num (t : Ty) (ftz : Bool) (x : Nat) : Num :=
  match t.fmt? with
  | some fm =>
    let x' := if ftz && (t == .f16 || t == .bf16) && (x % 2 ^ fm.signBit) >>> fm.f == 0
      then (if x.testBit fm.signBit then 2 ^ fm.signBit else 0) else x
    fm.decode x'
  | none => .ofInt (t.intOf x)

/-- A literal's element in a type (R48). -/
def Lit.elem (l : Lit) (t : Ty) (lane : Nat) : Nat :=
  match t.fmt? with
  | some fm => match l with
    | .one => fm.rn (.ofNat 1) | .two => fm.rn (.ofNat 2) | .half => fm.rn (.fin false 1 (-1) false)
    | .mone => fm.rn (.ofInt (-1)) | .pinf => fm.rn (.inf false) | .ninf => fm.rn (.inf true)
    | .qnan => fm.qnan | .lane => fm.rn (.ofNat lane) | .allones => 2 ^ t.elemBits - 1
  | none => match l with
    | .one => 1 | .two => 2 | .mone | .allones => 2 ^ t.elemBits - 1
    | .pinf => t.wrap t.hi | .ninf => t.wrap t.lo | .lane => lane | .half | .qnan => 0

/-- A literal's register in a type (R48). -/
def Lit.bits (l : Lit) (t : Ty) (lane : Nat) : Nat :=
  joinBits t.elemBits (List.replicate t.perReg (l.elem t lane))

/-- A converted element: its bits; whether a clamp clears tangents (R80); whether CNVSAT is set (R70). -/
structure Conv where
  bits  : Nat
  clamp : Bool
  cnv   : Bool
  deriving DecidableEq, Repr

/-- An exact value rounded to an element of an integer type (R108). -/
def Ty.ofNum (t : Ty) (rm r : Nat) (x : Num) : Conv :=
  match x with
  | .nan => ⟨0, true, true⟩
  | .inf n => ⟨t.wrap (if n then t.lo else t.hi), true, true⟩
  | .fin .. =>
    let i := x.toInt rm r
    ⟨t.wrap (t.clamp i), t.clamp i != i, t.clamp i != i⟩

/-- Convert one element (R288), from `st` to `dt`, neither `b32` nor `i4o`. -/
def cvtElem (st dt : Ty) (ftz : Bool) (rm : Nat) (sat : Bool) (r : Nat) (x : Nat) : Conv :=
  match dt.fmt? with
  | some fm =>
    let y := fm.round rm sat r (st.num ftz x)
    ⟨y.bits, y.clamp, y.clamp⟩
  | none =>
    if st.isFloat then dt.ofNum rm r (st.num ftz x)
    else
      let i := st.intOf x
      if sat then ⟨dt.wrap (dt.clamp i), false, dt.clamp i != i⟩ else ⟨dt.wrap i, false, false⟩

/-- d of R107 for one element of a conversion. -/
def cvtD (st dt : Ty) (ftz : Bool) (x : Nat) : Nat :=
  match dt.fmt? with
  | some fm => fm.dOf (st.num ftz x)
  | none => if st.isFloat then (st.num ftz x).dInt else 0

/-- Component k of element j of a shadow of format `t`, as FP32 (R75). -/
def Val.tanEl (t : Ty) (v : Val) (k j : Nat) : W32 :=
  if !t.hasTan then 0
  else if t.perReg == 2 then F32.ofBf (((v.word k).toNat >>> (16 * j)) % 2 ^ 16)
  else v.word k

/-- A shadow of format `t` from its elements' components, k < K (R73, R75). -/
def tanOf (t : Ty) (K : Nat) (f : Nat → Nat → W32) : List W32 :=
  if !t.hasTan then []
  else trimTan ((List.range K).map fun k =>
    if t.perReg == 2 then BitVec.ofNat 32 (F32.toBf (f k 0) + F32.toBf (f k 1) * 2 ^ 16)
    else f k 0)

/-- A component of format `st` as `dt` takes it: rounded where `st` holds FP32 and `dt` BF16 (R78, R85, R353). -/
def tanConv (st dt : Ty) (x : W32) : W32 := if dt.perReg == 2 && st.perReg != 2 then F32.ofBf (F32.rnBf x) else x

/-- An element as the FP32 primal of R78. -/
def Ty.primal (t : Ty) (ftz : Bool) (x : Nat) : W32 := F32.ofNum (t.num ftz x)

/-- Convert a whole value on read (R56): element j from element j, RN, no SAT; tangents as `cvt` (R82). -/
def Val.convert (v : Val) (st dt : Ty) (ftz : Bool) (K : Nat) : Val × Bool :=
  let cs := (st.elems v.bits.toNat).map (cvtElem st dt ftz 0 false 0)
  let tan := tanOf dt K fun k j => if (cs.getD j ⟨0, false, false⟩).clamp || !dt.isFloat || !st.isFloat then 0 else v.tanEl st k j
  (Val.of (joinBits dt.elemBits (cs.map (·.bits))) dt.tag tan, cs.any (·.cnv))

/-- The bits of a value that an operand of a type has: the low 32 for one register (log 17). -/
def Val.cut (v : Val) (t : Ty) (tan : List W32) : Val := ⟨if t.wide then v.bits else v.bits &&& 0xFFFFFFFF, v.tag, tan⟩

/-- Read a value as a type under R56: none where it is refused; else the value and whether CNVSAT is set. -/
def Val.readAs (v : Val) (t : Ty) (strict ftz : Bool) (K : Nat) : Option (Val × Bool) :=
  if v.tag == t.tag then some (v.cut t v.tan, false)
  else if v.tag == Tag.rsv || v.tag == Tag.dis then none
  else if v.tag == Tag.ptr then
    if t == .s64 || t == .n64 || t == .b32 then some (v.cut t [], false) else none
  else match v.tag.ty? with
  | none => some (v.cut t [], false)
  | some st =>
    if st == .b32 || t == .b32 then some (v.cut t [], false)
    else if st == .i4o || t == .i4o then none
    else if st.perReg != t.perReg || st.wide != t.wide then none
    else if strict then none
    else some (v.convert st t ftz K)

/-- Read a value as PTR under R56. -/
def Val.readPtr (v : Val) : Bool :=
  v.tag == Tag.ptr || v.tag == Ty.s64.tag || v.tag == Ty.n64.tag || v.tag == Ty.b32.tag || v.tag == Tag.none ||
    !(v.tag == Tag.rsv || v.tag == Tag.dis || v.tag.toNat < 16)

end Sys2Proof
end

