-- ==== Sys2Proof/Machine/State.lean ====
section
/-! DEFINITION. All state the spec gives the machine, as plain data, the reasons a step can stop, and the state
after reset. INVENTORY.md lists each field with its rule; a field marked "model" is the model's own. -/

namespace Sys2Proof.Machine

/-- A main register of one lane (R55, R57, R63); the default is R55's start value. -/
structure Reg where
  bits : W32 := 0
  tag  : Tag := Tag.none
  full : Bool := true
  tan  : List W32 := []
  deriving DecidableEq, Repr

/-- A uniform register (R52). -/
structure UReg where
  bits : W32 := 0
  tag  : Tag := Tag.none
  deriving DecidableEq, Repr

/-- A block: its span and its position in the span. -/
structure BlkId where
  span : Nat
  pos  : Nat
  deriving DecidableEq, Repr

/-- Why a live lane is blocked (R22). -/
inductive Wait where
  | none
  /-- In `bar` on the object at `off` of a block's scratchpad, with its ticket and D. -/
  | bar (blk : BlkId) (off : Nat) (ticket : W32) (d : Name)
  /-- In `barwait`, with the ticket awaited and D. -/
  | barwait (blk : BlkId) (off : Nat) (ticket : W32) (d : Name)
  /-- Until the registers are full: named results of a seal, `fwait`, `splwait`, `collwait`. -/
  | regs (rs : List Nat)
  /-- At a seal with W, until no register is empty. -/
  | allRegs
  | mwait (d : Name)
  /-- In `bar` or `barwait`, its status already known: released at the seal (R274). -/
  | known (d : Name) (status : W32)
  /-- Released and not yet woken; `phase` numbers the release (R38, R256). -/
  | wake (phase : Nat)
  deriving DecidableEq, Repr

/-- Model: up to which step the accesses of strands precede a point (R38, R177, log 13). -/
abbrev Clock := List ((WavId × Nat) × Nat)

/-- Model: what the arrivals at a barrier object had seen (R38, R177, log 13): those of the phase, those held for the
next, and those of the phases that completed. -/
structure Sync where
  arr  : Clock := []
  held : Clock := []
  rel  : Clock := []
  deriving DecidableEq, Repr

/-- One strand (R15, R21, R47, R50, R53, R280). -/
structure Strand where
  pc      : W64 := 0
  live    : Bool := false
  wait    : Wait := .none
  /-- Main registers that differ from the start value. -/
  regs    : List (Nat × Reg) := []
  /-- Valid operand-file entries. -/
  o       : List (Nat × Val) := []
  /-- Last results, newest first; none is an invalid entry. -/
  q       : List (Option Val) := []
  preds   : BitVec 7 := 0
  stack   : List W64 := []
  lineage : BitVec 4 := 0
  status  : W32 := 0
  faddr   : W64 := 0
  /-- Private bytes written (R66). -/
  priv    : List Host.Cell := []
  /-- Private tangent plane words, key `i·2^32 + offset` (R67). -/
  planes  : List (Nat × W32) := []
  /-- Private pages that are not mapped, each as its first offset and its size (R66). -/
  absent  : List (Nat × Nat) := []
  /-- Model: the step of the strand's last `mfence` (R177, log 13). -/
  fence   : Nat := 0
  /-- Model: up to which step the writes of other strands of the block precede this one, by barrier releases (R177). -/
  seen    : Clock := []
  /-- Model: what its wavelet had seen at the strand's last `mfence` (R177, R170). -/
  fenced  : Clock := []
  /-- Model: overwritten register values: register, the step of the write over it (none for an engine's fill that nothing has
  found yet), bits (R177, log 13). -/
  past    : List (Nat × Option Nat × W32) := []
  /-- Model: registers that an engine filled and that nothing has found full since, with what precedes the strand's later
  accesses once something does (R174, R177, log 13). -/
  arrived : List (Nat × Clock) := []
  deriving DecidableEq, Repr

/-- The effect that the following seal applies (R25). -/
inductive Deferred where
  /-- New PCs of the lanes that take the transfer. -/
  | goto (ts : List (Nat × W64))
  | exit (lanes : Mask)
  | wait (ws : List (Nat × Wait))
  /-- Return from the handler. -/
  | retX (skip : Bool)
  deriving DecidableEq, Repr

/-- A run being issued (R23, R24). -/
structure Run where
  start    : W64
  /-- Instructions issued in the run. -/
  count    : Nat
  lanes    : Mask
  /-- Whether the last instruction was a control or waiting instruction (R25). -/
  mustSeal : Bool := false
  deferred : Option Deferred := none
  deriving DecidableEq, Repr

/-- What the trap context keeps of the interrupted run (R26, R168). -/
structure Handler where
  /-- Lanes of the trapping bundle. -/
  lanes  : Mask
  run    : Run
  o      : List (Nat × List (Nat × Val))
  q      : List (Nat × List (Option Val))
  /-- Lanes of a memory instruction that `ret.x` replays, and lanes held back by R360. -/
  marked : Option Mask
  held   : Mask
  /-- The empty destinations of the lanes left to be performed; `ret.x.skip` abandons those of the marked ones (R311). -/
  abandon : List (Nat × List Nat)
  deriving DecidableEq, Repr

/-- Why the bundle does not issue its next instruction. -/
inductive Stall where
  | none
  /-- A source is empty under policy 0 (R58). -/
  | empty
  /-- Faulted lanes are at Pewter (R151); `whole`: the instruction is then executed again in every lane (R246). -/
  | fault (whole : Bool)
  /-- The instruction word cannot be fetched (R252). -/
  | fetch
  /-- The unit of the instruction word fails its check and its refetch is awaited (R13, R165). -/
  | check
  /-- `mclaim` waits for slots (R197). -/
  | claim
  /-- `sysc` VERSION, or PAGEIN, waits for Pewter's answer (R352). -/
  | sysc (version : Bool) (f : Fields)
  deriving DecidableEq, Repr

/-- One wavelet (R15, R52, R68). -/
structure Wavelet where
  width   : Nat
  lanes   : List Strand
  w       : List (Nat × UReg) := []
  seed    : W32 := 0
  mode    : BitVec 3 := 0
  alpha   : W32 := 0x3F800000
  req     : BitVec 2 := 0
  cause   : Nat := 0
  epc     : W64 := 0
  fmask   : Mask := 0
  handler : Option Handler := none
  run     : Option Run := none
  /-- Pending yield pass: the start and the bundle of the run that yielded (R28). -/
  pass    : Option (W64 × Mask) := none
  stall   : Stall := .none
  /-- Lanes of the current instruction still to be performed, when it is replayed (R151, R181). -/
  replay  : Option Mask := none
  /-- Page faults at Pewter, lane and address (R151). -/
  faults  : List (Nat × W64) := []
  /-- Check-value failures, lane and address (R165). -/
  integ   : List (Nat × W64) := []
  /-- Units that failed in a lane of the current instruction and whose refetch has been tried (R165). -/
  tried   : List UnitKey := []
  /-- The refetch of the unit of the instruction word has been tried (R13, R165). -/
  retried : Bool := false
  /-- Lanes whose unit no refetch mended; they trap once the other lanes are performed (R165, R360). -/
  failing : List (Nat × W64) := []
  /-- Registers the faulted instruction marked empty, by lane (R311). -/
  marks   : List (Nat × List Nat) := []
  /-- Slots granted to the stalled `mclaim` (R318). -/
  granted : Option Nat := none
  slice   : Nat := 0
  age     : Nat := 0
  /-- Model: steps for which the wavelet has been ready without issuing (R40, R250, log 2). -/
  waited  : Nat := 0
  /-- The wavelet stopped at a seal for pre-emption or suspension (R43, R253). -/
  stopped : Bool := false
  /-- Check values of units of private memory that differ from the computed ones, by plane and unit (R66, R164). -/
  checks  : List ((Nat × Nat) × W32) := []
  /-- Model: what precedes the later accesses of a lane that a release of `mwait` lets go (R174, R177, log 13). -/
  mseen   : Clock := []
  deriving DecidableEq, Repr

/-- The contents of a filled operand-memory slot (R197): format, role (0 A, 1 B), sparsity code, the elements row by
row (none where a sparse tile holds no value; an `i4o` element as the E4M3 code of its unscaled value, R101) and, for a
tile with block scales, the scale of each element (none where its page has no scale plane, R324). -/
structure Tile where
  ty     : Ty
  role   : Nat
  sp     : Nat
  rows   : Nat
  cols   : Nat
  elems  : List (Option Nat)
  scales : List (Option Nat)
  deriving DecidableEq, Repr

/-- One block (R15). -/
structure Block where
  task    : Nat
  /-- sys.block. -/
  idx     : Nat
  /-- sys.cluster (R45). -/
  home    : Nat
  /-- The cluster that holds it now. -/
  at'     : Nat
  width   : Nat
  /-- Scratchpad bytes that are not 0 (R239). -/
  scratch : List Host.Cell := []
  /-- Model: units that `barinit` made barrier objects; a store leaves their WT bit alone (R37, log 20). -/
  objs    : List Nat := []
  /-- Slots held, each with its fill if any (R197). -/
  slots   : List (Nat × Option Tile) := []
  /-- Released slots that an issued command still uses (R197). -/
  freeing : List (Nat × Option Tile) := []
  /-- cp.wptr0-3 (R179). -/
  wptr    : List W64 := [0, 0, 0, 0]
  /-- Bytes submitted on each channel (R195). -/
  sent    : List W64 := [0, 0, 0, 0]
  /-- amax0-3 (R204). -/
  amax    : List W32 := [0, 0, 0, 0]
  /-- Matrix failure since the last report: cause and count (R205). -/
  fail    : Option (Nat × Nat) := none
  /-- Model: overwritten scratchpad units: unit address, step, bytes (R177, log 13). -/
  past    : List (Nat × Nat × BitVec 128) := []
  /-- Model: what the arrivals at the barrier object of each unit had seen (R38, R177). -/
  sync    : List (Nat × Sync) := []
  /-- Model: what a read of each channel's write pointer shows of the records' submitters (R174, R179). -/
  wsync   : List Clock := [[], [], [], []]
  ended   : Bool := false
  /-- Scratchpad and slots still held after the end (R42). -/
  held    : Bool := true
  deriving DecidableEq, Repr

inductive SpanStage where
  | running | stopping | saved
  deriving DecidableEq, Repr

/-- The last arrival of a block at a barrier object in a phase (R258): the block and the unit that hold the object, the phase, the
block that arrived, its cluster and that cluster's clock then; whether an arrival of the block there came through the span window
(R30). -/
structure SpanArrival where
  pos   : Nat
  unit  : Nat
  phase : Nat
  blk   : Nat
  at'   : Nat
  clock : Nat
  span  : Bool
  deriving DecidableEq, Repr

/-- One span (R15, R249). -/
structure Span where
  task   : Nat
  ctx    : Nat
  blocks : Nat
  stage  : SpanStage := .running
  /-- Gaps of the last 8 phases, one list per phase (R258). -/
  gaps   : List (List Nat) := []
  /-- The blocks' last arrivals in the phases that are not complete (R258). -/
  last   : List SpanArrival := []
  /-- Clock that the ranking gives the cluster of each block, in units of 10 MHz (R258). -/
  clocks : List Nat := []
  deriving DecidableEq, Repr

/-- Where a task stands (R244, R247-R249): in its queue, chosen by the arbiter, held or released by the region dependence
unit, complete. -/
inductive Stage where
  | queued | selected | held | released | done
  deriving DecidableEq, Repr

/-- The trap context Pewter keeps of an ended grid: `addrs` are the addresses of the marked lanes, `faddr` that of the
lowest (R253, R263). -/
structure Kept where
  cause : Nat
  epc   : W64
  fmask : Mask
  faddr : W64
  addrs : List (Nat × W64) := []
  deriving DecidableEq, Repr

/-- The entry of a kernel, the same wherever its code object is loaded (R19): the object's place in `State.objects`, the section
that the entry lies in, and its offset there; its address where it lies in no section of the object. -/
structure Origin where
  obj : Nat := 0
  sec : Option Nat := none
  off : Nat := 0
  deriving DecidableEq, Repr

/-- A task (R242-R246). `hdr` is the record's header, `regions` its declared regions. -/
structure Task where
  ctx     : Nat
  qid     : Nat
  hdr     : BitVec 512
  regions : List (BitVec 256)
  kern    : BitVec 256
  origin  : Origin := {}
  grid    : Nat
  stage   : Stage := .queued
  /-- Order of entry into the region dependence unit (R248). -/
  entry   : Nat := 0
  next    : Nat := 0
  ended   : Nat := 0
  cause   : Nat := 0
  kept    : Option Kept := none
  deriving DecidableEq, Repr

structure Queue where
  qid  : Nat
  prio : Nat
  cap  : Nat
  deriving DecidableEq, Repr

/-- A nx_signal_wait in progress (R242). -/
structure SigWait where
  sig     : W64
  count   : Nat
  timeout : Nat
  deriving DecidableEq, Repr

/-- A job: one context (R15). -/
structure Job where
  vf       : Nat := 0
  weight   : Nat := 1
  deficit  : Nat := 0
  debug    : Bool := false
  boost    : Bool := false
  /-- Leaf descriptors by virtual base (R149). -/
  pages    : List (Nat × BitVec 128) := []
  queues   : List Queue := []
  /-- Loaded kernel records by address (R134), and the entry of each in its code object (R19). -/
  kernels  : List (Nat × BitVec 256) := []
  origins  : List (Nat × Origin) := []
  accepted : Nat := 0
  /-- Addresses of the symbols that loaded objects export, each with whether its binding is weak (R136). -/
  exports  : List (List Byte × W64 × Bool) := []
  /-- Result of the last Pewter call (R242). -/
  a0       : Int := 0
  waits    : List SigWait := []
  /-- Queues whose nx_queue_destroy has not returned yet (R242). -/
  closing  : List Nat := []
  /-- Control-program memory that Pewter's calls wrote. -/
  ctl      : List Host.Cell := []
  deriving DecidableEq, Repr

/-- A register to be filled. -/
structure Fill where
  lane : Nat
  reg  : Nat
  val  : Reg
  deriving DecidableEq, Repr

/-- A bulk copy record in flight (R192-R196). -/
structure Copy where
  desc    : BitVec 512
  bar     : BlkId
  off     : Nat
  /-- Its bytes still count in CNT. -/
  charged : Bool
  /-- F16FTZ of the submitting wavelet at the submission (R97, log 19). -/
  ftz     : Bool := false
  /-- The object was invalidated under it (R36). -/
  inval   : Bool := false
  /-- Events that have moved a part of it. -/
  row     : Nat := 0
  /-- Bytes taken off so far. -/
  taken   : Nat := 0
  written : Nat := 0
  /-- Model: what the submitting strand had seen and done (R173, R177). -/
  seen    : Clock := []
  deriving DecidableEq, Repr

/-- A matrix command (R178). -/
inductive Matrix where
  | mld (slot role n : Nat) (ty : Ty) (trans : Bool) (addr : W64) (pitch lane : Nat)
  | mconst (slot role kind : Nat) (ty : Ty) (b : Int)
  | mma (dual : Bool) (par : BitVec 512)
  deriving DecidableEq, Repr

/-- The fence that a matrix command was submitted behind (R177): the submitting wavelet, the step of the strand's last
`mfence` (0 for none) and what its wavelet had seen then of other strands; and what had gone before the submission
(R173). Model (log 13). -/
structure Fence where
  wid  : WavId
  step : Nat := 0
  seen : Clock := []
  sub  : Clock := []
  deriving DecidableEq, Repr

/-- One lane's texture read: coordinates with tangents, descriptor address, tile (R208, R209). -/
structure TexLane where
  lane : Nat
  u    : Val
  v    : Val
  desc : W64
  tile : W32
  deriving DecidableEq, Repr

/-- Work issued and not complete (R57, R254). -/
inductive Work where
  | load (fills : List Fill)
  | atomic (fills : List Fill)
  | cpl (lane : Nat) (src dst : W64) (n : Nat) (d : Name)
  | bulk (c : Copy)
  | matrix (m : Matrix) (fence : Fence) (cancelled : Bool)
  | tex (fills : List Fill)
  | splat (lane : Nat) (desc : W64) (alpha : W32) (d : Name)
  | coll (lane : Nat) (desc : W64) (d : Name)
  deriving DecidableEq, Repr

/-- An outstanding operation, the wavelet that issued it and (model) the step in which it did. -/
structure Op where
  id   : Nat
  wid  : WavId
  work : Work
  step : Nat := 0
  deriving DecidableEq, Repr

/-- State of one cluster. -/
structure Cluster where
  /-- The cluster's count of its clocks as last sampled, of which sys.cyc shows 64 bits (R260, log 8). -/
  cyc     : Nat := 0
  /-- Model: the step of that sample; the count is sampled once in a step (log 8). -/
  sampled : Option Nat := none
  /-- Logical clock, and leased lines and sectors (R157, R171). -/
  lclock  : Nat := 0
  leases  : List LlcKey := []
  /-- Lines of the L1, most recently used first, and tags of evicted lines, newest first (R154, R250). -/
  l1      : List LlcKey := []
  victims : List LlcKey := []
  /-- Misses of the current window whose tag stands in the victim tag array (R250). -/
  lost    : Nat := 0
  /-- Lost-locality score and memory-issue limit (R250). -/
  score   : Nat := 0
  limit   : Option Nat := none
  /-- Cycles of stretch and of halved issue left (R259). -/
  stretch : Nat := 0
  halve   : Nat := 0
  /-- Clock in units of 10 MHz (R258). -/
  clock   : Nat := 130
  /-- EFF of each slice, and the slices that are gated (R257). -/
  eff     : List (BitVec 2) := [0, 0, 0, 0, 0, 0]
  gated   : List Nat := []
  deriving DecidableEq, Repr

/-- A line or sector of the last-level cache: eviction mark, its owner, the context that dirtied it, and the orientation
of a sector: whether a column-axis access filled it (R158, R161, R162). -/
structure Line where
  mark   : Nat := 0
  owner  : Option (Nat × WavId) := none
  dirty  : Option Nat := none
  column : Bool := false
  /-- In line mode: whether it compresses to half its size (R160). -/
  half   : Bool := false
  deriving DecidableEq, Repr

/-- Boot sources (R10). -/
inductive Source where
  | port | fabric
  deriving DecidableEq, Repr

/-- Reasons a boot attempt failed (R10). -/
inductive BootFail where
  | signature | version | form | noOffer | noAnswer | broken
  /-- No storage target in the one-time-programmable configuration. -/
  | noTarget
  deriving DecidableEq, Repr

/-- What Pewter or the ROM reports. -/
inductive Report where
  | boot (src : Source) (why : Option BootFail)
  | hostDown
  | corrected (store : Nat)
  /-- Bytes that fail their check, at a physical address, did not leave the device (R165). -/
  | exitStopped (via : Exit) (addr : Nat)
  /-- Bytes that fail their check, at a physical address, were not used by Pewter or merged into (R13, R166). -/
  | notPassed (addr : Nat)
  /-- The package's identity certificate, for the host or management software that asked for it (R10). -/
  | certificate (bytes : List Byte)
  | fault (w : WavId)
  /-- Virtual addresses of a context that the texture unit asks Pewter to page in (R209). -/
  | pageIn (ctx : Nat) (vas : List Nat)
  deriving DecidableEq, Repr

/-- The boot ROM (R10). -/
structure Boot where
  /-- Compute dies held in reset. -/
  held    : Bool := true
  src     : Source := .port
  /-- Sources that failed in this round. -/
  failed  : List Source := []
  waiting : Bool := false
  /-- Seconds of the last wait between rounds. -/
  wait    : Nat := 0
  /-- Version of the image taken, and the image in its protected region. -/
  image   : Option (Nat × List Byte) := none
  deriving DecidableEq, Repr

/-- One-time-programmable configuration (R10). -/
structure Otp where
  isModule : Bool := true
  minVer   : Nat := 0
  fabric   : Bool := true
  /-- The package's identity certificate, which Pewter presents on request. -/
  cert     : List Byte := []
  deriving DecidableEq, Repr

/-- The host link (R6) and the CXL root port (R7): PCIe generation, width, CXL version (0 for none). -/
structure Link where
  up    : Bool := false
  gen   : Nat := 0
  width : Nat := 0
  cxl   : Nat := 0
  deriving DecidableEq, Repr

/-- Whether back-invalidate snoops, multi-headed sharing and fabric-attached routing are there: CXL 3.x only (R6, R7). -/
def Link.full3 (l : Link) : Bool := l.up && 3 ≤ l.cxl

/-- The second tier (R4, R7, R163): its bytes, and whether it may be shared with another host. -/
structure Tier where
  bytes  : Nat := 0
  shared : Bool := false
  deriving DecidableEq, Repr

/-- Idle states (R261). -/
inductive Idle where
  | active | i0 | i1 | i2 | i3
  deriving DecidableEq, Repr

/-- A virtual function (R247). -/
structure Vf where
  id    : Nat
  slice : Nat
  grace : Nat
  /-- Time received, for nx_vf_report (R242). -/
  time  : Nat := 0
  deriving DecidableEq, Repr

/-- A rank's contribution as the engine's records keep it: the chunks it is in, and its elements (R217). -/
structure Contrib where
  rank   : Nat
  chunks : List Nat
  elems  : List W32
  deriving DecidableEq, Repr

/-- A rank that dropped out of a group (R217): the chunks that it had reached of each collective then outstanding, by the number
of its operation; and the first collective that a spare takes part in for it, by that number, once one has joined. -/
structure Gone where
  rank    : Nat
  reached : List (Nat × List Nat)
  upTo    : Option Nat := none
  deriving DecidableEq, Repr

/-- A collective group (R215, R217): size, this package's rank, the ranks that dropped out, ranks that a spare replaced, the
ranks that Pewter fenced (R14), and the contributions kept in the engine's records of each collective that waits to be
resumed, by its descriptor with RES clear. -/
structure Group where
  ctx    : Nat
  size   : Nat
  rank   : Nat
  gone   : List Gone := []
  joined : List Nat := []
  fenced : List Nat := []
  kept   : List (BitVec 512 × List Contrib) := []
  deriving DecidableEq, Repr

/-- Who moves next (log 2). -/
inductive Turn where
  | event (i : Instr)
  | run (w : WavId)
  deriving DecidableEq, Repr

structure State where
  /-- Model: steps taken; stamps accesses and numbers time samples (log 8, log 13). -/
  steps     : Nat := 0
  /-- Model: turns due next (log 2). -/
  agenda    : List Turn := []
  /-- Model: free values drawn (log 4). -/
  free      : Nat := 0
  /-- Model: the wavelet that issues (log 2). -/
  cur       : Option WavId := none
  /-- The reference count as last sampled, of which tstamp shows 64 bits (R260, log 8). -/
  now       : Nat := 0
  /-- Physical bytes that are not 0 (log 7). -/
  mem       : List Host.Cell := []
  /-- Check values that differ from the computed ones, by 64-byte unit (R164). -/
  checks    : List (Nat × BitVec 32) := []
  boot      : Boot := {}
  otp       : Otp := {}
  host      : Link := {}
  cxl       : Link := {}
  /-- The second tier: the module's LPDDR at reset, the TVD9-P's once its root port has trained (R4, R7). -/
  tier      : Tier := { bytes := Config.moduleTierBytes }
  /-- Generation of each Floeb port that negotiated (R8), and flits resent. -/
  floeb     : List (Nat × Nat) := []
  resent    : Nat := 0
  /-- pwr.slope and pwr.droop (R256, R259). -/
  slope     : Nat := 256
  droop     : Nat := 40
  idle      : Idle := .active
  /-- The exit from an idle state has started (R261). -/
  exiting   : Bool := false
  ltr       : Option Nat := none
  lineMode  : Bool := false
  /-- Lines and sectors of the last-level cache, most recently used first (R161). -/
  llc       : List (LlcKey × Line) := []
  charges   : List (Nat × Nat) := []
  corrected : Nat := 0
  refetched : Nat := 0
  reports   : List Report := []
  /-- Divergence history: kernel entry to F, most recently updated first (R19). -/
  div       : List (Origin × Int) := []
  /-- Model: the code objects loaded so far, each once, in the order first loaded; an `Origin` names one by its place here (R19,
  log 9). -/
  objects   : List CodeObject := []
  vfs       : List Vf := []
  /-- Virtual function whose slice it is, last queue served of each (context, priority), and last process served of each
virtual function (R247). -/
  turn      : Nat := 0
  served    : List ((Nat × Nat) × Nat) := []
  lastJob   : List (Nat × Nat) := []
  /-- Virtual functions whose slice has ended, each with the total of the times received at which its grace period ends (R247, log
  22). -/
  grace     : List (Nat × Nat) := []
  jobs      : List (Nat × Job) := []
  tasks     : List (Nat × Task) := []
  spans     : List (Nat × Span) := []
  blocks    : List (BlkId × Block) := []
  wavs      : List (WavId × Wavelet) := []
  ops       : List Op := []
  nextOp    : Nat := 0
  /-- Waiting `mclaim` requests in issue order: cluster, wavelet, count (R318). -/
  claims    : List (Nat × WavId × Nat) := []
  clusters  : List (Nat × Cluster) := []
  groups    : List (Nat × Group) := []
  deriving DecidableEq, Repr

/-- The machine right after reset (R10, R256, R259, R260): compute dies held in reset, nothing loaded. Values the
spec does not give are log 6 and log 7. -/
def State.reset : State := {}

/-- Why the machine stops with a fault. -/
inductive Fault where
  /-- A host or control-core access to a physical address where the device has no memory (R4, R7, log 26). Raised by `hostRead`
  and `controlCoreAccess`; safe. -/
  | noMemory
  deriving DecidableEq, Repr

/-- Why a step has no meaning. -/
inductive Refusal where
  /-- An arm of `exec` not yet written. Safe. -/
  | notModelled (mnemonic : String)
  /-- An instruction word is executed while no bundle issues: raised by every worded meaning; no step does it. Safe. -/
  | noBundle
  /-- A device event whose occasion has not arisen: raised by event meanings; no such event happens in the device. Safe. -/
  | notDue
  deriving DecidableEq, Repr

/-- The outcome of a step. -/
abbrev Res := Host.Outcome State Fault Refusal

end Sys2Proof.Machine
end

