-- ==== Sys2Proof/Machine/Access.lean ====
section
/-! DEFINITION. Named reads and updates of the parts of State, and the fields of the kernel record (R134) and of the
launch record (R243). -/

namespace Sys2Proof

/-- The block of a wavelet. -/
def WavId.block (w : WavId) : Machine.BlkId := ⟨w.span, w.blk⟩

end Sys2Proof

namespace Sys2Proof.Machine

/-! Kernel record (R134). -/
abbrev Kern := BitVec 256
def Kern.trap (k : Kern) : W64 := k.extractLsb' 192 64
def Kern.entry (k : Kern) : W64 := k.extractLsb' 128 64
def Kern.scratch (k : Kern) : Nat := (k.extractLsb' 96 32).toNat
def Kern.kinds (k : Kern) : W32 := k.extractLsb' 64 32
def Kern.opm (k : Kern) : Nat := (k.extractLsb' 48 8).toNat
def Kern.count (k : Kern) : Nat := (k.extractLsb' 44 4).toNat
def Kern.wid (k : Kern) : Nat := (k.extractLsb' 40 4).toNat
def Kern.tregs (k : Kern) : Nat := (k.extractLsb' 31 9).toNat
def Kern.regs (k : Kern) : Nat := (k.extractLsb' 22 9).toNat
/-- The scratchpad allocation of a block (R144). -/
def Kern.alloc (k : Kern) : Nat := (k.scratch + 255) / 256 * 256
/-- K′ of R73. -/
def Kern.stored (k : Kern) : Nat := if k.count = 0 then 0 else if k.count ≤ 2 then 2 else if k.count ≤ 4 then 4 else 8

/-! Launch record header (R243). -/
abbrev Hdr := BitVec 512
def Hdr.krec (h : Hdr) : W64 := h.extractLsb' 0 64
def Hdr.args (h : Hdr) : W64 := h.extractLsb' 64 64
def Hdr.sig (h : Hdr) : W64 := h.extractLsb' 128 64
def Hdr.nblk (h : Hdr) : Nat := (h.extractLsb' 192 32).toNat
def Hdr.bsz (h : Hdr) : Nat := (h.extractLsb' 224 16).toNat
def Hdr.span (h : Hdr) : Nat := (h.extractLsb' 240 4).toNat
def Hdr.nreg (h : Hdr) : Nat := (h.extractLsb' 244 4).toNat
def Hdr.priv (h : Hdr) : Nat := (h.extractLsb' 256 32).toNat
def Hdr.qid (h : Hdr) : Nat := (h.extractLsb' 288 16).toNat
def Hdr.pix (h : Hdr) : Bool := h.getLsbD 304
def Hdr.tx (h : Hdr) : Nat := (h.extractLsb' 312 8).toNat
def Hdr.iw (h : Hdr) : Nat := (h.extractLsb' 320 16).toNat
/-- Private tangent planes per strand (R67). -/
def Hdr.planes (h : Hdr) : Nat := match (h.extractLsb' 336 2).toNat with | 0 => 0 | 1 => 2 | 2 => 4 | _ => 8

namespace State

def wav? (s : State) (w : WavId) : Option Wavelet := Assoc.get? s.wavs w
def setWav (s : State) (w : WavId) (v : Wavelet) : State := { s with wavs := Assoc.put s.wavs w v }
def modWav (s : State) (w : WavId) (f : Wavelet → Wavelet) : State :=
  match s.wav? w with | some v => s.setWav w (f v) | none => s
def blk? (s : State) (b : BlkId) : Option Block := Assoc.get? s.blocks b
def setBlk (s : State) (b : BlkId) (v : Block) : State := { s with blocks := Assoc.put s.blocks b v }
def modBlk (s : State) (b : BlkId) (f : Block → Block) : State :=
  match s.blk? b with | some v => s.setBlk b (f v) | none => s
def span? (s : State) (n : Nat) : Option Span := Assoc.get? s.spans n
def modSpan (s : State) (n : Nat) (f : Span → Span) : State :=
  match s.span? n with | some v => { s with spans := Assoc.put s.spans n (f v) } | none => s
def task? (s : State) (n : Nat) : Option Task := Assoc.get? s.tasks n
def setTask (s : State) (n : Nat) (v : Task) : State := { s with tasks := Assoc.put s.tasks n v }
def modTask (s : State) (n : Nat) (f : Task → Task) : State :=
  match s.task? n with | some v => s.setTask n (f v) | none => s
/-- A job, the fresh one where none is known. -/
def job (s : State) (ctx : Nat) : Job := (Assoc.get? s.jobs ctx).getD {}
def setJob (s : State) (ctx : Nat) (j : Job) : State := { s with jobs := Assoc.put s.jobs ctx j }
def cluster (s : State) (n : Nat) : Cluster := Sparse.get {} s.clusters n
def modCluster (s : State) (n : Nat) (f : Cluster → Cluster) : State :=
  { s with clusters := Sparse.put {} s.clusters n (f (s.cluster n)) }
/-- Outstanding work that can go on: that of a saved span waits for its restore (R46). -/
def op? (s : State) (n : Nat) : Option Op :=
  match s.ops.find? (·.id == n) with
  | some o => match s.span? o.wid.span with
    | some p => if p.stage == .saved then none else some o
    | none => none
  | none => none
/-- Whether a block's span is saved, so that it holds nothing on a cluster (R44). -/
def savedBlk (s : State) (b : BlkId) : Bool :=
  match s.span? b.span with | some p => p.stage == .saved | none => false
def dropOp (s : State) (n : Nat) : State := { s with ops := s.ops.filter (·.id != n) }
/-- Add outstanding work, in order of issue. -/
def addOp (s : State) (w : WavId) (k : Work) : State :=
  { s with ops := s.ops ++ [⟨s.nextOp, w, k, s.steps⟩], nextOp := s.nextOp + 1 }
def setOp (s : State) (n : Nat) (k : Work) : State :=
  { s with ops := s.ops.map fun o => if o.id == n then { o with work := k } else o }
/-- Draw a free choice (log 4). -/
def draw (s : State) : Nat × State := (Config.freeNat s.free, { s with free := s.free + 1 })
/-- Draw a free value (log 4). -/
def drawWord (s : State) : W32 × State := (Config.freeWord s.free, { s with free := s.free + 1 })
def report (s : State) (r : Report) : State := { s with reports := s.reports ++ [r] }

/-- Update one lane of a wavelet. -/
def modLane (s : State) (w : WavId) (l : Nat) (f : Strand → Strand) : State :=
  s.modWav w fun v => { v with lanes := listModify f v.lanes l }

/-- Wavelets of a block, in order. -/
def wavsOf (s : State) (b : BlkId) : List (WavId × Wavelet) := s.wavs.filter (·.1.block == b)

end State

/-- The strand of a lane; a lane beyond the width has none and reads as never live. -/
def Wavelet.lane (v : Wavelet) (l : Nat) : Strand := v.lanes.getD l {}

/-- The lanes that are live. -/
def Wavelet.live (v : Wavelet) : List Nat := (List.range v.width).filter fun l => (v.lane l).live

/-- The main register `n` of a strand. -/
def Strand.reg (x : Strand) (n : Nat) : Reg := Sparse.get {} x.regs n

/-- Write a main register; the overwritten value stays visible to unfenced matrix reads (R177). -/
def Strand.setReg (x : Strand) (step n : Nat) (r : Reg) : Strand :=
  let old := x.reg n
  { x with regs := Sparse.put {} x.regs n r,
           past := if old.bits = r.bits then x.past else x.past ++ [(n, some step, old.bits)] }

/-- The later of two clocks, strand by strand. -/
def Clock.join (a b : Clock) : Clock :=
  b.foldl (fun a x => Assoc.put a x.1 (max x.2 ((Assoc.get? a x.1).getD 0))) a

/-- What comes before the later accesses of a strand (R38, R174). -/
def Strand.see (x : Strand) (c : Clock) : Strand := { x with seen := Clock.join x.seen c }

/-- An engine fills a register: until something finds it full the fill is ordered behind nothing (R174). -/
def Strand.arrive (x : Strand) (n : Nat) (c : Clock) : Strand := { x with arrived := Assoc.put x.arrived n c }

/-- An engine writes a register: until something finds it full, the value that it overwrote stays visible to every matrix read
of it (R174, R177). -/
def Strand.engReg (x : Strand) (n : Nat) (r : Reg) : Strand :=
  { x with regs := Sparse.put {} x.regs n r, past := x.past ++ [(n, none, (x.reg n).bits)] }

/-- In a step, registers are found full: an engine's fill of one is then observed, and takes its place in program order
(R174). -/
def Strand.find (x : Strand) (step : Nat) (rs : List Nat) : Strand :=
  if x.arrived.isEmpty then x
  else
    { x with seen := (x.arrived.filter fun a => rs.contains a.1).foldl (fun c a => Clock.join c a.2) x.seen
             arrived := x.arrived.filter fun a => !rs.contains a.1
             past := x.past.map fun p => if rs.contains p.1 && p.2.1.isNone then (p.1, some step, p.2.2) else p }

/-- A drain writes an accumulator: later commands read it as the drain left it (R178). -/
def Strand.drainReg (x : Strand) (n : Nat) (r : Reg) : Strand :=
  { x with regs := Sparse.put {} x.regs n r, past := x.past.filter (·.1 != n) }

/-- Set a register's full bit. -/
def Strand.setFull (x : Strand) (n : Nat) (b : Bool) : Strand :=
  { x with regs := Sparse.put {} x.regs n { x.reg n with full := b } }

/-- Predicate n; p7 reads as true (R53). -/
def Strand.pred (x : Strand) (n : Nat) : Bool := n == 7 || x.preds.getLsbD n

/-- Write predicate n; a write to p7 is discarded (R53). -/
def Strand.setPred (x : Strand) (n : Nat) (b : Bool) : Strand :=
  if n < 7 then { x with preds := if b then x.preds ||| BitVec.twoPow 7 n else x.preds &&& ~~~(BitVec.twoPow 7 n) } else x

end Sys2Proof.Machine
end

