-- ==== Sys2Proof/Machine/Flags.lean ====
section
/-! DEFINITION. Guards and predicates (R53, R54), the sticky flags of sys.status (R70) and the conditions of
`cmp` (R282). -/

namespace Sys2Proof.Machine

/-- Whether a guard is true in a strand (R54). -/
def guardHolds (g : Guard) (x : Strand) : Bool := x.pred g.pred.val != g.neg

/-- Bits of sys.status (R70). -/
def stIdiv : W32 := 1
def stScaleNan : W32 := 2
def stCnvSat : W32 := 4

/-- Set sticky flags in a strand. -/
def Strand.flag (x : Strand) (b : W32) : Strand := { x with status := x.status ||| b }

/-- Set sticky flags in the lanes listed. -/
def State.flagLanes (s : State) (w : WavId) (ls : List Nat) (b : W32) : State :=
  ls.foldl (fun s l => s.modLane w l (·.flag b)) s

/-- Write a predicate in lanes, each with its value. -/
def State.setPreds (s : State) (w : WavId) (n : Nat) (vs : List (Nat × Bool)) : State :=
  vs.foldl (fun s v => s.modLane w v.1 (·.setPred n v.2)) s

/-- The condition of `cmp` on one element (R282). -/
def cmpElem (cond : Nat) (t : Ty) (ftz : Bool) (a b : Nat) : Bool :=
  if t.isFloat then
    let x := t.num ftz a
    let y := t.num ftz b
    let un := x.isNan || y.isNan
    match cond with
    | 0 => x.eq y | 1 => !x.eq y | 2 => x.lt y | 3 => x.le y | 4 => y.lt x | 5 => y.le x | 6 => un | _ => !un
  else
    let x := t.intOf a
    let y := t.intOf b
    match cond with
    | 0 => x == y | 1 => x != y | 2 => x < y | 3 => x ≤ y | 4 => y < x | 5 => y ≤ x | _ => false

/-- A packed comparison holds when every element's does (R282). -/
def cmpAll (cond : Nat) (t : Ty) (ftz : Bool) (a b : Nat) : Bool :=
  ((t.elems a).zip (t.elems b)).all fun (x, y) => cmpElem cond t ftz x y

/-- The integer division edge cases (R113): whether the pair is one. -/
def divEdge (t : Ty) (isDiv : Bool) (a b : Int) : Bool :=
  b == 0 || (isDiv && t.isSigned && a == t.lo && b == -1)

/-- Integer quotient, edge cases included (R113). -/
def intDiv (t : Ty) (a b : Int) : Int :=
  if b == 0 then (if !t.isSigned then t.hi else if 0 ≤ a then t.hi else t.lo)
  else if t.isSigned && a == t.lo && b == -1 then t.lo
  else a.tdiv b

/-- Integer remainder, edge cases included (R113). -/
def intRem (_t : Ty) (a b : Int) : Int := if b == 0 then a else a.tmod b

end Sys2Proof.Machine
end

