-- ==== Sys2Proof/Machine/Memory.lean ====
section
/-! DEFINITION. Address windows (R143), pages and their attributes (R149, R84, R102), check values (R164), and the
reads and writes of bytes through them. -/

namespace Sys2Proof.Machine

/-- Where an address lies (R143). -/
inductive Win where
  | none
  | glob (va : Nat)
  | priv (off : Nat)
  /-- Scratchpad window with its cluster stamp. -/
  | sp (stamp off : Nat)
  | span (rank off : Nat)
  deriving DecidableEq, Repr

/-- Decode the fixed bits of a generic address (R143). -/
def window (a : W64) : Win :=
  let n := a.toNat
  if natBits n 63 56 == 0 then .glob n
  else if natBits n 63 32 == 0xFC000000 then .priv (natBits n 31 0)
  else if natBits n 63 40 == 0xFD0000 && natBits n 31 24 == 0 then .sp (natBits n 39 32) (natBits n 23 0)
  else if natBits n 63 52 == 0xFE0 && natBits n 47 24 == 0 then .span (natBits n 51 48) (natBits n 23 0)
  else .none

/-- Trap cause codes (R71). -/
def eIll : Nat := 0x01
def eHint : Nat := 0x02
def eEmpty : Nat := 0x03
def ePendwrite : Nat := 0x04
def eTmp : Nat := 0x05
def eFmt : Nat := 0x06
def eAlign : Nat := 0x07
def eSpace : Nat := 0x08
def eSpforeign : Nat := 0x09
def ePage : Nat := 0x0A
def ePerm : Nat := 0x0B
def eIntegrity : Nat := 0x0C
def eLanegone : Nat := 0x0D
def eBar : Nat := 0x0E
def eSlot : Nat := 0x0F
def eIdiv : Nat := 0x10
def eTrap : Nat := 0x11
def eBrk : Nat := 0x12
def eSysc : Nat := 0x13
def eFetch : Nat := 0x15
def cPartial : Nat := 0x7E
def cInvalid : Nat := 0x7F

/-! Leaf descriptors (R149). -/
abbrev Leaf := BitVec 128
def Leaf.v (l : Leaf) : Bool := l.getLsbD 0
def Leaf.r (l : Leaf) : Bool := l.getLsbD 1
def Leaf.w (l : Leaf) : Bool := l.getLsbD 2
def Leaf.x (l : Leaf) : Bool := l.getLsbD 3
def Leaf.size (l : Leaf) : Nat :=
  match (l.extractLsb' 4 2).toNat with | 0 => 8192 | 1 => 65536 | 2 => 2 ^ 21 | _ => 2 ^ 29
def Leaf.ev (l : Leaf) : Nat := (l.extractLsb' 6 2).toNat
def Leaf.fmt (l : Leaf) : Ty := Ty.ofCode (l.extractLsb' 8 4).toNat
def Leaf.blk (l : Leaf) : Bool := l.getLsbD 12
/-- Tangent planes (R149). -/
def Leaf.tp (l : Leaf) : Nat := match (l.extractLsb' 13 2).toNat with | 0 => 0 | 1 => 2 | 2 => 4 | _ => 8
def Leaf.psc (l : Leaf) : Nat := (l.extractLsb' 15 2).toNat
def Leaf.icls (l : Leaf) : Nat := (l.extractLsb' 18 2).toNat
/-- Row pitch in bytes of a pitched page, 0 for an ordinary one. -/
def Leaf.pitch (l : Leaf) : Nat := 32 * (l.extractLsb' 20 12).toNat
def Leaf.pbase (l : Leaf) : Nat := (l.extractLsb' 64 52).toNat
/-- Plane stride D (R84). -/
def Leaf.stride (l : Leaf) : Nat := 2 ^ l.psc * l.size

/-- A leaf that the D9 takes as valid (R149). -/
def Leaf.valid (l : Leaf) : Bool :=
  l.v && l.extractLsb' 116 12 == 0 && l.extractLsb' 32 32 == 0 && l.ev != 3 && l.icls != 3 && l.pbase % l.size == 0

/-- The page that holds a virtual address: its base and its leaf, if the leaf is valid. Where a leaf was mapped over part of a
valid page of another size, which the spec does not speak of, an address that both hold is translated by the lower base: the
model's choice (log 14). -/
def Job.page (j : Job) (va : Nat) : Option (Nat × Leaf) :=
  j.pages.find? fun p => p.1 ≤ va && va < p.1 + Leaf.size p.2 && Leaf.valid p.2

/-- What an access does to the bytes it addresses. -/
inductive Dir where
  | load | store | atomic
  deriving DecidableEq, Repr

/-- Whether a page's permissions allow an access; a code page is never written (R151, R117). -/
def Leaf.allows (l : Leaf) : Dir → Bool
  | .load => l.r
  | .store => l.w && !l.x
  | .atomic => l.r && l.w && !l.x

/-- The physical address of a virtual one that an access may use. -/
def Job.phys (j : Job) (d : Dir) (va : Nat) : Option Nat :=
  match j.page va with
  | some p => if Leaf.allows p.2 d then some (Leaf.pbase p.2 + (va - p.1)) else none
  | none => none

/-- Install leaves, one mapping per base (R150). -/
def Job.map (j : Job) (ms : List Mapping) : Job :=
  ms.foldl (fun j m => { j with pages := Sparse.put (0 : BitVec 128) j.pages m.va.toNat m.leaf }) j

/-- Where the bytes of an access lie. -/
inductive Loc where
  | mem (pa : Nat)
  | priv (off : Nat)
  | scr (b : BlkId) (off : Nat)
  deriving DecidableEq, Repr

/-! Physical memory (R4, R7, R163). -/

/-- Bytes of physical address space (R149). -/
def physBytes : Nat := 2 ^ 52

/-- Whether `n` bytes lie in the second tier that the device has (R4, R7; where it begins: log 7). -/
def State.inTier (s : State) (pa n : Nat) : Bool :=
  Config.tierBase ≤ pa && pa + n ≤ min (Config.tierBase + s.tier.bytes) physBytes

/-- Whether the device has memory at `n` physical bytes: in HBM, or in its second tier. -/
def State.has (s : State) (pa n : Nat) : Bool := pa + n ≤ Config.hbmBytes || s.inTier pa n

/-! Check values (R164). -/

/-- One byte folded into a reflected CRC-32C. -/
def crcByte (c : W32) (b : Byte) : W32 :=
  (List.range 8).foldl (fun c _ => if c.getLsbD 0 then (c >>> 1) ^^^ 0x82F63B78#32 else c >>> 1)
    (c ^^^ b.setWidth 32)

/-- CRC-32C of bytes. -/
def crc32c (bs : List Byte) : W32 := ~~~(bs.foldl crcByte 0xFFFFFFFF#32)

/-- The 64 bytes of a unit. -/
def State.unit (s : State) (u : Nat) : List Byte := (List.range 64).map fun i => Sparse.get 0 s.mem (64 * u + i)

/-- Whether a unit fails its check (R165). -/
def State.badUnit (s : State) (u : Nat) : Bool :=
  match s.checks.find? (·.1 == u) with
  | some (_, c) => c != crc32c (s.unit u)
  | none => false

/-- Whether any unit of `n` bytes at a physical address fails its check. -/
def State.badAt (s : State) (pa n : Nat) : Bool :=
  (List.range ((pa + n - 1) / 64 + 1 - pa / 64)).any fun i => s.badUnit (pa / 64 + i)

/-- The canonical form of physical memory: addresses strictly rising, no listed byte equal to what an unlisted one reads
as (log 7). -/
abbrev Memory.wf (m : List Host.Cell) : Bool := Sparse.wf 0 m

/-! Private memory (R66, R67): its 4-byte words are interleaved across a wavelet's lanes, and its units bear check values as
all units do (R164). -/

/-- Private plane word key (R67). -/
def privKey (i off : Nat) : Nat := i * 2 ^ 32 + off

/-- The units that `n` bytes at a private offset of a lane lie in, in a wavelet of width `w`. -/
def privUnits (w l off n : Nat) : List Nat :=
  ((List.range ((off % 4 + n + 3) / 4)).map fun j => ((off / 4 + j) * w + l) / 16).eraseDups

/-- Byte `i` of a unit: of the private space (plane 0), or of private tangent plane `plane - 1`. -/
def Wavelet.privByte (v : Wavelet) (plane n i : Nat) : Byte :=
  let k := 16 * n + i / 4
  let x := v.lane (k % v.width)
  let off := k / v.width * 4
  match plane with
  | 0 => Sparse.get 0 x.priv (off + i % 4)
  | p + 1 => (Sparse.get 0 x.planes (privKey p off) >>> (8 * (i % 4))).setWidth 8

/-- Whether a unit of private memory fails its check. -/
def Wavelet.badPriv (v : Wavelet) (plane n : Nat) : Bool :=
  match v.checks.find? (·.1 == (plane, n)) with
  | some (_, c) => c != crc32c ((List.range 64).map (v.privByte plane n))
  | none => false

/-- Whether a unit fails its check. -/
def State.badKey (s : State) : UnitKey → Bool
  | .phys n => s.badUnit n
  | .priv w p n => match s.wav? w with | some v => v.badPriv p n | none => false

/-- The units written take the check values of their new bytes. -/
def Wavelet.recheck (v : Wavelet) (plane : Nat) (us : List Nat) : Wavelet :=
  if v.checks.isEmpty then v else { v with checks := v.checks.filter fun c => !(c.1.1 == plane && us.contains c.1.2) }

/-- A unit of private memory takes 64 bytes and their check value. -/
def Wavelet.putUnit (v : Wavelet) (plane n : Nat) (bs : List Byte) : Wavelet :=
  let word := fun (j : Nat) => joinBits 8 (((bs.drop (4 * j)).take 4).map (·.toNat))
  let v := (List.range 16).foldl (fun (v : Wavelet) j =>
    let k := 16 * n + j
    let off := k / v.width * 4
    let put := fun (x : Strand) => match plane with
      | 0 => { x with priv := Sparse.writeN x.priv off 4 (word j) }
      | p + 1 => { x with planes := Sparse.put 0 x.planes (privKey p off) (BitVec.ofNat 32 (word j)) }
    { v with lanes := listModify put v.lanes (k % v.width) }) v
  v.recheck plane [n]

/-- Write physical bytes. Every unit written takes the check value of its new bytes (R164): a write of part of a unit
that fails its check is refused before it comes here (R166). -/
def State.memWrite (s : State) (pa n v : Nat) : State :=
  { s with mem := Sparse.writeN s.mem pa n v,
           checks := s.checks.filter fun c => !(n != 0 && 64 * c.1 < pa + n && pa < 64 * c.1 + 64) }

/-- Whether some lane is blocked on the barrier object at a 16-byte unit: the WT bit (R31, R37). -/
def State.wt (s : State) (b : BlkId) (u : Nat) : Bool :=
  s.wavs.any fun wv => wv.1.span == b.span && wv.2.lanes.any fun x => match x.wait with
    | .bar b' o _ _ | .barwait b' o _ _ => b' == b && o / 16 == u
    | _ => false

/-- The first byte of a unit after a write, `wt` telling whether a lane is blocked on it: WT is kept by the D9 alone, 1
exactly while one is (R31, R37; which other units' bit 1 a write clears: log 20). -/
def wtByte (objs : List Nat) (wt : Nat → Bool) (u : Nat) (x : Byte) : Byte :=
  if wt u then x ||| 0x02#8 else if objs.contains u then x &&& 0xFD#8 else x

/-- Write scratchpad bytes; overwritten units stay visible to unfenced matrix reads (R177), and WT keeps its value (R31). -/
def Block.write (k : Block) (wt : Nat → Bool) (step off n v : Nat) : Block :=
  let m := Sparse.writeN k.scratch off n v
  let us := (List.range ((off + n - 1) / 16 + 1 - off / 16)).map (off / 16 + ·)
  let m := us.foldl (fun m u => if off ≤ 16 * u
    then Sparse.put 0 m (16 * u) (wtByte k.objs wt u (Sparse.get 0 m (16 * u))) else m) m
  { k with scratch := m,
           past := k.past ++ us.map fun u => (u, step, BitVec.ofNat 128 (Sparse.readN k.scratch (16 * u) 16)) }

/-- Write bytes of a scratchpad. -/
def State.scrWrite (s : State) (b : BlkId) (off n v : Nat) : State := s.modBlk b fun k => k.write (s.wt b) s.steps off n v

/-- Read bytes of a scratchpad. -/
def State.scrRead (s : State) (b : BlkId) (off n : Nat) : Nat :=
  match s.blk? b with | some k => Sparse.readN k.scratch off n | none => 0

/-- Read `n` bytes at a location, for a lane of a wavelet. -/
def State.readLoc (s : State) (w : WavId) (l : Nat) (a : Loc) (n : Nat) : Nat :=
  match a with
  | .mem pa => Sparse.readN s.mem pa n
  | .priv off => match s.wav? w with | some v => Sparse.readN (v.lane l).priv off n | none => 0
  | .scr b off => s.scrRead b off n

/-- Write `n` bytes at a location, for a lane of a wavelet. -/
def State.writeLoc (s : State) (w : WavId) (l : Nat) (a : Loc) (n v : Nat) : State :=
  match a with
  | .mem pa => s.memWrite pa n v
  | .priv off => (s.modLane w l fun x => { x with priv := Sparse.writeN x.priv off n v }).modWav w fun x =>
      x.recheck 0 (privUnits x.width l off n)
  | .scr b off => s.scrWrite b off n v

/-! The last-level cache (R155-R162). What it holds has no effect on any value (R156); it decides the charges. -/

/-- A number for a line or sector, from which the hash takes its set. -/
def lineNum : LlcKey → Nat
  | .line n => 4 * n
  | .sector pa _ => pa / 32
  | .priv w p n => ((w.span * 64 + w.blk) * 128 + w.wid) * 16 + p + 2 ^ 60 * (n + 1)

/-- Lines, most recently used first, and charges. -/
abbrev Llc := List (LlcKey × Line) × List (Nat × Nat)

/-- Charge one transfer to a context (R162). -/
def Llc.charge (c : Llc) (ctx : Nat) : Llc := (c.1, Sparse.put 0 c.2 ctx (Sparse.get 0 c.2 ctx + 1))

/-- Evict a line; a dirty one is written back at the charge of the context that dirtied it (R162). -/
def Llc.evict (c : Llc) (k : LlcKey) : Llc :=
  let rest : Llc := (c.1.filter (·.1 != k), c.2)
  match (c.1.find? (·.1 == k)).bind (·.2.dirty) with
  | some ctx => rest.charge ctx
  | none => rest

/-- The lines that share the set of a key. -/
def Llc.set (c : Llc) (k : LlcKey) : List (LlcKey × Line) :=
  c.1.filter fun x => Config.llcSet (lineNum x.1) % Config.llcSets == Config.llcSet (lineNum k) % Config.llcSets

/-- Half ways that a line takes: 2, or 1 where line mode holds it at half its size (R160). That a sector, of 1 KiB, takes one
way as a line does is the model's choice (log 23). -/
def Line.halves (l : Line) : Nat := if l.half then 1 else 2

/-- The line that leaves a set first (R161): evict-first, then unmarked, then evict-last, each the least recently used. -/
def leaves (set : List (LlcKey × Line)) : Option LlcKey :=
  let old := set.reverse
  match old.find? (·.2.mark == 1), old.find? (·.2.mark == 0) with
  | some x, _ => some x.1
  | none, some x => some x.1
  | none, none => old.head?.map (·.1)

/-- Evict until the set of a key has room for a line; where all lines fit one set there is. -/
def Llc.room : Nat → Llc → LlcKey → Line → Llc
  | 0, c, _, _ => c
  | n + 1, c, k, l =>
    let set := c.set k
    if c.1.length < Config.llcWays then c
    else if (set.map (·.2.halves)).foldl (· + ·) l.halves ≤ 2 * Config.llcWays then c
    else match leaves set with
      | some x => Llc.room n (c.evict x) k l
      | none => c

/-- Keep the evict-last lines of a set within their limit before one more is added: the least recently used leaves
(R161). A hit that sets the mark keeps the limit too, and in line mode the limit counts lines, two of which may share a way:
the model's choices (log 23). -/
def Llc.lastRoom (c : Llc) (k : LlcKey) : Llc :=
  let ls := (c.set k).filter fun x => x.2.mark == 2 && x.1 != k
  if c.1.length < Config.llcLastWays then c
  else if Config.llcLastWays ≤ ls.length then
    match ls.getLast? with | some x => c.evict x.1 | none => c
  else c

/-- An access of a context to a line or sector, by a wavelet where one makes it (R158, R161, R162): a fill is charged, takes
the mark of its hint and, for a sector, the orientation of its axis; a hit may change the mark. An owner's evict-first hit
demotes an evict-last mark to evict-first, and the line keeps its owner: the model's choice (log 23). -/
def Llc.touch (c : Llc) (lineMode : Bool) (step ctx : Nat) (w : Option WavId) (k : LlcKey) (hint : Nat)
    (isStore column : Bool) : Llc :=
  let me := w.map fun w => (ctx, w)
  let dirt := fun (l : Line) => if isStore then { l with dirty := some ctx } else l
  match c.1.find? (·.1 == k) with
  | some (_, l) =>
    let c := if hint == 2 && l.mark != 2 then c.lastRoom k else c
    let l := if hint == 2 then { l with mark := 2, owner := me }
      else if hint == 1 && l.mark == 2 && l.owner == me then { l with mark := 1 } else l
    ((k, dirt l) :: c.1.filter (·.1 != k), c.2)
  | none =>
    let l : Line := { mark := hint, owner := me, column := column, half := lineMode && Config.compresses step (lineNum k) }
    let c := if hint == 2 then c.lastRoom k else c
    let c := (c.room (2 * Config.llcWays) k l).charge ctx
    ((k, dirt l) :: c.1, c.2)

/-- The last-level cache on accesses of a context to lines or sectors, each with its page's hint; `ov` is the
instruction's override, 0 for none (R161). -/
def State.touch (s : State) (ctx : Nat) (w : Option WavId) (ks : List (LlcKey × Nat)) (ov : Nat) (isStore column : Bool) : State :=
  let c := ks.foldl (fun (c : Llc) k =>
    c.touch s.lineMode s.steps ctx w k.1 (if ov != 0 then ov else k.2) isStore column) (s.llc, s.charges)
  { s with llc := c.1, charges := c.2 }

/-- The lines or sectors that `n` bytes at an offset of a page lie in, with the page's hint (R155, R157). -/
def Leaf.keys (l : Leaf) (off n : Nat) : List (LlcKey × Nat) :=
  let pa := l.pbase + off
  if l.pitch == 0 then
    (List.range ((pa + n - 1) / 128 + 1 - pa / 128)).map fun i => (.line (pa / 128 + i), l.ev)
  else
    ((List.range ((off + n - 1) / 32 + 1 - off / 32)).map fun i =>
      let o := (off / 32 + i) * 32
      (LlcKey.sector (l.pbase + o / l.pitch / 32 * 32 * l.pitch + o % l.pitch) l.pitch, l.ev)).eraseDups

/-! The L1 (R154, R250). -/

/-- A load or store through the L1: a load that misses fills the line, at the position of the least recently used where `last` says
so (R124), and counts where its tag was evicted lately; which line leaves is the least recently used (log 23). -/
def Cluster.cache (c : Cluster) (k : LlcKey) (load last : Bool) : Cluster :=
  if c.l1.contains k then { c with l1 := k :: c.l1.filter (· != k) }
  else if !load then c
  else
    let kept := c.l1.take (Config.l1Lines - 1)
    { c with l1 := if last then kept ++ [k] else k :: kept
             victims := (c.l1.drop (Config.l1Lines - 1) ++ c.victims.filter (· != k)).take Config.victimTags
             lost := if c.victims.contains k then c.lost + 1 else c.lost }

end Sys2Proof.Machine
end

