-- ==== Sys2Proof/Machine/Ops.lean ====
section
/-! DEFINITION. The shared operations over a wavelet's place in the machine: its environment, the end of blocks and
spans (R41, R42), the suspension of a grid (R253), taking a trap (R168, R126, R361), returning from one (R338, R311),
and the start of a run (R23, R28). -/

namespace Sys2Proof.Machine

/-- What a wavelet's instructions see around it. -/
structure Env where
  wid  : WavId
  wav  : Wavelet
  blk  : Block
  span : Span
  task : Task
  job  : Job
  deriving DecidableEq, Repr

/-- The environment of a wavelet, where all of it exists. -/
def State.env? (s : State) (w : WavId) : Option Env :=
  match s.wav? w, s.blk? w.block, s.span? w.span with
  | some v, some b, some p =>
    match s.task? p.task with
    | some t => some ⟨w, v, b, p, t, s.job t.ctx⟩
    | none => none
  | _, _, _ => none

def Env.kern (e : Env) : Kern := e.task.kern
/-- Declared K (R72). -/
def Env.K (e : Env) : Nat := e.kern.count
def Env.alloc (e : Env) : Nat := e.kern.alloc
def Env.strict (e : Env) : Bool := e.wav.mode.getLsbD 0
def Env.idivTrap (e : Env) : Bool := e.wav.mode.getLsbD 1
def Env.ftz (e : Env) : Bool := e.wav.mode.getLsbD 2
def Env.lane (e : Env) (l : Nat) : Strand := e.wav.lane l

/-- The block whose scratchpad an address of a wavelet's command names (R143). -/
def targetOf (w : WavId) (a : W64) : Option BlkId :=
  match window a with
  | .sp .. => some w.block
  | .span r _ => some ⟨w.span, r⟩
  | _ => none

/-- Whether outstanding work writes a block's scratchpad or counts on an object in it: work of its own wavelets, and the
copies of other blocks of the span that name it (R42). -/
def Op.uses (o : Op) (b : BlkId) : Bool :=
  o.wid.block == b || match o.work with
    | .bulk c => c.bar == b || targetOf o.wid (c.desc.extractLsb' 64 64) == some b ||
        targetOf o.wid (c.desc.extractLsb' 384 64) == some b
    | .cpl _ _ dst _ _ => targetOf o.wid dst == some b
    | _ => false

/-- Whether work still uses a block's scratchpad (R42). -/
def State.blockBusy (s : State) (b : BlkId) : Bool := s.ops.any (·.uses b)

/-- Whether a matrix command of a block is outstanding (R42). -/
def State.matrixBusy (s : State) (b : BlkId) : Bool :=
  s.ops.any fun o => o.wid.block == b && match o.work with | .matrix .. => true | _ => false

/-- Sample a cluster's count of its clocks, which never decreases, once in a step (R260, log 8). -/
def State.sampleCyc (s : State) (cl : Nat) : Nat × State :=
  let k := s.cluster cl
  let n := if k.sampled == some s.steps then k.cyc else k.cyc + Config.clusterClocks cl s.steps
  (n, s.modCluster cl fun k => { k with cyc := n, sampled := some s.steps })

/-- The clock of a cluster in units of 10 MHz (R258): the lowest that a span gives it which has a block there, 1.3 GHz
where none gives it one. -/
def State.clockOf (s : State) (cl : Nat) : Nat :=
  let given := s.blocks.filterMap fun b =>
    if b.2.at' == cl && !b.2.ended && !s.savedBlk b.1 then (s.span? b.1.span).bind fun p => p.clocks[b.1.pos]? else none
  match given with
  | [] => 130
  | x :: xs => xs.foldl min x

/-- Renew the clocks of clusters (R258). -/
def State.reclock (s : State) (cls : List Nat) : State :=
  cls.foldl (fun s cl => s.modCluster cl fun c => { c with clock := s.clockOf cl }) s

/-- The clusters that hold the blocks of a span whose ranking gives clocks (R258). -/
def State.ranked (s : State) (sp : Nat) : List Nat :=
  match s.span? sp with
  | some p => if p.clocks.isEmpty then [] else (s.blocks.filter (·.1.span == sp)).map (·.2.at')
  | none => []

/-- Mark the end of blocks whose wavelets have all exited, release what no work uses, and drop a span whose blocks
have all ended (R41, R42, R258, R264). -/
def State.reap (s : State) (sp : Nat) : State :=
  match s.span? sp with
  | none => s
  | some p =>
    let bs := (List.range p.blocks).map fun i => (⟨sp, i⟩ : BlkId)
    let s := bs.foldl (fun s b => match s.blk? b with
      | none => s
      | some k =>
        let fin := (s.wavsOf b).all fun v => v.2.live.isEmpty
        let s := if fin && !k.ended then
            (s.setBlk b { k with ended := true }).modTask p.task fun t => { t with ended := t.ended + 1 }
          else s
        let s := if fin && !s.matrixBusy b then s.modBlk b fun k => { k with slots := [], freeing := [] } else s
        if fin && !s.blockBusy b then s.modBlk b fun k => { k with held := false } else s) s
    let cls := s.ranked sp
    let s := if bs.all fun b => match s.blk? b with | some k => k.ended && !k.held | none => true then
      { s with spans := Assoc.del s.spans sp, blocks := s.blocks.filter (·.1.span != sp),
               wavs := s.wavs.filter (·.1.span != sp),
               cur := match s.cur with | some w => if w.span == sp then none else some w | none => none }
    else s
    s.reclock cls

/-- Discard every span of a grid, its commands and its records (R253). -/
def State.discard (s : State) (t : Nat) : State :=
  let gone := (s.spans.filter (·.2.task == t)).map (·.1)
  let out := fun (n : Nat) => !gone.contains n
  let cls := (gone.map s.ranked).flatten
  let s := { s with
           spans := s.spans.filter (out ·.1), blocks := s.blocks.filter (out ·.1.span),
           wavs := s.wavs.filter (out ·.1.span), ops := s.ops.filter (out ·.wid.span),
           claims := s.claims.filter (out ·.2.1.span),
           cur := match s.cur with | some w => if out w.span then some w else none | none => none }
  s.reclock cls

/-- Whether the seal of `ret.x` or `ret.x.skip` has blocked a lane of the run that it restored: the run goes on only once the lane
is let go, and the lane waits at that seal (R342). -/
def Wavelet.heldAtSeal (v : Wavelet) : Bool :=
  match v.run with
  | some r => (r.lanes.lanes v.width).any fun l => (v.lane l).wait != .none
  | none => false

/-- Whether a wavelet stands at a seal boundary or at an in-run point of R43. -/
def Wavelet.atBoundary (v : Wavelet) : Bool :=
  v.stopped || v.run.isNone || v.heldAtSeal || v.stall == .fetch || v.stall == .check || v.stall == .claim || v.live.isEmpty

/-- Discard an ended grid once all its wavelets stand at a boundary (R253). -/
def State.sweep (s : State) (t : Nat) : State :=
  match s.task? t with
  | some k =>
    if k.cause != 0 && (s.wavs.all fun v => match s.span? v.1.span with
        | some p => p.task != t || v.2.atBoundary
        | none => true)
    then s.discard t else s
  | none => s

/-- A stopping span is saved once every wavelet has stopped (R43). -/
def State.trySave (s : State) (sp : Nat) : State :=
  match s.span? sp with
  | some p =>
    if p.stage == .stopping && (s.wavs.all fun v => v.1.span != sp || v.2.atBoundary) then
      let cls := s.ranked sp
      let s := s.modSpan sp fun p => { p with stage := .saved }
      let ws := s.wavs.map fun v => if v.1.span != sp then v else (v.1, { v.2 with stopped := true })
      State.reclock { s with wavs := ws } cls
    else s
  | none => s

/-- A wavelet that has come to a boundary stops there where its span is to be pre-empted or its grid has ended (R43,
R253). -/
def State.standAt (s : State) (w : WavId) : State :=
  match s.span? w.span with
  | some p =>
    let gone := match s.task? p.task with | some t => t.cause != 0 | none => false
    if p.stage == .stopping || gone then
      ((s.modWav w fun v => { v with stopped := true }).trySave w.span).sweep p.task
    else s
  | none => s

/-- Stop the wavelets of a grid that stand at a boundary (R253). -/
def State.haltGrid (s : State) (t : Nat) : State :=
  let ws := s.wavs.map fun v => match s.span? v.1.span with
    | some q => if q.task == t && v.2.atBoundary then (v.1, { v.2 with stopped := true }) else v
    | none => v
  { s with wavs := ws }

/-- End the grid of a wavelet with a trap context (R253): the first one is kept. -/
def State.suspend (s : State) (w : WavId) (k : Kept) : State :=
  match s.span? w.span with
  | some p =>
    let s := s.modWav w fun v => { v with stopped := true, run := none, stall := .none }
    let s := s.haltGrid p.task
    let s := s.modTask p.task fun t => if t.cause == 0 then { t with cause := k.cause, kept := some k } else t
    s.sweep p.task
  | none => s

/-- The trap context registers (R168, R361): `hits` are the marked lanes with their addresses. -/
def Wavelet.context (v : Wavelet) (cause : Nat) (pc : W64) (hits : List (Nat × W64)) : Wavelet :=
  { v with cause := cause, epc := pc, fmask := Mask.ofLanes (hits.map (·.1)),
           lanes := v.lanes.zipIdx.map fun (x, l) => { x with faddr := (Assoc.get? hits l).getD 0 } }

/-- The context that Pewter keeps of a trap (R253, R263). -/
def keptOf (cause : Nat) (pc : W64) (hits : List (Nat × W64)) : Kept :=
  ⟨cause, pc, Mask.ofLanes (hits.map (·.1)),
    match hits with | [] => 0 | h :: hs => (hs.foldl (fun m x => if x.1 < m.1 then x else m) h).2, hits⟩

/-- What a trap keeps beside its context for a memory instruction that is replayed (R311, R360). -/
structure MemTrap where
  marked  : Option Mask := none
  held    : Mask := 0
  abandon : List (Nat × List Nat) := []
  deriving DecidableEq, Repr

/-- What a trap keeps that says nothing of its own about the lanes to be performed: where the instruction is executed again for
some lanes alone (R151, R195), `ret.x` performs those and no others, whatever stopped it: the trapping ones are marked, the rest
held. -/
def Wavelet.memTrap (v : Wavelet) (hits : List (Nat × W64)) (mem : MemTrap) : MemTrap :=
  match mem.marked, v.replay with
  | none, some m =>
    let hit := Mask.ofLanes (hits.map (·.1)) &&& m
    ⟨some hit, (m ||| Mask.ofLanes (v.failing.map (·.1))) &&& ~~~hit, v.marks⟩
  | _, _ => mem

/-- Take a trap (R168): set the context; start the bundle at the handler, or suspend the span where the kernel has
none or the wavelet is already in it. Slots that an `mclaim` was granted and has not taken go back. -/
def State.takeTrap (s : State) (w : WavId) (cause : Nat) (hits : List (Nat × W64)) (mem : MemTrap := {}) : State :=
  match s.env? w with
  | none => s
  | some e =>
    match e.wav.run with
    | none => s
    | some r =>
      let pc := match r.lanes.lanes 64 with | l :: _ => (e.lane l).pc | [] => r.start
      let s := match e.wav.granted with
        | some m => s.modBlk w.block fun k => { k with slots := k.slots.filter fun p => !m.testBit p.1 }
        | none => s
      let v := e.wav.context cause pc hits
      let v := { v with stall := .none, replay := none, faults := [], integ := [], failing := [], tried := [],
                        retried := false, marks := [], granted := none }
      if e.wav.handler.isSome || e.kern.trap == 0 then (s.setWav w v).suspend w (keptOf cause pc hits)
      else
        let ls := r.lanes.lanes e.wav.width
        let mem := e.wav.memTrap hits mem
        let h : Handler := { lanes := r.lanes, run := r, o := ls.map fun l => (l, (e.lane l).o),
                             q := ls.map fun l => (l, (e.lane l).q), marked := mem.marked, held := mem.held,
                             abandon := mem.abandon }
        s.setWav w { v with
          handler := some h
          run := some { start := e.kern.trap, count := 0, lanes := r.lanes }
          lanes := v.lanes.zipIdx.map fun (x, l) =>
            if r.lanes.has l then { x with pc := e.kern.trap, o := [], q := [] } else x }

/-- A trap that the word alone decides marks the whole bundle (R126). -/
def State.trapWord (s : State) (w : WavId) (cause : Nat) (bundle : Mask) : State :=
  s.takeTrap w cause ((bundle.lanes 64).map fun l => (l, 0))

/-- Return from the handler, at its seal (R338, R126, R311, R360): PCs, run, `o` and `q` are restored; `.skip`
abandons the marked lanes' accesses and counts the skipped word. The lanes left to be performed keep their empty
destinations. -/
def Wavelet.retTrap (v : Wavelet) (skip : Bool) : Wavelet :=
  match v.handler with
  | none => v
  | some h =>
    let left := match h.marked with
      | some m => if skip then h.held else m ||| h.held
      | none => 0
    let fin := skip && left == 0
    let lanes := v.lanes.zipIdx.map fun (x, l) =>
      if h.lanes.has l && x.live then
        let x := { x with pc := if fin then v.epc + 12 else v.epc, o := (Assoc.get? h.o l).getD [], q := (Assoc.get? h.q l).getD [] }
        if skip && (h.marked.getD 0).has l then ((Assoc.get? h.abandon l).getD []).foldl (fun x n => x.setFull n true) x else x
      else x
    let r := { h.run with lanes := h.run.lanes &&& Mask.ofLanes v.live }
    let r := if fin then { r with count := r.count + 1, mustSeal := false, deferred := none } else r
    { v with handler := none, lanes := lanes, run := some r,
             replay := if left == 0 then none else some left
             marks := h.abandon.filter fun p => left.has p.1 }

/-- The lanes among which the next run is chosen (R22, R168). -/
def Wavelet.ready (v : Wavelet) : List Nat :=
  v.live.filter fun l => (v.lane l).wait == .none && match v.handler with
    | some h => h.lanes.has l
    | none => true

/-- The least PC of lanes. -/
def Wavelet.minPc (v : Wavelet) : List Nat → Option W64
  | [] => none
  | l :: ls => match v.minPc ls with
    | none => some (v.lane l).pc
    | some p => some (if (v.lane l).pc.toNat ≤ p.toNat then (v.lane l).pc else p)

/-- Start a run: the issue address and the bundle (R23, R28); none where no lane is ready. -/
def Wavelet.startRun (v : Wavelet) : Option Wavelet :=
  let ls := v.ready
  let up := match v.pass with
    | some (x, m) => v.minPc (ls.filter fun l => x.toNat < (v.lane l).pc.toNat && !m.has l)
    | none => none
  match (match up with | some a => some a | none => v.minPc ls) with
  | none => none
  | some a =>
    some { v with pass := none,
                  run := some { start := a, count := 0, lanes := Mask.ofLanes (ls.filter fun l => (v.lane l).pc == a) } }

/-- Update the bundle's PCs and the run after an instruction that is no seal (R21, R24, R25). -/
def Wavelet.advance (v : Wavelet) (mustSeal : Bool) (d : Option Deferred) : Wavelet :=
  match v.run with
  | none => v
  | some r =>
    { v with run := some { r with count := r.count + 1, mustSeal := mustSeal, deferred := d },
             stall := .none, replay := none, marks := [], tried := [], failing := [],
             lanes := v.lanes.zipIdx.map fun (x, l) => if r.lanes.has l then { x with pc := x.pc + 12 } else x }

/-! Addresses (R143, R146). -/

/-- A scratchpad location, through the scratchpad window or the span window, or the cause it meets (R143). An address of another
cluster whose offset lies past the allocation too meets `E_SPFOREIGN` alone: the model's choice (log 19). -/
def Env.scr (e : Env) (a : W64) : Except Nat (BlkId × Nat) :=
  match window a with
  | .sp st off =>
    if st > 191 then .error eSpace else if st != e.blk.home then .error eSpforeign
    else if off ≥ e.alloc then .error eSpace else .ok (e.wid.block, off)
  | .span r off =>
    if r ≥ e.span.blocks || off ≥ e.alloc then .error eSpace else .ok (⟨e.wid.span, r⟩, off)
  | _ => .error eSpace

/-- A location in the block's own scratchpad window. -/
def Env.own (e : Env) (a : W64) : Except Nat Nat :=
  match window a with
  | .sp .. => (e.scr a).map (·.2)
  | _ => .error eSpace

/-- The decoding cause of an address used by an access, if any; offsets in private memory are the page tables'. -/
def Env.winCause (e : Env) (a : W64) : Option Nat :=
  match window a with
  | .glob _ | .priv _ => none
  | .none => some eSpace
  | _ => match e.scr a with | .error c => some c | .ok _ => none

/-- Causes an address meets: decoding and alignment. -/
def causes (dec : Option Nat) (a : W64) (align : Nat) : List Nat :=
  dec.toList ++ if a.toNat % align != 0 then [eAlign] else []

/-- The first cause of R146 among lanes' addresses, with the lanes that meet it and the address that does. -/
def firstCause (xs : List (Nat × List (W64 × List Nat))) : Option (Nat × List (Nat × W64)) :=
  [eSpace, eSpforeign, eAlign].findSome? fun c =>
    let hits := xs.filterMap fun (l, as) => (as.find? (·.2.contains c)).map fun p => (l, p.1)
    if hits.isEmpty then none else some (c, hits)

/-! Leaving lanes blocked and writing results at release. -/

/-- Write the status of a released lane into D, tagged `n32` (R34). A D that another wavelet's `mma` has marked empty
meanwhile keeps its mark and takes no status, for which the spec states nothing: the model's choice (log 20). -/
def Strand.release (x : Strand) (step : Nat) (d : Name) (v : W32) (w : Wait) : Strand :=
  let x := { x with wait := w }
  match d with
  | .v n => if (x.reg n).full then x.setReg step n { bits := v, tag := Ty.n32.tag } else x
  | _ => x

end Sys2Proof.Machine
end

