-- ==== Sys2Proof/Machine/Shapes.lean ====
section
/-! DEFINITION. The opcode map's columns (R118, R121-R123, R127) and the operand roles of each reference
entry, as one `Shape` per instruction; from it the checks that the word alone decides (R125). -/

namespace Sys2Proof

/-- How an instruction reads a source operand. -/
inductive Read where
  /-- Not a source: the field holds `zero`. -/
  | none
  /-- As the type, under R56. -/
  | as (t : Ty)
  /-- A pair as PTR. -/
  | ptr
  /-- Copied without a format test, in the type's width (R325). -/
  | copy (t : Ty)
  /-- A reservoir or distribution image (R61). -/
  | img (tag : Tag) (n : Nat)
  /-- `n` consecutive main registers (or pairs) each read as the type. -/
  | grp (n : Nat) (t : Ty)
  /-- A register and the next, each read as `f32`: the coordinates of a texture instruction (R354). -/
  | coords
  /-- The uniform registers of `tev` (R77). -/
  | deltas
  /-- A main register whose fill is awaited, or `zero` where allowed (R306). -/
  | awaited (zeroOk : Bool)
  /-- The member mask of `lane` (R240). -/
  | members
  /-- A named result of a seal (R27). -/
  | result
  deriving DecidableEq, Repr

/-- What an instruction writes to D. -/
inductive Write where
  | none
  /-- One register or pair in the type. -/
  | as (t : Ty)
  /-- A pair tagged PTR. -/
  | ptr
  | img (tag : Tag) (n : Nat)
  /-- `n` consecutive main registers. -/
  | grp (n : Nat)
  /-- Texel registers and status of `tex` (R354). -/
  | texels (t : Ty)
  /-- A named result of a seal (R27). -/
  | result
  deriving DecidableEq, Repr

/-- When D is written: at issue, by a long-latency producer, or when the lane is released (R47). -/
inductive When where
  | issue | fill | release
  deriving DecidableEq, Repr

/-- Word formats (R118). -/
inductive Form where
  | rrrr | ri | m | x | s
  deriving DecidableEq, Repr

/-- The columns of an instruction's row and its entry's fixed fields. -/
structure Shape where
  form  : Form
  op    : Nat
  fn    : Nat
  /-- Accepted types; empty for an instruction marked "—", which has TY = 0 (R122). -/
  types : List Ty
  /-- Whether the MD value is allowed (R123). -/
  md    : Bool
  d     : Write
  when  : When := .issue
  a     : Read := .none
  b     : Read := .none
  c     : Read := .none
  /-- Whether IMM16 or imm32 holds a value the entry defines. -/
  imm   : Bool
  /-- Whether TM = 1 is accepted (R121). -/
  tm    : Bool
  /-- Executed once, by the lowest active lane whose guard is true (R198). -/
  once  : Bool := false
  /-- Further conditions of the entry that the word alone decides. -/
  also  : Bool := true
  deriving DecidableEq, Repr

/-- MD class rs (R123): modes 0 to 4; integer types round nothing. -/
def mdRS (f : Fields) (rounds : Bool) : Bool := if rounds then f.rm ≤ 4 else f.rm == 0

/-- MD class r (R123); `sr` says whether stochastic rounding is allowed. -/
def mdR (f : Fields) (sr : Bool) : Bool := !f.sat && (if sr then f.rm ≤ 4 else f.rm ≤ 3)

/-- MD class 0. -/
def md0 (f : Fields) : Bool := f.md == 0

/-- MD class ev (R123). -/
def mdEv (f : Fields) : Bool := f.md.toNat ≤ 2

/-- System registers of R68: the type of the tag that a read gives; `sys.faddr`, whose tag is PTR, is a pair like `n64`. -/
def sysRegTag : Nat → Option Ty
  | 0x07 | 0x08 | 0x0C | 0x0D | 0x0E | 0x18 | 0x19 | 0x1A | 0x1B => some .n64
  | 0x09 | 0x0A | 0x11 | 0x15 => some .b32
  | 0x12 | 0x1C | 0x1D | 0x1E | 0x1F => some .f32
  | 0x00 | 0x01 | 0x02 | 0x03 | 0x04 | 0x05 | 0x06 | 0x0B | 0x0F | 0x10 | 0x13 | 0x14 | 0x16 => some .n32
  | _ => none

/-- The system-register number of a word (R68). -/
def Fields.sysReg (f : Fields) : Nat := natBits f.imm.toNat 7 0

/-- Source type and group of `cvt` (R287). -/
def Fields.cvtST (f : Fields) : Ty := Ty.ofCode (natBits f.imm.toNat 3 0)
def Fields.cvtG (f : Fields) : Nat := natBits f.imm.toNat 6 4

/-- Registers that the source of `cvt` spans, counted in values of ST (R287). -/
def cvtRegs (dt st : Ty) : Nat :=
  if dt == .b32 || st == .b32 then 1 else max 1 (dt.perReg / st.perReg)

/-- Limits of `cvt` that the word decides (R287, R288). -/
def cvtOk (f : Fields) : Bool :=
  let st := f.cvtST
  let dt := f.ty
  st != .i4o && natBits f.imm.toNat 15 7 == 0 &&
  (if dt == .b32 || st == .b32 then f.cvtG == 0 && f.md == 0 && !dt.wide && !st.wide
   else if dt.perReg ≥ st.perReg then f.cvtG == 0 else f.cvtG < st.perReg / dt.perReg)

/-- Result type of `dot2` and `dot4` (R297). -/
def dotResult (t : Ty) : Ty :=
  if t.isFloat then .f32 else if t.isSigned then .s32 else .n32

/-- Code registers of a `cvtblk` block (R289). -/
def blkRegs (t : Ty) : Nat := if t == .i4o then 4 else 8

/-- A register form with one result in TY. -/
def shapeR (op : Nat) (f : Fields) (types : List Ty) (md : Bool) (d : Write) (a b c : Read)
    (imm : Bool := f.imm == 0) (tm : Bool := true) : Shape :=
  { form := .rrrr, op := op, fn := 0, types := types, md := md, d := d, a := a, b := b, c := c, imm := imm, tm := tm }

/-- A memory form: A is the address, IMM16 the offset. -/
def shapeM (op fn : Nat) (f : Fields) (types : List Ty) (md : Bool) (d : Write) (when : When) (b c : Read)
    (tm : Bool) : Shape :=
  { form := .m, op := op, fn := fn, types := types, md := md, d := d, when := when, a := .ptr, b := b, c := c,
    imm := f.imm32 == 0, tm := tm }

/-- A form without types or modifiers. -/
def shapeN (op fn : Nat) (f : Fields) (d : Write) (when : When) (a b c : Read) (tm : Bool)
    (imm : Bool := f.imm == 0) (once : Bool := false) (also : Bool := true) : Shape :=
  { form := .rrrr, op := op, fn := fn, types := [], md := md0 f, d := d, when := when, a := a, b := b, c := c,
    imm := imm, tm := tm, once := once, also := also }

/-- Two-operand float or integer arithmetic of class rs. -/
def shapeArith (op : Nat) (f : Fields) (types : List Ty) : Shape :=
  shapeR op f types (mdRS f f.ty.isFloat) (.as f.ty) (.as f.ty) (.as f.ty) .none

/-- Predicate bits of IMM16 alone. -/
def immPred (f : Fields) : Bool := natBits f.imm.toNat 15 3 == 0

/-- Component and element of `tget` and `tset`; whether k < K is decided at issue (R77, R353). -/
def immComp (f : Fields) : Bool :=
  natBits f.imm.toNat 15 4 == 0 && (f.ty.perReg == 2 || natBits f.imm.toNat 3 3 == 0)

/-- Types of an atomic (R127). -/
def atomTypes (fn : Nat) : List Ty :=
  Ty.clsI ++ (if 3 ≤ fn then [.b32] else []) ++ (if fn ≤ 2 || fn == 6 then [.f32] else [])

def shapeAtom (fn : Nat) (f : Fields) : Shape :=
  shapeM 0x50 fn f (atomTypes fn) (md0 f) (.as f.ty) .fill (.as f.ty) .none true

def shapeMconst (fn : Nat) (f : Fields) (b : Read) : Shape :=
  { form := .rrrr, op := 0x62, fn := fn, types := Ty.clsMX, md := md0 f, d := .none, a := .as .n32, b := b,
    imm := f.imm == 0, tm := false, once := true }

def shapeVote (fn : Nat) (f : Fields) (d : Write) (tm : Bool) : Shape :=
  shapeN 0x23 fn f d .issue .none .none .none tm
    (imm := natBits f.imm.toNat 15 7 == 0 && (fn != 2 || natBits f.imm.toNat 6 4 == 0))

def shapeDist (op fn : Nat) (f : Fields) : Shape :=
  let src := fun (i : Nat) => if f.imm.getLsbD i then Read.as .f32 else .img Tag.dis 16
  shapeN op fn f (.img Tag.dis 16) .issue (src 0) (src 1) .none true
    (imm := f.imm.toNat ≤ 2)

def shapeTex (op fn : Nat) (f : Fields) (c : Read) : Shape :=
  { form := .rrrr, op := op, fn := fn, types := [.f32, .f16], md := md0 f, d := .texels f.ty, when := .fill,
    a := .coords, b := .ptr, c := c, imm := true, tm := true }

def shapeX (op fn : Nat) (f : Fields) (d : Write) (tm : Bool) : Shape :=
  { form := .x, op := op, fn := fn, types := [], md := md0 f, d := d, a := if fn == 0 then .none else .ptr,
    imm := f.imm == 0 && (fn == 0 || f.imm32 == 0), tm := tm }

def shapeLane (fn : Nat) (f : Fields) : Shape :=
  { form := .rrrr, op := 0x40, fn := fn, types := Ty.all, md := md0 f, d := .as f.ty, a := .copy f.ty,
    b := .as .n32, c := .members, imm := f.imm == 0, tm := true }

/-- Types of `lred` and `lscan` (R127). -/
def lredTypes (op : Nat) : List Ty := if op ≤ 2 then Ty.clsF ++ Ty.clsI else .b32 :: Ty.clsI

def shapeLred (opc fn op : Nat) (f : Fields) : Shape :=
  { form := .rrrr, op := opc, fn := fn, types := lredTypes op,
    md := if op == 0 && f.ty.isFloat then mdR f false else md0 f,
    d := .as f.ty, a := .as f.ty, imm := f.imm == 0, tm := true }

def shapeLog (op : Nat) (f : Fields) : Shape :=
  shapeR op f (.b32 :: Ty.clsI ++ Ty.clsP) (md0 f) (.as f.ty) (.as f.ty) (.as f.ty) .none

def shapeShift (op : Nat) (f : Fields) : Shape :=
  shapeR op f (.b32 :: Ty.clsI ++ Ty.clsP) (md0 f) (.as f.ty) (.as f.ty) (.as .n32) .none

def shapeSpecial (op : Nat) (f : Fields) : Shape :=
  shapeR op f [.f32, .f16, .bf16] (md0 f) (.as f.ty) (.as f.ty) .none .none

/-- How `setsr` reads A (R344): as the tag that R68 gives the register, PTR for `sys.faddr`. -/
def Fields.setsrRead (f : Fields) : Read := if f.sysReg == 0x0D then .ptr else .as ((sysRegTag f.sysReg).getD .n32)

/-- `setsr`: any listed register is encodable; a register that is not writable raises `E_PERM` at issue (R68). -/
def shapeSetsr (f : Fields) (mine : Bool) : Shape :=
  shapeN 0xA9 0 f .none .issue f.setsrRead .none .none false
    (imm := natBits f.imm.toNat 15 8 == 0 && (sysRegTag f.sysReg).isSome) (also := mine)

def shapeSysc (f : Fields) (mine : Bool) : Shape :=
  shapeN 0xAA 0 f (.as .n64) .issue (.as .n64) .none .none true (imm := true) (also := mine)

/-- A seal: Y and W are FN bits 0 and 1; it names up to three results (R25, R27). -/
def shapeSeal (f : Fields) (y w : Bool) : Shape :=
  { form := .s, op := 0x97, fn := (if y then 1 else 0) + (if w then 2 else 0), types := [], md := md0 f,
    d := .result, a := .result, b := .result, c := .none, imm := f.imm == 0, tm := false,
    also := f.fe == 0 && f.rt == 0 && f.guard == Guard.mk false 7 }

/-- The shape of an instruction that has a word; none for a device event (log 1). -/
def Instr.shape : Instr → Option Shape
  | .abs f => some (shapeR 0x00 f (Ty.clsF ++ Ty.clsE ++ [.s32, .s64, .s16x2, .s8x4]) (md0 f) (.as f.ty) (.as f.ty) .none .none)
  | .neg f => some (shapeR 0x0D f (Ty.clsF ++ Ty.clsE ++ [.s32, .s64, .s16x2, .s8x4]) (md0 f) (.as f.ty) (.as f.ty) .none .none)
  | .add f => some (shapeArith 0x01 f (Ty.clsF ++ Ty.clsE ++ Ty.clsI ++ Ty.clsP))
  | .sub f => some (shapeArith 0x0F f (Ty.clsF ++ Ty.clsE ++ Ty.clsI ++ Ty.clsP))
  | .addc f => some (shapeR 0x02 f Ty.clsN (md0 f) (.as f.ty) (.as f.ty) (.as f.ty) .none
      (imm := natBits f.imm.toNat 15 7 == 0 && (f.imm.getLsbD 6 || natBits f.imm.toNat 5 3 == 0)))
  | .div f => some (shapeArith 0x03 f (Ty.clsF ++ Ty.clsI))
  | .rem f => some (shapeR 0x0E f Ty.clsI (md0 f) (.as f.ty) (.as f.ty) (.as f.ty) .none)
  | .dot2 f => some (shapeR 0x04 f [.f16, .bf16, .s16x2, .n16x2] (mdRS f f.ty.isFloat) (.as (dotResult f.ty)) (.as f.ty) (.as f.ty) (.as (dotResult f.ty)))
  | .dot4 f => some (shapeR 0x05 f (Ty.clsE ++ [.s8x4, .n8x4]) (mdRS f f.ty.isFloat) (.as (dotResult f.ty)) (.as f.ty) (.as f.ty) (.as (dotResult f.ty)))
  | .fma f => some (shapeR 0x06 f (Ty.clsF ++ Ty.clsE) (mdRS f true) (.as f.ty) (.as f.ty) (.as f.ty) (.as f.ty))
  | .frnd f => some (shapeR 0x07 f Ty.clsF (mdR f false) (.as f.ty) (.as f.ty) .none .none)
  | .max f => some (shapeR 0x08 f (Ty.clsF ++ Ty.clsE ++ Ty.clsI ++ Ty.clsP) (md0 f) (.as f.ty) (.as f.ty) (.as f.ty) .none)
  | .min f => some (shapeR 0x09 f (Ty.clsF ++ Ty.clsE ++ Ty.clsI ++ Ty.clsP) (md0 f) (.as f.ty) (.as f.ty) (.as f.ty) .none)
  | .mul f => some (shapeArith 0x0A f (Ty.clsF ++ Ty.clsE ++ Ty.clsI ++ Ty.clsP))
  | .mul24 f => some (shapeR 0x0B f [.s32, .n32] (md0 f) (.as f.ty) (.as f.ty) (.as f.ty) .none)
  | .mulhi f => some (shapeR 0x0C f Ty.clsI (md0 f) (.as f.ty) (.as f.ty) (.as f.ty) .none)
  | .and f => some (shapeLog 0x10 f)
  | .or f => some (shapeLog 0x18 f)
  | .xor f => some (shapeLog 0x1F f)
  | .not f => some (shapeR 0x17 f (.b32 :: Ty.clsI ++ Ty.clsP) (md0 f) (.as f.ty) (.as f.ty) .none .none)
  | .bfe f => some (shapeR 0x11 f Ty.clsI (md0 f) (.as f.ty) (.as f.ty) (.as .n32) .none)
  | .bfi f => some (shapeR 0x12 f (.b32 :: Ty.clsN) (md0 f) (.as f.ty) (.as f.ty) (.as f.ty) (.as .n32))
  | .brev f => some (shapeR 0x13 f (.b32 :: Ty.clsN) (md0 f) (.as f.ty) (.as f.ty) .none .none)
  | .clz f => some (shapeR 0x14 f (.b32 :: Ty.clsN) (md0 f) (.as .n32) (.as f.ty) .none .none)
  | .popc f => some (shapeR 0x19 f (.b32 :: Ty.clsN) (md0 f) (.as .n32) (.as f.ty) .none .none)
  | .mov f => some (shapeR 0x15 f Ty.all (md0 f) (.as f.ty) (.copy f.ty) .none .none)
  | .sel f => some (shapeR 0x1B f Ty.all (md0 f) (.as f.ty) (.copy f.ty) (.copy f.ty) .none (imm := natBits f.imm.toNat 15 4 == 0))
  | .movi f => some { form := .ri, op := 0x16, fn := 0, types := Ty.all.filter (· != .i4o), md := md0 f, d := .as f.ty, imm := f.imm == 0, tm := true }
  | .rotL f => some (shapeR 0x1A f (.b32 :: Ty.clsN) (md0 f) (.as f.ty) (.as f.ty) (.as .n32) .none)
  | .rotR f => some { shapeR 0x1A f (.b32 :: Ty.clsN) (md0 f) (.as f.ty) (.as f.ty) (.as .n32) .none with fn := 1 }
  | .shl f => some (shapeShift 0x1C f)
  | .shr f => some (shapeShift 0x1D f)
  | .sra f => some (shapeShift 0x1E f)
  | .cmp f cond => some { shapeR 0x20 f (Ty.clsF ++ Ty.clsE ++ (if cond.val < 6 then .b32 :: Ty.clsI else [])) (md0 f) .none (.as f.ty) (.as f.ty) .none
      (imm := immPred f) (tm := false) with fn := cond.val }
  | .matchKey f => some (shapeR 0x21 f [.b32, .s32, .n32, .s64, .n64, .f32, .f64] (md0 f) (.as .n64) (.as f.ty) .none .none (imm := immPred f))
  | .plog f op => some (shapeN 0x22 op.val f .none .issue .none .none .none false
      (imm := natBits f.imm.toNat 15 9 == 0 && (op.val != 4 || natBits f.imm.toNat 8 6 == 0)))
  | .voteAll f => some (shapeVote 0 f .none false)
  | .voteAny f => some (shapeVote 1 f .none false)
  | .voteBallot f => some (shapeVote 2 f (.as .n64) true)
  | .cvt f => some (shapeR 0x28 f (Ty.all.filter (· != .i4o)) (mdRS f (f.ty.isFloat || f.cvtST.isFloat)) (.as f.ty)
      (if cvtRegs f.ty f.cvtST ≤ 1 then .as f.cvtST else .grp (cvtRegs f.ty f.cvtST) f.cvtST) .none .none (imm := cvtOk f))
  | .cvtblkEnc f => some (shapeR 0x29 f (Ty.clsE ++ [.i4o]) (mdR f true) (.grp (blkRegs f.ty + 1)) (.grp 32 .f32) .none .none)
  | .cvtblkDec f => some { shapeR 0x29 f (Ty.clsE ++ [.i4o]) (md0 f) (.grp 32) (.grp (blkRegs f.ty) f.ty) (.as .n32) .none with fn := 1 }
  | .pack4 f => some (shapeR 0x2A f (Ty.clsE ++ [.s8x4, .n8x4, .i4o]) (mdRS f f.ty.isFloat) (.as f.ty)
      (.grp 4 (match f.ty with | .s8x4 => .s32 | .n8x4 => .n32 | .i4o => .s32 | _ => .f32))
      (if f.ty == .i4o then .as .i4o else .none) .none
      (imm := if f.ty == .i4o then f.imm.toNat ≤ 1 else f.imm == 0))
  | .unpk4 f => some (shapeR 0x2B f (Ty.clsE ++ [.s8x4, .n8x4, .i4o]) (md0 f) (.grp 4) (.as f.ty) .none .none
      (imm := if f.ty == .i4o then f.imm.toNat ≤ 1 else f.imm == 0))
  | .cos f => some (shapeSpecial 0x30 f)
  | .ex2 f => some (shapeSpecial 0x31 f)
  | .lg2 f => some (shapeSpecial 0x32 f)
  | .rsq f => some (shapeSpecial 0x34 f)
  | .sin f => some (shapeSpecial 0x35 f)
  | .rcp f => some (shapeR 0x33 f Ty.clsF (mdR f false) (.as f.ty) (.as f.ty) .none .none)
  | .sqrt f => some (shapeR 0x36 f Ty.clsF (mdR f false) (.as f.ty) (.as f.ty) .none .none)
  | .tev f => some (shapeR 0x38 f [.f32, .f64] (md0 f) (.as f.ty) (.as f.ty) .deltas .none)
  | .tget f => some (shapeR 0x39 f Ty.clsF (md0 f) (.as .f32) (.as f.ty) .none .none (imm := immComp f) (tm := false))
  | .tset f => some (shapeR 0x3A f Ty.clsF (md0 f) (.as f.ty) (.as f.ty) (.as .f32) .none (imm := immComp f) (tm := false))
  | .tzero f => some (shapeR 0x3B f Ty.clsF (md0 f) (.as f.ty) (.as f.ty) .none .none (tm := false))
  | .laneRank f => some (shapeLane 0 f)
  | .laneBack f => some (shapeLane 1 f)
  | .laneFwd f => some (shapeLane 2 f)
  | .laneMate f => some (shapeLane 3 f)
  | .lred f op => some (shapeLred 0x41 op.val op.val f)
  | .lscan f op ex => some (shapeLred 0x42 (op.val + if ex then 8 else 0) op.val f)
  | .ld f => some (shapeM 0x48 0 f Ty.all (mdEv f) (.as f.ty) .fill .none .none true)
  | .st f => some (shapeM 0x4B 0 f Ty.all (mdEv f) .none .issue (.as f.ty) .none false)
  | .spc f => some (shapeN 0x49 0 f (.as .n32) .issue .ptr .none .none true)
  | .spcastSp f => some (shapeN 0x4A 0 f .ptr .issue (.as .n32) .none .none true)
  | .spcastSpan f => some (shapeN 0x4A 1 f .ptr .issue (.as .n32) (.as .n32) .none true)
  | .spcastOff f => some (shapeN 0x4A 2 f (.as .n32) .issue .ptr .none .none true)
  | .atomAdd f => some (shapeAtom 0 f)
  | .atomMin f => some (shapeAtom 1 f)
  | .atomMax f => some (shapeAtom 2 f)
  | .atomAnd f => some (shapeAtom 3 f)
  | .atomOr f => some (shapeAtom 4 f)
  | .atomXor f => some (shapeAtom 5 f)
  | .atomExch f => some (shapeAtom 6 f)
  | .atomcas f => some (shapeM 0x51 0 f (.b32 :: Ty.clsI) (md0 f) (.as f.ty) .fill (.as f.ty) (.as f.ty) true)
  | .fence f scope => some (shapeN 0x52 scope.val f .none .issue .none .none .none false)
  | .fenceSys f => some (shapeN 0x52 5 f .none .issue .none .none .none false)
  | .cpl f size => some (shapeM 0x59 size.val f [] (md0 f) (.as .n32) .fill .ptr .none true)
  | .cpt f => some (shapeN 0x5A 0 f (.as .n64) .issue .ptr .none .none true)
  | .cpkick f => some (shapeN 0x58 0 f (.as .n64) .issue .ptr (.as .n32) .none true)
  | .mamax f => some (shapeN 0x60 0 f (.as .f32) .issue .none .none .none true (imm := f.imm.toNat ≤ 3))
  | .mamaxClr f => some (shapeN 0x60 1 f (.as .f32) .issue .none .none .none true (imm := f.imm.toNat ≤ 3))
  | .mclaim f => some (shapeN 0x61 0 f (.as .n32) .issue (.as .n32) .none .none true (once := true))
  | .mrel f => some (shapeN 0x67 0 f .none .issue (.as .n32) .none .none false (once := true))
  | .mld f => some { shapeM 0x65 0 f Ty.clsMX (md0 f) .none .issue (.as .n32) (.as .n32) false with once := true }
  | .mldT f => some { shapeM 0x65 1 f Ty.clsMX (md0 f) .none .issue (.as .n32) (.as .n32) false with once := true }
  | .mconstIdent f => some (shapeMconst 0 f .none)
  | .mconstExch f => some (shapeMconst 1 f .none)
  | .mconstPerm f => some (shapeMconst 2 f .ptr)
  | .mconstOnesrow f => some (shapeMconst 3 f .none)
  | .mconstOnescol f => some (shapeMconst 4 f .none)
  | .mconstShift f => some (shapeMconst 5 f (.as .s32))
  | .mma f => some (shapeN 0x66 0 f .none .issue .ptr .none .none false (once := true))
  | .mdual f => some (shapeN 0x63 0 f .none .issue .ptr .none .none false (once := true))
  | .mfence f => some (shapeN 0x64 0 f .none .issue .none .none .none false)
  | .mwait f => some (shapeN 0x68 0 f (.as .n32) .release .none .none .none true)
  | .rsvinit f => some (shapeN 0x72 0 f (.img Tag.rsv 8) .issue .none .none .none true)
  | .rsvupd f => some (shapeN 0x76 0 f (.img Tag.rsv 8) .issue (.grp 4 .b32) (.as .f32) (.as .f32) true)
  | .rsvmerge f => some (shapeN 0x74 0 f (.img Tag.rsv 8) .issue (.img Tag.rsv 8) (.as .f32) (.as .n32) true)
  | .rsvfin f => some (shapeN 0x70 0 f (.img Tag.rsv 8) .issue (.img Tag.rsv 8) .none .none true)
  | .rsvget f => some (shapeN 0x71 0 f (.as (match natBits f.imm.toNat 2 0 with | 4 | 5 | 7 => .f32 | 6 => .n32 | _ => .b32)) .issue
      (.img Tag.rsv 8) .none .none true (imm := f.imm.toNat ≤ 7))
  | .rsvld f => some (shapeM 0x73 0 f [] (md0 f) (.img Tag.rsv 8) .fill .none .none true)
  | .rsvst f => some (shapeM 0x75 0 f [] (md0 f) .none .issue (.img Tag.rsv 8) .none false)
  | .dset f => some (shapeN 0x7D 0 f (.img Tag.dis 16) .issue (.grp 8 .f32) (.grp 8 .f32) (.as .n32) true)
  | .dtag f => some (shapeN 0x7F 0 f (.img Tag.dis 16) .issue (.img Tag.dis 16) .none .none true)
  | .dadd f => some (shapeDist 0x78 0 f)
  | .daddSub f => some (shapeDist 0x78 1 f)
  | .dmul f => some (shapeDist 0x7B 0 f)
  | .dmomMean f => some (shapeN 0x7A 0 f (.as .f32) .issue (.img Tag.dis 16) .none .none true)
  | .dmomVar f => some (shapeN 0x7A 1 f (.as .f32) .issue (.img Tag.dis 16) .none .none true)
  | .dmomM3 f => some (shapeN 0x7A 2 f (.as .f32) .issue (.img Tag.dis 16) .none .none true)
  | .dmomMin f => some (shapeN 0x7A 3 f (.as .f32) .issue (.img Tag.dis 16) .none .none true)
  | .dmomMax f => some (shapeN 0x7A 4 f (.as .f32) .issue (.img Tag.dis 16) .none .none true)
  | .dqtl f => some (shapeN 0x7C 0 f (.as .f32) .issue (.img Tag.dis 16) (.as .f32) .none true)
  | .dld f => some (shapeM 0x79 0 f [] (md0 f) (.img Tag.dis 16) .fill .none .none true)
  | .dsto f => some (shapeM 0x7E 0 f [] (md0 f) .none .issue (.img Tag.dis 16) .none false)
  | .splsub f => some (shapeN 0x80 0 f (.as .n32) .fill .ptr .none .none true)
  | .splwait f => some (shapeN 0x81 0 f .none .issue (.awaited false) .none .none false)
  | .tex f => some (shapeTex 0x82 0 f .none)
  | .texLod f => some (shapeTex 0x82 1 f .none)
  | .texd f => some (shapeTex 0x83 0 f (.as .n32))
  | .coll f => some (shapeN 0x88 0 f (.as .n32) .fill .ptr .none .none true (once := true))
  | .collwait f => some (shapeN 0x89 0 f .none .issue (.awaited false) .none .none false)
  | .bra f => some (shapeX 0x90 0 f .none false)
  | .jmp f => some (shapeX 0x94 0 f .none false)
  | .jmpInd f => some (shapeX 0x94 1 f .none false)
  | .call f => some (shapeX 0x92 0 f (.as .n64) true)
  | .callInd f => some (shapeX 0x92 1 f (.as .n64) true)
  | .ret f => some (shapeN 0x96 0 f .none .issue .none .none .none false)
  | .retX f => some (shapeN 0x96 1 f .none .issue .none .none .none false)
  | .retXSkip f => some (shapeN 0x96 2 f .none .issue .none .none .none false)
  | .exit f => some (shapeN 0x93 0 f .none .issue .none .none .none false)
  | .brk f => some (shapeN 0x91 0 f .none .issue .none .none .none false)
  | .trap f => some (shapeN 0x99 0 f .none .issue .none .none .none false (imm := true))
  | .nop f => some (shapeN 0x95 0 f .none .issue .none .none .none false)
  | .seal f y w => some (shapeSeal f y w)
  | .bar f => some (shapeM 0xA0 0 f [] (md0 f) (.as .n32) .release .none .none true)
  | .bararr f => some (shapeM 0xA1 0 f [] (md0 f) (.as .n32) .issue .none .none true)
  | .barinit f => some (shapeM 0xA2 0 f [] (md0 f) .none .issue (.as .n32) .none false)
  | .barinv f => some (shapeM 0xA3 0 f [] (md0 f) .none .issue .none .none false)
  | .barwait f => some (shapeM 0xA4 0 f [] (md0 f) (.as .n32) .release (.as .n32) .none true)
  | .fwait f => some (shapeN 0xA5 0 f .none .issue (.awaited true) (.awaited true) (.awaited true) false)
  | .getsr f => some (shapeN 0xA8 0 f (.as ((sysRegTag f.sysReg).getD .n32)) .issue .none .none .none true
      (imm := natBits f.imm.toNat 15 8 == 0 && (sysRegTag f.sysReg).isSome))
  | .setsrSeed f => some (shapeSetsr f (f.imm != 0x0A && f.imm != 0x12 && f.imm != 0x15))
  | .setsrMode f => some (shapeSetsr f (f.imm == 0x0A))
  | .setsrSplAlpha f => some (shapeSetsr f (f.imm == 0x12))
  | .setsrPwrRatio f => some (shapeSetsr f (f.imm == 0x15))
  | .syscPagein f => some (shapeSysc f (f.imm == 1))
  | .syscAbort f => some (shapeSysc f (f.imm == 2))
  | .syscVersion f => some (shapeSysc f (f.imm != 1 && f.imm != 2))
  | .task f => some (shapeN 0x98 0 f (.as .n32) .issue .ptr .none .none false)
  | .tstamp f => some (shapeN 0xAB 0 f (.as .n64) .issue .none .none .none false)
  | _ => none

end Sys2Proof
end

