-- ==== Sys2Proof/Machine/Legal.lean ====
section
/-! DEFINITION. The checks of R125 that the word alone decides, up to the run's length: types, modifiers, guard and
operand names (R47-R49, R61, R118, R121-R123). -/

namespace Sys2Proof

/-- Whether a name may hold a value of one register or a pair (R47-R49): `lits` tells which literals may stand. -/
def Name.okVal (n : Name) (wide : Bool) (lits : Lit → Bool) : Bool :=
  match n with
  | .v k => !wide || k.val % 2 == 0
  | .w k => !wide || k.val % 2 == 0
  | .o _ | .q _ | .zero => true
  | .lit l => lits l

/-- Whether a name starts `n` main registers inside the file. -/
def Name.okGroup (x : Name) (n : Nat) : Bool :=
  match x with
  | .v k => k.val + n ≤ 448
  | _ => false

/-- Whether a name is the base of an image of `n` registers (R61). That `zero`, a destination by R47 and a literal by R48's
table, is none, and raises `E_ILL` as D too, is the model's choice (log 17). -/
def Name.okImage (x : Name) (n : Nat) : Bool :=
  match x with
  | .v k => k.val % n == 0
  | _ => false

/-- Source names (R47). -/
def Read.ok (r : Read) (x : Name) : Bool :=
  match r with
  | .none => x == .zero
  | .as t | .copy t => x.okVal t.wide (·.okIn t)
  | .ptr => x.okVal true (·.okIn .n64)
  | .img _ n => x.okImage n
  | .grp n t => x.okGroup (if t.wide then 2 * n else n) && x.okVal t.wide (fun _ => false)
  | .coords => match x with
    | .v k => k.val % 2 == 0
    | .o k => k.val % 2 == 0
    | .w k => k.val % 2 == 0
    | .q k => k.val % 2 == 0
    | .zero | .lit _ => false
  | .deltas => match x with | .w _ => true | _ => false
  | .awaited z => match x with | .v _ => true | .zero => z | _ => false
  | .members => match x with | .lit l => l == .allones | _ => x.okVal true (fun _ => false)
  | .result => match x with | .v _ | .zero => true | _ => false

/-- Destination names (R47): a result that is not written at issue goes to a main register or nowhere. -/
def Write.ok (w : Write) (now : Bool) (x : Name) : Bool :=
  let one := fun (wide : Bool) => match x with
    | .v k => !wide || k.val % 2 == 0
    | .o _ => now
    | .w k => now && (!wide || k.val % 2 == 0)
    | .zero => true
    | .q _ | .lit _ => false
  match w with
  | .none => x == .zero
  | .as t => one t.wide
  | .ptr => one true
  | .img _ n => x.okImage n
  | .grp n => x.okGroup n
  | .texels _ => x.okImage 8
  | .result => match x with | .v _ | .zero => true | _ => false

/-- Whether the fields meet a shape (R125 up to the entry's fixed fields). -/
def Shape.ok (s : Shape) (f : Fields) : Bool :=
  !(f.guard.neg && f.guard.pred == 7) && (!f.tz || s.tm) &&
  (if s.types.isEmpty then f.ty == .b32 else s.types.contains f.ty) && s.md && s.imm && s.also &&
  s.d.ok (s.when == .issue) f.d && s.a.ok f.a && s.b.ok f.b && s.c.ok f.c &&
  (match s.form with
   | .ri | .x => f.imm == 0
   | _ => f.imm32 == 0)

/-- The fields of an instruction that has a word. -/
def Instr.fields? : Instr → Option Fields
  | .abs f | .neg f | .add f | .sub f | .addc f | .div f | .rem f | .dot2 f | .dot4 f | .fma f | .frnd f | .max f
  | .min f | .mul f | .mul24 f | .mulhi f | .and f | .or f | .xor f | .not f | .bfe f | .bfi f | .brev f | .clz f
  | .popc f | .mov f | .sel f | .movi f | .rotL f | .rotR f | .shl f | .shr f | .sra f | .cmp f _ | .matchKey f
  | .plog f _ | .voteAll f | .voteAny f | .voteBallot f | .cvt f | .cvtblkEnc f | .cvtblkDec f | .pack4 f | .unpk4 f
  | .cos f | .sin f | .ex2 f | .lg2 f | .rsq f | .rcp f | .sqrt f | .tev f | .tget f | .tset f | .tzero f
  | .laneRank f | .laneBack f | .laneFwd f | .laneMate f | .lred f _ | .lscan f _ _ | .ld f | .st f | .spc f
  | .spcastSp f | .spcastSpan f | .spcastOff f | .atomAdd f | .atomMin f | .atomMax f | .atomAnd f | .atomOr f
  | .atomXor f | .atomExch f | .atomcas f | .fence f _ | .fenceSys f | .cpl f _ | .cpt f | .cpkick f | .mamax f
  | .mamaxClr f | .mclaim f | .mrel f | .mld f | .mldT f | .mconstIdent f | .mconstExch f | .mconstPerm f
  | .mconstOnesrow f | .mconstOnescol f | .mconstShift f | .mma f | .mdual f | .mfence f | .mwait f | .rsvinit f
  | .rsvupd f | .rsvmerge f | .rsvfin f | .rsvget f | .rsvld f | .rsvst f | .dset f | .dtag f | .dadd f | .daddSub f
  | .dmul f | .dmomMean f | .dmomVar f | .dmomM3 f | .dmomMin f | .dmomMax f | .dqtl f | .dld f | .dsto f | .splsub f
  | .splwait f | .tex f | .texLod f | .texd f | .coll f | .collwait f | .bra f | .jmp f | .jmpInd f | .call f
  | .callInd f | .ret f | .retX f | .retXSkip f | .exit f | .brk f | .trap f | .nop f | .seal f _ _ | .bar f
  | .bararr f | .barinit f | .barinv f | .barwait f | .fwait f | .getsr f | .setsrSeed f | .setsrMode f
  | .setsrSplAlpha f | .setsrPwrRatio f | .syscPagein f | .syscAbort f | .syscVersion f | .task f | .tstamp f => some f
  | .barrierWakeWave .. | .pwrRatioEffect .. | .loadFill .. | .atomicReturn .. | .cplComplete .. | .bulkCopyRow ..
  | .bulkCopyFail .. | .mldFill .. | .matrixDrain .. | .matrixCommandFail .. | .mclaimGrant .. | .texComplete ..
  | .splatBatchComplete .. | .collComplete .. | .rankDropout .. | .faultResolve .. | .faultDecline ..
  | .integrityRefetch .. | .fetchFault .. | .fetchFaultResolved .. | .uncorrectableStateError .. | .preemptRequest ..
  | .spanRestore .. | .leaseExpiry .. | .syscAnswer .. | .nxQueueCreate .. | .nxQueueDestroy .. | .nxLaunch ..
  | .nxSignalWait .. | .signalWaitTimeout .. | .nxVfReport .. | .nxObjectLoad .. | .nxTaskFault .. | .arbiterSelect
  | .vfSliceExpiry | .gracePeriodExpiry | .rduEnter .. | .dispatchSpan .. | .taskComplete .. | .lostLocalityWindow ..
  | .droopDetect .. | .droopStretchEnd .. | .droopHalveEnd .. | .idleEnter | .idleExit | .latencyToleranceReport ..
  | .pageMigrate .. | .pageTableChange .. | .hostLinkTrain .. | .floebNegotiate .. | .flitResend .. | .dataEntryCrc ..
  | .bootReset | .imageFetchComplete .. | .dhcpTimeout | .sourceTimeout | .transferBreak | .bootRetryWaitExpiry
  | .spareJoining .. | .correctedError .. | .uncorrectableErrorInFlight .. | .hostRead .. | .controlCoreAccess ..
  | .lineModeSwitch .. | .cxlRootPortTrain .. | .pwrLimitsSet .. | .arbiterParametersSet .. => none

/-- Whether an instruction is one that a word can hold without raising `E_ILL` by the word alone (R125). -/
def Instr.legal (i : Instr) : Bool :=
  match i.shape, i.fields? with
  | some s, some f => s.ok f
  | _, _ => false

end Sys2Proof
end

