-- ==== Sys2Proof/WellFormed.lean ====
section
/-! DEFINITION. Which terms of `Instr` are instructions of the device: a term with a word is well formed when the
word passes the checks of R125 that it decides alone; a device event is well formed (log 1). -/

namespace Sys2Proof

/-- An instruction word without `E_ILL`, or a device event. -/
def Instr.wellFormed (i : Instr) : Bool :=
  match i.fields? with
  | some _ => i.legal
  | none => true

end Sys2Proof
end

