-- ==== Sys2Proof/Machine/Operands.lean ====
section
/-! DEFINITION. Reading operands (R47-R52, R56), writing results (R50, R52, R55, R62, R63) and the one issue rule:
the order of an instruction's checks (R125, R60) before its own effect. -/

namespace Sys2Proof

/-- Main registers of a name: `n` from its base. -/
def Name.mains (x : Name) (n : Nat) : List Nat :=
  match x with | .v k => (List.range n).map (k.val + ·) | _ => []

/-- The name of the next register; an even one has a next in its own file. -/
def Name.next : Name → Name
  | .v k => if h : k.val + 1 < 448 then .v ⟨k.val + 1, h⟩ else .zero
  | .o k => if h : k.val + 1 < 16 then .o ⟨k.val + 1, h⟩ else .zero
  | .w k => if h : k.val + 1 < 16 then .w ⟨k.val + 1, h⟩ else .zero
  | .q k => if h : k.val + 1 < 4 then .q ⟨k.val + 1, h⟩ else .zero
  | x => x

/-- Main registers a source covers, for its FE bit (R58, R265). -/
def Read.mains (r : Read) (x : Name) : List Nat :=
  match r with
  | .none | .deltas | .awaited _ | .result => []
  | .as t | .copy t => Name.mains x (if t.wide then 2 else 1)
  | .ptr | .members | .coords => Name.mains x 2
  | .img _ n => Name.mains x n
  | .grp n t => Name.mains x (if t.wide then 2 * n else n)

/-- Uses of undeclared tangent components (R77, R353). -/
def Instr.kOk (i : Instr) (K : Nat) : Bool :=
  match i with
  | .tev f => match f.b with | .w n => n.val + K ≤ 16 | _ => true
  | .tget f | .tset f => natBits f.imm.toNat 2 0 < K
  | _ => true

def Instr.isSeal : Instr → Bool | .seal .. => true | _ => false

/-- Control and waiting instructions (R25). -/
def Instr.mustSeal : Instr → Bool
  | .bra _ | .jmp _ | .jmpInd _ | .call _ | .callInd _ | .ret _ | .retX _ | .retXSkip _ | .exit _ | .bar _ | .barwait _
  | .fwait _ | .mwait _ | .splwait _ | .collwait _ => true
  | _ => false

end Sys2Proof

namespace Sys2Proof.Machine

/-- What an instruction's effect works on: its environment, fields, acting lanes and bundle. -/
structure Ctx where
  env   : Env
  f     : Fields
  /-- Active lanes whose guard is true, ascending; in a replay the lanes to be performed. -/
  lanes : List Nat
  run   : Run
  pc    : W64
  /-- The instruction is issued again for lanes of a memory access (R151). -/
  again : Bool
  deriving DecidableEq, Repr

def Ctx.wid (c : Ctx) : WavId := c.env.wid
/-- The strand of a lane as it was at issue. -/
def Ctx.lane (c : Ctx) (l : Nat) : Strand := c.env.lane l

/-- A main register, or a pair, as one value (R49, R55). -/
def Strand.value (x : Strand) (n : Nat) (wide : Bool) : Val :=
  let a := x.reg n
  if wide then
    let b := x.reg (n + 1)
    ⟨BitVec.ofNat 64 (a.bits.toNat + b.bits.toNat * 2 ^ 32), if a.tag == b.tag then a.tag else Tag.none, a.tan⟩
  else ⟨a.bits.setWidth 64, a.tag, a.tan⟩

/-- A uniform register, or a pair, as one value (R52). -/
def Wavelet.uval (v : Wavelet) (n : Nat) (wide : Bool) : Val :=
  let a := Sparse.get {} v.w n
  if wide then
    let b := Sparse.get {} v.w (n + 1)
    ⟨BitVec.ofNat 64 (a.bits.toNat + b.bits.toNat * 2 ^ 32), if a.tag == b.tag then a.tag else Tag.none, []⟩
  else ⟨a.bits.setWidth 64, a.tag, []⟩

/-- What a source name holds in a lane, before R56; a literal takes its value and tag in `t` (R48). -/
def Env.raw (e : Env) (l : Nat) (x : Name) (t : Ty) : Val :=
  match x with
  | .v n => (e.lane l).value n t.wide
  | .o n => (Sparse.get none ((e.lane l).o.map fun p => (p.1, some p.2)) n).getD ⟨0, Tag.none, []⟩
  | .q n => (((e.lane l).q[n.val]?).getD none).getD ⟨0, Tag.none, []⟩
  | .w n => e.wav.uval n t.wide
  | .zero => ⟨0, t.tag, []⟩
  | .lit k => Val.ofTy t (k.bits t l)

/-- Whether an operand-file or last-result name is valid in a lane (R51). -/
def Env.valid (e : Env) (l : Nat) (x : Name) : Bool :=
  match x with
  | .o n => (e.lane l).o.any (·.1 == n.val)
  | .q n => ((e.lane l).q[n.val]?).getD none |>.isSome
  | _ => true

/-- Whether all that a source reads in a lane is valid (R51). -/
def Env.validFor (e : Env) (l : Nat) (r : Read) (x : Name) : Bool :=
  r == .none || (e.valid l x && (r != .coords || e.valid l x.next))

/-- A source read as a type (R56); the bits as they stand where R56 would refuse them. -/
def Env.readTy (e : Env) (l : Nat) (x : Name) (t : Ty) : Val :=
  ((e.raw l x t).readAs t e.strict e.ftz e.K).elim ⟨0, t.tag, []⟩ (·.1)

/-- A source read as PTR. -/
def Env.readPtr (e : Env) (l : Nat) (x : Name) : W64 := (e.raw l x .n64).bits

/-- The value of a source field of the instruction. -/
def Ctx.val (c : Ctx) (x : Name) (t : Ty) (l : Nat) : Val := c.env.readTy l x t
def Ctx.nat (c : Ctx) (x : Name) (t : Ty) (l : Nat) : Nat := (c.val x t l).bits.toNat
def Ctx.ptr (c : Ctx) (x : Name) (l : Nat) : W64 := c.env.readPtr l x
/-- Value j of a group of main registers read as a type. -/
def Ctx.grp (c : Ctx) (x : Name) (t : Ty) (l j : Nat) : Val :=
  match x with
  | .v n => (((c.lane l).value (n.val + (if t.wide then 2 * j else j)) t.wide).readAs t c.env.strict c.env.ftz c.env.K).elim
      ⟨0, t.tag, []⟩ (·.1)
  | _ => ⟨0, t.tag, []⟩
/-- Word k of an image. -/
def Ctx.img (c : Ctx) (x : Name) (l k : Nat) : W32 :=
  match x with | .v n => ((c.lane l).reg (n.val + k)).bits | _ => 0

/-- Whether R56, or the tag rule of an image (R61), refuses a source in a lane; and whether reading it sets CNVSAT. The
spec's literal table has no column for PTR: a literal read as PTR gives its `n64` value and meets no tag test, the model's
choice (log 18). -/
def Env.fmt (e : Env) (l : Nat) (r : Read) (x : Name) : Bool × Bool :=
  let one := fun (v : Val) (t : Ty) => match v.readAs t e.strict e.ftz e.K with
    | none => (true, false)
    | some p => (false, p.2)
  let all := fun (ps : List (Bool × Bool)) => (ps.any (·.1), ps.any (·.2))
  match r with
  | .none | .copy _ | .awaited _ | .result => (false, false)
  | .as t => one (e.raw l x t) t
  | .ptr => match x with
    | .zero | .lit _ => (false, false)
    | _ => (!(e.raw l x .n64).readPtr, false)
  | .img tag n => ((Name.mains x n).any fun k => ((e.lane l).reg k).tag != tag, false)
  | .grp n t => match x with
    | .v b => all ((List.range n).map fun j => one ((e.lane l).value (b.val + (if t.wide then 2 * j else j)) t.wide) t)
    | _ => (false, false)
  | .coords => all [one (e.raw l x .f32) .f32, one (e.raw l x.next .f32) .f32]
  | .deltas => match x with
    | .w b => all ((List.range e.K).map fun k => one (e.wav.uval (b.val + k) false) .f32)
    | _ => (false, false)
  | .members => match x with
    | .lit _ => (false, false)
    | _ => one (e.raw l x .n64) .n64

/-- The sources of a lane: policy bit (2 for A, 1 for B, 0 for C), name, reading. `sel` reads the chosen source alone
(R343), `lane` reads C in the lowest lane alone (R240), `dset` reads the first n registers of each group (R299). -/
def sources (i : Instr) (f : Fields) (sh : Shape) (e : Env) (low l : Nat) : List (Nat × Name × Read) :=
  let all := [(2, f.a, sh.a), (1, f.b, sh.b), (0, f.c, sh.c)]
  match i with
  | .sel _ =>
    let p := (e.lane l).pred (natBits f.imm.toNat 2 0) != f.imm.getLsbD 3
    if p then [(2, f.a, sh.a)] else [(1, f.b, sh.b)]
  | .laneRank _ | .laneBack _ | .laneFwd _ | .laneMate _ => if l == low then all else all.take 2
  | .dset _ =>
    let ready := (Name.mains f.c 1).all fun k => ((e.lane l).reg k).full
    let n := if ready then (e.readTy l f.c .n32).bits.toNat else 0
    let n := if 1 ≤ n && n ≤ 8 then n else 0
    [(2, f.a, .grp n .f32), (1, f.b, .grp n .f32), (0, f.c, sh.c)]
  | _ => all

/-- The lane whose A a lane receives (R240): `form` 0 rank, 1 back, 2 fwd, 3 mate; `b` is its B. -/
def laneSource (form : Nat) (m : Mask) (w l b : Nat) : Nat :=
  let ms := m.lanes w
  let c := ms.length
  if !m.has l then l
  else
    let r := (ms.filter (· < l)).length
    let t : Nat := match form with
      | 0 => b
      | 1 => (((r : Int) - b) % c).toNat
      | 2 => (r + b) % c
      | _ => r ^^^ b
    if h : t < c then ms[t] else l

/-- The member set that C names (R240): `allones` is the live lanes, `zero` none. -/
def Env.members (e : Env) (x : Name) (low : Nat) : Mask :=
  match x with
  | .lit _ => Mask.ofLanes e.wav.live
  | .zero => 0
  | x => Mask.ofLanes (Mask.lanes (e.readTy low x .n64).bits e.wav.width)

/-- The form of a `lane` instruction. -/
def laneForm : Instr → Option Nat
  | .laneRank _ => some 0
  | .laneBack _ => some 1
  | .laneFwd _ => some 2
  | .laneMate _ => some 3
  | _ => none

/-- Whether the main registers of a source are full in a lane (R57). -/
def Strand.fullFor (x : Strand) (r : Read) (n : Name) : Bool := (r.mains n).all fun k => (x.reg k).full

/-- The members of a `lane` that lie in the bundle and do not act, once C is there to name them: the FE policy of A applies
in them too (R240). -/
def laneMembers (i : Instr) (f : Fields) (sh : Shape) (e : Env) (r : Run) (ls : List Nat) : List Nat :=
  match laneForm i, ls with
  | some _, low :: _ =>
    if (e.lane low).fullFor sh.c f.c then
      (((e.members f.c low) &&& r.lanes).lanes e.wav.width).filter (!ls.contains ·)
    else []
  | _, _ => []

/-- The lanes besides the acting ones whose A a `lane` reads, once B and C are there: an `o` or `q` entry must be valid in
them too (R309). -/
def laneReads (i : Instr) (f : Fields) (sh : Shape) (e : Env) (ls : List Nat) : List Nat :=
  match laneForm i, ls with
  | some form, low :: _ =>
    if (e.lane low).fullFor sh.c f.c && ls.all fun l => (e.lane l).fullFor sh.b f.b then
      let m := e.members f.c low
      (ls.map fun l => laneSource form m e.wav.width l (e.readTy l f.b .n32).bits.toNat).eraseDups.filter (!ls.contains ·)
    else []
  | _, _ => []

/-- Main registers that the instruction writes in a lane (R59). -/
def dests (f : Fields) (sh : Shape) : List Nat :=
  match sh.d with
  | .none | .result => []
  | .as t => Name.mains f.d (if t.wide then 2 else 1)
  | .ptr => Name.mains f.d 2
  | .img _ n | .grp n => Name.mains f.d n
  | .texels t => match f.d with
    | .v n => if t == .f32 then (List.range 5).map (n.val + ·) else [n.val, n.val + 1, n.val + 4]
    | _ => []

/-- The cause that the word and its place in the run decide (R125), if any. -/
def wordCause (i : Instr) (f : Fields) (K : Nat) (r : Run) : Option Nat :=
  if !i.legal || !i.kOk K then some eIll
  else if r.count ≥ 24 && !i.isSeal then some eIll
  else if r.mustSeal && !i.isSeal then some eIll
  else if f.hc != 0 then some eHint
  else none

/-- The lanes that meet a per-lane check, and what they meet; `more` are lanes that are tested but do not act, which no
trap marks (R361). -/
def checkLanes (ls more : List Nat) (p : Nat → Bool) : Option (List (Nat × W64)) :=
  if (ls ++ more).any p then some ((ls.filter p).map fun l => (l, 0)) else none

/-- The per-lane checks of R60, steps 2 to 5, in their order: a cause with its lanes; or waiting. An instruction that is
replayed marked its own destinations empty at its first issue, which stops none of its sources; `task` marks none. -/
inductive Gate where
  | trap (cause : Nat) (hits : List (Nat × W64))
  | wait
  | pass
  deriving DecidableEq, Repr

/-- The lanes in which an instruction would write its D (R59): `coll` in the lowest alone, `cpkick` where it submits a
record (R195), `sysc` where its service gives a value, PAGEIN or VERSION (R352). -/
def writeLanes (i : Instr) (f : Fields) (e : Env) (ls : List Nat) : List Nat :=
  match i with
  | .coll _ => ls.take 1
  | .cpkick _ => ls.filter fun l => (e.readTy l f.b .n32).bits.toNat != 0
  | .syscAbort _ => []
  | .syscVersion _ => if f.imm == 3 then ls else []
  | _ => ls

/-- Whether an instruction that is replayed holds its destinations by its own marks (R57, R151): `task`, `cpt` and `cpkick` mark
none. -/
def ownsMarks (i : Instr) (again : Bool) : Bool :=
  again && match i with | .task _ | .cpt _ | .cpkick _ => false | _ => true

def gate (i : Instr) (f : Fields) (sh : Shape) (e : Env) (r : Run) (ls : List Nat) (again : Bool) : Gate :=
  let low := ls.headD 0
  let rd := if sh.once then ls.take 1 else ls
  let src := sources i f sh e low
  let mine := ownsMarks i again
  let own := if mine then dests f sh else []
  let full := fun (l k : Nat) => ((e.lane l).reg k).full || own.contains k
  let ofLane := fun (l : Nat) => if rd.contains l then src l else [(2, f.a, sh.a)]
  let imgD := match i with
    | .rsvupd _ | .rsvmerge _ => fun (l : Nat) =>
      (Name.mains f.d 8).all (full l) && (Name.mains f.d 8).any fun k => ((e.lane l).reg k).tag != Tag.rsv
    | _ => fun _ => false
  match checkLanes rd (laneReads i f sh e ls) fun l => (ofLane l).any fun p => !e.validFor l p.2.2 p.2.1 with
  | some h => .trap eTmp h
  | none =>
    let more := laneMembers i f sh e r ls
    let empty := fun (pol : Bool) (l : Nat) => (ofLane l).any fun p =>
      f.fe.getLsbD p.1 == pol && !((p.2.2.mains p.2.1).all (full l))
    match checkLanes rd more (empty true) with
    | some h => .trap eEmpty h
    | none =>
      if (rd ++ more).any (empty false) then .wait
      else match checkLanes rd [] fun l => imgD l || (src l).any fun p => (e.fmt l p.2.2 p.2.1).1 with
      | some h => .trap eFmt h
      | none =>
        if mine then .pass
        else match checkLanes (writeLanes i f e ls) [] fun l => !((dests f sh).all (full l)) with
        | some h => .trap ePendwrite h
        | none => .pass

/-- CNVSAT from conversions on read (R56, R70). -/
def convFlags (i : Instr) (f : Fields) (sh : Shape) (e : Env) (ls : List Nat) : List Nat :=
  let rd := if sh.once then ls.take 1 else ls
  rd.filter fun l => (sources i f sh e (ls.headD 0) l).any fun p => (e.fmt l p.2.2 p.2.1).2

/-- Mark the bundle as waiting. -/
def State.stallWith (s : State) (w : WavId) (k : Stall) : State := s.modWav w fun v => { v with stall := k }

/-- The acting lanes of an instruction (R54, R62, R151). -/
def Env.acting (e : Env) (g : Guard) (r : Run) : List Nat :=
  match e.wav.replay with
  | some m => (m &&& r.lanes).lanes e.wav.width
  | none => (r.lanes.lanes e.wav.width).filter fun l => guardHolds g (e.lane l)

/-- The main registers that an instruction finds full in a lane: its sources and its destinations (R58, R59). -/
def foundIn (i : Instr) (f : Fields) (sh : Shape) (e : Env) (low l : Nat) : List Nat :=
  ((sources i f sh e low l).map fun p => p.2.2.mains p.2.1).flatten ++ dests f sh

/-- Lanes of a wavelet find registers full, and so observe the engines that filled them (R174). -/
def State.finds (s : State) (w : WavId) (ls : List Nat) (rs : Nat → List Nat) : State :=
  ls.foldl (fun s l => s.modLane w l (·.find s.steps (rs l))) s

/-- The state in which an instruction's own effect begins: its sources are read (R56, R70, R174). -/
def State.readBy (s : State) (i : Instr) (f : Fields) (sh : Shape) (e : Env) (ls : List Nat) : State :=
  (s.flagLanes e.wid (convFlags i f sh e ls) stCnvSat).finds e.wid ls (foundIn i f sh e (ls.headD 0))

/-- The issue of an instruction word (R125, R60): its context and the state in which its own effect begins, or how
it ended: a trap taken, a wait, or no bundle that issues. -/
def issue (i : Instr) (s : State) : Except Res (Ctx × State) :=
  match s.cur.bind s.env?, i.fields? with
  | some e, some f =>
    match e.wav.run with
    | none => .error (.refused .noBundle)
    | some r =>
      match wordCause i f e.K r, i.shape with
      | some c, _ => .error (.next (s.trapWord e.wid c r.lanes))
      | none, none => .error (.refused .noBundle)
      | none, some sh =>
        let ls := e.acting f.guard r
        let again := e.wav.replay.isSome
        match gate i f sh e r ls again with
        | .trap c h => .error (.next (s.takeTrap e.wid c h))
        | .wait => .error (.next (s.stallWith e.wid .empty))
        | .pass =>
          let pc := match r.lanes.lanes 64 with | l :: _ => (e.lane l).pc | [] => r.start
          .ok (⟨e, f, ls, r, pc, again⟩, s.readBy i f sh e ls)
  | _, _ => .error (.refused .noBundle)

/-- A meaning: its effect after the issue rule. -/
def meaning (i : Instr) (s : State) (k : Ctx → State → Res) : Res :=
  match issue i s with
  | .error r => r
  | .ok (c, s') => k c s'

/-! Results. -/

/-- The tangents a main register keeps (R63): none outside the `.tregs` range. -/
def Env.shadow (e : Env) (n : Nat) (t : List W32) : List W32 := if n < e.kern.tregs then t else []

/-- Write a value to a main register or pair. -/
def Strand.putVal (x : Strand) (e : Env) (step n : Nat) (wide : Bool) (v : Val) : Strand :=
  let x := x.setReg step n { bits := v.bits.setWidth 32, tag := v.tag, tan := e.shadow n v.tan }
  if wide then x.setReg step (n + 1) { bits := (v.bits >>> 32).setWidth 32, tag := v.tag } else x

/-- Shift the last-result file of a strand (R50). -/
def Strand.shiftQ (x : Strand) (v : Option Val) : Strand := { x with q := (v :: x.q).take 4 }

/-- A value under the instruction's tangent mode (R121). -/
def Ctx.tm (c : Ctx) (v : Val) : Val := if c.f.tz then { v with tan := [] } else v

/-- Write D without touching the last-result file (R47, R52, R62). -/
def State.putD (s : State) (c : Ctx) (wide : Bool) (vs : List (Nat × Val)) : State :=
  match c.f.d with
  | .v n => vs.foldl (fun s v => s.modLane c.wid v.1 (·.putVal c.env s.steps n wide (c.tm v.2))) s
  | .o n => vs.foldl (fun s v => s.modLane c.wid v.1 fun x =>
      { x with o := (n.val, c.tm v.2) :: x.o.filter (·.1 != n.val) }) s
  | .w n => match vs with
    | [] => s
    | v :: _ => s.modWav c.wid fun x =>
        let w := Sparse.put {} x.w n ⟨v.2.bits.setWidth 32, v.2.tag⟩
        { x with w := if wide then Sparse.put {} w (n + 1) ⟨(v.2.bits >>> 32).setWidth 32, v.2.tag⟩ else w }
  | _ => s

/-- Shift the last results of lanes: one with a value takes it, another an invalid entry (R50). -/
def State.shiftIn (s : State) (c : Ctx) (ls : List Nat) (vs : List (Nat × Val)) : State :=
  ls.foldl (fun s l => s.modLane c.wid l (·.shiftQ ((Assoc.get? vs l).map c.tm))) s

/-- Shift the last results of the bundle: acting lanes take their value, the others an invalid entry (R50). -/
def State.shiftAll (s : State) (c : Ctx) (vs : List (Nat × Val)) : State :=
  s.shiftIn c (c.run.lanes.lanes c.env.wav.width) vs

/-- Move past the instruction. -/
def State.pass (s : State) (c : Ctx) (mustSeal : Bool := false) (d : Option Deferred := none) : State :=
  s.modWav c.wid (·.advance mustSeal d)

/-- Write a result of one register or pair, shift the last results and move on: the end of every instruction whose
result enters the last-result file (R50). -/
def State.finish (s : State) (c : Ctx) (wide : Bool) (vs : List (Nat × Val)) : State :=
  ((s.putD c wide vs).shiftAll c vs).pass c

/-- Write `vs` to consecutive main registers of D in each lane; no last result (R50, R61). -/
def State.putGroup (s : State) (c : Ctx) (vs : List (Nat × List Val)) : State :=
  match c.f.d with
  | .v n => vs.foldl (fun s v => s.modLane c.wid v.1 fun x =>
      v.2.zipIdx.foldl (fun x p => x.putVal c.env s.steps (n.val + p.2) false (c.tm p.1)) x) s
  | _ => s

/-- A value for each acting lane. -/
def Ctx.each {α : Type} (c : Ctx) (g : Nat → α) : List (Nat × α) := c.lanes.map fun l => (l, g l)

/-- A trap that an instruction's own entry raises (R60 step 6) before any effect: the wavelet is as it was at issue, CNVSAT
of sources read included (log 18). -/
def Ctx.raise (c : Ctx) (s : State) (cause : Nat) (hits : List (Nat × W64)) : Res :=
  .next ((s.setWav c.wid c.env.wav).takeTrap c.wid cause hits)

/-- Lanes marked without an address. -/
def noAddr (ls : List Nat) : List (Nat × W64) := ls.map fun l => (l, 0)

end Sys2Proof.Machine
end

