-- ==== Sys2Proof/Machine/Arith.lean ====
section
/-! DEFINITION. Arithmetic (base 0x00), special functions (base 0x30) and the tangent instructions (R77). -/

namespace Sys2Proof.Machine

/-- Elements of a source of an instruction in a lane. -/
def Ctx.els (c : Ctx) (x : Name) (t : Ty) (l : Nat) : List Nat := t.elems (c.nat x t l)

/-- Element j of a source as an exact value, F16FTZ applied (R97). -/
def Ctx.num (c : Ctx) (x : Name) (t : Ty) (l j : Nat) : Num := t.num c.env.ftz ((c.els x t l).getD j 0)

/-- Element j of a source as the FP32 primal of R78. -/
def Ctx.prim (c : Ctx) (x : Name) (t : Ty) (l j : Nat) : W32 := t.primal c.env.ftz ((c.els x t l).getD j 0)

/-- Component k of element j of a source's tangents. -/
def Ctx.tan (c : Ctx) (x : Name) (t : Ty) (l k j : Nat) : W32 := (c.val x t l).tanEl t k j

/-- Exact elements of every acting lane, rounded in the instruction's mode to a format, `.sr` drawing across the
wavelet (R105-R107). -/
def Ctx.round (c : Ctx) (t : Ty) (xs : List (Nat × List Num)) : List (Nat × List Rounded) :=
  match t.fmt? with
  | none => []
  | some fm =>
    let p := t.perReg
    let d := fun (e : Nat) => fm.dOf (((Assoc.get? xs (e / p)).getD []).getD (e % p) Num.zero)
    let draw := fun (e : Nat) => if c.f.rm == 4 then srDraw c.env.wav.seed d e else 0
    xs.map fun (l, es) => (l, es.zipIdx.map fun (x, j) => fm.round c.f.rm c.f.sat (draw (l * p + j)) x)

/-- Write rounded floating results: `g lane k j y` is component k of element j's tangent, y the rounded primal. -/
def Ctx.finishFloat (c : Ctx) (s : State) (t : Ty) (xs : List (Nat × List Num)) (g : Nat → Nat → Nat → W32 → W32) : State :=
  let rs := c.round t xs
  let vs := rs.map fun (l, es) =>
    (l, Val.of (joinBits t.elemBits (es.map (·.bits))) t.tag (tanOf t c.env.K fun k j =>
      let r := es.getD j ⟨0, false, false⟩
      if r.clamp then 0 else g l k j (t.primal false r.bits)))
  let sat := (rs.filter fun r => r.2.any (·.sat98)).map (·.1)
  (s.flagLanes c.wid sat stCnvSat).finish c t.wide vs

/-- Element positions of a type. -/
def Ty.idx (t : Ty) : List Nat := List.range t.perReg

/-- A floating operation of two sources. -/
def Ctx.float2 (c : Ctx) (s : State) (op : Num → Num → Num) (g : W32 → W32 → W32 → W32 → W32 → W32) : Res :=
  let t := c.f.ty
  .next (c.finishFloat s t (c.each fun l => (Ty.idx t).map fun j => op (c.num c.f.a t l j) (c.num c.f.b t l j))
    fun l k j y => g (c.tan c.f.a t l k j) (c.tan c.f.b t l k j) (c.prim c.f.a t l j) (c.prim c.f.b t l j) y)

/-- A floating operation of one source. -/
def Ctx.float1 (c : Ctx) (s : State) (op : Num → Num) (g : W32 → W32 → W32 → W32) : Res :=
  let t := c.f.ty
  .next (c.finishFloat s t (c.each fun l => (Ty.idx t).map fun j => op (c.num c.f.a t l j))
    fun l k j y => g (c.tan c.f.a t l k j) (c.prim c.f.a t l j) y)

/-- An integer element, wrapped or clamped (R106). -/
def Fields.int (f : Fields) (i : Int) : Nat := if f.sat then f.ty.wrap (f.ty.clamp i) else f.ty.wrap i

/-- An integer operation of two sources, element by element; `tag` is the result's tag in a lane. -/
def Ctx.int2 (c : Ctx) (s : State) (tag : Nat → Tag) (op : Int → Int → Int) : Res :=
  let t := c.f.ty
  .next (s.finish c t.wide (c.each fun l =>
    Val.of (joinBits t.elemBits (((c.els c.f.a t l).zip (c.els c.f.b t l)).map fun (a, b) =>
      Fields.int c.f (op (t.intOf a) (t.intOf b)))) (tag l)))

/-- A bitwise result of the whole register or pair (R269). -/
def Ctx.bits2 (c : Ctx) (s : State) (op : W64 → W64 → W64) : Res :=
  let t := c.f.ty
  .next (s.finish c t.wide (c.each fun l =>
    Val.of ((op (c.val c.f.a t l).bits (c.val c.f.b t l).bits).toNat % 2 ^ (if t.wide then 64 else 32)) t.tag))

/-- Whether A is a main register pair tagged PTR in a lane (R267). -/
def Ctx.ptrA (c : Ctx) (x : Name) (l : Nat) : Bool :=
  match x with
  | .v n => ((c.lane l).value n.val true).tag == Tag.ptr
  | _ => false

/-- The tag of a source as it stands. -/
def Ctx.rawTag (c : Ctx) (x : Name) (t : Ty) (l : Nat) : Tag := (c.env.raw l x t).tag

/-- An element as read: a subnormal that F16FTZ reads as zero is that zero (R97). -/
def asRead (t : Ty) (ftz : Bool) (x : Nat) : Nat :=
  match t.fmt? with
  | some fm => if ftz && (t == .f16 || t == .bf16) && (t.num ftz x).isZero then x / 2 ^ fm.signBit * 2 ^ fm.signBit else x
  | none => x

/-- The bits of a source as its elements are read (R97). -/
def Ctx.readBits (c : Ctx) (x : Name) (t : Ty) (l : Nat) : Nat := joinBits t.elemBits ((c.els x t l).map (asRead t c.env.ftz))

/-- Sign-bit operations on each element (R266, R329); what F16FTZ reads as zero is that zero (R97). -/
def Ctx.signOp (c : Ctx) (s : State) (op : Bool → Bool) (int : Int → Int) (g : Bool → W32 → W32) : Res :=
  let t := c.f.ty
  .next (s.finish c t.wide (c.each fun l =>
    let es := (c.els c.f.a t l).map (asRead t c.env.ftz)
    let sb := t.elemBits - 1
    let es' := es.map fun x =>
      if t.isFloat then x % 2 ^ sb + (if op (x.testBit sb) then 2 ^ sb else 0) else t.wrap (int (t.intOf x))
    Val.of (joinBits t.elemBits es') t.tag (tanOf t c.env.K fun k j =>
      g ((es.getD j 0).testBit sb) (c.tan c.f.a t l k j))))

/-- `abs` (R266). -/
def execAbs (f : Fields) (s : State) : Res :=
  meaning (.abs f) s fun c s => c.signOp s (fun _ => false) (fun i => if i < 0 then -i else i)
    fun neg ta => if neg then F32.neg ta else ta

/-- `neg` (R329). -/
def execNeg (f : Fields) (s : State) : Res :=
  meaning (.neg f) s fun c s => c.signOp s (fun b => !b) (fun i => -i) fun _ ta => F32.neg ta

/-- `add` (R267). -/
def execAdd (f : Fields) (s : State) : Res :=
  meaning (.add f) s fun c s =>
    if f.ty.isFloat then c.float2 s (fun a b => a.add (f.rm == 3) b) (fun ta tb _ _ _ => F32.add ta tb)
    else c.int2 s (fun l => if f.ty.wide && c.ptrA f.a l then Tag.ptr else f.ty.tag) (· + ·)

/-- `sub` (R351). -/
def execSub (f : Fields) (s : State) : Res :=
  meaning (.sub f) s fun c s =>
    if f.ty.isFloat then c.float2 s (fun a b => a.add (f.rm == 3) b.neg) (fun ta tb _ _ _ => F32.sub ta tb)
    else c.int2 s (fun l => if f.ty.wide && c.ptrA f.a l && c.rawTag f.b f.ty l != Tag.ptr then Tag.ptr else f.ty.tag) (· - ·)

/-- `addc` (R268). -/
def execAddc (f : Fields) (s : State) : Res :=
  meaning (.addc f) s fun c s =>
    let n := f.ty.elemBits
    let sum := fun l =>
      let ci := f.imm.getLsbD 6 && (c.lane l).pred (natBits f.imm.toNat 5 3)
      c.nat f.a f.ty l + c.nat f.b f.ty l + (if ci then 1 else 0)
    let s := s.setPreds c.wid (natBits f.imm.toNat 2 0) (c.each fun l => decide (2 ^ n ≤ sum l))
    .next (s.finish c f.ty.wide (c.each fun l => Val.ofTy f.ty (sum l % 2 ^ n)))

/-- Integer `div` and `rem` (R113): the edge cases flag IDIV or trap. -/
def Ctx.intDivide (c : Ctx) (s : State) (isDiv : Bool) : Res :=
  let t := c.f.ty
  let pair := fun l => (t.intOf (c.nat c.f.a t l), t.intOf (c.nat c.f.b t l))
  let edge := c.lanes.filter fun l => divEdge t isDiv (pair l).1 (pair l).2
  if c.env.idivTrap && !edge.isEmpty then c.raise s eIdiv (noAddr edge)
  else
    let s := s.flagLanes c.wid edge stIdiv
    .next (s.finish c t.wide (c.each fun l =>
      Val.ofTy t (t.wrap ((if isDiv then intDiv else intRem) t (pair l).1 (pair l).2))))

/-- `div` (R293, R113). -/
def execDiv (f : Fields) (s : State) : Res :=
  meaning (.div f) s fun c s =>
    if f.ty.isFloat then
      c.float2 s Num.div (fun ta tb _ b y => F32.div (F32.fma (F32.neg y) tb ta) b)
    else c.intDivide s true

/-- `rem` (R336, R113). -/
def execRem (f : Fields) (s : State) : Res := meaning (.rem f) s fun c s => c.intDivide s false

/-- `dot2` and `dot4` (R297, R110). -/
def Ctx.dot (c : Ctx) (s : State) : Res :=
  let t := c.f.ty
  let rt := dotResult t
  if t.isFloat then
    let tanSum := fun l k =>
      Num.sum false (((Ty.idx t).map fun j =>
        [(F32.num (c.tan c.f.a t l k j)).mul (F32.num (c.prim c.f.b t l j)),
         (F32.num (c.prim c.f.a t l j)).mul (F32.num (c.tan c.f.b t l k j))]).flatten ++ [F32.num (c.tan c.f.c rt l k 0)])
    .next (c.finishFloat s rt (c.each fun l =>
      [Num.sum (c.f.rm == 3) ((c.num c.f.c rt l 0) :: (Ty.idx t).map fun j => (c.num c.f.a t l j).mul (c.num c.f.b t l j))])
      fun l k _ _ => if t.hasTan then F32.ofNum (tanSum l k) else c.tan c.f.c rt l k 0)
  else
    .next (s.finish c false (c.each fun l =>
      let v := ((c.els c.f.a t l).zip (c.els c.f.b t l)).foldl (fun a p => a + t.intOf p.1 * t.intOf p.2)
        (rt.intOf (c.nat c.f.c rt l))
      Val.ofTy rt (rt.wrap (if c.f.sat then rt.clamp v else v))))

/-- `dot2` (R297). -/
def execDot2 (f : Fields) (s : State) : Res := meaning (.dot2 f) s fun c s => c.dot s
/-- `dot4` (R297). -/
def execDot4 (f : Fields) (s : State) : Res := meaning (.dot4 f) s fun c s => c.dot s

/-- `fma` (R304). -/
def execFma (f : Fields) (s : State) : Res :=
  meaning (.fma f) s fun c s =>
    let t := f.ty
    .next (c.finishFloat s t (c.each fun l => (Ty.idx t).map fun j =>
        ((c.num f.a t l j).mul (c.num f.b t l j)).add (f.rm == 3) (c.num f.c t l j))
      fun l k j _ => F32.fma (c.tan f.a t l k j) (c.prim f.b t l j)
        (F32.fma (c.prim f.a t l j) (c.tan f.b t l k j) (c.tan f.c t l k j)))

/-- The integral value a mode selects, keeping the sign (R305). -/
def Num.integral (rm : Nat) : Num → Num
  | .fin n m e s => .fin n ((Num.fin n m e s).toInt rm 0).natAbs 0 false
  | x => x

/-- `frnd` (R305). -/
def execFrnd (f : Fields) (s : State) : Res :=
  meaning (.frnd f) s fun c s => c.float1 s (Num.integral f.rm) (fun _ _ _ => 0)

/-- The operand that `max` or `min` returns for one element: true for B; none when both are NaN (R112, R316). -/
def pickB (t : Ty) (ftz isMax : Bool) (a b : Nat) : Option Bool :=
  if t.isFloat then
    let x := t.num ftz a
    let y := t.num ftz b
    if x.isNan && y.isNan then none
    else if x.isNan then some true
    else if y.isNan then some false
    else some (if isMax then x.lt y else y.lt x)
  else some (if isMax then t.intOf a < t.intOf b else t.intOf b < t.intOf a)

/-- `max` or `min` of one element (R112). -/
def pickElem (t : Ty) (ftz isMax : Bool) (a b : Nat) : Nat :=
  match pickB t ftz isMax a b with
  | none => match t.fmt? with | some fm => fm.qnan | none => 0
  | some true => asRead t ftz b
  | some false => asRead t ftz a

/-- `max` and `min` over a register, with the chosen operand's tangents (R78). -/
def Ctx.pick (c : Ctx) (s : State) (isMax : Bool) : Res :=
  let t := c.f.ty
  .next (s.finish c t.wide (c.each fun l =>
    let ab := (c.els c.f.a t l).zip (c.els c.f.b t l)
    Val.of (joinBits t.elemBits (ab.map fun (a, b) => pickElem t c.env.ftz isMax a b)) t.tag
      (tanOf t c.env.K fun k j =>
        let p := ab.getD j (0, 0)
        if pickB t c.env.ftz isMax p.1 p.2 == some true then c.tan c.f.b t l k j else c.tan c.f.a t l k j)))

/-- `max` (R316). -/
def execMax (f : Fields) (s : State) : Res := meaning (.max f) s fun c s => c.pick s true
/-- `min` (R316). -/
def execMin (f : Fields) (s : State) : Res := meaning (.min f) s fun c s => c.pick s false

/-- `mul` (R327). -/
def execMul (f : Fields) (s : State) : Res :=
  meaning (.mul f) s fun c s =>
    if f.ty.isFloat then c.float2 s Num.mul (fun ta tb a b _ => F32.fma ta b (F32.mul a tb))
    else c.int2 s (fun _ => f.ty.tag) (· * ·)

/-- Bits [23:0] of a source, extended by its type (R114). -/
def low24 (t : Ty) (x : Nat) : Int :=
  let v : Nat := x % 2 ^ 24
  if t.isSigned && v.testBit 23 then (v : Int) - 2 ^ 24 else (v : Int)

/-- `mul24` (R114). -/
def execMul24 (f : Fields) (s : State) : Res :=
  meaning (.mul24 f) s fun c s =>
    .next (s.finish c false (c.each fun l =>
      Val.ofTy f.ty (f.ty.wrap (low24 f.ty (c.nat f.a f.ty l) * low24 f.ty (c.nat f.b f.ty l)))))

/-- `mulhi` (R327). -/
def execMulhi (f : Fields) (s : State) : Res :=
  meaning (.mulhi f) s fun c s =>
    let t := f.ty
    .next (s.finish c t.wide (c.each fun l =>
      Val.ofTy t (t.wrap (t.intOf (c.nat f.a t l) * t.intOf (c.nat f.b t l) / (2 ^ t.elemBits : Nat)))))

/-! Special functions. -/

/-- A special function of each element, rounded once (R284). -/
def Ctx.special (c : Ctx) (s : State) (fn : Fmt → Num → Nat) (g : W32 → W32 → W32 → W32) : Res :=
  let t := c.f.ty
  match t.fmt? with
  | none => .next (s.pass c)
  | some fm =>
    .next (s.finish c t.wide (c.each fun l =>
      let ys := (Ty.idx t).map fun j => fn fm (c.num c.f.a t l j)
      Val.of (joinBits t.elemBits ys) t.tag (tanOf t c.env.K fun k j =>
        g (c.tan c.f.a t l k j) (c.prim c.f.a t l j) (t.primal false (ys.getD j 0)))))

/-- FP32 sine and cosine of an FP32 primal, as R78 uses them. -/
def F32.sin (a : W32) : W32 := BitVec.ofNat 32 (Special.sin .f32 (F32.num a))
def F32.cos (a : W32) : W32 := BitVec.ofNat 32 (Special.cos .f32 (F32.num a))
/-- LN2 of R78. -/
def F32.ln2 : W32 := 0x3F317218

/-- `cos` (R285). -/
def execCos (f : Fields) (s : State) : Res :=
  meaning (.cos f) s fun c s => c.special s Special.cos fun ta a _ => F32.mul (F32.neg (F32.sin a)) ta
/-- `sin` (R346). -/
def execSin (f : Fields) (s : State) : Res :=
  meaning (.sin f) s fun c s => c.special s Special.sin fun ta a _ => F32.mul (F32.cos a) ta
/-- `ex2` (R302). -/
def execEx2 (f : Fields) (s : State) : Res :=
  meaning (.ex2 f) s fun c s => c.special s Special.ex2 fun ta _ y => F32.mul F32.ln2 (F32.mul y ta)
/-- `lg2` (R312). -/
def execLg2 (f : Fields) (s : State) : Res :=
  meaning (.lg2 f) s fun c s => c.special s Special.lg2 fun ta a _ => F32.div ta (F32.mul a F32.ln2)
/-- `rsq` (R340). -/
def execRsq (f : Fields) (s : State) : Res :=
  meaning (.rsq f) s fun c s => c.special s (fun fm x => fm.rn x.rsq)
    fun ta _ y => F32.mul 0xBF000000 (F32.mul y (F32.mul y (F32.mul y ta)))

/-- `rcp` (R335). -/
def execRcp (f : Fields) (s : State) : Res :=
  meaning (.rcp f) s fun c s => c.float1 s (fun a => (Num.ofNat 1).div a)
    fun ta _ y => F32.mul (F32.neg y) (F32.mul y ta)

/-- The `sqrt` row of R78. -/
def sqrtTan (ta a y : W32) : W32 :=
  if (F32.num a).isZero then
    (if (F32.num ta).isZero then 0 else if ta.getLsbD 31 then F32.neg F32.inf else F32.inf)
  else F32.div ta (F32.mul 0x40000000 y)

/-- `sqrt` (R348). -/
def execSqrt (f : Fields) (s : State) : Res := meaning (.sqrt f) s fun c s => c.float1 s Num.sqrt sqrtTan

/-! Tangent instructions (R77, R89, R353). -/

/-- `tev` (R89). -/
def execTev (f : Fields) (s : State) : Res :=
  meaning (.tev f) s fun c s =>
    let t := f.ty
    let n := match f.b with | .w n => n.val | _ => 0
    let delta := fun k => (((c.env.wav.uval (n + k) false).readAs .f32 c.env.strict c.env.ftz c.env.K).elim 0
      fun p => p.1.bits.setWidth 32 : W32)
    .next (s.finish c t.wide (c.each fun l =>
      let a := c.val f.a t l
      let y := (List.range c.env.K).foldl (fun acc k =>
        if t == .f32 then (F32.fma (a.word k) (delta k) (BitVec.ofNat 32 acc)).toNat
        else Fmt.f64.rn ((Fmt.f64.decode acc).add false ((F32.num (a.word k)).mul (F32.num (delta k))))) a.bits.toNat
      Val.of y t.tag a.tan))

/-- `tget` (R77). -/
def execTget (f : Fields) (s : State) : Res :=
  meaning (.tget f) s fun c s =>
    .next (s.finish c false (c.each fun l =>
      Val.ofTy .f32 (c.tan f.a f.ty l (natBits f.imm.toNat 2 0) (natBits f.imm.toNat 3 3)).toNat))

/-- `tset` (R77, R353): D takes A's value and tag; one component is replaced. -/
def execTset (f : Fields) (s : State) : Res :=
  meaning (.tset f) s fun c s =>
    let t := f.ty
    let k0 := natBits f.imm.toNat 2 0
    let e0 := natBits f.imm.toNat 3 3
    .next (s.finish c t.wide (c.each fun l =>
      let a := c.val f.a t l
      Val.of (c.readBits f.a t l) a.tag (tanOf t c.env.K fun k j =>
        if k == k0 && j == e0 then tanConv .f32 t ((c.val f.b .f32 l).bits.setWidth 32) else a.tanEl t k j)))

/-- `tzero` (R77): D takes A's value and tag with +0 tangents. -/
def execTzero (f : Fields) (s : State) : Res :=
  meaning (.tzero f) s fun c s =>
    .next (s.finish c f.ty.wide (c.each fun l => Val.of (c.readBits f.a f.ty l) (c.val f.a f.ty l).tag))

end Sys2Proof.Machine
end

