-- ==== Sys2Proof/Machine/Logic.lean ====
section
/-! DEFINITION. Logic and bits (base 0x10), comparison and predicates (base 0x20). -/

namespace Sys2Proof.Machine

/-- `and` (R269). -/
def execAnd (f : Fields) (s : State) : Res := meaning (.and f) s fun c s => c.bits2 s (· &&& ·)
/-- `or` (R331). -/
def execOr (f : Fields) (s : State) : Res := meaning (.or f) s fun c s => c.bits2 s (· ||| ·)
/-- `xor` (R359). -/
def execXor (f : Fields) (s : State) : Res := meaning (.xor f) s fun c s => c.bits2 s (· ^^^ ·)

/-- A bit operation of A alone in `n` bits. -/
def Ctx.bits1 (c : Ctx) (s : State) (t : Ty) (op : Nat → Nat → Nat) : Res :=
  .next (s.finish c t.wide (c.each fun l =>
    Val.ofTy t (op (if c.f.ty.wide then 64 else 32) (c.nat c.f.a c.f.ty l))))

/-- `not` (R331). -/
def execNot (f : Fields) (s : State) : Res := meaning (.not f) s fun c s => c.bits1 s f.ty fun n a => 2 ^ n - 1 - a % 2 ^ n

/-- Offset and width k of a field descriptor in n bits (R275). -/
def fieldOf (n d : Nat) : Nat × Nat :=
  let o := d % 256
  (o, if o < n then min (d / 256 % 256) (n - o) else 0)

/-- `bfe` (R275). -/
def execBfe (f : Fields) (s : State) : Res :=
  meaning (.bfe f) s fun c s =>
    let t := f.ty
    let n := t.elemBits
    .next (s.finish c t.wide (c.each fun l =>
      let (o, k) := fieldOf n (c.nat f.b .n32 l)
      let x := (c.nat f.a t l >>> o) % 2 ^ k
      Val.ofTy t (if k != 0 && t.isSigned && x.testBit (k - 1) then x + 2 ^ n - 2 ^ k else x)))

/-- `bfi` (R275). -/
def execBfi (f : Fields) (s : State) : Res :=
  meaning (.bfi f) s fun c s =>
    let t := f.ty
    .next (s.finish c t.wide (c.each fun l =>
      let (o, k) := fieldOf (if t.wide then 64 else 32) (c.nat f.c .n32 l)
      let b := c.nat f.b t l
      Val.ofTy t (b - (b >>> o) % 2 ^ k * 2 ^ o + c.nat f.a t l % 2 ^ k * 2 ^ o)))

/-- Bits reversed in n bits. -/
def revBits (n a : Nat) : Nat := (List.range n).foldl (fun r i => if a.testBit i then r + 2 ^ (n - 1 - i) else r) 0

/-- `brev` (R277). -/
def execBrev (f : Fields) (s : State) : Res := meaning (.brev f) s fun c s => c.bits1 s f.ty revBits

/-- Leading zero bits. -/
def leadZeros (n a : Nat) : Nat := if a % 2 ^ n = 0 then n else n - 1 - Nat.log2 (a % 2 ^ n)

/-- `clz` (R281). -/
def execClz (f : Fields) (s : State) : Res := meaning (.clz f) s fun c s => c.bits1 s .n32 leadZeros

/-- One bits. -/
def countOnes (n a : Nat) : Nat := ((List.range n).filter a.testBit).length

/-- `popc` (R334). -/
def execPopc (f : Fields) (s : State) : Res := meaning (.popc f) s fun c s => c.bits1 s .n32 countOnes

/-- A source copied with its tag and tangents (R325). -/
def Env.copy (e : Env) (l : Nat) (x : Name) (t : Ty) : Val :=
  let v := e.raw l x t
  Val.of (v.bits.toNat % 2 ^ (if t.wide then 64 else 32))
    (if v.tag == Tag.none || v.tag.wide == t.wide then v.tag else t.tag) v.tan

/-- `mov` (R325). -/
def execMov (f : Fields) (s : State) : Res :=
  meaning (.mov f) s fun c s => .next (s.finish c f.ty.wide (c.each fun l => c.env.copy l f.a f.ty))

/-- `sel` (R343). -/
def execSel (f : Fields) (s : State) : Res :=
  meaning (.sel f) s fun c s => .next (s.finish c f.ty.wide (c.each fun l =>
    c.env.copy l (if (c.lane l).pred (natBits f.imm.toNat 2 0) != f.imm.getLsbD 3 then f.a else f.b) f.ty))

/-- A binary32 immediate widened exactly, a NaN with its sign and payload (R96, R119). -/
def widenImm (x : W32) : Nat :=
  if F32.isNan x then (if x.getLsbD 31 then 2 ^ 63 else 0) + 0x7FF * 2 ^ 52 + x.toNat % 2 ^ 23 * 2 ^ 29
  else Fmt.f64.rn (F32.num x)

/-- The value of `movi` (R119). -/
def moviBits (t : Ty) (x : W32) : Nat :=
  match t with
  | .s64 => (x.signExtend 64).toNat
  | .f64 => widenImm x
  | _ => x.toNat

/-- `movi` (R326). -/
def execMovi (f : Fields) (s : State) : Res :=
  meaning (.movi f) s fun c s => .next (s.finish c f.ty.wide (c.each fun _ => Val.ofTy f.ty (moviBits f.ty f.imm32)))

/-- A rotation to the left in n bits. -/
def rotl (n k a : Nat) : Nat := (a <<< (k % n) ||| a >>> ((n - k % n) % n)) % 2 ^ n

/-- `rot.l` (R339). -/
def execRotL (f : Fields) (s : State) : Res :=
  meaning (.rotL f) s fun c s =>
    let n := if f.ty.wide then 64 else 32
    .next (s.finish c f.ty.wide (c.each fun l => Val.ofTy f.ty (rotl n (c.nat f.b .n32 l) (c.nat f.a f.ty l))))
/-- `rot.r` (R339). -/
def execRotR (f : Fields) (s : State) : Res :=
  meaning (.rotR f) s fun c s =>
    let n := if f.ty.wide then 64 else 32
    .next (s.finish c f.ty.wide (c.each fun l => Val.ofTy f.ty (rotl n (n - c.nat f.b .n32 l % n) (c.nat f.a f.ty l))))

/-- A shift of each element by B in full (R345). -/
def Ctx.shift (c : Ctx) (s : State) (op : Nat → Nat → Nat → Nat) : Res :=
  let t := c.f.ty
  .next (s.finish c t.wide (c.each fun l =>
    Val.ofTy t (joinBits t.elemBits ((c.els c.f.a t l).map fun x => op t.elemBits (c.nat c.f.b .n32 l) x))))

/-- `shl` (R345). -/
def execShl (f : Fields) (s : State) : Res :=
  meaning (.shl f) s fun c s => c.shift s fun n k x => if k < n then (x <<< k) % 2 ^ n else 0
/-- `shr` (R345). -/
def execShr (f : Fields) (s : State) : Res :=
  meaning (.shr f) s fun c s => c.shift s fun n k x => if k < n then x >>> k else 0
/-- `sra` (R345): the top bit fills, whatever the type. -/
def execSra (f : Fields) (s : State) : Res :=
  meaning (.sra f) s fun c s => c.shift s fun n k x =>
    let k := min k n
    (x >>> k) + (if x.testBit (n - 1) then 2 ^ n - 2 ^ (n - k) else 0)

/-! Comparison and predicates. -/

/-- `cmp` (R282). -/
def execCmp (f : Fields) (cond : Fin 8) (s : State) : Res :=
  meaning (.cmp f cond) s fun c s =>
    .next ((s.setPreds c.wid (natBits f.imm.toNat 2 0) (c.each fun l =>
      cmpAll cond.val f.ty c.env.ftz (c.nat f.a f.ty l) (c.nat f.b f.ty l))).pass c)

/-- Whether two keys of `match` are equal (R115). -/
def keysEq (t : Ty) (a b : Nat) : Bool :=
  if t.isFloat then (t.num false a).eq (t.num false b) else a == b

/-- `match` (R315). -/
def execMatchKey (f : Fields) (s : State) : Res :=
  meaning (.matchKey f) s fun c s =>
    let mask := fun l => Mask.ofLanes (c.lanes.filter fun m => m == l || keysEq f.ty (c.nat f.a f.ty l) (c.nat f.a f.ty m))
    let s := s.setPreds c.wid (natBits f.imm.toNat 2 0) (c.each fun l => (Mask.lanes (mask l) c.env.wav.width).head? == some l)
    .next (s.finish c true (c.each fun l => Val.ofTy .n64 (mask l).toNat))

/-- The operation of `plog` (R333). -/
def plogOp (op : Nat) (a b : Bool) : Bool :=
  match op with | 0 => a && b | 1 => a || b | 2 => a != b | 3 => a && !b | _ => !a

/-- `plog` (R333). -/
def execPlog (f : Fields) (op : Fin 5) (s : State) : Res :=
  meaning (.plog f op) s fun c s =>
    .next ((s.setPreds c.wid (natBits f.imm.toNat 2 0) (c.each fun l =>
      plogOp op.val ((c.lane l).pred (natBits f.imm.toNat 5 3)) ((c.lane l).pred (natBits f.imm.toNat 8 6)))).pass c)

/-- The voting lanes in which the source predicate holds (R358). -/
def Ctx.votes (c : Ctx) : List Nat :=
  c.lanes.filter fun l => (c.lane l).pred (natBits c.f.imm.toNat 2 0) != c.f.imm.getLsbD 3

/-- `vote.all` (R358). -/
def execVoteAll (f : Fields) (s : State) : Res :=
  meaning (.voteAll f) s fun c s =>
    .next ((s.setPreds c.wid (natBits f.imm.toNat 6 4) (c.each fun _ => c.votes.length == c.lanes.length)).pass c)
/-- `vote.any` (R358). -/
def execVoteAny (f : Fields) (s : State) : Res :=
  meaning (.voteAny f) s fun c s =>
    .next ((s.setPreds c.wid (natBits f.imm.toNat 6 4) (c.each fun _ => !c.votes.isEmpty)).pass c)
/-- `vote.ballot` (R358): with no participating lane it does nothing. -/
def execVoteBallot (f : Fields) (s : State) : Res :=
  meaning (.voteBallot f) s fun c s =>
    if c.lanes.isEmpty then .next (s.pass c)
    else .next (s.finish c true (c.each fun _ => Val.ofTy .n64 (Mask.ofLanes c.votes).toNat))

end Sys2Proof.Machine
end

