-- ==== Sys2Proof/Machine/Convert.lean ====
section
/-! DEFINITION. Conversion (base 0x28), block scales (R99-R102) and the cross-lane instructions (base 0x40). -/

namespace Sys2Proof.Machine

/-- The source element that element j of a `cvt` result comes from: its register and position (R287). -/
def cvtFrom (dt st : Ty) (g j : Nat) : Nat × Nat :=
  if dt.perReg ≥ st.perReg then (j / st.perReg, j % st.perReg) else (0, g * dt.perReg + j)

/-- Register r of the source of `cvt`, read as ST. -/
def Ctx.cvtReg (c : Ctx) (st : Ty) (l r : Nat) : Val :=
  if cvtRegs c.f.ty st ≤ 1 then c.val c.f.a st l else c.grp c.f.a st l r

/-- `cvt` (R287, R288). -/
def execCvt (f : Fields) (s : State) : Res :=
  meaning (.cvt f) s fun c s =>
    let dt := f.ty
    let st := f.cvtST
    if dt == .b32 || st == .b32 then .next (s.finish c false (c.each fun l => Val.ofTy dt (c.nat f.a st l)))
    else
      let ftz := c.env.ftz
      let el := fun l j => let p := cvtFrom dt st f.cvtG j
        (st.elems (c.cvtReg st l p.1).bits.toNat).getD p.2 0
      let n := dt.perReg
      let d := fun e => if c.lanes.contains (e / n) then cvtD st dt ftz (el (e / n) (e % n)) else 0
      let draw := fun e => if f.rm == 4 then srDraw c.env.wav.seed d e else 0
      let conv := fun l j => cvtElem st dt ftz f.rm f.sat (draw (l * n + j)) (el l j)
      let bad := c.lanes.filter fun l => (Ty.idx dt).any fun j => (conv l j).cnv
      .next ((s.flagLanes c.wid bad stCnvSat).finish c dt.wide (c.each fun l =>
        Val.of (joinBits dt.elemBits ((Ty.idx dt).map fun j => (conv l j).bits)) dt.tag
          (tanOf dt c.env.K fun k j =>
            let p := cvtFrom dt st f.cvtG j
            if (conv l j).clamp || !st.isFloat then 0 else tanConv st dt ((c.cvtReg st l p.1).tanEl st k p.2))))

/-! Blocks of 32 elements. -/

/-- A UE4M3 scale; none decodes as NaN (R99). -/
def ue4m3 (x : Nat) : Option Num := if x ≥ 0x7F then none else some (Fmt.e4m3.decode x)

/-- The value of a four-bit code (R100): the outlier mark reads as zero. -/
def i4code (x : Nat) : Int := if x < 8 then x else if x == 8 then 0 else (x : Int) - 16

/-- The unscaled elements of a quad of slots (R101). -/
def quad (a b c d : Nat) : List Num :=
  if b == 8 then [.ofInt (i4code a), Fmt.e4m3.decode (c * 16 + d), .zero, .zero]
  else [.ofInt (i4code a), .ofInt (i4code b), .ofInt (i4code c), .ofInt (i4code d)]

/-- The unscaled elements of codes of a block format. -/
def unscaled (t : Ty) : List Nat → List Num
  | a :: b :: c :: d :: xs =>
    (if t == .i4o then quad a b c d else [a, b, c, d].map (t.num false)) ++ unscaled t xs
  | xs => xs.map (t.num false)

/-- The sign of element `j` of the codes of a block format, as its decoding gives it (R99, R101): of the outlier its E4M3
sign, of an `i4o` zero +. -/
def codeSign (t : Ty) (cs : List Nat) (j : Nat) : Bool :=
  if t == .i4o then
    let q := cs.drop (j / 4 * 4)
    if q.getD 1 0 == 8 then
      if j % 4 == 0 then decide (i4code (q.getD 0 0) < 0) else j % 4 == 1 && (q.getD 2 0).testBit 3
    else decide (i4code (cs.getD j 0) < 0)
  else (cs.getD j 0).testBit (t.elemBits - 1)

/-- An element of a sign times its block's scale: NaN under a NaN scale, a zero of its sign under scale 0, a NaN element
included (R99). -/
def scaled (sc : Nat) (sign : Bool) (x : Num) : Num :=
  match ue4m3 sc with
  | none => .nan
  | some y => if y.isZero then .fin sign 0 0 false else x.mul y

/-- `cvtblk.dec` (R290); a finite element that a NaN scale makes NaN sets CNVSAT too (R108). -/
def execCvtblkDec (f : Fields) (s : State) : Res :=
  meaning (.cvtblkDec f) s fun c s =>
    let t := f.ty
    let sc := fun l => c.nat f.b .n32 l % 256
    let codes := fun l => ((List.range (blkRegs t)).map fun r => t.elems (c.grp f.a t l r).bits.toNat).flatten
    let nan := c.lanes.filter fun l => (ue4m3 (sc l)).isNone
    let s := s.flagLanes c.wid nan stScaleNan
    let s := s.flagLanes c.wid (nan.filter fun l => (unscaled t (codes l)).any (·.isFin)) stCnvSat
    .next ((s.putGroup c (c.each fun l => (unscaled t (codes l)).zipIdx.map fun (x, j) =>
      Val.ofTy .f32 (Fmt.f32.rn (scaled (sc l) (codeSign t (codes l) j) x)))).pass c)

/-- The scale that `.enc` chooses (R291): the least UE4M3 value at least `t`. `m` is the largest magnitude, `mo` the
largest outside the outlier slots. -/
def encScale (t : Ty) (m mo : Num) : Nat :=
  let covers := fun (code : Nat) =>
    let v := Fmt.e4m3.decode code
    if t == .i4o then mo.le (v.mul (.ofNat 7)) && m.le (v.mul (.ofNat 448))
    else m.le (v.mul (.ofNat (if t == .e4m3 then 448 else 57344)))
  if m.isZero then 0
  else (((List.range 0x7E).map (· + 1)).find? covers).getD 0x7E

/-- The largest magnitude of elements, NaN counting as 0. -/
def maxMag (xs : List Num) : Num :=
  xs.foldl (fun a x => if x.isNan then a else if a.lt x.abs then x.abs else a) Num.zero

/-- The codes of a block, each with whether it was clamped, and the scale (R291); `rm` is the mode and `seed` the wavelet's.
Under stochastic rounding an outlier's E4M3 rounding draws with its neighbours' integer d and its own d of E4M3, and an
outlier enters its neighbours' draws with its integer d: R107 does not say which d of an outlier counts (log 24). -/
def encBlock (t : Ty) (rm : Nat) (seed : W32) (xs : List Num) : List Conv × Nat :=
  let m := maxMag xs
  let mo := maxMag ((xs.zipIdx.filter fun p => p.2 % 4 != 1).map (·.1))
  let sc := encScale t m mo
  let sv := (ue4m3 sc).getD Num.zero
  let ys := xs.map fun x => if sc == 0 then x else x.div sv
  let yAt := fun i => ys.getD i Num.zero
  let out := fun (b : Nat) (clamp : Bool) => (⟨b, clamp, clamp⟩ : Conv)
  match t.fmt? with
  | some fm =>
    let draw := fun i => if rm == 4 then srDraw seed (fun e => fm.dOf (yAt e)) i else 0
    (ys.zipIdx.map fun (y, i) => let r := fm.round rm false (draw i) y; out r.bits r.clamp, sc)
  | none =>
    let dI := fun e => (yAt e).dInt
    let draw := fun i => if rm == 4 then srDraw seed dI i else 0
    let k : Nat → Int := fun i => match yAt i with
      | .nan => 0
      | .inf n => if n then -1000 else 1000
      | y => y.toInt rm (draw i)
    let clamp := fun (v : Int) => if v < -7 then -7 else if 7 < v then 7 else v
    let code := fun (v : Int) => ((clamp v) % 16).toNat
    let nan := fun i => (yAt i).isNan
    let plain := fun i => out (code (k i)) (clamp (k i) != k i || nan i)
    let quads := (List.range (xs.length / 4)).map fun q =>
      let i := 4 * q
      if (k (i + 1)).natAbs > 7 then
        let d8 := fun e => if e == i + 1 then Fmt.e4m3.dOf (yAt e) else dI e
        let r8 := if rm == 4 then srDraw seed d8 (i + 1) else 0
        let r := Fmt.e4m3.round rm false r8 (yAt (i + 1))
        [plain i, out 8 r.clamp, out (r.bits / 16) (k (i + 2) != 0), out (r.bits % 16) (k (i + 3) != 0)]
      else (List.range 4).map fun j => plain (i + j)
    (quads.flatten, sc)

/-- `cvtblk.enc` (R291). -/
def execCvtblkEnc (f : Fields) (s : State) : Res :=
  meaning (.cvtblkEnc f) s fun c s =>
    let t := f.ty
    let enc := fun l => encBlock t f.rm c.env.wav.seed ((List.range 32).map fun i => F32.num ((c.grp f.a .f32 l i).bits.setWidth 32))
    let s := s.flagLanes c.wid (c.lanes.filter fun l => (enc l).1.any (·.cnv)) stCnvSat
    .next ((s.putGroup c (c.each fun l =>
      let (cs, sc) := enc l
      let codes := cs.map (·.bits)
      ((List.range (blkRegs t)).map fun r =>
        Val.ofTy t (joinBits t.elemBits ((codes.drop (r * t.perReg)).take t.perReg))) ++ [Val.ofTy .n32 sc])).pass c)

/-- `pack4` (R332); a result that is clamped but not by SAT sets CNVSAT (R106, R108). -/
def execPack4 (f : Fields) (s : State) : Res :=
  meaning (.pack4 f) s fun c s =>
    let t := f.ty
    match t with
    | .s8x4 | .n8x4 =>
      let st := if t == .s8x4 then Ty.s32 else .n32
      .next (s.finish c false (c.each fun l => Val.ofTy t (joinBits 8 ((List.range 4).map fun j =>
        Fields.int f (st.intOf (c.grp f.a st l j).bits.toNat)))))
    | .i4o =>
      let q := natBits f.imm.toNat 0 0
      .next (s.finish c false (c.each fun l =>
        let slot := fun j =>
          let v := Ty.s32.intOf (c.grp f.a .s32 l j).bits.toNat
          ((if f.sat then (if v < -7 then -7 else if 7 < v then 7 else v) else v) % 16).toNat
        Val.ofTy t (joinBits 4 ((c.els f.b .i4o l).zipIdx.map fun (x, i) =>
          if i / 4 == q then slot (i % 4) else x))))
    | _ =>
      let xs := c.each fun l => (List.range 4).map fun j => F32.num ((c.grp f.a .f32 l j).bits.setWidth 32)
      let hit := if f.sat then [] else ((c.round t xs).filter fun r => r.2.any (·.clamp)).map (·.1)
      .next (c.finishFloat (s.flagLanes c.wid hit stCnvSat) t xs fun _ _ _ _ => 0)

/-- `unpk4` (R357). -/
def execUnpk4 (f : Fields) (s : State) : Res :=
  meaning (.unpk4 f) s fun c s =>
    let t := f.ty
    let q := natBits f.imm.toNat 0 0
    let el := fun (x : Nat) => match t with
      | .s8x4 => Val.ofTy .s32 (Ty.s32.wrap (t.intOf x))
      | .n8x4 => Val.ofTy .n32 x
      | .i4o => Val.ofTy .s32 (if x < 8 then x else x + 2 ^ 32 - 16)
      | _ => Val.ofTy .f32 (Fmt.f32.rn (t.num false x))
    .next ((s.putGroup c (c.each fun l =>
      let es := c.els f.a t l
      ((if t == .i4o then (es.drop (4 * q)).take 4 else es).map el))).pass c)

/-! Cross-lane reads and reductions. -/

/-- `lane` (R240, R309): a member outside the bundle raises E_LANEGONE, else each lane copies its source lane's A with
its tag unchanged (R55). -/
def Ctx.laneRead (c : Ctx) (s : State) (form : Nat) : Res :=
  if c.lanes.isEmpty then .next (s.finish c c.f.ty.wide [])
  else
    let m := c.env.members c.f.c (c.lanes.headD 0)
    let gone := (Mask.lanes m c.env.wav.width).filter fun j => !c.run.lanes.has j
    if !gone.isEmpty then c.raise s eLanegone (noAddr gone)
    else .next (s.finish c c.f.ty.wide (c.each fun l =>
      let v := c.env.raw (laneSource form m c.env.wav.width l (c.nat c.f.b .n32 l)) c.f.a c.f.ty
      Val.of (v.bits.toNat % 2 ^ (if c.f.ty.wide then 64 else 32)) v.tag v.tan))

/-- `lane.rank` (R240). -/
def execLaneRank (f : Fields) (s : State) : Res := meaning (.laneRank f) s fun c s => c.laneRead s 0
/-- `lane.back` (R240). -/
def execLaneBack (f : Fields) (s : State) : Res := meaning (.laneBack f) s fun c s => c.laneRead s 1
/-- `lane.fwd` (R240). -/
def execLaneFwd (f : Fields) (s : State) : Res := meaning (.laneFwd f) s fun c s => c.laneRead s 2
/-- `lane.mate` (R240). -/
def execLaneMate (f : Fields) (s : State) : Res := meaning (.laneMate f) s fun c s => c.laneRead s 3

/-- A partial result of a reduction: its elements, and each element's tangent components in FP32, which round to the
format's tangent precision at the end alone (R78). -/
structure Part where
  els : List Nat
  tan : List (List W32)
  deriving DecidableEq, Repr

/-- Component k of element j. -/
def Part.at (p : Part) (k j : Nat) : W32 := (p.tan.getD j []).getD k 0

/-- A source as a partial result; F16FTZ applies to the sources (R111, R97). -/
def partOf (v : Val) (t : Ty) (ftz : Bool) (K : Nat) : Part :=
  ⟨(t.elems v.bits.toNat).map (asRead t ftz), (List.range t.perReg).map fun j => (List.range K).map fun k => v.tanEl t k j⟩

/-- A result of a reduction as a value. -/
def Part.val (p : Part) (t : Ty) (K : Nat) : Val := Val.of (joinBits t.elemBits p.els) t.tag (tanOf t K p.at)

/-- One step of a reduction: a op b, rounded, with tangents (R111, R112, R78). -/
def combine (t : Ty) (op rm K : Nat) (a b : Part) : Part :=
  let ab := a.els.zip b.els
  ⟨ab.map fun (x, y) =>
    match op with
    | 0 => match t.fmt? with
      | some fm => (fm.round rm false 0 ((t.num false x).add (rm == 3) (t.num false y))).bits
      | none => t.wrap (t.intOf x + t.intOf y)
    | 1 => pickElem t false false x y
    | 2 => pickElem t false true x y
    | 3 => x &&& y
    | 4 => x ||| y
    | _ => x ^^^ y,
   ab.zipIdx.map fun (p, j) => (List.range K).map fun k =>
    if op == 0 then F32.add (a.at k j) (b.at k j)
    else if pickB t false (op == 2) p.1 p.2 == some true then b.at k j else a.at k j⟩

/-- Combine operands either of which may be absent (R111). An element that passes on alone passes unchanged, a NaN's bits
included, as R111 says; R96 does not list `lred` and `lscan` among its exceptions (log 24). -/
def combine? (t : Ty) (op rm K : Nat) (a b : Option Part) : Option Part :=
  match a, b with
  | some x, some y => some (combine t op rm K x y)
  | some x, none => some x
  | none, y => y

/-- The identity of a reduction (R111, R313). -/
def identity (t : Ty) (op : Nat) : Part :=
  let el := match t.fmt? with
    | some fm => match op with | 0 => 2 ^ fm.signBit | 1 => fm.infMag | _ => fm.signed true fm.infMag
    | none => match op with
      | 1 => t.wrap t.hi | 2 => t.wrap t.lo | 3 => 2 ^ t.elemBits - 1 | _ => 0
  ⟨List.replicate t.perReg el, []⟩

/-- The pairwise steps of `lred` (R111). -/
def redSteps (g : Option Part → Option Part → Option Part) : Nat → Nat → List (Option Part) → List (Option Part)
  | 0, _, xs => xs
  | n + 1, st, xs =>
    redSteps g n (2 * st) (xs.zipIdx.map fun (x, j) => if j % (2 * st) == 0 then g x (xs.getD (j + st) none) else x)

/-- The steps of `lscan` (R111). -/
def scanSteps (g : Option Part → Option Part → Option Part) : Nat → Nat → List (Option Part) → List (Option Part)
  | 0, _, xs => xs
  | n + 1, st, xs =>
    scanSteps g n (2 * st) (xs.zipIdx.map fun (x, j) => if st ≤ j then g (xs.getD (j - st) none) x else x)

/-- The lanes' A values, absent where a lane does not act (R111). -/
def Ctx.present (c : Ctx) : List (Option Part) :=
  (List.range c.env.wav.width).map fun l =>
    if c.lanes.contains l then some (partOf (c.val c.f.a c.f.ty l) c.f.ty c.env.ftz c.env.K) else none

/-- `lred` (R313). -/
def execLred (f : Fields) (op : Fin 6) (s : State) : Res :=
  meaning (.lred f op) s fun c s =>
    let g := combine? f.ty op.val f.rm c.env.K
    let r := ((redSteps g 6 1 c.present).headD none).getD (identity f.ty op.val)
    .next (s.finish c f.ty.wide (c.each fun _ => r.val f.ty c.env.K))

/-- `lscan` (R313). -/
def execLscan (f : Fields) (op : Fin 6) (ex : Bool) (s : State) : Res :=
  meaning (.lscan f op ex) s fun c s =>
    let g := combine? f.ty op.val f.rm c.env.K
    let xs := scanSteps g 6 1 c.present
    .next (s.finish c f.ty.wide (c.each fun l =>
      let x := if ex then (if l == 0 then none else xs.getD (l - 1) none) else xs.getD l none
      (x.getD (identity f.ty op.val)).val f.ty c.env.K))

end Sys2Proof.Machine
end

