-- ==== Sys2Proof/Machine/Barrier.lean ====
section
/-! DEFINITION. Barrier objects (R31): arrivals, phases, releases and waves (R32-R38, R256), and the boost ranking
that a phase renews (R258). -/

namespace Sys2Proof.Machine

/-- The counts of a barrier object (R31). -/
structure Obj where
  cnt : Nat
  ph  : Nat
  hld : Nat
  arr : Nat
  exp : Nat
  inv : Bool
  deriving DecidableEq, Repr

/-- Read the 16 bytes of an object. -/
def Obj.ofNat (n : Nat) : Obj :=
  ⟨natBits n 127 96, natBits n 95 64, natBits n 63 48, natBits n 47 32, natBits n 31 16, n.testBit 0⟩

/-- The 16 bytes of an object with its WT bit; reserved bits are kept from `old`. -/
def Obj.toNat (o : Obj) (old : Nat) (wt : Bool) : Nat :=
  (if o.inv then 1 else 0) + (if wt then 2 else 0) + natBits old 15 2 * 4 + o.exp * 2 ^ 16 + o.arr * 2 ^ 32 +
  o.hld * 2 ^ 48 + o.ph % 2 ^ 32 * 2 ^ 64 + o.cnt * 2 ^ 96

/-- EXP in range (R31). -/
def Obj.ok (o : Obj) : Bool := 1 ≤ o.exp && o.exp ≤ 8192

/-- released(t) of R32. -/
def Obj.released (o : Obj) (t : W32) : Bool :=
  let d := (BitVec.ofNat 32 (o.ph * o.exp) - t).toNat
  1 ≤ d && d ≤ 2 ^ 31

/-- The object at an offset of a block's scratchpad. -/
def State.obj (s : State) (b : BlkId) (off : Nat) : Obj := Obj.ofNat (s.scrRead b off 16)

/-- Write an object back; its WT bit says whether a lane is blocked on it (R37). -/
def State.setObj (s : State) (b : BlkId) (off : Nat) (o : Obj) : State :=
  let n := o.toNat (s.scrRead b off 16) (s.wt b (off / 16))
  s.modBlk b fun k =>
    { k with scratch := Sparse.writeN k.scratch off 16 n,
             past := k.past ++ [(off / 16, s.steps, BitVec.ofNat 128 (Sparse.readN k.scratch off 16))] }

/-- Note the status of lanes that will block on an object at their seal, where their ticket meets a test (R274). -/
def Deferred.known (d : Deferred) (b : BlkId) (off : Nat) (p : W32 → Bool) (st : W32) : Deferred :=
  match d with
  | .wait ws => .wait (ws.map fun w => match w.2 with
    | .bar b' o t n | .barwait b' o t n => if b' == b && o == off && p t then (w.1, .known n st) else w
    | _ => w)
  | d => d

/-- Whether lane `l` of a run will block on an object at its seal with a ticket that meets a test. -/
def Deferred.awaits (d : Deferred) (b : BlkId) (off : Nat) (p : W32 → Bool) (l : Nat) : Bool :=
  match d with
  | .wait ws => match Assoc.get? ws l with
    | some (.bar b' o t _) | some (.barwait b' o t _) => b' == b && o == off && p t
    | _ => false
  | _ => false

/-- What the arrivals at an object had seen. -/
def State.sync (s : State) (b : BlkId) (off : Nat) : Sync :=
  ((s.blk? b).bind fun k => Assoc.get? k.sync (off / 16)).getD {}

/-- Change what the arrivals at an object had seen. -/
def State.modSync (s : State) (b : BlkId) (off : Nat) (f : Sync → Sync) : State :=
  s.modBlk b fun k => { k with sync := Assoc.put k.sync (off / 16) (f ((Assoc.get? k.sync (off / 16)).getD {})) }

/-- What precedes the later accesses of a lane that an object lets go with a status (R38). -/
def State.released (s : State) (b : BlkId) (off : Nat) (st : W32) : Clock := if st == 0 then (s.sync b off).rel else []

/-- Release the lanes blocked on an object whose ticket meets a test, with a status (R32, R36); they wake as one release,
numbered (R256). -/
def State.releaseOn (s : State) (b : BlkId) (off : Nat) (p : W32 → Bool) (st : W32) : State :=
  let c := s.released b off st
  { s with
    nextOp := s.nextOp + 1
    wavs := s.wavs.map fun wv =>
      if wv.1.span != b.span then wv
      else (wv.1, { wv.2 with
        run := wv.2.run.map fun r => { r with deferred := r.deferred.map (·.known b off p st) }
        lanes := wv.2.lanes.zipIdx.map fun (x, l) => match x.wait with
          | .bar b' o t d | .barwait b' o t d =>
            if b' == b && o == off && p t then (x.release s.steps d st (.wake s.nextOp)).see c else x
          | _ => if (wv.2.run.bind (·.deferred)).any (·.awaits b off p l) then x.see c else x }) }

/-- Whether a span keeps the boost record (R258): it has more than one block, and Pewter has enabled its job for boost. -/
def State.boosts (s : State) (p : Span) : Bool := 1 < p.blocks && (s.job p.ctx).boost

/-- Whether an arrival was made at an object. -/
def SpanArrival.on (a : SpanArrival) (b : BlkId) (off : Nat) : Bool := a.pos == b.pos && a.unit == off / 16

/-- Note the clock of an arrival of a block at an object for a phase, its last one so far (R258). -/
def State.noteArrival (s : State) (w : WavId) (b : BlkId) (off phase : Nat) (span : Bool) : State :=
  match s.span? w.span, s.blk? w.block with
  | some p, some k =>
    if s.boosts p then
      let (n, s) := s.sampleCyc k.at'
      let mine := fun (a : SpanArrival) => a.on b off && a.phase == phase && a.blk == w.blk
      s.modSpan w.span fun p =>
        { p with last := p.last.filter (!mine ·) ++ [⟨b.pos, off / 16, phase, w.blk, k.at', n, span || p.last.any fun a => mine a && a.span⟩] }
    else s
  | _, _ => s

/-- Forget the arrivals noted at an object in the phases that meet a test. -/
def State.forget (s : State) (b : BlkId) (off : Nat) (p : Nat → Bool) : State :=
  s.modSpan b.span fun x => { x with last := x.last.filter fun a => !(a.on b off && p a.phase) }

/-- The gap between a block's last arrival in a phase and the phase's completion, in clocks of its cluster (R258). Of a block that
made none in the phase, or has gone to another cluster since, the spec gives no gap: it is a free value (log 4). -/
def State.gap (s : State) (sp i : Nat) (as : List SpanArrival) : Nat × State :=
  match as.find? (·.blk == i), s.blk? ⟨sp, i⟩ with
  | some a, some k => if a.at' == k.at' then let (n, s) := s.sampleCyc k.at'; (n - a.clock, s) else s.draw
  | _, _ => s.draw

/-- Renew the boost ranking of a span as a phase of a span barrier completes, one whose object a block reached through the span
window (R30, R258). -/
def State.rank (s : State) (b : BlkId) (off phase : Nat) : State :=
  match s.span? b.span with
  | none => s
  | some p =>
    let as := p.last.filter fun a => a.on b off && a.phase == phase
    let s := s.forget b off (· == phase)
    if !s.boosts p || !as.any (·.span) then s
    else
      let (new, s) := (List.range p.blocks).foldl (fun (acc : List Nat × State) i =>
        let (n, s) := acc.2.gap b.span i as
        (acc.1 ++ [n], s)) ([], s)
      let gaps := (p.gaps ++ [new]).drop (p.gaps.length + 1 - 8)
      let sum := fun (i : Nat) => (gaps.map fun g => g.getD i 0).foldl (· + ·) 0
      let q := (p.blocks + 3) / 4
      let before := fun (i j : Nat) => sum j < sum i || (sum j == sum i && j < i)
      let clk := fun (i : Nat) =>
        let r := ((List.range p.blocks).filter (before i)).length
        if r < q then 156 else if p.blocks - q ≤ r then 104 else 130
      let s := s.modSpan b.span fun p => { p with gaps := gaps, clocks := (List.range p.blocks).map clk }
      s.reclock (s.ranked b.span)

/-- Complete phases while an object's arrivals are in and no copy counts (R32). -/
def State.complete : Nat → State → BlkId → Nat → State
  | 0, s, _, _ => s
  | n + 1, s, b, off =>
    let o := s.obj b off
    if o.ok && !o.inv && o.arr == o.exp && o.cnt == 0 then
      let o' := { o with ph := (o.ph + 1) % 2 ^ 32, arr := o.hld, hld := 0 }
      let s := s.modSync b off fun y => ⟨y.held, [], Clock.join y.rel y.arr⟩
      let s := s.releaseOn b off o'.released 0
      State.complete n ((s.setObj b off o').rank b off o.ph) b off
    else s

/-- Check completion (R32): held arrivals can complete at most one phase more. -/
def State.checkPhase (s : State) (b : BlkId) (off : Nat) : State := State.complete 3 s b off

/-- One arrival (R32): the ticket and the new counts. -/
def Obj.arrive (o : Obj) : W32 × Obj :=
  if o.arr < o.exp then (BitVec.ofNat 32 (o.ph * o.exp + o.arr), { o with arr := o.arr + 1 })
  else (BitVec.ofNat 32 ((o.ph + 1) * o.exp + o.hld), { o with hld := o.hld + 1 })

/-- Arrivals the object can still take before `E_BAR` (R32). -/
def Obj.room (o : Obj) : Nat := (o.exp - o.arr) + (o.exp - o.hld)

/-- Whether the arrivals of a bundle break the object's rule (R31, R32). -/
def Obj.refuses (o : Obj) (n : Nat) : Bool := !o.ok || (!o.inv && o.room < n)

/-- What a wavelet has seen: what its instruction finds in one lane precedes its later instructions in every lane, for the order of a
wavelet is one order (R170). -/
def Wavelet.seen (v : Wavelet) : Clock := ((v.lanes.map (·.seen)).eraseDups).foldl Clock.join []

/-- What precedes a submission of a lane: what its wavelet has seen, and what the lane has done up to now (R170, R173). -/
def State.seenBy (s : State) (w : WavId) (l : Nat) : Clock :=
  match s.wav? w with
  | some v => Assoc.put v.seen (w, l) s.steps
  | none => []

/-- What precedes an arrival of a wavelet (R38): what it has seen, and what any lane of it has done up to now, for an access of an
earlier instruction precedes those of a later one, whichever lanes make them (R170). -/
def State.doneBy (s : State) (w : WavId) : Clock :=
  match s.wav? w with
  | some v => (List.range v.width).foldl (fun c k => Assoc.put c (w, k) s.steps) v.seen
  | none => []

/-- Arrive for lanes of a wavelet in ascending order; each lane's ticket, none for INVALID (R32); `span` tells the lanes that go
through the span window (R258). -/
def State.arrivals (s : State) (w : WavId) (ls : List (Nat × BlkId × Nat)) (span : Nat → Bool := fun _ => false) :
    State × List (Nat × Option W32) :=
  let c := s.doneBy w
  ls.foldl (fun (acc : State × List (Nat × Option W32)) x =>
    let o := acc.1.obj x.2.1 x.2.2
    if o.inv then (acc.1, acc.2 ++ [(x.1, none)])
    else
      let (t, o') := o.arrive
      let s := acc.1.modSync x.2.1 x.2.2 fun y =>
        if o.arr < o.exp then { y with arr := Clock.join y.arr c } else { y with held := Clock.join y.held c }
      let s := s.noteArrival w x.2.1 x.2.2 (if o.arr < o.exp then o.ph else (o.ph + 1) % 2 ^ 32) (span x.1)
      (s.setObj x.2.1 x.2.2 o', acc.2 ++ [(x.1, some t)])) (s, [])

/-- Check completion of the objects that lanes arrived at (R32). -/
def State.checkAll (s : State) (ls : List (Nat × BlkId × Nat)) : State :=
  ls.foldl (fun s x => s.checkPhase x.2.1 x.2.2) s

/-- The lanes whose object refuses the bundle's arrivals (R31, R32, R361). -/
def State.refused (s : State) (ls : List (Nat × BlkId × Nat)) : List Nat :=
  (ls.filter fun x => (s.obj x.2.1 x.2.2).refuses (ls.filter (·.2 == x.2)).length).map (·.1)

/-- What had gone before the submission of a copy that counts on an object precedes the accesses of the lanes that the phase
lets go (R173, R174). -/
def State.showCopy (s : State) (b : BlkId) (off : Nat) (c : Clock) : State :=
  if c.isEmpty then s else s.modSync b off fun y => { y with arr := Clock.join y.arr c }

/-- Bytes leave CNT, and completion is checked (R193). Where a store lowered CNT below the bytes in flight (R37), which the
spec does not go on to say, CNT stops at 0: the model's choice (log 20). -/
def State.takeCnt (s : State) (b : BlkId) (off n : Nat) : State :=
  let o := s.obj b off
  (s.setObj b off { o with cnt := o.cnt - n }).checkPhase b off

/-- Whether a lane of a wavelet waits to wake from a release. -/
def Wavelet.waking (v : Wavelet) (ph : Nat) : Bool := v.lanes.any fun x => x.wait == .wake ph

/-- One wave of the wavelets of a cluster that a release let go (R256): the lowest in (`sys.block`, `sys.wid`) order, at
least one, while their live lanes total at most `pwr.slope`. -/
def State.wave (s : State) (cl ph : Nat) : List WavId :=
  let mine := s.wavs.filterMap fun wv => match s.blk? wv.1.block with
    | some k => if k.at' == cl && !s.savedBlk wv.1.block && wv.2.waking ph then some (k.idx, wv.1, wv.2.live.length) else none
    | none => none
  let le := fun (a b : Nat × WavId × Nat) => a.1 < b.1 || (a.1 == b.1 && a.2.1.wid ≤ b.2.1.wid)
  let sorted := sortBy le mine
  match sorted with
  | [] => []
  | x :: xs =>
    (xs.foldl (fun (acc : List WavId × Nat × Bool) y =>
      if acc.2.2 && acc.2.1 + y.2.2 ≤ s.slope then (acc.1 ++ [y.2.1], acc.2.1 + y.2.2, true)
      else (acc.1, acc.2.1, false)) ([x.2.1], x.2.2, true)).1

/-- Wake the lanes of a wavelet that a release let go. -/
def Wavelet.wakeAll (v : Wavelet) (ph : Nat) : Wavelet :=
  { v with lanes := v.lanes.map fun x => if x.wait == .wake ph then { x with wait := .none } else x }

end Sys2Proof.Machine
end

