-- ==== Sys2Proof/Machine/Mem.lean ====
section
/-! DEFINITION. The memory instructions (base 0x48 and 0x50, and the memory forms of images): one access operation with
the checks, faults and replay of R146, R151, R165 and R181; pointers (R147, R148), fences (R182) and `cpl` (R191). -/

namespace Sys2Proof.Machine

/-- Where a lane's access goes: its location and, on a global page, the page. -/
structure Spot where
  loc  : Loc
  page : Option (Nat × Leaf) := none
  va   : Nat := 0
  deriving DecidableEq, Repr

/-- A memory instruction's access of one lane. -/
structure Access where
  dir    : Dir
  /-- Bytes outside the global window. -/
  n      : Nat
  /-- Bytes on a page; none is `E_FMT` (R153). -/
  glob   : Leaf → Option Nat
  /-- Whether it touches the tangent planes of a page (R86). -/
  planes : Bool := false
  /-- Whether it touches the private tangent plane words: a load of a type with tangents reads them, and every store writes
  them (R67). -/
  words  : Bool := planes
  /-- Registers marked empty at issue (R57). -/
  marks  : List Nat := []
  /-- Whether a lane writes, given the bytes it reads (R272). -/
  writes : Nat → Nat → Bool := fun _ _ => true
  /-- The effect of one lane. -/
  go     : State → Nat → Spot → State × List Fill

/-- Bytes that an access takes on a page. -/
def Access.bytes (a : Access) (l : Leaf) : Nat := (a.glob l).getD a.n

/-- Whether an access touches tangent planes where it goes (R67, R86). -/
def Access.deep (a : Access) (sp : Spot) : Bool := match sp.loc with | .priv _ => a.words | _ => a.planes

/-- Plane elements of `n` bytes at offset `o` of a page: the first and their number (R84). A 4-byte `b32` access to an `f64` page
covers half an element (R153), for which R84 has no whole e; that it reaches the planes of the element it lies in, which a store
clears and a load must find mapped and sound, is the model's choice (log 19). -/
def planeSpan (l : Leaf) (o n : Nat) : Nat × Nat :=
  let s := Ty.memBytes l.fmt 1
  (o / s, (o + n - 1) / s + 1 - o / s)

/-- The address of element e of plane i of the page at `p` (R84). -/
def planeVa (p : Nat) (l : Leaf) (i e : Nat) : Nat := p + (i + 1) * l.stride + 2 * e

/-- Plane addresses of an access to a page. -/
def planeVas (p : Nat) (l : Leaf) (va n : Nat) : List Nat :=
  let (e, k) := planeSpan l (va - p) n
  ((List.range l.tp).map fun i => (List.range k).map fun j => planeVa p l i (e + j)).flatten

/-- Whether a private offset of a strand lies within its private space on a page that is mapped (R66). -/
def Strand.privOk (x : Strand) (priv off : Nat) : Bool :=
  off < priv && x.absent.all fun p => off < p.1 || p.1 + p.2 ≤ off

/-- Where an access of lane `l` goes; none is a page fault (R66, R86, R151). The address has passed R146. -/
def Env.spot (e : Env) (d : Dir) (planes : Bool) (n : Leaf → Nat) (a : W64) (l : Nat := 0) : Option Spot :=
  match window a with
  | .glob va => match e.job.page va with
    | some (p, lf) =>
      if Leaf.allows lf d && (!planes || (planeVas p lf va (n lf)).all fun v => (e.job.phys d v).isSome)
      then some ⟨.mem (Leaf.pbase lf + (va - p)), some (p, lf), va⟩ else none
    | none => none
  | .priv off => if (e.lane l).privOk (Hdr.priv e.task.hdr) off then some { loc := .priv off } else none
  | _ => match e.scr a with | .ok (b, off) => some { loc := .scr b off } | .error _ => none

/-- The units that an access of lane `l` needs to pass their check (R164-R166): those of its bytes, but for a store that covers
them whole, and those of its tangent plane elements. That a private access of a type with tangents reaches the words of all the
planes that its launch record gives it, also of those at or above min(K, PTP), which R67 does not restore, is the model's choice
(log 19); they are then looked up, leased, filled and checked as the others are. -/
def Env.needs (e : Env) (d : Dir) (planes : Bool) (n : Nat) (sp : Spot) (l : Nat := 0) : List UnitKey :=
  let units := fun (pa n : Nat) => (List.range ((pa + n - 1) / 64 + 1 - pa / 64)).map fun i => UnitKey.phys (pa / 64 + i)
  match sp.loc, sp.page with
  | .mem pa, some (p, lf) =>
    (if d == .store && pa % 64 == 0 && n % 64 == 0 then [] else units pa n) ++
    if planes then ((planeVas p lf sp.va n).filterMap fun v => (e.job.phys d v).map fun q => units q 2).flatten else []
  | .priv off, _ =>
    let own := fun (k : Nat) => (privUnits e.wav.width l off n).map (UnitKey.priv e.wid k)
    own 0 ++ if planes then ((List.range (Hdr.planes e.task.hdr)).map fun i => own (i + 1)).flatten else []
  | _, _ => []

/-- The units that fail their check and stop an access (R165, R166). -/
def State.failing (s : State) (e : Env) (d : Dir) (planes : Bool) (n : Nat) (sp : Spot) (l : Nat := 0) : List UnitKey :=
  (e.needs d planes n sp l).filter s.badKey

/-- Whether an access meets a check-value failure that R165 or R166 stops. -/
def State.fails (s : State) (e : Env) (d : Dir) (planes : Bool) (n : Nat) (sp : Spot) (l : Nat := 0) : Bool :=
  !(s.failing e d planes n sp l).isEmpty

/-- The lines or sectors that a lane's access reaches, with their pages' hints: its own and, where it touches tangent
planes, theirs (R66, R67, R84, R155, R157). Private words of a wavelet's lanes are interleaved, so that the words of one access
lie in several lines (R66, R154). -/
def Env.keys (e : Env) (d : Dir) (planes : Bool) (n l : Nat) (sp : Spot) : List (LlcKey × Nat) :=
  match sp.loc, sp.page with
  | .mem _, some (p, lf) =>
    lf.keys (sp.va - p) n ++ if planes then ((planeVas p lf sp.va n).filterMap fun v => match e.job.page v, e.job.phys d v with
      | some (q, m), some _ => some (m.keys (v - q) 2)
      | _, _ => none).flatten else []
  | .priv off, _ =>
    let lines := fun (k : Nat) => (((List.range ((off % 4 + n + 3) / 4)).map fun j =>
      ((off / 4 + j) * e.wav.width + l) * 4 / 128).eraseDups).map fun i => (LlcKey.priv e.wid k i, 0)
    lines 0 ++ if planes then ((List.range (Hdr.planes e.task.hdr)).map fun i => lines (i + 1)).flatten else []
  | _, _ => []

/-- The line of the L1 that a line or sector's access uses (R154). -/
def l1Key (sp : Spot) (k : LlcKey) : LlcKey :=
  match k, sp.loc with
  | .sector .., .mem pa => .line (pa / 128)
  | k, _ => k

/-- An engine's access reaches the LLC (R161, R162) and goes past the L1 (log 23); `column` says that it reads along the column
axis. -/
def State.reach (s : State) (e : Env) (d : Dir) (sp : Spot) (n : Nat) (l : Nat := 0) (column : Bool := false) : State :=
  s.touch e.task.ctx (some e.wid) (e.keys d false n l sp) 0 (d != .load) column

/-- What the word of a memory instruction asks of the caches: the eviction override, 0 for none (R123, R161), how many lines to
prefetch after each lane's access, and whether lines fill the L1 at the position of the least recently used (R124). -/
structure Hints where
  evict : Nat := 0
  ahead : Nat := 0
  last  : Bool := false
  deriving DecidableEq, Repr

/-- The hints that an instruction word gives. -/
def Fields.hints (f : Fields) : Hints :=
  { evict := f.md.toNat, ahead := match f.ha.toNat with | 1 => 1 | 2 => 2 | _ => 0, last := f.ha.toNat == 3 }

/-- An access of one lane to lines or sectors reaches the LLC (R161, R162), but for a load that finds its line in the L1 under a
lease. `wrote` says that it writes. -/
def State.pastL1 (s : State) (e : Env) (d : Dir) (wrote : Bool) (h : Hints) (sp : Spot) (ks : List (LlcKey × Nat)) : State :=
  let c := s.cluster e.blk.at'
  let miss := ks.filter fun k => !(d == .load && c.l1.contains (l1Key sp k.1) && c.leases.contains k.1)
  s.touch e.task.ctx (some e.wid) miss h.evict wrote false

/-- An access of one lane to lines or sectors reaches the caches: the L1 (R154), with a lease of each line or sector that it loads
(R171), and the LLC. -/
def State.through (s : State) (e : Env) (d : Dir) (wrote : Bool) (h : Hints) (sp : Spot) (ks : List (LlcKey × Nat)) : State :=
  if ks.isEmpty then s
  else
    (s.pastL1 e d wrote h sp ks).modCluster e.blk.at' fun c =>
      let c := { c with lclock := c.lclock + 1
                        leases := if d == .load then ks.foldl (fun ls k => if ls.contains k.1 then ls else ls ++ [k.1]) c.leases
                          else c.leases }
      (ks.map fun k => l1Key sp k.1).eraseDups.foldl (fun c k => c.cache k (d == .load) h.last) c

/-- The 128-byte line `i` lines behind the last byte of a lane's access (R124): where it begins, the lines or sectors that it is, and
its units; none where no page that may be loaded is there, past the private space, and in a scratchpad, which the L1 does not hold
(log 23). -/
def Env.behind (e : Env) (n l : Nat) (sp : Spot) (i : Nat) : Option (Spot × List (LlcKey × Nat) × List UnitKey) :=
  match sp.loc with
  | .mem _ => (e.spot .load false (fun _ => 128) (BitVec.ofNat 64 (((sp.va + n - 1) / 128 + i) * 128)) l).map fun x =>
      (x, e.keys .load false 128 l x, e.needs .load false 128 x l)
  | .priv off =>
    let k := ((off + n - 1) / 4 * e.wav.width + l) / 32 + i
    let o := 32 * k / e.wav.width * 4
    if (e.lane (32 * k % e.wav.width)).privOk (Hdr.priv e.task.hdr) o then
      some ({ loc := .priv o }, [(.priv e.wid 0 k, 0)], [.priv e.wid 0 (2 * k), .priv e.wid 0 (2 * k + 1)])
    else none
  | .scr .. => none

/-- The prefetches after a lane's access (R124): each is charged and leased as a load would be; one that meets a failing unit reaches
the LLC alone, and raises nothing. -/
def State.prefetch (s : State) (e : Env) (h : Hints) (n l : Nat) (sp : Spot) : State :=
  ((List.range h.ahead).filterMap fun i => e.behind n l sp (i + 1)).foldl (fun s x =>
    if x.2.2.any s.badKey then s.pastL1 e .load false h x.1 x.2.1 else s.through e .load false h x.1 x.2.1) s

/-- The bytes that a lane's access touches: its own and, where it touches tangent planes, theirs (R84, R86). -/
def Env.foot (e : Env) (d : Dir) (planes : Bool) (n : Nat) (sp : Spot) : List (Loc × Nat) :=
  (sp.loc, n) :: match sp.page with
    | some (p, lf) => if planes then (planeVas p lf sp.va n).filterMap fun v => (e.job.phys d v).map fun q => (.mem q, 2) else []
    | none => []

/-- Whether two accesses of `n` bytes share a byte. -/
def Loc.meets (a b : Loc) (n m : Nat) : Bool :=
  match a, b with
  | .mem x, .mem y => x < y + m && y < x + n
  | .scr i x, .scr j y => i == j && x < y + m && y < x + n
  | _, _ => false

/-- A free order of lanes (R176, R350). -/
def State.shuffle (s : State) (ls : List Nat) : State × List Nat :=
  ls.foldl (fun (acc : State × List Nat) l =>
    let (k, s) := acc.1.draw
    let k := k % (acc.2.length + 1)
    (s, acc.2.take k ++ l :: acc.2.drop k)) (s, [])

/-- Mark registers of a lane empty (R57). -/
def Strand.empty (x : Strand) (rs : List Nat) : Strand := rs.foldl (fun x r => x.setFull r false) x

/-- A trap of a memory instruction: in a replay the lanes not marked are held (R181, R360); `marks` are the registers that it
left empty in each. -/
def Ctx.memRaise (c : Ctx) (s : State) (marks : List Nat) (cause : Nat) (hits : List (Nat × W64)) (held : List Nat) : Res :=
  let lanes := hits.map (·.1)
  if c.again || !held.isEmpty then
    .next (s.takeTrap c.wid cause hits
      ⟨some (Mask.ofLanes lanes), Mask.ofLanes (held.filter fun l => !lanes.contains l), (lanes ++ held).map fun l => (l, marks)⟩)
  else c.raise s cause hits

/-- The address of a memory instruction in a lane (R119). -/
def Ctx.addr (c : Ctx) (l : Nat) : W64 := c.ptr c.f.a l + c.f.offset

/-- The end of an access: past the instruction, or waiting for the lanes that did not perform theirs (R151, R165). `units` are
the failing units of a lane in `broken`: one whose refetch has not been tried is refetched first. -/
def Ctx.hold (c : Ctx) (s : State) (marks : List Nat) (faulted broken : List (Nat × W64)) (units : Nat → List UnitKey) : Res :=
  let fresh := broken.filter fun p => (units p.1).any fun u => !c.env.wav.tried.contains u
  let late := c.env.wav.failing ++ broken.filter fun p => !((units p.1).any fun u => !c.env.wav.tried.contains u)
  if faulted.isEmpty && fresh.isEmpty then
    if late.isEmpty then .next (s.pass c) else c.memRaise s marks eIntegrity late (late.map (·.1))
  else .next (s.modWav c.wid fun v =>
    { v with stall := .fault false, replay := some (Mask.ofLanes ((faulted ++ fresh).map (·.1))), faults := faulted,
             integ := fresh, tried := v.tried ++ (fresh.map fun p => units p.1).flatten, failing := late,
             marks := ((faulted ++ fresh ++ late).map (·.1)).map fun l => (l, marks) })

/-- The lanes of a replay that a trap holds: those still to be performed, and those whose units no refetch mended (R360). -/
def Ctx.heldLanes (c : Ctx) : List Nat := if c.again then c.lanes ++ c.env.wav.failing.map (·.1) else []

/-- Perform a memory instruction: the checks of R146, the page format, the WT rule, then each lane alone (R151). A lane whose
units fail their check reaches the LLC alone, for they are checked as they fill the L1 (R164). The lanes of one instruction have
no order (R169); that they reach the caches in ascending order, those whose units fail after the others where these are in a free
order, is the model's choice (log 23). -/
def Ctx.access (c : Ctx) (s : State) (a : Access) : Res :=
  let e := c.env
  let leaf := fun l => match window (c.addr l) with
    | .glob va => some ((e.job.page va).map (·.2))
    | _ => none
  let align := fun l => match leaf l with | some (some p) => a.bytes p | some none => 1 | none => a.n
  let bytes := fun l => match leaf l with | some (some p) => a.bytes p | _ => a.n
  match firstCause (c.each fun l => [(c.addr l, causes (e.winCause (c.addr l)) (c.addr l) (align l))]) with
  | some (cause, hits) => c.memRaise s a.marks cause hits c.heldLanes
  | none =>
    let fmt := c.lanes.filter fun l => match leaf l with | some (some p) => (a.glob p).isNone | _ => false
    if !fmt.isEmpty then
      c.memRaise s a.marks eFmt (fmt.map fun l => (l, c.addr l)) c.heldLanes
    else
      let spot := fun l => e.spot a.dir a.planes a.bytes (c.addr l) l
      let bar := if a.dir == .load then [] else c.lanes.filter fun l => match spot l with
        | some ⟨.scr b off, _, _⟩ =>
          a.writes l (s.scrRead b off a.n) &&
            (List.range ((a.n + 15) / 16)).any fun i => s.wt b (off / 16 + i)
        | _ => false
      if !bar.isEmpty then c.memRaise s a.marks eBar (bar.map fun l => (l, c.addr l)) c.heldLanes
      else
        let at' := fun l => (l, c.addr l)
        let faulted := c.lanes.filter fun l => (spot l).isNone
        let units := fun l => match spot l with
          | some sp => s.failing e a.dir (a.deep sp) (bytes l) sp l
          | none => []
        let broken := c.lanes.filter fun l => !(units l).isEmpty
        let good := c.lanes.filterMap fun l => if broken.contains l then none else (spot l).map fun sp => (l, sp)
        let foot := fun (p : Nat × Spot) => e.foot a.dir a.planes (bytes p.1) p.2
        let overlap := good.any fun p => good.any fun q => p.1 < q.1 && (foot p).any fun x => (foot q).any fun y =>
          x.1.meets y.1 x.2 y.2
        let (s, order) : State × List Nat := if a.dir != .load && overlap then
            let r := s.shuffle (good.map (·.1))
            (r.1, r.2 ++ broken)
          else (s, c.lanes)
        let s := if c.again then s else c.lanes.foldl (fun s l => s.modLane c.wid l (·.empty a.marks)) s
        let (s, fills) := order.foldl (fun (acc : State × List Fill) l => match spot l with
          | none => acc
          | some sp =>
            let h := Fields.hints c.f
            let ks := e.keys a.dir (a.deep sp) (bytes l) l sp
            if broken.contains l then (acc.1.pastL1 e a.dir false h sp ks, acc.2)
            else
              let wrote := a.dir != .load && a.writes l (acc.1.readLoc c.wid l sp.loc a.n)
              let (s, fs) := a.go (acc.1.through e a.dir wrote h sp ks) l sp
              (s.prefetch e h (bytes l) l sp, acc.2 ++ fs)) (s, [])
        let s := if fills.isEmpty then s
          else s.addOp c.wid (if a.dir == .load then .load fills else .atomic fills)
        c.hold s a.marks (faulted.map at') (broken.map at') units

/-! Values in memory (R153, R83-R87, R66, R67). -/

/-- Bytes that a load or store of a type takes on a page; none is `E_FMT` (R153). -/
def fmtBytes (t : Ty) (l : Leaf) : Option Nat :=
  if t == .b32 || l.fmt == .b32 || l.fmt == t then some t.regBytes
  else if t == .i4o || l.fmt == .i4o then none
  else some (Ty.memBytes l.fmt t.perReg)

/-- Whether the bytes move raw. -/
def fmtRaw (t : Ty) (l : Leaf) : Bool := t == .b32 || l.fmt == .b32 || l.fmt == t

/-- One element between a register type and a page format (R153): RN, SAT to integers. -/
def memConv (st dt : Ty) (ftz : Bool) (x : Nat) : Conv := cvtElem st dt ftz 0 (!dt.isFloat) 0 x

/-- Value read at a spot as a type, and whether CNVSAT is set. -/
def State.loadVal (s : State) (e : Env) (l : Nat) (t : Ty) (sp : Spot) : Val × Bool :=
  match sp.page with
  | some (p, lf) =>
    let n := (fmtBytes t lf).getD 0
    let x := s.readLoc e.wid l sp.loc n
    let cs := if fmtRaw t lf then (t.elems x).map fun y => (⟨y, false, false⟩ : Conv)
      else (splitBits (Ty.elemBits lf.fmt) t.perReg x).map (memConv lf.fmt t e.ftz)
    let first := (planeSpan lf (sp.va - p) n).1
    let tan := tanOf t e.K fun k j =>
      if k < lf.tp && !(cs.getD j ⟨0, false, false⟩).cnv then
        match e.job.phys .load (planeVa p lf k (first + j)) with
        | some q => F32.ofBf (Sparse.readN s.mem q 2)
        | none => 0
      else 0
    (Val.of (joinBits t.elemBits (cs.map (·.bits))) t.tag tan, cs.any (·.cnv))
  | none =>
    let x := s.readLoc e.wid l sp.loc t.regBytes
    let tan := match sp.loc with
      | .priv off => if t.hasTan then
          (List.range (min e.K (Hdr.planes e.task.hdr))).map fun i => Sparse.get 0 (e.lane l).planes (privKey i off)
          else []
      | _ => []
    (Val.of x t.tag tan, false)

/-- Write zero in the private plane words of `n` bytes, but for what `word` gives (R67). -/
def State.putPriv (s : State) (e : Env) (l off n : Nat) (word : Nat → Nat → W32) : State :=
  let k := Hdr.planes e.task.hdr
  let put := fun (ps : List (Nat × W32)) => (List.range k).foldl (fun ps i =>
    (List.range (n / 4)).foldl (fun ps j => Sparse.put 0 ps (privKey i (off + 4 * j)) (word i (off + 4 * j))) ps) ps
  (s.modLane e.wid l fun x => { x with planes := put x.planes }).modWav e.wid fun v =>
    (List.range k).foldl (fun v i => v.recheck (i + 1) (privUnits v.width l off n)) v

/-- Write a value at a spot; whether CNVSAT is set. -/
def State.storeVal (s : State) (e : Env) (l : Nat) (t : Ty) (v : Val) (sp : Spot) : State × Bool :=
  match sp.page with
  | some (p, lf) =>
    let n := (fmtBytes t lf).getD 0
    let es := t.elems v.bits.toNat
    let cs := if fmtRaw t lf then es.map fun y => (⟨y, false, false⟩ : Conv) else es.map (memConv t lf.fmt e.ftz)
    let w := if fmtRaw t lf then t.elemBits else Ty.elemBits lf.fmt
    let s := s.writeLoc e.wid l sp.loc n (joinBits w (cs.map (·.bits)))
    let (first, k) := planeSpan lf (sp.va - p) n
    let s := (List.range lf.tp).foldl (fun s i => (List.range k).foldl (fun s j =>
      match e.job.phys .store (planeVa p lf i (first + j)) with
      | some q =>
        let x := if i < e.K && !(cs.getD j ⟨0, false, false⟩).cnv then F32.toBf (tanConv t .bf16 (v.tanEl t i j)) else 0
        s.memWrite q 2 x
      | none => s) s) s
    (s, cs.any (·.cnv))
  | none =>
    let s := s.writeLoc e.wid l sp.loc t.regBytes v.bits.toNat
    match sp.loc with
    | .priv off => (s.putPriv e l off t.regBytes fun i o => if o == off && i < e.K && t.hasTan then v.word i else 0, false)
    | _ => (s, false)

/-- The fills of a value in D. -/
def Ctx.fillsOf (c : Ctx) (l : Nat) (wide : Bool) (v : Val) : List Fill :=
  match c.f.d with
  | .v n =>
    let v := c.tm v
    ⟨l, n, { bits := v.bits.setWidth 32, tag := v.tag, tan := c.env.shadow n v.tan }⟩ ::
      (if wide then [⟨l, n + 1, { bits := (v.bits >>> 32).setWidth 32, tag := v.tag }⟩] else [])
  | _ => []

/-- `ld` (R310). -/
def execLd (f : Fields) (s : State) : Res :=
  meaning (.ld f) s fun c s =>
    let t := f.ty
    c.access s {
      dir := .load, n := t.regBytes, glob := fmtBytes t, planes := true, words := t.hasTan
      marks := Name.mains f.d (if t.wide then 2 else 1)
      go := fun s l sp =>
        let (v, cnv) := s.loadVal c.env l t sp
        (if cnv then s.modLane c.wid l (·.flag stCnvSat) else s, c.fillsOf l t.wide v) }

/-- `st` (R349). A lane that is performed again stores what its registers hold then: whether it is this or what they held at the
issue the spec does not say, and is the model's choice (log 19). -/
def execSt (f : Fields) (s : State) : Res :=
  meaning (.st f) s fun c s =>
    let t := f.ty
    c.access s {
      dir := .store, n := t.regBytes, glob := fmtBytes t, planes := true
      go := fun s l sp =>
        let (s, cnv) := s.storeVal c.env l t (c.val f.b t l) sp
        (if cnv then s.modLane c.wid l (·.flag stCnvSat) else s, []) }

/-! Atomics (R270-R272). -/

/-- An atomic on a global page needs FMT `b32` or TY. -/
def atomBytes (t : Ty) (l : Leaf) : Option Nat := if l.fmt == .b32 || l.fmt == t then some t.regBytes else none

/-- The value an atomic writes (R270). -/
def atomNew (op : Nat) (t : Ty) (old b : Nat) : Nat :=
  match op with
  | 0 => if t.isFloat then Fmt.f32.rn ((t.num false old).add false (t.num false b)) else (old + b) % 2 ^ t.elemBits
  | 1 => pickElem t false false old b
  | 2 => pickElem t false true old b
  | 3 => old &&& b
  | 4 => old ||| b
  | 5 => old ^^^ b
  | _ => b

/-- An atomic: `new l old` is the value written, none where nothing is. -/
def Ctx.atomic (c : Ctx) (s : State) (new : Nat → Nat → Option Nat) : Res :=
  let t := c.f.ty
  let n := t.regBytes
  c.access s {
    dir := .atomic, n := n, glob := atomBytes t, marks := Name.mains c.f.d (if t.wide then 2 else 1)
    writes := fun l old => (new l old).isSome
    go := fun s l sp =>
      let old := s.readLoc c.wid l sp.loc n
      let s := match new l old with | some v => s.writeLoc c.wid l sp.loc n v | none => s
      (s, c.fillsOf l t.wide (Val.ofTy t old)) }

/-- An `atom` of one operation. -/
def Ctx.atom (c : Ctx) (s : State) (op : Nat) : Res :=
  c.atomic s fun l old => some (atomNew op c.f.ty old (c.nat c.f.b c.f.ty l))

/-- `atom.add` (R270). -/
def execAtomAdd (f : Fields) (s : State) : Res := meaning (.atomAdd f) s fun c s => c.atom s 0
/-- `atom.min` (R270). -/
def execAtomMin (f : Fields) (s : State) : Res := meaning (.atomMin f) s fun c s => c.atom s 1
/-- `atom.max` (R270). -/
def execAtomMax (f : Fields) (s : State) : Res := meaning (.atomMax f) s fun c s => c.atom s 2
/-- `atom.and` (R270). -/
def execAtomAnd (f : Fields) (s : State) : Res := meaning (.atomAnd f) s fun c s => c.atom s 3
/-- `atom.or` (R270). -/
def execAtomOr (f : Fields) (s : State) : Res := meaning (.atomOr f) s fun c s => c.atom s 4
/-- `atom.xor` (R270). -/
def execAtomXor (f : Fields) (s : State) : Res := meaning (.atomXor f) s fun c s => c.atom s 5
/-- `atom.exch` (R270). -/
def execAtomExch (f : Fields) (s : State) : Res := meaning (.atomExch f) s fun c s => c.atom s 6
/-- `atomcas` (R272). -/
def execAtomcas (f : Fields) (s : State) : Res :=
  meaning (.atomcas f) s fun c s => c.atomic s fun l old =>
    if old == c.nat f.b f.ty l then some (c.nat f.c f.ty l) else none

/-! Images in memory (R228). -/

/-- An image moves on `b32` pages alone. -/
def imgBytes (n : Nat) (l : Leaf) : Option Nat := if l.fmt == .b32 then some n else none

/-- Load an image of `k` registers. -/
def Ctx.imgLoad (c : Ctx) (s : State) (tag : Tag) (k : Nat) : Res :=
  c.access s {
    dir := .load, n := 4 * k, glob := imgBytes (4 * k), marks := Name.mains c.f.d k
    go := fun s l sp =>
      let x := s.readLoc c.wid l sp.loc (4 * k)
      (s, (Name.mains c.f.d k).zipIdx.map fun (r, i) =>
        ⟨l, r, { bits := BitVec.ofNat 32 (x >>> (32 * i)), tag := tag }⟩) }

/-- Store an image of `k` registers; in the private window every plane word that it covers becomes zero (R67). -/
def Ctx.imgStore (c : Ctx) (s : State) (k : Nat) : Res :=
  c.access s {
    dir := .store, n := 4 * k, glob := imgBytes (4 * k), words := true
    go := fun s l sp =>
      let s := s.writeLoc c.wid l sp.loc (4 * k) (joinBits 32 ((List.range k).map fun i => (c.img c.f.b l i).toNat))
      (match sp.loc with | .priv off => s.putPriv c.env l off (4 * k) fun _ _ => 0 | _ => s, []) }

/-- `rsvld` (R228, R341). -/
def execRsvld (f : Fields) (s : State) : Res := meaning (.rsvld f) s fun c s => c.imgLoad s Tag.rsv 8
/-- `rsvst` (R228, R341). -/
def execRsvst (f : Fields) (s : State) : Res := meaning (.rsvst f) s fun c s => c.imgStore s 8
/-- `dld` (R294). -/
def execDld (f : Fields) (s : State) : Res := meaning (.dld f) s fun c s => c.imgLoad s Tag.dis 16
/-- `dsto` (R300). -/
def execDsto (f : Fields) (s : State) : Res := meaning (.dsto f) s fun c s => c.imgStore s 16

/-! Pointers. -/

/-- The word `spc` gives (R147). -/
def Env.spcWord (e : Env) (a : W64) : Nat :=
  match window a with
  | .none => 0
  | .glob _ => 1
  | .priv _ => 2
  | .sp st _ => if st > 191 then 0 else if st == e.blk.home then 3 + 256 * st else 4 + 256 * st
  | .span r _ => 5 + 256 * r

/-- `spc` (R147). -/
def execSpc (f : Fields) (s : State) : Res :=
  meaning (.spc f) s fun c s =>
    .next (s.finish c false (c.each fun l => Val.ofTy .n32 (c.env.spcWord (c.ptr f.a l))))

/-- Finish a pointer cast, or raise `E_SPACE` in the lanes that fail (R148). -/
def Ctx.cast (c : Ctx) (s : State) (wide : Bool) (bad : Nat → Bool) (v : Nat → Val) : Res :=
  let hits := c.lanes.filter bad
  if hits.isEmpty then .next (s.finish c wide (c.each v)) else c.raise s eSpace (noAddr hits)

/-- `spcast.sp` (R148). -/
def execSpcastSp (f : Fields) (s : State) : Res :=
  meaning (.spcastSp f) s fun c s =>
    let a := fun l => c.nat f.a .n32 l
    c.cast s true (fun l => decide (2 ^ 24 ≤ a l)) fun l => Val.of (0xFD * 2 ^ 56 + c.env.blk.home * 2 ^ 32 + a l) Tag.ptr

/-- `spcast.span` (R148). -/
def execSpcastSpan (f : Fields) (s : State) : Res :=
  meaning (.spcastSpan f) s fun c s =>
    let a := fun l => c.nat f.a .n32 l
    let b := fun l => c.nat f.b .n32 l
    c.cast s true (fun l => decide (2 ^ 24 ≤ a l) || decide (8 ≤ b l)) fun l =>
      Val.of (0xFE * 2 ^ 56 + b l * 2 ^ 48 + a l) Tag.ptr

/-- `spcast.off` (R148). -/
def execSpcastOff (f : Fields) (s : State) : Res :=
  meaning (.spcastOff f) s fun c s =>
    let win := fun l => c.env.spcWord (c.ptr f.a l) % 16
    c.cast s false (fun l => win l ≤ 1) fun l =>
      Val.ofTy .n32 ((c.ptr f.a l).toNat % (if win l == 2 then 2 ^ 32 else 2 ^ 24))

/-- `fence.strand` to `fence.dev` (R182): they order nothing beyond R169. -/
def execFence (f : Fields) (scope : Fin 5) (s : State) : Res := meaning (.fence f scope) s fun c s => .next (s.pass c)
/-- `fence.sys` (R183): host accesses take their places in the one order, so both conditions hold at once. -/
def execFenceSys (f : Fields) (s : State) : Res := meaning (.fenceSys f) s fun c s => .next (s.pass c)

/-! Filling registers (R57, R58). -/

/-- A lane that waits for registers goes on once they are full, and so observes what filled them (R174). -/
def Strand.settle (x : Strand) (step : Nat) : Strand :=
  match x.wait with
  | .regs rs => if rs.all fun r => (x.reg r).full then { x with wait := .none }.find step rs else x
  | .allRegs => if x.regs.all fun r => r.2.full then { x with wait := .none }.find step (x.arrived.map fun (p : Nat × Clock) => p.1) else x
  | _ => x

/-- Wake what a fill may release: a bundle stalled on an empty register, lanes whose awaited registers are full. -/
def Wavelet.settle (v : Wavelet) (step : Nat) : Wavelet :=
  { v with stall := if v.stall == .empty then .none else v.stall, lanes := v.lanes.map (·.settle step) }

/-- Fill registers of a wavelet with the results of an access made in step `at'`, where program order places their writes
(R177). -/
def State.fillRegs (s : State) (w : WavId) (fs : List Fill) (at' : Nat) : State :=
  (fs.foldl (fun s f => s.modLane w f.lane fun x => x.setReg at' f.reg f.val) s).modWav w (·.settle s.steps)

/-- Outstanding work ends: what only waited for it is released (R42). -/
def State.done (s : State) (o : Op) : State := (s.dropOp o.id).reap o.wid.span

/-- An engine status word (R189). -/
def statusWord (cause count : Nat) : Nat := 2 ^ 31 + cause % 128 * 2 ^ 24 + min count 0xFFFFFF

/-- Fill a status or token register: an engine's write (R174, R189). -/
def State.fillStatus (s : State) (w : WavId) (l : Nat) (d : Name) (word : Nat) : State :=
  match d with
  | .v n => (s.modLane w l fun x => (x.engReg n { bits := BitVec.ofNat 32 word, tag := Ty.n32.tag }).arrive n []).modWav w
      (·.settle s.steps)
  | _ => s

/-- LOAD_FILL: the registers of a load are written (R57). -/
def execLoadFill (op : Nat) (s : State) : Res :=
  match s.op? op with
  | some o => match o.work with
    | .load fs => .next ((s.fillRegs o.wid fs o.step).done o)
    | _ => .refused .notDue
  | none => .refused .notDue

/-- ATOMIC_RETURN: the old values are returned (R57, R270). -/
def execAtomicReturn (op : Nat) (s : State) : Res :=
  match s.op? op with
  | some o => match o.work with
    | .atomic fs => .next ((s.fillRegs o.wid fs o.step).done o)
    | _ => .refused .notDue
  | none => .refused .notDue

/-! Per-lane copies (R191, R286). -/

/-- `cpl`: both addresses are checked at issue, source first; the copy itself is CPL_COMPLETE. -/
def execCpl (f : Fields) (size : Fin 3) (s : State) : Res :=
  meaning (.cpl f size) s fun c s =>
    let n := 4 * 2 ^ size.val
    let src := fun l => c.addr l
    let dst := fun l => c.ptr f.b l
    let chk := fun (a : W64) => (a, causes (c.env.winCause a) a n)
    match firstCause (c.each fun l => [chk (src l), chk (dst l)]) with
    | some (cause, hits) => c.raise s cause hits
    | none =>
      .next ((c.lanes.foldl (fun s l =>
        (s.modLane c.wid l (·.empty (Name.mains f.d 1))).addOp c.wid (.cpl l (src l) (dst l) n f.d)) s).pass c)

/-- CPL_COMPLETE (R191): the read, the write and the status of one lane. The unit that refuses the write is read to be merged (R162,
R166). A page that is not there by then is a fault
that Pewter declined (R190). -/
def execCplComplete (op : Nat) (s : State) : Res :=
  match s.op? op with
  | some o => match o.work, s.env? o.wid with
    | .cpl l src dst n d, some e =>
      let st := match e.spot .load false (fun _ => n) src l, e.spot .store false (fun _ => n) dst l with
        | some x, some y =>
          let s := s.reach e .load x n l
          if s.fails e .load false n x l then (s, statusWord eIntegrity 0)
          else if s.fails e .store false n y l then (s.reach e .load y n l, statusWord eIntegrity 0)
          else
            let s := s.reach e .store y n l
            (s.writeLoc o.wid l y.loc n (s.readLoc o.wid l x.loc n), statusWord 0 n)
        | some x, none => (s.reach e .load x n l, statusWord ePage 0)
        | _, _ => (s, statusWord ePage 0)
      .next ((st.1.fillStatus o.wid l d st.2).done o)
    | _, _ => .refused .notDue
  | none => .refused .notDue

end Sys2Proof.Machine
end

