-- ==== Sys2Proof/Machine/Copy.lean ====
section
/-! DEFINITION. Engine accesses (R175, R190), block-scaled elements in memory (R102) and the bulk copy channels
(R192-R196, R286). -/

namespace Sys2Proof.Machine

/-- Bits `[hi:lo]` of a descriptor, record or header. -/
def dbits (d : BitVec 512) (hi lo : Nat) : Nat := natBits d.toNat hi lo
/-- A 64-bit field of a descriptor. -/
def dword (d : BitVec 512) (lo : Nat) : W64 := BitVec.ofNat 64 (natBits d.toNat (lo + 63) lo)

/-! Engine accesses. An error is the cause the command meets. -/

/-- Where an engine access of one lane's submission goes; a page that is not there is a declined fault (R190). -/
def Env.engSpot (e : Env) (d : Dir) (n : Nat) (a : W64) : Except Nat Spot :=
  match e.spot d false (fun _ => n) a with
  | some sp => .ok sp
  | none => .error ePage

/-- The pieces of `n` bytes at an address that lie in one 64-byte unit each: offset and length. No page or allocation ends
inside a unit. -/
def unitRuns (a n : Nat) : List (Nat × Nat) :=
  (List.range ((a + n - 1) / 64 + 1 - a / 64)).map fun i =>
    let lo := max a (64 * (a / 64 + i))
    (lo - a, min (a + n) (64 * (a / 64 + i) + 64) - lo)

/-- Read bytes of one unit for an engine, the check value tested (R165). -/
def State.engPart (s : State) (e : Env) (a : W64) (n : Nat) : Except Nat Nat :=
  match e.engSpot .load n a with
  | .error c => .error c
  | .ok sp => if s.fails e .load false n sp then .error eIntegrity else .ok (s.readLoc e.wid 0 sp.loc n)

/-- Read one byte for an engine. -/
def State.engByte (s : State) (e : Env) (a : W64) : Except Nat Nat := s.engPart e a 1

/-- Read `n` bytes for an engine, as a number. -/
def State.engRead (s : State) (e : Env) (a : W64) (n : Nat) : Except Nat Nat :=
  (unitRuns a.toNat n).foldl (fun acc r => match acc with
    | .error c => .error c
    | .ok x => (s.engPart e (a + BitVec.ofNat 64 r.1) r.2).map fun y => x + y * 256 ^ r.1) (.ok 0)

/-- Write bytes of one unit for an engine, in one step (R175); part of a failing unit is not written (R166). -/
def State.engPut (s : State) (e : Env) (a : W64) (n v : Nat) : Except Nat State :=
  match e.engSpot .store n a with
  | .error c => .error c
  | .ok sp =>
    if s.fails e .store false n sp then .error eIntegrity
    else .ok ((s.reach e .store sp n).writeLoc e.wid 0 sp.loc n v)

/-- Bytes of a number, least first. -/
def bytesOf (n v : Nat) : List Nat := (List.range n).map fun i => v / 256 ^ i % 256

/-- Write the `n` low bytes of a number for an engine, ascending; a failure stops it. -/
def State.engStore (s : State) (e : Env) (a : W64) (n v : Nat) : Except Nat State :=
  (unitRuns a.toNat n).foldl (fun acc r => match acc with
    | .error c => .error c
    | .ok s => s.engPut e (a + BitVec.ofNat 64 r.1) r.2 (v / 256 ^ r.1)) (.ok s)

/-- Bytes that an engine writes at an address. -/
structure Piece where
  addr : W64
  n    : Nat
  v    : Nat

/-- Pieces in ascending order, each joined with the next where it ends there, so that what covers a unit is written as one
(R166). -/
def joinPieces (ps : List Piece) : List Piece :=
  (sortBy (fun a b => a.addr.toNat ≤ b.addr.toNat) ps).foldr (fun p acc => match acc with
    | q :: rest => if p.addr.toNat + p.n == q.addr.toNat then ⟨p.addr, p.n + q.n, p.v % 256 ^ p.n + q.v * 256 ^ p.n⟩ :: rest
      else p :: acc
    | [] => [p]) []

/-- Write the pieces of one step of a command. -/
def State.putPieces (s : State) (e : Env) (ps : List Piece) : Except Nat State :=
  (joinPieces ps).foldl (fun acc p => match acc with
    | .error c => .error c
    | .ok s => s.engStore e p.addr p.n p.v) (.ok s)

/-- The parts that an engine writes for pieces, each of one unit, in their order. -/
def partsOf (ps : List Piece) : List Piece :=
  ((joinPieces ps).map fun p => (unitRuns p.addr.toNat p.n).map fun r =>
    (⟨p.addr + BitVec.ofNat 64 r.1, r.2, p.v / 256 ^ r.1⟩ : Piece)).flatten

/-- Where the part lies that stops a write of parts, where a page is there for it, with its bytes. -/
def State.refuser (e : Env) : List Piece → State → Option (Spot × Nat)
  | [], _ => none
  | p :: ps, s => match s.engPut e p.addr p.n p.v with
    | .ok t => t.refuser e ps
    | .error _ => match e.engSpot .store p.n p.addr with | .ok sp => some (sp, p.n) | .error _ => none

/-- The LLC on the unit that refuses an engine's write, which is read there to be merged (R162, R166); `t` is the machine in which the
parts are written. -/
def State.refusedIn (s t : State) (e : Env) (ps : List Piece) : State :=
  match t.refuser e (partsOf ps) with
  | some (sp, n) => s.reach e .load sp n
  | none => s

/-- All of a list, where nothing is missing. -/
def allSome {α : Type} (xs : List (Option α)) : Option (List α) := xs.mapM id

/-- The LLC on an engine's reads of `n` bytes at an address, up to the unit that stops them (R161, R162). -/
def State.engReach (s : State) (e : Env) (a : W64) (n : Nat) (column : Bool := false) : State :=
  ((unitRuns a.toNat n).foldl (fun (acc : State × Bool) r =>
    if acc.2 then acc
    else match e.engSpot .load r.2 (a + BitVec.ofNat 64 r.1) with
    | .ok sp => (acc.1.reach e .load sp r.2 0 column, acc.1.fails e .load false r.2 sp)
    | .error _ => (acc.1, true)) (s, false)).1

/-- The page of a generic address, where it is a global page that an engine can reach. -/
def Env.page? (e : Env) (a : W64) : Option (Nat × Leaf) :=
  match window a with | .glob va => e.job.page va | _ => none

/-- A cause that an engine instruction's address meets at issue: as R146, the private window refused (R193). -/
def Env.engCause (e : Env) (a : W64) : Option Nat :=
  match window a with | .priv _ => some eSpace | _ => e.winCause a

/-- A cause that an address meets which must lie in the block's own scratchpad. -/
def Env.ownCause (e : Env) (a : W64) : Option Nat :=
  match e.own a with | .error c => some c | .ok _ => none

/-- All of a list, or its first error. -/
def allOk {α : Type} : List (Except Nat α) → Except Nat (List α)
  | [] => .ok []
  | .error c :: _ => .error c
  | .ok x :: xs => match allOk xs with | .ok ys => .ok (x :: ys) | .error c => .error c

/-! Elements of a row (R194). -/

/-- One side of a record: its format and, on a global page, the page; `absent` says that it names a global page that is not
there. -/
structure Side where
  ty     : Ty
  page   : Option (Nat × Leaf)
  absent : Bool := false

/-- The side at an address: the page's FMT, else the record's. -/
def Env.side (e : Env) (a : W64) (fmt : Nat) : Side :=
  match e.page? a with
  | some p => ⟨Leaf.fmt p.2, some p, false⟩
  | none => ⟨Ty.ofCode fmt, none, match window a with | .glob _ => true | _ => false⟩

/-- Whether a side has a scale plane (R102). -/
def Side.blk (x : Side) : Bool := match x.page with | some p => Leaf.blk p.2 | none => false

/-- The address of the scale of the block that holds element `i` of a page (R102). -/
def scaleVa (p : Nat) (l : Leaf) (i : Nat) : Nat := p + (l.tp + 1) * l.stride + i / 32

/-- The code of element `j` after the row address `a`. -/
def State.codeAt (s : State) (e : Env) (t : Ty) (a : W64) (j : Nat) : Except Nat Nat :=
  let w := t.elemBits
  match s.engRead e (a + BitVec.ofNat 64 (j * w / 8)) ((w + 7) / 8) with
  | .error c => .error c
  | .ok x => .ok (if w < 8 then (x >>> (j * w % 8)) % 2 ^ w else x)

/-- The global page that holds element `j` of a row at `a`, its base and leaf and the element's index there. -/
def Env.elemPage (e : Env) (w : Nat) (a : W64) (j : Nat) : Option (Nat × Leaf × Nat) :=
  let x := a + BitVec.ofNat 64 (j * w / 8)
  (e.page? x).map fun p => (p.1, p.2, (x.toNat - p.1) * 8 / w + j * w % 8 / w)

/-- The value of element `j` of a row at `a`, its block scale applied (R99-R102); an `i4o` element is decoded in the aligned
quad of its page's slots, and F16FTZ reads a subnormal `f16` or `bf16` element as zero (R97). -/
def State.elemAt (s : State) (e : Env) (t : Ty) (ftz : Bool) (a : W64) (j : Nat) : Except Nat Num :=
  match e.elemPage t.elemBits a j with
  | some (p, l, i) =>
    let codes : Except Nat (List Nat) :=
      if t == .i4o then (s.engRead e (BitVec.ofNat 64 (p + i / 4 * 2)) 2).map (splitBits 4 4)
      else (s.codeAt e t a j).map fun c => [c]
    match codes with
    | .error c => .error c
    | .ok cs =>
      let x := (unscaled t cs).getD (if t == .i4o then i % 4 else 0) Num.zero
      if l.blk then
        (s.engByte e (BitVec.ofNat 64 (scaleVa p l i))).map fun sc =>
          scaled sc (codeSign t cs (if t == .i4o then i % 4 else 0)) x
      else .ok (if t == .i4o then x else t.num ftz (cs.headD 0))
  | none => (s.codeAt e t a j).map (t.num ftz)

/-! Records (R192). -/

abbrev Req := BitVec 512
def Req.src (d : Req) : W64 := dword d 0
def Req.dst (d : Req) : W64 := dword d 64
def Req.bar (d : Req) : W64 := dword d 128
def Req.rowb (d : Req) : Nat := dbits d 223 192
def Req.rows (d : Req) : Nat := dbits d 255 224
def Req.spitch (d : Req) : Nat := dbits d 287 256
def Req.dpitch (d : Req) : Nat := dbits d 319 288
def Req.bytes (d : Req) : Nat := dbits d 351 320
def Req.ch (d : Req) : Nat := dbits d 353 352
def Req.xp (d : Req) : Bool := d.getLsbD 354
def Req.cvt (d : Req) : Bool := d.getLsbD 355
def Req.stat (d : Req) : W64 := dword d 384

/-- The addresses of a record with the causes they meet at issue, in R193's order. -/
def Env.reqCauses (e : Env) (d : Req) : List (W64 × List Nat) :=
  let bar := match window (Req.bar d) with
    | .sp .. | .span .. => e.winCause (Req.bar d)
    | _ => some eSpace
  [(Req.src d, (e.engCause (Req.src d)).toList), (Req.dst d, (e.engCause (Req.dst d)).toList),
   (Req.bar d, causes bar (Req.bar d) 16)] ++
  (if Req.stat d == 0 then [] else [(Req.stat d, causes (e.engCause (Req.stat d)) (Req.stat d) 4)])

/-- Charge a record to its object (R33): none where it raises `E_BAR`; else whether its bytes count. -/
def State.charge (s : State) (e : Env) (d : Req) : Option (State × Option (BlkId × Nat) × Bool) :=
  match e.scr (Req.bar d) with
  | .error _ => none
  | .ok (b, off) =>
    let o := s.obj b off
    if !o.ok then none
    else if o.inv then some (s, some (b, off), false)
    else if o.cnt + Req.bytes d ≥ 2 ^ 32 then none
    else some (s.setObj b off { o with cnt := o.cnt + Req.bytes d }, some (b, off), true)

/-- Submit one record, before which `seen` had gone: charge it, start it on its channel and count its bytes (R193, R195). That a
converting record reads under the F16FTZ that its wavelet has now is the model's choice (log 19). -/
def State.submitSeen (s : State) (e : Env) (d : Req) (seen : Clock) : Option State :=
  match s.charge e d with
  | some (s, some (b, off), counted) =>
    let c : Copy := { desc := d, bar := b, off := off, charged := counted, ftz := e.ftz, seen := seen }
    some ((s.addOp e.wid (.bulk c)).modBlk e.wid.block
      fun k => { k with sent := listModify (· + BitVec.ofNat 64 (Req.bytes d)) k.sent (Req.ch d) })
  | _ => none

/-- Submit one record of a lane, after all that the lane has seen and done (R173). -/
def State.submit (s : State) (e : Env) (d : Req) (l : Nat) : Option State := s.submitSeen e d (s.seenBy e.wid l)

/-- Submit a lane's records, all of them or none (R195). -/
def State.submitLane (s : State) (e : Env) (l : Nat) (ds : List Req) : Option State :=
  ds.foldl (fun acc d => acc.bind fun s => s.submit e d l) (some s)

/-- The start count of a lane's first record, where it has one (R195). -/
def State.startCount (s : State) (b : BlkId) (ds : List Req) : Option Val :=
  let sent := match s.blk? b with | some k => k.sent | none => []
  ds.head?.map fun d => Val.ofTy .n64 (sent.getD (Req.ch d) 0).toNat

/-- The lanes whose last results an issue of `cpt` or `cpkick` shifts: those of the bundle, and where the instruction is executed
again in some lanes those alone, for the others have shifted; but for the lanes `bad` that are to execute it again (R50). -/
def Ctx.shifting (c : Ctx) (bad : List Nat) : List Nat :=
  (if c.again then c.lanes else c.run.lanes.lanes c.env.wav.width).filter (!bad.contains ·)

/-- The start counts that D takes: a uniform D that of the lowest lane of the bundle that submits, whichever lanes execute the
instruction again (R52); `all` are the lanes of the bundle whose guard is true. -/
def Ctx.startD (c : Ctx) (i : Instr) (vs : List (Nat × Val)) : List (Nat × Val) :=
  let all := writeLanes i c.f c.env ((c.run.lanes.lanes c.env.wav.width).filter fun l => guardHolds c.f.guard (c.lane l))
  match c.f.d with
  | .w _ => vs.filter fun v => all.head? == some v.1
  | _ => vs

/-- Submit the lanes' records in ascending lane order: `recs` gives a lane's records in the state that the lanes before it
left, and `took` what a submission changes beside. The lanes whose submission raises `E_BAR` submit nothing; the others
submit theirs and take their start counts, and `ret.x` executes the instruction again in the marked lanes alone (R195,
R33, log 20). The last results shift once in every lane of the bundle but the marked ones, which shift when they submit (R50). A
lane of `cpkick` with n = 0 does nothing (R195) and has no start count: that its last results shift and take an invalid entry is
the model's choice (log 17). -/
def Ctx.submitAll (c : Ctx) (i : Instr) (s : State) (recs : State → Nat → List Req) (took : State → Nat → State) : Res :=
  let e := c.env
  let (t, vs, bad) := c.lanes.foldl (fun (acc : State × List (Nat × Val) × List (Nat × W64)) l =>
    let ds := recs acc.1 l
    match acc.1.submitLane e l ds with
    | some t => (took t l, acc.2.1 ++ ((acc.1.startCount e.wid.block ds).map fun v => (l, v)).toList, acc.2.2)
    | none => (acc.1, acc.2.1, acc.2.2 ++ [(l, Req.bar ((ds.find? fun d => (acc.1.submit e d l).isNone).getD (ds.headD 0)))]))
    (s, [], [])
  let t := (t.putD c true (c.startD i vs)).shiftIn c (c.shifting (bad.map (·.1))) vs
  if bad.isEmpty then .next (t.pass c)
  else .next (t.takeTrap c.wid eBar bad { marked := some (Mask.ofLanes (bad.map (·.1))) })

/-- The addresses that a lane submits with the causes they meet: that of its record or ring header, and where that is
good those of its records (R146, R190, R286). -/
def Ctx.submitCauses (c : Ctx) (align : Nat) (recs : Nat → List Req) (l : Nat) : List (W64 × List Nat) :=
  let a := c.ptr c.f.a l
  match causes (c.env.ownCause a) a align with
  | [] => ((recs l).map c.env.reqCauses).flatten
  | cs => [(a, cs)]

/-- A record at an offset of the block's scratchpad. -/
def State.reqAt (s : State) (b : BlkId) (off : Nat) : Req := BitVec.ofNat 512 (s.scrRead b off 64)

/-- `cpt` (R286, R195). -/
def execCpt (f : Fields) (s : State) : Res :=
  meaning (.cpt f) s fun c s =>
    let recs := fun l => [s.reqAt c.wid.block ((c.ptr f.a l).toNat % 2 ^ 24)]
    match firstCause (c.each (c.submitCauses 64 recs)) with
    | some (cause, hits) => c.raise s cause hits
    | none => c.submitAll (.cpt f) s (fun _ => recs) fun s _ => s

/-- A ring header: HEAD, RSIZE and RBASE, none where it is malformed (R195, R286). -/
def ringOf (h : Nat) : Option (Nat × Nat × Nat) :=
  let rsize := natBits h 47 32
  let rbase := natBits h 31 0
  if natBits h 127 96 == 0 && natBits h 63 48 == 0 && 1 ≤ rsize && rsize ≤ 4096 && rsize == 2 ^ Nat.log2 rsize &&
    rbase % 64 == 0 then some (natBits h 95 64, rsize, rbase) else none

/-- The offsets of the `n` records that a ring at `off` gives next; none where the header is malformed or `n` is above
RSIZE (R195). That the header is tested for n = 0 too, so that a malformed one raises `E_ILL` where nothing is submitted, is the
model's choice (log 19). -/
def State.ring (s : State) (b : BlkId) (off n : Nat) : Option (List Nat) :=
  match ringOf (s.scrRead b off 16) with
  | some (head, rsize, rbase) => if n > rsize then none else some ((List.range n).map fun i => rbase + 64 * ((head + i) % rsize))
  | none => none

/-- HEAD ← HEAD + n (R195). -/
def State.moveHead (s : State) (b : BlkId) (off n : Nat) : State :=
  if n == 0 then s else s.scrWrite b (off + 8) 4 ((natBits (s.scrRead b off 16) 95 64 + n) % 2 ^ 32)

/-- The lanes' records as they follow one another when every lane submits: lane and offsets, none for a lane that raises
`E_ILL`. A lane whose header's address meets a cause has no header, and moves no HEAD (R286). -/
def Ctx.rings (c : Ctx) (s : State) : List (Nat × Option (List Nat)) :=
  ((c.lanes.filter fun l => (c.submitCauses 16 (fun _ => []) l).isEmpty).foldl
    (fun (acc : State × List (Nat × Option (List Nat))) l =>
    let off := (c.ptr c.f.a l).toNat % 2 ^ 24
    let n := c.nat c.f.b .n32 l
    let r := acc.1.ring c.wid.block off n
    (if r.isSome then acc.1.moveHead c.wid.block off n else acc.1, acc.2 ++ [(l, r)])) (s, [])).2

/-- `cpkick` (R286, R195): each lane's records follow the HEAD that the lanes before it left. -/
def execCpkick (f : Fields) (s : State) : Res :=
  meaning (.cpkick f) s fun c s =>
    let b := c.wid.block
    let off := fun l => (c.ptr f.a l).toNat % 2 ^ 24
    let n := fun l => c.nat f.b .n32 l
    let plan := c.rings s
    let at' := fun (o : Nat) => BitVec.ofNat 64 (0xFD * 2 ^ 56 + c.env.blk.home * 2 ^ 32 + o)
    let offs := fun l => ((Assoc.get? plan l).getD none).getD []
    let fit := fun (o : Nat) => decide (o < c.env.alloc)
    match firstCause (c.each fun l =>
      match c.submitCauses 16 (fun _ => []) l, (offs l).find? fun o => !fit o with
      | [], some o => [(at' o, [eSpace])]
      | _, _ => c.submitCauses 16 (fun l => (offs l).map (s.reqAt b)) l) with
    | some (cause, hits) => c.raise s cause hits
    | none =>
      let bad := (plan.filter fun p => p.2.isNone).map (·.1)
      if !bad.isEmpty then c.raise s eIll (noAddr bad)
      else c.submitAll (.cpkick f) s (fun t l => ((t.ring b (off l) (n l)).getD []).map (t.reqAt b)) fun t l => t.moveHead b (off l) (n l)

/-! The channel (R193, R194, R196). -/

/-- Element sizes in bits of a record's two sides. -/
def Req.sizes (d : Req) (x y : Side) : Nat × Nat :=
  if Req.cvt d then (x.ty.elemBits, y.ty.elemBits) else (8, 8)

/-- Elements of a source row, and of a destination row (R194). -/
def Req.cols (d : Req) (x y : Side) : Nat := Req.rowb d * 8 / (Req.sizes d x y).1
def Req.drowLen (d : Req) (x y : Side) : Nat := if Req.xp d then Req.rows d else d.cols x y

/-- Destination bytes of a source row. -/
def Req.rowBytes (d : Req) (x y : Side) : Nat := d.cols x y * (Req.sizes d x y).2 / 8

/-- Why a record fails before it moves anything (R193, R194); a page that is not there is a declined fault (R190). The spec gives the
tests no order: that a record which breaks several takes the first cause in the order they stand in here, `E_ILL` for what its own
fields show, `E_PAGE`, `E_ILL`, `E_FMT`, `E_ALIGN`, is the model's choice (log 19). So is `E_ILL` for BYTES or ROWS out of the range of
R192, which R193 does not list as a case. -/
def reqFault (d : Req) (x y : Side) : Option Nat :=
  let (b, w) := Req.sizes d x y
  let cvt := Req.cvt d
  let pitch := match x.page with | some p => Leaf.pitch p.2 | none => 0
  let cols := Req.rowb d * 8 / b
  let drow := if Req.xp d then Req.rows d else cols
  if dbits d 511 448 != 0 || dbits d 383 364 != 0 || Req.bytes d == 0 || Req.bytes d > 0xFFFFFF || Req.rows d == 0 ||
      Req.rows d > 65535 then some eIll
  else if (x.absent && (cvt || Req.xp d)) || (y.absent && cvt) then some ePage
  else if cvt && x.ty != y.ty && (x.ty == .b32 || y.ty == .b32) then some eIll
  else if Req.bytes d * b != Req.rows d * Req.rowb d * w then some eIll
  else if Req.xp d && (pitch == 0 || Req.spitch d != pitch || Req.rows d % 32 != 0 || Req.rowb d % 32 != 0 ||
      (match x.page with
       | some (p, _) => (Req.src d).toNat % 32 != 0 || ((Req.src d).toNat - p) / (max pitch 1) % 32 != 0
       | none => true)) then some eIll
  else if cvt && ((x.ty == .i4o && !x.blk) || (y.ty == .i4o && !y.blk)) then some eFmt
  else if (Req.dst d).toNat * 8 % w != 0 || Req.dpitch d * 8 % w != 0 || Req.rowb d * 8 % b != 0 ||
      (cvt && y.blk && (drow % 32 != 0 || (Req.dst d).toNat * 8 / w % 32 != 0 || Req.dpitch d * 8 / w % 32 != 0))
    then some eAlign
  else none

/-- An element converted to a format that is no block format (R194, R87). -/
def toFormat (t : Ty) (v : Num) : Conv :=
  match t.fmt? with
  | some fm => let y := fm.round 0 false 0 v; ⟨y.bits, y.clamp, y.clamp⟩
  | none => t.ofNum 0 0 v

/-- What a destination element receives: its code, its tangent plane elements, and for the first of a block the scale. -/
structure Elem where
  code   : Nat
  planes : List Nat
  scale  : Option Nat := none

/-- The plane elements of a destination element (R194): the source element's, zero past its planes and for an element
that was clamped (R87). -/
def State.elemPlanes (s : State) (e : Env) (x y : Option (Nat × Leaf × Nat)) (clamp : Bool) : Except Nat (List Nat) :=
  match y with
  | none => .ok []
  | some (_, l, _) => allOk ((List.range l.tp).map fun n => match x with
      | some (q, m, k) => if n < m.tp && !clamp then s.engRead e (BitVec.ofNat 64 (planeVa q m n k)) 2 else .ok 0
      | none => .ok 0)

/-- A run of destination elements of one row: the row, the first element and their number. -/
structure RowRun where
  row : Nat
  col : Nat
  n   : Nat

/-- The runs of destination elements `p` to `q - 1` of a record, counted through rows of `m` elements. -/
def rowRuns (m p q : Nat) : List RowRun :=
  if q ≤ p then []
  else (List.range ((q - 1) / m + 1 - p / m)).map fun i =>
    let r := p / m + i
    let lo := max p (r * m)
    ⟨r, lo - r * m, min q ((r + 1) * m) - lo⟩

/-- The source row and element of destination element `i` of a run. -/
def RowRun.from (p : RowRun) (xp : Bool) (i : Nat) : Nat × Nat := if xp then (p.col + i, p.row) else (p.row, p.col + i)

/-- The address of source row r, and of destination row r. -/
def Req.srow (d : Req) (r : Nat) : W64 := Req.src d + BitVec.ofNat 64 (r * Req.spitch d)
def Req.drow (d : Req) (r : Nat) : W64 := Req.dst d + BitVec.ofNat 64 (r * Req.dpitch d)

/-- The aligned units of 64 bytes that destination element `i` of a record lies in: its own and, on a page of a converting
record, those of its scale and of its plane elements (R164, R194). -/
def Env.dstUnits (e : Env) (d : Req) (x y : Side) (i : Nat) : List Nat :=
  let w := (Req.sizes d x y).2
  let m := d.drowLen x y
  let a := d.drow (i / m)
  (a + BitVec.ofNat 64 (i % m * w / 8)).toNat / 64 :: match e.elemPage w a (i % m) with
    | some (p, l, k) =>
      if !Req.cvt d then []
      else (if l.blk then [scaleVa p l k / 64] else []) ++ (List.range l.tp).map fun n => planeVa p l n k / 64
    | none => []

/-- The aligned units of 16 bytes that element `j` of source row `r` lies in, with those of its scale and plane elements
(R175). -/
def Env.srcUnits (e : Env) (d : Req) (x y : Side) (r j : Nat) : List Nat :=
  let b := (Req.sizes d x y).1
  let a := d.srow r
  (a + BitVec.ofNat 64 (j * b / 8)).toNat / 16 :: match e.elemPage b a j with
    | some (p, l, k) =>
      if !Req.cvt d then []
      else (if l.blk then [scaleVa p l k / 16] else []) ++ (List.range l.tp).map fun n => planeVa p l n k / 16
    | none => []

/-- Whether an event of a record may end before destination element `q`: no aligned unit of 64 bytes that the record writes
(R166), no aligned unit of 16 bytes that it reads (R175) and no block of a block format (R194) is cut. A transposing record reads
whole columns. -/
def Env.cut (e : Env) (d : Req) (x y : Side) (q : Nat) : Bool :=
  let apart := fun (us vs : List Nat) => us.all (!vs.contains ·)
  let m := d.drowLen x y
  let c := d.cols x y
  apart (e.dstUnits d x y (q - 1)) (e.dstUnits d x y q) && !(Req.cvt d && y.blk && q % 32 != 0) &&
    if Req.xp d then
      q % m == 0 && (List.range (Req.rows d)).all fun r => apart (e.srcUnits d x y r (q / m - 1)) (e.srcUnits d x y r (q / m))
    else apart (e.srcUnits d x y ((q - 1) / c) ((q - 1) % c)) (e.srcUnits d x y (q / c) (q % c))

/-- The first number from `q` on that meets a test, among `n`; the one behind them where none does. -/
def firstFrom (ok : Nat → Bool) : Nat → Nat → Nat
  | 0, q => q
  | n + 1, q => if ok q then q else firstFrom ok n (q + 1)

/-- The destination elements that the event which begins at element `p` writes, in ascending address order (R179): as many as a
source row has, and then up to the next place where it may end. -/
def Env.upTo (e : Env) (d : Req) (x y : Side) (p : Nat) : Nat :=
  let total := Req.rows d * d.cols x y
  let q := p + d.cols x y
  if total ≤ q then total else firstFrom (e.cut d x y) (total - q) q

/-- The runs of destination elements of a record's next event. -/
def Copy.runs (c : Copy) (e : Env) (x y : Side) : List RowRun :=
  let d : Req := c.desc
  let p := c.written * 8 / (Req.sizes d x y).2
  rowRuns (d.drowLen x y) p (e.upTo d x y p)

/-- The elements of a run of a converting record (R194). -/
def State.convElems (s : State) (e : Env) (d : Req) (ftz : Bool) (x y : Side) (p : RowRun) : Except Nat (List Elem) :=
  let (b, w) := Req.sizes d x y
  let src := fun (i : Nat) => p.from (Req.xp d) i
  let num := fun (i : Nat) => s.elemAt e x.ty ftz (d.srow (src i).1) (src i).2
  let planes := fun (i : Nat) (clamp : Bool) =>
    s.elemPlanes e (e.elemPage b (d.srow (src i).1) (src i).2) (e.elemPage w (d.drow p.row) (p.col + i)) clamp
  if y.blk then
    (allOk ((List.range (p.n / 32)).map fun g => match allOk ((List.range 32).map fun i => num (32 * g + i)) with
      | .error c => .error c
      | .ok xs =>
        let (cs, sc) := encBlock y.ty 0 0 xs
        allOk (cs.zipIdx.map fun (k, i) => (planes (32 * g + i) k.clamp).map fun ps =>
          (⟨k.bits, ps, if i == 0 then some sc else none⟩ : Elem)))).map List.flatten
  else
    allOk ((List.range p.n).map fun i =>
      let k : Except Nat Conv :=
        if x.ty == .b32 then (s.codeAt e x.ty (d.srow (src i).1) (src i).2).map fun z => ⟨z, false, false⟩
        else (num i).map (toFormat y.ty)
      match k with
      | .error c => .error c
      | .ok k => (planes i k.clamp).map fun ps => ⟨k.bits, ps, none⟩)

/-- The elements of a run (R193, R194): a raw record's are bytes. -/
def State.spanElems (s : State) (e : Env) (d : Req) (ftz : Bool) (x y : Side) (p : RowRun) : Except Nat (List Elem) :=
  if Req.cvt d then s.convElems e d ftz x y p
  else if Req.xp d then
    allOk ((List.range p.n).map fun i => let q := p.from true i
      (s.engByte e (d.srow q.1 + BitVec.ofNat 64 q.2)).map fun z => ⟨z, [], none⟩)
  else (s.engRead e (d.srow p.row + BitVec.ofNat 64 p.col) p.n).map fun v => (splitBits 8 p.n v).map fun z => ⟨z, [], none⟩

/-- Consecutive elements of a run that lie on one page: the page and the first element's index there. -/
def pageRuns (xs : List (Elem × Option (Nat × Leaf × Nat))) : List ((Nat × Leaf × Nat) × List Elem) :=
  xs.foldr (fun x acc => match x.2 with
    | none => acc
    | some (p, l, i) => match acc with
      | ((q, m, _), es) :: rest => if q == p then ((p, l, i), x.1 :: es) :: rest else ((p, l, i), [x.1]) :: ((q, m, i + 1), es) :: rest
      | [] => [((p, l, i), [x.1])]) []

/-- What a run writes: its bytes and, on pages with scale or tangent planes, those (R193, R194). -/
def Env.spanPieces (e : Env) (d : Req) (x y : Side) (p : RowRun) (es : List Elem) : List Piece :=
  let w := (Req.sizes d x y).2
  ⟨d.drow p.row + BitVec.ofNat 64 (p.col * w / 8), p.n * w / 8, joinBits w (es.map (·.code))⟩ ::
    if !Req.cvt d then []
    else ((pageRuns (es.zipIdx.map fun (el, i) => (el, e.elemPage w (d.drow p.row) (p.col + i)))).map fun r =>
      let (pg, l, i) := r.1
      let scs := r.2.filterMap (·.scale)
      (if scs.isEmpty then [] else [⟨BitVec.ofNat 64 (scaleVa pg l i), scs.length, joinBits 8 scs⟩]) ++
        (List.range l.tp).map fun n =>
          (⟨BitVec.ofNat 64 (planeVa pg l n i), 2 * r.2.length, joinBits 16 (r.2.map fun el => el.planes.getD n 0)⟩ : Piece)).flatten

/-- The caches on the reads of a run (R157, R161, R162): each source element, those of a column along the column axis, and for a
converting record the scale of each and the planes that its destination's page has. -/
def State.spanReach (s : State) (e : Env) (d : Req) (x y : Side) (p : RowRun) : State :=
  let (b, w) := Req.sizes d x y
  let src := p.from (Req.xp d)
  let s := if Req.xp d then (List.range p.n).foldl (fun s i =>
      s.engReach e (d.srow (src i).1 + BitVec.ofNat 64 ((src i).2 * b / 8)) 1 true) s
    else s.engReach e (d.srow p.row + BitVec.ofNat 64 (p.col * b / 8)) ((p.n * b + 7) / 8)
  if !Req.cvt d then s
  else (List.range p.n).foldl (fun s i => match e.elemPage b (d.srow (src i).1) (src i).2 with
    | some (pg, l, k) =>
      let s := if l.blk then s.engReach e (BitVec.ofNat 64 (scaleVa pg l k)) 1 else s
      let there := match e.elemPage w (d.drow p.row) (p.col + i) with | some (_, m, _) => m.tp | none => 0
      (List.range (min l.tp there)).foldl (fun s n => s.engReach e (BitVec.ofNat 64 (planeVa pg l n k)) 2) s
    | none => s) s

/-- What the next event of a record writes, or the cause that its reads meet. -/
def State.rowPieces (s : State) (e : Env) (c : Copy) (x y : Side) : Except Nat (List Piece) :=
  (allOk ((c.runs e x y).map fun p => (s.spanElems e c.desc c.ftz x y p).map (e.spanPieces c.desc x y p))).map List.flatten

/-- Move the elements of one event of a record: the state after it, or the cause that stops the record. What the event writes is
written together, so that what covers a unit replaces it (R166). -/
def State.moveRow (s : State) (e : Env) (c : Copy) : Except Nat State :=
  let d : Req := c.desc
  let x := e.side (Req.src d) (dbits d 359 356)
  let y := e.side (Req.dst d) (dbits d 363 360)
  match (if c.row == 0 then reqFault d x y else none) with
  | some k => .error k
  | none =>
    match s.rowPieces e c x y with
    | .error k => .error k
    | .ok ps => ((c.runs e x y).foldl (fun s p => s.spanReach e d x y p) s).putPieces e ps

/-- Destination bytes of a record's next event. -/
def Copy.bytes (c : Copy) (e : Env) (x y : Side) : Nat :=
  ((c.runs e x y).map fun p => p.n * (Req.sizes c.desc x y).2 / 8).foldl (· + ·) 0

/-- The LLC on the reads of an event that a cause stops, and on the unit that refuses its write (R162). -/
def State.rowReach (s : State) (e : Env) (c : Copy) : State :=
  let d : Req := c.desc
  let x := e.side (Req.src d) (dbits d 359 356)
  let y := e.side (Req.dst d) (dbits d 363 360)
  if c.row == 0 && (reqFault d x y).isSome then s
  else
    let t := (c.runs e x y).foldl (fun s p => s.spanReach e d x y p) s
    match s.rowPieces e c x y with
    | .ok ps => t.refusedIn t e ps
    | .error _ => t

/-- The oldest record of a channel of a cluster (R196); those of saved spans wait for their restore. -/
def State.chanHead (s : State) (cl ch : Nat) : Option Op :=
  s.ops.find? fun o => match o.work with
    | .bulk c => Req.ch c.desc == ch && (s.op? o.id).isSome &&
      (match s.blk? o.wid.block with | some k => k.at' == cl | none => false)
    | _ => false

/-- Take destination bytes of a record off its object's CNT, unless they do not count there (R36, R193, R174). -/
def State.uncharge (s : State) (c : Copy) (n : Nat) : State :=
  if c.charged && !c.inval then (s.showCopy c.bar c.off c.seen).takeCnt c.bar c.off n else s

/-- A record ends (R193, R196): the status, then its last bytes off CNT. A status whose unit fails its check, which a refetch
before the event may mend, is not merged into it and is reported to the control program (R13, R166); one whose page is not there
is not written (log 19). -/
def State.endCopy (s : State) (e : Env) (o : Op) (c : Copy) (cause : Nat) : State :=
  let cause := if cause == 0 && c.inval then cInvalid else cause
  let word := statusWord cause c.written
  let s := if Req.stat c.desc == 0 then s
    else match s.engStore e (Req.stat c.desc) 4 word, e.engSpot .store 4 (Req.stat c.desc) with
      | .ok t, _ => t
      | .error k, .ok ⟨.mem pa, _, _⟩ =>
        if k == eIntegrity then (s.refusedIn s e [⟨Req.stat c.desc, 4, word⟩]).report (.notPassed pa) else s
      | .error _, _ => s
  (s.uncharge c (Req.bytes c.desc - c.taken)).done o

/-- Count destination bytes in the block's write pointer (R179). -/
def State.addWptr (s : State) (b : BlkId) (ch n : Nat) : State :=
  s.modBlk b fun k => { k with wptr := listModify (· + BitVec.ofNat 64 n) k.wptr ch }

/-- A read of the block's write pointer shows that a record has written (R174, R179). -/
def State.showWptr (s : State) (b : BlkId) (ch : Nat) (c : Clock) : State :=
  if c.isEmpty then s else s.modBlk b fun k => { k with wsync := listModify (Clock.join · c) k.wsync ch }

/-- A record stops with a cause (R196): what it did not write is counted as written. -/
def State.failCopy (s : State) (e : Env) (o : Op) (c : Copy) (cause : Nat) : State :=
  (s.addWptr o.wid.block (Req.ch c.desc) (Req.bytes c.desc - c.written)).endCopy e o c cause

/-- The record an event of a channel works on, where it is at its channel's head. -/
def State.copyDue (s : State) (op : Nat) : Option (Op × Copy × Env) :=
  match s.op? op with
  | none => none
  | some o => match o.work, s.env? o.wid with
    | .bulk c, some e => if (s.chanHead e.blk.at' (Req.ch c.desc)).map (·.id) == some op then some (o, c, e) else none
    | _, _ => none

/-- BULK_COPY_ROW (R193): the next destination bytes of the record at the head of its channel, of one source row's size and up
to a place where no unit is cut (R166, R175), in ascending address order (R179, log 19); one that meets a cause fails (R196). -/
def execBulkCopyRow (op : Nat) (s : State) : Res :=
  match s.copyDue op with
  | none => .refused .notDue
  | some (o, c, e) =>
    match s.moveRow e c with
    | .error cause => .next ((s.rowReach e c).failCopy e o c cause)
    | .ok t =>
      let x := e.side (Req.src c.desc) (dbits c.desc 359 356)
      let y := e.side (Req.dst c.desc) (dbits c.desc 363 360)
      let n := c.bytes e x y
      let c' := { c with row := c.row + 1, written := c.written + n }
      let t := (t.addWptr o.wid.block (Req.ch c.desc) n).showWptr o.wid.block (Req.ch c.desc) c.seen
      if c'.written == Req.bytes c.desc then .next (t.endCopy e o c' 0)
      else
        let rows := c'.written / Req.rowBytes c.desc x y * Req.rowBytes c.desc x y
        let t := t.setOp op (.bulk { c' with taken := rows })
        .next (if rows == c.taken then t else t.uncharge c (rows - c.taken))

/-- BULK_COPY_FAIL (R196): the record stops with the cause its next row meets. -/
def execBulkCopyFail (op cause : Nat) (s : State) : Res :=
  match s.copyDue op with
  | none => .refused .notDue
  | some (o, c, e) =>
    match s.moveRow e c with
    | .error k => if k == cause then .next ((s.rowReach e c).failCopy e o c cause) else .refused .notDue
    | .ok _ => .refused .notDue

end Sys2Proof.Machine
end

