-- ==== Sys2Proof/Machine/Sample.lean ====
section
/-! DEFINITION. Reservoirs (R221-R226) and distributions (R229-R236). -/

namespace Sys2Proof.Machine

/-- A reservoir image (R221). -/
structure Rsv where
  pay  : List W32 := [0, 0, 0, 0]
  phat : W32 := 0
  wsum : W32 := 0
  m    : W32 := 0
  w    : W32 := 0
  deriving DecidableEq, Repr

/-- The eight words of an image, and back. -/
def Rsv.words (r : Rsv) : List W32 := r.pay.take 4 ++ [r.phat, r.wsum, r.m, r.w]
def Rsv.ofWords (g : Nat → W32) : Rsv := ⟨[g 0, g 1, g 2, g 3], g 4, g 5, g 6, g 7⟩

/-- Write an image of words to D in each lane. -/
def State.putImg (s : State) (c : Ctx) (tag : Tag) (vs : List (Nat × List W32)) : Res :=
  .next ((s.putGroup c (vs.map fun v => (v.1, v.2.map fun x => Val.of x.toNat tag))).pass c)

/-- A candidate weight as taken (R224). -/
def candWeight (w : W32) : W32 := if F32.lt 0 w && (F32.num w).isFin then w else 0

/-- WSUM with a weight added, kept finite (R224). -/
def addWsum (s w : W32) : W32 := let x := F32.add s w; if x == F32.inf then F32.maxFin else x

/-- The draw of a reservoir (R224). -/
def rsvDraw (seed m : W32) (lane block : Nat) : W32 :=
  mix32 (seed ^^^ mix32 (m ^^^ BitVec.ofNat 32 lane <<< 16 ^^^ BitVec.ofNat 32 block <<< 8))

/-- Stream a candidate of weight `w` that counts as `n` (R224, R225). -/
def Rsv.stream (r : Rsv) (seed : W32) (lane block : Nat) (w : W32) (n : Nat) (pay : List W32) (phat : W32) : Rsv :=
  let w := candWeight w
  let s := addWsum r.wsum w
  let m := BitVec.ofNat 32 (min (r.m.toNat + n) 0xFFFFFFFF)
  let d := rsvDraw seed m lane block
  let keep := ((Num.ofNat d.toNat).mul (F32.num s)).lt ((F32.num w).mul (.ofNat (2 ^ 32)))
  { pay := if keep then pay else r.pay, phat := if keep then phat else r.phat, wsum := s, m := m, w := 0 }

/-- `rsvinit` (R223). -/
def execRsvinit (f : Fields) (s : State) : Res :=
  meaning (.rsvinit f) s fun c s => s.putImg c Tag.rsv (c.each fun _ => Rsv.words {})

/-- `rsvupd` (R224). -/
def execRsvupd (f : Fields) (s : State) : Res :=
  meaning (.rsvupd f) s fun c s => s.putImg c Tag.rsv (c.each fun l =>
    let pay := (List.range 4).map fun i => (c.grp f.a .b32 l i).bits.setWidth 32
    ((Rsv.ofWords (c.img f.d l)).stream c.env.wav.seed l c.env.blk.idx ((c.val f.b .f32 l).bits.setWidth 32) 1 pay
      ((c.val f.c .f32 l).bits.setWidth 32)).words)

/-- The cap of `rsvmerge` on M (R225). -/
def Rsv.cap (r : Rsv) (m : Nat) : Rsv :=
  if m != 0 && r.m.toNat > m then
    { r with wsum := F32.ofNum (((F32.num r.wsum).mul (.ofNat m)).div (.ofNat r.m.toNat)), m := BitVec.ofNat 32 m }
  else r

/-- `rsvmerge` (R225). -/
def execRsvmerge (f : Fields) (s : State) : Res :=
  meaning (.rsvmerge f) s fun c s => s.putImg c Tag.rsv (c.each fun l =>
    let a := Rsv.ofWords (c.img f.a l)
    let b := (c.val f.b .f32 l).bits.setWidth 32
    let w := F32.ofNum (((F32.num b).mul (F32.num a.w)).mul (.ofNat a.m.toNat))
    (((Rsv.ofWords (c.img f.d l)).stream c.env.wav.seed l c.env.blk.idx w a.m.toNat a.pay b).cap (c.nat f.c .n32 l)).words)

/-- W of a finished reservoir (R226). -/
def Rsv.final (r : Rsv) : W32 :=
  if r.m == 0 || !F32.lt 0 r.phat then 0
  else
    let d := F32.mul (F32.ofNum (.ofNat r.m.toNat)) r.phat
    if (F32.num d).isInf || (F32.num d).isZero then 0 else F32.div r.wsum d

/-- `rsvfin` (R226). -/
def execRsvfin (f : Fields) (s : State) : Res :=
  meaning (.rsvfin f) s fun c s => s.putImg c Tag.rsv (c.each fun l =>
    let a := Rsv.ofWords (c.img f.a l)
    Rsv.words { a with w := a.final })

/-- `rsvget` (R223). -/
def execRsvget (f : Fields) (s : State) : Res :=
  meaning (.rsvget f) s fun c s =>
    let k := natBits f.imm.toNat 2 0
    .next (s.finish c false (c.each fun l =>
      Val.ofTy (if k ≤ 3 then .b32 else if k == 6 then .n32 else .f32) (c.img f.a l k).toNat))

/-! Distributions. -/

/-- A distribution: points in order, each a value and a weight, and the lineage mask (R229). -/
structure Dist where
  pts : List (W32 × W32)
  lin : Nat
  deriving DecidableEq, Repr

/-- The failed image (R229). -/
def Dist.failed : Dist := ⟨[(F32.qnan, F32.one)], 0⟩

/-- The implied weight of the last point (R229). -/
def implied (ws : List W32) : W32 :=
  F32.max 0 (F32.ofNum (Num.sum false (.ofNat 1 :: ws.map fun w => (F32.num w).neg)))

/-- Read an image; a malformed one reads as the failed image (R229). -/
def Dist.ofWords (g : Nat → W32) : Dist :=
  let n := natBits (g 0).toNat 3 0
  if n == 0 || n > 8 || natBits (g 0).toNat 15 4 != 0 then .failed
  else
    let ws := (List.range (n - 1)).map fun i => g (9 + i)
    ⟨((List.range n).map fun i => g (1 + i)).zip (ws ++ [implied ws]), natBits (g 0).toNat 31 16⟩

/-- The sixteen words of an image (R229). -/
def Dist.words (d : Dist) : List W32 :=
  let n := d.pts.length
  let pad := fun (k : Nat) (xs : List W32) => xs ++ List.replicate (k - xs.length) 0
  BitVec.ofNat 32 (n + d.lin % 2 ^ 16 * 2 ^ 16) :: (pad 8 (d.pts.map (·.1)) ++ pad 7 ((d.pts.map (·.2)).take (n - 1)))

/-- `max` and `min` of two FP32 values (R112). -/
def max112 (a b : W32) : W32 := BitVec.ofNat 32 (pickElem .f32 false true a.toNat b.toNat)
def min112 (a b : W32) : W32 := BitVec.ofNat 32 (pickElem .f32 false false a.toNat b.toNat)

/-- The order of condensation: by value, NaN last (R233). -/
def ptLe (a b : W32 × W32) : Bool := F32.isNan b.1 || (!F32.isNan a.1 && F32.le a.1 b.1)

/-- The cost of merging two neighbours (R233). -/
def mergeCost (a b : W32 × W32) : W32 :=
  let d := F32.sub b.1 a.1
  F32.mul (F32.div (F32.mul a.2 b.2) (F32.add a.2 b.2)) (F32.mul d d)

/-- Two neighbours merged (R233). -/
def mergePts (a b : W32 × W32) : W32 × W32 :=
  let w := F32.add a.2 b.2
  let x := F32.div (F32.fma a.2 a.1 (F32.mul b.2 b.1)) w
  (min112 (max112 x a.1) b.1, w)

/-- Position of the least cost, NaN above every number, the lowest on ties. -/
def leastCost (cs : List W32) : Nat :=
  (cs.zipIdx.foldl (fun (best : Option (W32 × Nat)) c => match best with
    | none => some c
    | some b => if F32.lt c.1 b.1 || (F32.isNan b.1 && !F32.isNan c.1) then some c else some b) none).elim 0 (·.2)

/-- Merge until at most eight points remain. -/
def mergeDown : Nat → List (W32 × W32) → List (W32 × W32)
  | 0, ps => ps
  | n + 1, ps =>
    if ps.length ≤ 8 then ps
    else
      let k := leastCost ((ps.zip (ps.drop 1)).map fun (a, b) => mergeCost a b)
      match ps.drop k with
      | a :: b :: rest => mergeDown n (ps.take k ++ mergePts a b :: rest)
      | _ => ps

/-- Condensation (R233) of candidates in ascending index. -/
def condense (cand : List (W32 × W32)) (lin : Nat) : Dist :=
  let ps := (sortBy ptLe cand).filter fun p => !(F32.num p.2).isZero
  if ps.isEmpty then .failed else ⟨mergeDown 64 ps, lin⟩

/-- Combine two distributions (R232). -/
def Dist.combine (op : W32 → W32 → W32) (a b : Dist) : Dist :=
  let cand := if a.lin &&& b.lin == 0 then
      (a.pts.map fun p => b.pts.map fun q => (op p.1 q.1, F32.mul p.2 q.2)).flatten
    else a.pts.zipIdx.map fun (p, i) => (op p.1 (b.pts.getD (min i (b.pts.length - 1)) (0, 0)).1, p.2)
  condense cand (a.lin ||| b.lin)

/-- Operand i of `dadd` or `dmul`: an image, or an `f32` value (R222, R232). -/
def Ctx.dist (c : Ctx) (x : Name) (i l : Nat) : Dist :=
  if c.f.imm.getLsbD i then ⟨[((c.val x .f32 l).bits.setWidth 32, F32.one)], 0⟩ else .ofWords (c.img x l)

/-- A distribution operation of two operands. -/
def Ctx.dist2 (c : Ctx) (s : State) (op : W32 → W32 → W32) : Res :=
  s.putImg c Tag.dis (c.each fun l => ((c.dist c.f.a 0 l).combine op (c.dist c.f.b 1 l)).words)

/-- `dadd` (R292). -/
def execDadd (f : Fields) (s : State) : Res := meaning (.dadd f) s fun c s => c.dist2 s F32.add
/-- `dadd.sub` (R292). -/
def execDaddSub (f : Fields) (s : State) : Res := meaning (.daddSub f) s fun c s => c.dist2 s F32.sub
/-- `dmul` (R296). -/
def execDmul (f : Fields) (s : State) : Res := meaning (.dmul f) s fun c s => c.dist2 s F32.mul

/-- The image of `dset` from values and weights (R230). -/
def Dist.build (xs ws : List W32) : Dist :=
  let sum := Num.sum false (ws.map F32.num)
  let bad := fun (w : W32) => F32.lt w 0 || !(F32.num w).isFin
  if ws.isEmpty || ws.any bad || sum.isZero then .failed
  else condense (xs.zip (ws.map fun w => F32.div w (F32.ofNum sum))) 0

/-- `dset` (R299). -/
def execDset (f : Fields) (s : State) : Res :=
  meaning (.dset f) s fun c s => s.putImg c Tag.dis (c.each fun l =>
    let n := c.nat f.c .n32 l
    let g := fun (x : Name) => (List.range (if n ≤ 8 then n else 0)).map fun i => (c.grp x .f32 l i).bits.setWidth 32
    (Dist.build (g f.a) (g f.b)).words)

/-- `dtag` (R301, R231). -/
def execDtag (f : Fields) (s : State) : Res :=
  meaning (.dtag f) s fun c s =>
    let t := c.lanes.foldl (fun s l => s.modLane c.wid l fun x => { x with lineage := x.lineage + 1 }) s
    t.putImg c Tag.dis (c.each fun l =>
      Dist.words { Dist.ofWords (c.img f.a l) with lin := 2 ^ (c.lane l).lineage.toNat })

/-- A moment of a distribution (R235). -/
def Dist.moment (d : Dist) (kind : Nat) : W32 :=
  if d.pts.any fun p => F32.isNan p.1 then F32.qnan
  else
    let sum := fun (g : W32 → Num) => F32.ofNum (Num.sum false (d.pts.map fun p => (F32.num p.2).mul (g p.1)))
    let mu := sum F32.num
    let dev := fun (x : W32) => F32.num (F32.sub x mu)
    match kind with
    | 0 => mu
    | 1 => sum fun x => (dev x).mul (dev x)
    | 2 => sum fun x => ((dev x).mul (dev x)).mul (dev x)
    | 3 => (d.pts.headD (0, 0)).1
    | _ => (d.pts.getLastD (0, 0)).1

/-- An FP32 result read out of the image in A. -/
def Ctx.readOut (c : Ctx) (s : State) (g : Nat → Dist → W32) : Res :=
  .next (s.finish c false (c.each fun l => Val.ofTy .f32 (g l (.ofWords (c.img c.f.a l))).toNat))

/-- `dmom.mean` (R295). -/
def execDmomMean (f : Fields) (s : State) : Res := meaning (.dmomMean f) s fun c s => c.readOut s fun _ d => d.moment 0
/-- `dmom.var` (R295). -/
def execDmomVar (f : Fields) (s : State) : Res := meaning (.dmomVar f) s fun c s => c.readOut s fun _ d => d.moment 1
/-- `dmom.m3` (R295). -/
def execDmomM3 (f : Fields) (s : State) : Res := meaning (.dmomM3 f) s fun c s => c.readOut s fun _ d => d.moment 2
/-- `dmom.min` (R295). -/
def execDmomMin (f : Fields) (s : State) : Res := meaning (.dmomMin f) s fun c s => c.readOut s fun _ d => d.moment 3
/-- `dmom.max` (R295). -/
def execDmomMax (f : Fields) (s : State) : Res := meaning (.dmomMax f) s fun c s => c.readOut s fun _ d => d.moment 4

/-- The quantile of a distribution (R236). -/
def Dist.quantile (d : Dist) (q : W32) : W32 :=
  if F32.isNan q then F32.qnan
  else if (F32.num q).le Num.zero then (d.pts.headD (0, 0)).1
  else
    let cum := fun (i : Nat) => Num.sum false ((d.pts.take (i + 1)).map fun p => F32.num p.2)
    match (List.range d.pts.length).find? fun i => (F32.num q).le (cum i) with
    | some i => (d.pts.getD i (0, 0)).1
    | none => (d.pts.getLastD (0, 0)).1

/-- `dqtl` (R298). -/
def execDqtl (f : Fields) (s : State) : Res :=
  meaning (.dqtl f) s fun c s => c.readOut s fun l d => d.quantile ((c.val f.b .f32 l).bits.setWidth 32)

end Sys2Proof.Machine
end

