-- ==== Sys2Proof/Machine/Graphics.lean ====
section
/-! DEFINITION. The texture unit (R207-R210, R354, R355, R91) and the splat units (R211-R214, R347, R92). -/

namespace Sys2Proof.Machine

/-- A cause that a descriptor's address meets at issue (R347, R354). -/
def Env.descCause (e : Env) (a : W64) : Option Nat :=
  match window a with | .priv _ | .span .. => some eSpace | _ => e.winCause a

/-- The bytes of a record that an engine reads, as a number of 512 bits. -/
def State.record (s : State) (e : Env) (a : W64) : Except Nat (BitVec 512) := (s.engRead e a 64).map (BitVec.ofNat 512)

/-- Whether an address is in the global window. -/
def isGlob (a : W64) : Bool := match window a with | .glob _ => true | _ => false

/-- Whether an address is in the global or scratchpad window. -/
def isGlobOrSp (a : W64) : Bool := match window a with | .glob _ | .sp .. => true | _ => false

/-! Re-shade lists (R210). -/

/-- Append a tile; `texd` appends nothing to a full list (R209). Whether it was appended, or the cause met. The spec gives the
reserved bits [127:64] of a list's header no fate: that they are neither tested nor written is the model's choice (log 21). -/
def State.reshade (s : State) (e : Env) (rsl : W64) (tile : Nat) (texd : Bool) : Except Nat (State × Bool) :=
  match s.engRead e rsl 8 with
  | .error c => .error c
  | .ok h =>
    let cap := natBits h 31 0
    let num := natBits h 63 32
    let s := s.engReach e rsl 8
    if texd && cap ≤ num then .ok (s, false)
    else match s.engStore e (rsl + 4) 4 (min (num + 1) (2 ^ 32 - 1)) with
      | .error c => .error c
      | .ok t =>
        if num < cap then
          (t.engStore e (rsl + BitVec.ofNat 64 (16 + 8 * num)) 8 (tile + e.task.grid % 2 ^ 32 * 2 ^ 32)).map fun t => (t, true)
        else .ok (t, true)

/-- The LLC on an append that a cause stops: the read of the list's header, and the unit that refuses the write (R162). -/
def State.reshadeStopped (s : State) (e : Env) (rsl : W64) (tile : Nat) : State :=
  let t := s.engReach e rsl 8
  match s.engRead e rsl 8 with
  | .error _ => t
  | .ok h =>
    let num := natBits h 63 32
    let count : Piece := ⟨rsl + 4, 4, min (num + 1) (2 ^ 32 - 1)⟩
    match t.engStore e count.addr count.n count.v with
    | .error _ => t.refusedIn t e [count]
    | .ok u => t.refusedIn u e [⟨rsl + BitVec.ofNat 64 (16 + 8 * num), 8, tile + e.task.grid % 2 ^ 32 * 2 ^ 32⟩]

/-! Texture. -/

abbrev Tex := BitVec 512
def Tex.base (d : Tex) : W64 := dword d 0
def Tex.w (d : Tex) : Nat := dbits d 79 64 + 1
def Tex.h (d : Tex) : Nat := dbits d 95 80 + 1
def Tex.lev (d : Tex) : Nat := dbits d 99 96
def Tex.fmt (d : Tex) : Ty := Ty.ofCode (dbits d 103 100)
def Tex.filt (d : Tex) : Nat := dbits d 105 104
def Tex.wrapU (d : Tex) : Nat := dbits d 107 106
def Tex.wrapV (d : Tex) : Nat := dbits d 109 108
/-- BIAS in units of 1/256. -/
def Tex.bias (d : Tex) : Int := (BitVec.ofNat 16 (dbits d 127 112)).toInt
def Tex.border (d : Tex) (c : Nat) : W32 := BitVec.ofNat 32 (dbits d (159 + 32 * c) (128 + 32 * c))
def Tex.rsl (d : Tex) : W64 := dword d 256
/-- Bytes of a texel. -/
def Tex.size (d : Tex) : Nat := match d.fmt with | .f32 => 16 | .n8x4 => 4 | _ => 8

/-- Whether the descriptor is well formed (R207). -/
def Tex.ok (d : Tex) : Bool :=
  dbits d 511 320 == 0 && dbits d 111 110 == 0 && d.wrapU != 3 && d.wrapV != 3 && d.filt != 3 &&
  (d.fmt == .f32 || d.fmt == .f16 || d.fmt == .bf16 || d.fmt == .n8x4) && d.lev ≤ Nat.log2 (max d.w d.h) &&
  isGlob d.base && d.base.toNat % d.size == 0 && isGlob d.rsl && d.rsl.toNat % 16 == 0

/-- Size of level l (R207). -/
def Tex.dims (d : Tex) (l : Nat) : Nat × Nat := (max 1 (d.w >>> l), max 1 (d.h >>> l))

/-- Texels before level l. -/
def Tex.before (d : Tex) (l : Nat) : Nat :=
  ((List.range l).map fun i => (d.dims i).1 * (d.dims i).2).foldl (· + ·) 0

/-- An index brought into a level of `n` texels by a wrap field (R354); none is the border. -/
def wrapIndex (wrap n : Nat) (i : Int) : Option Nat :=
  match wrap with
  | 0 => some (i % n).toNat
  | 1 => some (if i < 0 then 0 else if (n : Int) ≤ i then n - 1 else i.toNat)
  | _ => if 0 ≤ i && i < n then some i.toNat else none

/-- The address of a texel of a level; none is the border colour. -/
def Tex.addr (d : Tex) (l : Nat) (x y : Int) : Option W64 :=
  match wrapIndex d.wrapU (d.dims l).1 x, wrapIndex d.wrapV (d.dims l).2 y with
  | some i, some j => some (d.base + BitVec.ofNat 64 ((d.before l + j * (d.dims l).1 + i) * d.size))
  | _, _ => none

/-- `n`/256 in FP32. -/
def per256 (n : Int) : W32 := F32.ofNum (match Num.ofInt n with | .fin a m e s => .fin a m (e - 8) s | x => x)

/-- An FP32 value's floor and its fraction in units of 1/256, rounded to the nearest. -/
def floorFrac (x : W32) : Int × Nat :=
  let v := F32.num x
  let i := v.toInt 3 0
  let f := v.add false (Num.ofInt (-i))
  (i, ((f.mul (Num.ofNat 256)).toInt 0 0).toNat)

/-- A coordinate as it is sampled: NaN reads as 0 (R208); a product that is not finite is the free number `g` (log 4). -/
def texCoord (c : W32) (n : Nat) (half : Bool) (g : W32) : W32 :=
  let c := if F32.isNan c then 0 else c
  let x := F32.mul c (F32.ofNum (.ofNat n))
  let x := if half then F32.sub x 0x3F000000 else x
  if (F32.num x).isFin then x else if (F32.num g).isFin then g else 0

/-- One texel of a filter with its weight. -/
structure Tap where
  addr : Option W64
  wt   : W32
  deriving DecidableEq, Repr

/-- The texels of a level (R208): one for nearest, four for bilinear. -/
def Tex.taps (d : Tex) (l : Nat) (nearest : Bool) (u v g h : W32) : List Tap :=
  let x := floorFrac (texCoord u (d.dims l).1 (!nearest) g)
  let y := floorFrac (texCoord v (d.dims l).2 (!nearest) h)
  if nearest then [⟨d.addr l x.1 y.1, F32.one⟩]
  else
    let wt := fun (a b : Nat) => F32.mul (per256 a) (per256 b)
    [⟨d.addr l x.1 y.1, wt (256 - x.2) (256 - y.2)⟩, ⟨d.addr l (x.1 + 1) y.1, wt x.2 (256 - y.2)⟩,
     ⟨d.addr l x.1 (y.1 + 1), wt (256 - x.2) y.2⟩, ⟨d.addr l (x.1 + 1) (y.1 + 1), wt x.2 y.2⟩]

/-- Component of kind `k` of a coordinate, 0 where the kernel does not declare it (R91). -/
def Env.kindTan (e : Env) (k : Nat) (v : Val) : W32 :=
  match (List.range e.K).find? fun i => natBits e.kern.kinds.toNat (4 * i + 3) (4 * i) == k with
  | some i => v.word i
  | none => 0

/-- λ before its clamp (R91, R208); `bias` in units of 1/256. -/
def Env.lambda (e : Env) (d : Tex) (lod : Bool) (bias : Int) (u v : Val) : W32 :=
  if lod then per256 (bias + d.bias)
  else
    let w := F32.ofNum (.ofNat d.w)
    let h := F32.ofNum (.ofNat d.h)
    let rho := fun (k : Nat) =>
      let a := F32.mul w (e.kindTan k u)
      let b := F32.mul h (e.kindTan k v)
      F32.sqrt (F32.add (F32.mul a a) (F32.mul b b))
    F32.add (BitVec.ofNat 32 (Special.lg2 .f32 (F32.num (max112 (rho 1) (rho 2))))) (per256 (bias + d.bias))

/-- λ clamped to [0, LEV]; a NaN is a free number of that range (log 4). -/
def Tex.clampLod (d : Tex) (x g : W32) : W32 :=
  let top := F32.ofNum (.ofNat d.lev)
  if F32.isNan x then per256 (g.toNat % (256 * d.lev + 1))
  else if F32.lt x 0 then 0 else if F32.lt top x then top else x

/-- The levels sampled at λ, with their blend weights, each with its texels (R208). -/
def Tex.mips (d : Tex) (lam u v g h : W32) : List (Nat × W32 × List Tap) :=
  if d.filt == 2 then
    let (l, q) := floorFrac lam
    let m := fun (i : Nat) (w : Nat) => (i, per256 w, d.taps i false u v g h)
    (if q < 256 then [m l.toNat (256 - q)] else []) ++ (if q > 0 then [m (l.toNat + 1) q] else [])
  else
    let l := ((F32.num (F32.add lam 0x3F000000)).toInt 3 0).toNat
    [(l, F32.one, d.taps l (d.filt == 0) u v g h)]

/-- Whether a texel is resident (R208). -/
def Env.resident (e : Env) (n : Nat) (a : W64) : Bool := (e.spot .load false (fun _ => n) a).isSome
def Env.allResident (e : Env) (n : Nat) (ts : List Tap) : Bool := ts.all fun t => t.addr.all (e.resident n)

/-- A channel of a texel's bytes. -/
def Tex.channel (d : Tex) (x c : Nat) : W32 :=
  match d.fmt with
  | .f32 => BitVec.ofNat 32 (x >>> (32 * c))
  | .n8x4 => F32.div (F32.ofNum (.ofNat ((x >>> (8 * c)) % 256))) (F32.ofNum (.ofNat 255))
  | t => F32.ofNum (t.num false ((x >>> (16 * c)) % 2 ^ 16))

/-- A tap's channel. -/
def State.tap (s : State) (e : Env) (d : Tex) (c : Nat) (t : Tap) : W32 :=
  match t.addr with
  | none => d.border c
  | some a => match e.spot .load false (fun _ => d.size) a with
    | some sp => d.channel (s.readLoc e.wid 0 sp.loc d.size) c
    | none => d.border c

/-- A channel of a level: its one texel, or the weighted sum in order (R208). -/
def State.mip (s : State) (e : Env) (d : Tex) (c : Nat) (ts : List Tap) : W32 :=
  match ts with
  | [] => 0
  | [t] => s.tap e d c t
  | t :: ts => ts.foldl (fun a t => F32.add a (F32.mul t.wt (s.tap e d c t))) (F32.mul t.wt (s.tap e d c t))

/-- What a lane samples: the levels with weights, and the status (R208). -/
structure TexPick where
  mips   : List (Nat × W32 × List Tap)
  /-- The levels that λ asked for. -/
  wanted : List (Nat × W32 × List Tap)
  status : Nat

/-- Choose the levels by residency (R208). -/
def Env.texPick (e : Env) (d : Tex) (lam u v g h : W32) : TexPick :=
  let ms := d.mips lam u v g h
  let here := fun (ts : List Tap) => e.allResident d.size ts
  if ms.all fun m => here m.2.2 then ⟨ms, ms, 0⟩
  else
    let l := match ms with | m :: _ => m.1 | [] => 0
    match (List.range (d.lev - l)).findSome? fun i =>
      let ts := d.taps (l + 1 + i) false u v g h
      if here ts then some (l + 1 + i, F32.one, ts) else none with
    | some m => ⟨[m], ms, 1⟩
    | none => ⟨[], ms, 2⟩

/-- The free values of a lane's sample (log 4). -/
def freeAt (s : State) (i : Nat) : W32 := Config.freeWord (s.free + i)

/-- The descriptor of a lane and what it samples; none where the descriptor cannot be read or is malformed. -/
def State.texPlan (s : State) (e : Env) (lod : Bool) (bias : Int) (x : TexLane) : Option (Tex × TexPick) :=
  match s.record e x.desc with
  | .error _ => none
  | .ok r =>
    let d : Tex := r
    if !Tex.ok d then none
    else
      let lam := Tex.clampLod d (e.lambda d lod bias x.u x.v) (freeAt s 0)
      some (d, e.texPick d lam (x.u.bits.setWidth 32) (x.v.bits.setWidth 32) (freeAt s 1) (freeAt s 2))

/-- Whether a lane samples the texels of its pick: `texd` leaves them unread where `tex` would not return status 0 (R209). -/
def TexPick.sampled (p : TexPick) (deferred : Bool) : Bool := !deferred || p.status == 0

/-- The units of an access that fail their check. -/
def State.badIn (s : State) (e : Env) (d : Dir) (n : Nat) (a : W64) : List UnitKey :=
  match e.spot d false (fun _ => n) a with
  | some sp => s.failing e d false n sp
  | none => []

/-- The address of the first access of a lane whose unit fails its check, with those it needs (R355, R166): its descriptor,
the texels it samples, the re-shade list that it appends to. -/
def State.texBroken (s : State) (e : Env) (deferred lod : Bool) (bias : Int) (x : TexLane) : Option W64 :=
  let bad := fun (d : Dir) (n : Nat) (a : W64) => !(s.badIn e d n a).isEmpty
  if bad .load 64 x.desc then some x.desc
  else match s.texPlan e lod bias x with
    | none => none
    | some (d, p) =>
      if p.sampled deferred then
        ((p.mips.map fun m => m.2.2.filterMap (·.addr)).flatten).find? (bad .load d.size)
      else if d.rsl == 0 then none
      else if bad .load 8 d.rsl then some d.rsl
      else match s.engRead e d.rsl 8 with
        | .ok h =>
          let at' := d.rsl + BitVec.ofNat 64 (16 + 8 * natBits h 63 32)
          if natBits h 63 32 < natBits h 31 0 && bad .store 8 at' then some at' else none
        | .error _ => none

/-- The LLC on the reads of a lane that a failing unit stops, this one the last (R162). -/
def State.texStopped (s : State) (e : Env) (deferred lod : Bool) (bias : Int) (x : TexLane) : State :=
  let t := s.engReach e x.desc 64
  match s.texPlan e lod bias x with
  | none => t
  | some (d, p) =>
    if p.sampled deferred then
      (((p.mips.map fun m => m.2.2.filterMap (·.addr)).flatten).foldl (fun (acc : State × Bool) a =>
        if acc.2 then acc else (acc.1.engReach e a d.size, !(s.badIn e .load d.size a).isEmpty)) (t, false)).1
    else match s.engRead e d.rsl 8 with
      | .ok h => (t.engReach e d.rsl 8).engReach e (d.rsl + BitVec.ofNat 64 (16 + 8 * natBits h 63 32)) 8
      | .error _ => t.engReach e d.rsl 8

/-- The failing units that a lane which is stopped at an address needs. -/
def State.texUnits (s : State) (e : Env) (a : W64) : List UnitKey := s.badIn e .load 8 a

/-- The colour of a pick (R208): the border where no level is resident. -/
def State.texColour (s : State) (e : Env) (d : Tex) (p : TexPick) (c : Nat) : W32 :=
  match p.mips with
  | [m] => s.mip e d c m.2.2
  | [m, n] => F32.add (F32.mul m.2.1 (s.mip e d c m.2.2)) (F32.mul n.2.1 (s.mip e d c n.2.2))
  | _ => d.border c

/-- The caches on a lane's texture reads (R161, R162). -/
def State.texReach (s : State) (e : Env) (desc : W64) (d : Tex) (ms : List (Nat × W32 × List Tap)) : State :=
  ((ms.map fun m => m.2.2.filterMap (·.addr)).flatten).foldl (fun s a => s.engReach e a d.size) (s.engReach e desc 64)

/-- Sample for a lane: the state, four channels and the status (R208, R209). An unreadable descriptor gives free values
(log 4). -/
def State.texLane (s : State) (e : Env) (deferred lod : Bool) (bias : Int) (x : TexLane) : State × List W32 × W32 :=
  let drawn : State := { s with free := s.free + 5 }
  match s.record e x.desc, s.texPlan e lod bias x with
  | .error _, _ => (drawn, (List.range 4).map (freeAt s), freeAt s 4)
  | .ok _, none => (drawn.engReach e x.desc 64, [0, 0, 0, 0], 3)
  | .ok _, some (d, p) =>
    if p.sampled deferred then
      (drawn.texReach e x.desc d p.mips, (List.range 4).map (s.texColour e d p), BitVec.ofNat 32 p.status)
    else
      let missing := (p.wanted.map fun m => m.2.2.filterMap fun t =>
        t.addr.bind fun a => if e.resident d.size a then none else some a.toNat).flatten.eraseDups
      let u := (drawn.engReach e x.desc 64).report (.pageIn e.task.ctx missing)
      let border := (List.range 4).map d.border
      if d.rsl == 0 then (u, border, 4 + freeAt s 4 % 2)
      else match u.reshade e d.rsl x.tile.toNat true with
        | .ok (u, true) => (u, border, 4)
        | .ok (u, false) => (u, border, 5)
        | .error _ => (u.reshadeStopped e d.rsl x.tile.toNat, border, 5)

/-- Registers that a texture instruction marks (R354). -/
def texRegs (t : Ty) (d : Name) : List Nat :=
  match d with
  | .v n => if t == .f32 then (List.range 5).map (n.val + ·) else [n.val, n.val + 1, n.val + 4]
  | _ => []

/-- The fills of a sampled lane (R354). -/
def texFills (t : Ty) (d : Name) (l : Nat) (cs : List W32) (st : W32) : List Fill :=
  match d with
  | .v n =>
    let word := fun (k : Nat) (b : W32) (tag : Tag) => (⟨l, n + k, { bits := b, tag := tag }⟩ : Fill)
    let half := fun (i : Nat) => Fmt.f16.rn (F32.num (cs.getD i 0))
    (if t == .f32 then (List.range 4).map fun i => word i (cs.getD i 0) Ty.f32.tag
     else [word 0 (BitVec.ofNat 32 (half 0 + half 1 * 2 ^ 16)) Ty.f16.tag,
           word 1 (BitVec.ofNat 32 (half 2 + half 3 * 2 ^ 16)) Ty.f16.tag]) ++ [word 4 st Ty.n32.tag]
  | _ => []

/-- Issue of a texture instruction (R354): its checks, its marks, and each lane's reads, which take their place in the memory
order here (R169, log 3); that they reach the LLC in ascending order is the model's choice (log 23). A lane that meets a unit that fails its check waits for the refetch (R355). The lanes of one `texd`
append to a re-shade list in a free order, for the spec gives them none (R2, log 4). -/
def Ctx.texture (c : Ctx) (s : State) (deferred lod : Bool) : Res :=
  let e := c.env
  let desc := fun l => c.ptr c.f.b l
  match firstCause (c.each fun l => [(desc l, causes (e.descCause (desc l)) (desc l) 64)]) with
  | some (cause, hits) => c.raise s cause hits
  | none =>
    let regs := texRegs c.f.ty c.f.d
    let bias := (c.f.imm.setWidth 16 : BitVec 16).toInt
    let of := fun (l : Nat) => (⟨l, c.val c.f.a .f32 l, c.val c.f.a.next .f32 l, desc l,
      if deferred then (c.val c.f.c .n32 l).bits.setWidth 32 else 0⟩ : TexLane)
    let (s, order) := if deferred then s.shuffle c.lanes else (s, c.lanes)
    let s := if c.again then s else c.lanes.foldl (fun s l => s.modLane c.wid l (·.empty regs)) s
    let (s, fills, broken) := order.foldl (fun (acc : State × List Fill × List (Nat × W64)) l =>
      match acc.1.texBroken e deferred lod bias (of l) with
      | some a => (acc.1.texStopped e deferred lod bias (of l), acc.2.1, acc.2.2 ++ [(l, a)])
      | none =>
        let (s, cs, st) := acc.1.texLane e deferred lod bias (of l)
        (s, acc.2.1 ++ texFills c.f.ty c.f.d l cs st, acc.2.2)) (s, [], [])
    let s := if order.length == broken.length then s else s.addOp c.wid (.tex fills)
    c.hold s regs [] broken fun l => ((Assoc.get? broken l).map (s.texUnits e)).getD []

/-- `tex` (R354). -/
def execTex (f : Fields) (s : State) : Res := meaning (.tex f) s fun c s => c.texture s false false
/-- `tex.lod` (R354). -/
def execTexLod (f : Fields) (s : State) : Res := meaning (.texLod f) s fun c s => c.texture s false true
/-- `texd` (R354). -/
def execTexd (f : Fields) (s : State) : Res := meaning (.texd f) s fun c s => c.texture s true false

/-- TEX_COMPLETE (R208, R209, R57): the lanes' texels and status are written. -/
def execTexComplete (op : Nat) (s : State) : Res :=
  match s.op? op with
  | some o => match o.work with
    | .tex fs => .next ((s.fillRegs o.wid fs o.step).done o)
    | _ => .refused .notDue
  | none => .refused .notDue

/-! Splat units. -/

/-- An FP32 value with its derivative for one parameter (R213). -/
structure Dual where
  v : W32
  t : W32 := 0
  deriving DecidableEq, Repr

namespace Dual
def add (a b : Dual) : Dual := ⟨F32.add a.v b.v, F32.add a.t b.t⟩
def sub (a b : Dual) : Dual := ⟨F32.sub a.v b.v, F32.sub a.t b.t⟩
def neg (a : Dual) : Dual := ⟨F32.neg a.v, F32.neg a.t⟩
def mul (a b : Dual) : Dual := ⟨F32.mul a.v b.v, F32.fma a.t b.v (F32.mul a.v b.t)⟩
def div (a b : Dual) : Dual :=
  let y := F32.div a.v b.v
  ⟨y, F32.div (F32.fma (F32.neg y) b.t a.t) b.v⟩
def ex2 (a : Dual) : Dual :=
  let y : W32 := BitVec.ofNat 32 (Special.ex2 .f32 (F32.num a.v))
  ⟨y, F32.mul F32.ln2 (F32.mul y a.t)⟩
/-- `min` with the tangent of the operand returned (R78). -/
def min (a b : Dual) : Dual :=
  if pickB .f32 false false a.v.toNat b.v.toNat == some true then b else ⟨min112 a.v b.v, a.t⟩
/-- Sum of products, left to right. -/
def dot : List Dual → List Dual → Dual
  | a :: as, b :: bs => (as.zip bs).foldl (fun s p => s.add (p.1.mul p.2)) (a.mul b)
  | _, _ => ⟨0, 0⟩
end Dual

abbrev Mat := List (List Dual)
def Mat.at (m : Mat) (i j : Nat) : Dual := (m.getD i []).getD j ⟨0, 0⟩
/-- Product of an n × k and a k × m matrix. -/
def Mat.mul (a b : Mat) (k m : Nat) : Mat :=
  a.map fun r => (List.range m).map fun j => Dual.dot r ((List.range k).map fun q => b.at q j)
/-- Transpose of an n × m matrix. -/
def Mat.flip (a : Mat) (n m : Nat) : Mat := (List.range m).map fun j => (List.range n).map fun i => a.at i j

/-- Field of 32 bits of a record held as a number. -/
def f32At (x lo : Nat) : W32 := BitVec.ofNat 32 (x >>> lo)

abbrev Batch := BitVec 512
def Batch.prim (d : Batch) : W64 := dword d 0
def Batch.nprim (d : Batch) : Nat := dbits d 95 64
def Batch.cam (d : Batch) : W64 := dword d 128
def Batch.outb (d : Batch) : W64 := dword d 256
def Batch.pitch (d : Batch) : Nat := dbits d 351 320
def Batch.pmap (d : Batch) (j : Nat) : Nat := dbits d (355 + 4 * j) (352 + 4 * j)
def Batch.rsl (d : Batch) : W64 := dword d 384
def Batch.pt (d : Batch) : Bool := d.getLsbD 480
/-- The planes written: index and pose kind. -/
def Batch.planes (d : Batch) : List (Nat × Nat) :=
  if d.pt then (List.range 8).filterMap fun j => if d.pmap j == 0 then none else some (j, d.pmap j) else []
/-- The tiles, row by row. -/
def Batch.tiles (d : Batch) : List (Nat × Nat) :=
  let x0 := dbits d 207 192
  let y0 := dbits d 223 208
  let x1 := dbits d 239 224
  let y1 := dbits d 255 240
  ((List.range (y1 + 1 - y0)).map fun j => (List.range (x1 + 1 - x0)).map fun i => (x0 + i, y0 + j)).flatten
/-- The address of a pixel. -/
def Batch.pixel (d : Batch) (x y : Nat) : W64 := d.outb + BitVec.ofNat 64 (y * d.pitch + 16 * x)

/-- Whether the descriptor is well formed (R211). That PRIM and CAM lie in the global or the scratchpad window, and are malformed
elsewhere, that RSL lies in the global window and is malformed elsewhere, and that an OUTB or an OPITCH that is no multiple of 16 does not make a descriptor malformed are the model's choices, on
which the spec is silent (log 11). -/
def Batch.ok (d : Batch) : Bool :=
  dbits d 511 481 == 0 && dbits d 479 448 == 0 && dbits d 127 96 == 0 && 1 ≤ d.nprim && d.nprim ≤ 2 ^ 24 &&
  isGlobOrSp d.prim && d.prim.toNat % 64 == 0 && isGlobOrSp d.cam && d.cam.toNat % 128 == 0 &&
  isGlob d.rsl && d.rsl.toNat % 16 == 0 && (List.range 8).all fun j => d.pmap j == 0 || (4 ≤ d.pmap j && d.pmap j ≤ 9)

/-- The rotation of a camera with its derivative for a pose kind (R213): the camera turns about its own axes. -/
def cameraRot (cam kind : Nat) : Mat :=
  let r := fun (i j : Nat) => f32At cam (192 + 32 * (3 * i + j))
  let t := fun (i j : Nat) => match kind, i with
    | 7, 1 => r 2 j | 7, 2 => F32.neg (r 1 j)
    | 8, 0 => F32.neg (r 2 j) | 8, 2 => r 0 j
    | 9, 0 => r 1 j | 9, 1 => F32.neg (r 0 j)
    | _, _ => 0
  (List.range 3).map fun i => (List.range 3).map fun j => ⟨r i j, t i j⟩

/-- A projected primitive. -/
structure Proj where
  px   : Dual
  py   : Dual
  z    : W32
  /-- Half-side of the square it may touch. -/
  half : W32
  inv  : Mat
  col  : List W32
  op   : W32
  deriving DecidableEq, Repr

/-- Project a primitive (R212); none where it is culled. The order of the FP32 steps is log 11. -/
def project (cam kind prim : Nat) : Option Proj :=
  let d : List Dual := (List.range 3).map fun i =>
    ⟨F32.ofNum ((Fmt.f64.decode (natBits prim (64 * i + 63) (64 * i))).add false (Fmt.f64.decode (natBits cam (64 * i + 63) (64 * i))).neg),
     if kind == 4 + i then F32.neg F32.one else 0⟩
  let rot := cameraRot cam kind
  let c := rot.map fun r => Dual.dot r d
  let near := f32At cam 608
  let k := fun (i : Nat) => (⟨f32At cam (480 + 32 * i), 0⟩ : Dual)
  match c with
  | [x, y, z] =>
    if F32.le z.v near then none
    else
      let px := (((k 0).mul x).div z).add (k 2)
      let py := (((k 1).mul y).div z).add (k 3)
      let zz := z.mul z
      let zero : Dual := ⟨0, 0⟩
      let jac : Mat := [[(k 0).div z, zero, (((k 0).mul x).div zz).neg], [zero, (k 1).div z, (((k 1).mul y).div zz).neg]]
      let q := fun (i : Nat) => (⟨f32At prim (192 + 32 * i), 0⟩ : Dual)
      let cov : Mat := [[q 0, q 1, q 2], [q 1, q 3, q 4], [q 2, q 4, q 5]]
      let m := Mat.mul (Mat.mul (Mat.mul (Mat.mul jac rot 3 3) cov 3 3) (Mat.flip rot 3 3) 3 3) (Mat.flip jac 2 3) 3 2
      let eps : Dual := ⟨0x3E99999A, 0⟩
      let a := (m.at 0 0).add eps
      let b := m.at 0 1
      let b' := m.at 1 0
      let c := (m.at 1 1).add eps
      let det := (a.mul c).sub (b.mul b')
      let mid := F32.mul 0x3F000000 (F32.add a.v c.v)
      let dif := F32.mul 0x3F000000 (F32.sub a.v c.v)
      let eig := F32.add mid (F32.sqrt (F32.add (F32.mul dif dif) (F32.mul b.v b'.v)))
      some { px := px, py := py, z := z.v, half := F32.mul 0x40400000 (F32.sqrt eig)
             inv := [[c.div det, (b.neg).div det], [(b'.neg).div det, a.div det]]
             col := (List.range 3).map fun i => f32At prim (384 + 32 * i), op := f32At prim 480 }
  | _ => none

/-- Whether a primitive's square meets a tile (R212). That a square which only touches a tile's edge meets the tile is the model's
choice (log 11). -/
def Proj.touches (p : Proj) (tx ty : Nat) : Bool :=
  let meets := fun (c : W32) (t : Nat) =>
    F32.le (F32.sub c p.half) (F32.ofNum (.ofNat (16 * t + 16))) && F32.le (F32.ofNum (.ofNat (16 * t))) (F32.add c p.half)
  meets p.px.v tx && meets p.py.v ty

/-- A pixel's accumulation: transmittance, colour, stopped. -/
structure Pix where
  t    : Dual
  c    : List Dual
  stop : Bool
  deriving DecidableEq, Repr

/-- -0.5·LOG2E. -/
def splatScale : Dual := ⟨F32.mul 0xBF000000 0x3FB8AA3B, 0⟩

/-- One primitive's contribution to a pixel centre (R212). -/
def Pix.step (alpha : W32) (x y : W32) (a : Pix) (p : Proj) : Pix :=
  if a.stop then a
  else
    let dl : List Dual := [Dual.sub ⟨x, 0⟩ p.px, Dual.sub ⟨y, 0⟩ p.py]
    let row := (List.range 2).map fun j => Dual.dot dl [p.inv.at 0 j, p.inv.at 1 j]
    let al := Dual.min ⟨0x3F7D70A4, 0⟩ (Dual.mul ⟨p.op, 0⟩ (splatScale.mul (Dual.dot row dl)).ex2)
    if F32.lt al.v (F32.div F32.one (F32.ofNum (.ofNat 255))) then a
    else
      let k := a.t.mul al
      let t := a.t.mul (Dual.sub ⟨F32.one, 0⟩ al)
      { t := t, c := (a.c.zip p.col).map fun (c, w) => c.add (k.mul ⟨w, 0⟩),
        stop := F32.le alpha (Dual.sub ⟨F32.one, 0⟩ t).v }

/-- The four channels of a pixel with their derivatives (R212, R213). -/
def pixelOf (alpha : W32) (ps : List Proj) (x y : Nat) : List Dual :=
  let h := fun (n : Nat) => F32.add (F32.ofNum (.ofNat n)) 0x3F000000
  let r := ps.foldl (Pix.step alpha (h x) (h y)) ⟨⟨F32.one, 0⟩, List.replicate 3 ⟨0, 0⟩, false⟩
  r.c ++ [Dual.sub ⟨F32.one, 0⟩ r.t]

/-- A tile's primitives in order (R212): by the bits of c.z, ties by index. -/
def tileSort (ps : List Proj) (tx ty : Nat) : List Proj :=
  sortBy (fun a b => a.z.toNat ≤ b.z.toNat) (ps.filter (·.touches tx ty))

/-- What one pixel writes (R212, R213): its 16 bytes, and of each plane the elements that its page gives it. -/
def Batch.pieces (d : Batch) (e : Env) (alpha : W32) (ps : Nat → List Proj) (x y : Nat) : List (Option Piece) :=
  let a := d.pixel x y
  some ⟨a, 16, joinBits 32 ((pixelOf alpha (ps 0) x y).map (·.v.toNat))⟩ ::
    (d.planes.map fun jk => (pixelOf alpha (ps jk.2) x y).zipIdx.map fun p =>
      (e.elemPage 32 a p.2).map fun q => (⟨BitVec.ofNat 64 (planeVa q.1 q.2.1 jk.1 q.2.2), 2, F32.toBf p.1.t⟩ : Piece)).flatten

/-- Pixels of a tile, row by row. -/
def tilePixels (tx ty : Nat) : List (Nat × Nat) :=
  ((List.range 16).map fun j => (List.range 16).map fun i => (16 * tx + i, 16 * ty + j)).flatten

/-- Whether some page under the output breaks R347's format rule. -/
def Env.outFmt (e : Env) (d : Batch) : Bool :=
  let top := (d.planes.map (·.1 + 1)).foldl max 0
  d.tiles.any fun t => (tilePixels t.1 t.2).any fun p => match window (d.pixel p.1 p.2) with
    | .glob va => match e.job.page va with
      | some (_, l) => l.fmt != .f32 || l.tp < top
      | none => false
    | _ => true

/-- The primitive records of a batch. -/
def State.splatPrims (s : State) (e : Env) (d : Batch) : Except Nat (List Nat) :=
  allOk ((List.range d.nprim).map fun i => s.engRead e (d.prim + BitVec.ofNat 64 (64 * i)) 64)

/-- List every tile of a batch for re-shading, because a record's page is not there (R214): the state, the cause and COUNT. -/
def State.splatAgain (s : State) (e : Env) (d : Batch) : State × Nat × Nat :=
  d.tiles.foldl (fun (acc : State × Nat × Nat) t =>
    if acc.2.1 != 0 then acc
    else match acc.1.reshade e d.rsl (t.1 + t.2 * 2 ^ 16) false with
      | .ok (s, _) => (s, 0, acc.2.2 + 1)
      | .error c => (acc.1.reshadeStopped e d.rsl (t.1 + t.2 * 2 ^ 16), c, acc.2.2)) (s, 0, 0)

/-- What the pixels of a batch write, tile by tile (R212, R213). -/
def Batch.output (d : Batch) (e : Env) (alpha : W32) (cam : Nat) (prims : List Nat) : List (Option Piece) :=
  let kinds := (0 :: d.planes.map (·.2)).eraseDups
  let proj := kinds.map fun k => (k, prims.filterMap (project cam k))
  (d.tiles.map fun t =>
    let sorted := proj.map fun kp => (kp.1, tileSort kp.2 t.1 t.2)
    ((tilePixels t.1 t.2).map fun p => d.pieces e alpha (fun k => (Assoc.get? sorted k).getD []) p.1 p.2).flatten).flatten

/-- Run a batch (R212-R214, R347): the state, the cause and COUNT. The camera is tested before the primitives are read. -/
def State.splat (s : State) (e : Env) (desc : W64) (alpha : W32) : State × Nat × Nat :=
  let s := s.engReach e desc 64
  match s.record e desc with
  | .error c => (s, c, 0)
  | .ok r =>
    let d : Batch := r
    if !Batch.ok d then (s, eIll, 0)
    else if e.outFmt d then (s, eFmt, 0)
    else
      let s := s.engReach e (Batch.cam d) 128
      match s.engRead e (Batch.cam d) 128 with
      | .error c => if c == ePage then s.splatAgain e d else (s, c, 0)
      | .ok cam =>
        if natBits cam 1023 640 != 0 then (s, eIll, 0)
        else
          let s := s.engReach e (Batch.prim d) (64 * Batch.nprim d)
          match s.splatPrims e d with
          | .error c => if c == ePage then s.splatAgain e d else (s, c, 0)
          | .ok prims => match allSome (Batch.output d e alpha cam prims) with
            | none => (s, ePage, 0)
            | some ps => match s.putPieces e ps with
              | .ok s => (s, 0, 0)
              | .error c => (s.refusedIn s e ps, c, 0)

/-- `splsub` (R347). -/
def execSplsub (f : Fields) (s : State) : Res :=
  meaning (.splsub f) s fun c s =>
    match firstCause (c.each fun l => [(c.ptr f.a l, causes (c.env.descCause (c.ptr f.a l)) (c.ptr f.a l) 64)]) with
    | some (cause, hits) => c.raise s cause hits
    | none =>
      .next ((c.lanes.foldl (fun s l =>
        (s.modLane c.wid l (·.empty (Name.mains f.d 1))).addOp c.wid (.splat l (c.ptr f.a l) c.env.wav.alpha f.d)) s).pass c)

/-- `splwait` (R347): its lanes wait from the seal on. -/
def execSplwait (f : Fields) (s : State) : Res :=
  meaning (.splwait f) s fun c s => .next (s.pass c true (some (.wait (c.each fun _ => .regs (Name.mains f.a 1)))))

/-- SPLAT_BATCH_COMPLETE (R212-R214): the batch is rendered and its token filled. -/
def execSplatBatchComplete (op : Nat) (s : State) : Res :=
  match s.op? op with
  | some o => match o.work, s.env? o.wid with
    | .splat l desc alpha d, some e =>
      let r := s.splat e desc alpha
      .next ((r.1.fillStatus o.wid l d (statusWord r.2.1 r.2.2)).done o)
    | _, _ => .refused .notDue
  | none => .refused .notDue

end Sys2Proof.Machine
end

