-- ==== Sys2Proof/Machine/Collective.lean ====
section
/-! DEFINITION. Collectives (R215-R217, R283). The contributions of the other ranks are what the completion brings
(log 15). -/

namespace Sys2Proof.Machine

abbrev Coll := BitVec 512
def Coll.kind (d : Coll) : Nat := dbits d 3 0
def Coll.rop (d : Coll) : Nat := dbits d 7 4
def Coll.ety (d : Coll) : Ty := Ty.ofCode (dbits d 11 8)
def Coll.res (d : Coll) : Bool := d.getLsbD 12
def Coll.grp (d : Coll) : Nat := dbits d 63 32
def Coll.src (d : Coll) : W64 := dword d 64
def Coll.dst (d : Coll) : W64 := dword d 128
def Coll.count (d : Coll) : Nat := dbits d 223 192
def Coll.chunk (d : Coll) : Nat := dbits d 255 224
def Coll.mask (d : Coll) : W64 := dword d 256
/-- Bytes of an element. -/
def Coll.size (d : Coll) : Nat := d.ety.elemBits / 8

/-- Whether the descriptor is well formed for a group of `g` ranks (R215). The spec states no alignment of SRC, DST and MASK: that
none is required is the model's choice (log 15). -/
def Coll.ok (d : Coll) (g : Nat) : Bool :=
  1 ≤ g && g ≤ Config.maxPackages && dbits d 511 320 == 0 && dbits d 31 13 == 0 && d.kind ≤ 2 && d.rop ≤ 2 &&
  (d.ety == .s32 || d.ety == .n32 || d.ety == .f32 || d.ety == .f16 || d.ety == .bf16) &&
  64 ≤ d.chunk && d.chunk ≤ 2 ^ 20 && d.chunk == 2 ^ Nat.log2 d.chunk && (d.kind != 1 || d.count % g == 0) &&
  isGlob d.src && isGlob d.dst && isGlob d.mask

/-- Elements of this rank's result. -/
def Coll.elems (d : Coll) (g : Nat) : Nat :=
  match d.kind with | 0 => d.count | 1 => d.count / g | _ => g * d.count

/-- Chunks of the result. -/
def Coll.chunks (d : Coll) (g : Nat) : Nat := (d.elems g + d.chunk - 1) / d.chunk

/-- One combining step in ETY (R216). -/
def Coll.op (d : Coll) (a b : Nat) : Nat :=
  let t := d.ety
  match d.rop with
  | 0 => match t.fmt? with
    | some fm => fm.rn ((fm.decode a).add false (fm.decode b))
    | none => (a + b) % 2 ^ t.elemBits
  | 1 => pickElem t false false a b
  | _ => pickElem t false true a b

/-- Combine contributions in ascending rank order. -/
def Coll.reduce (d : Coll) : List Nat → Option Nat
  | [] => none
  | x :: xs => some (xs.foldl d.op x)

/-- Element j of the result from the ranks present (R216); none where an all-gather lacks its rank. -/
def Coll.elem (d : Coll) (g rank : Nat) (present : List Nat) (con : Nat → Nat → Nat) (j : Nat) : Option Nat :=
  match d.kind with
  | 0 => d.reduce (present.map fun q => con q j)
  | 1 => d.reduce (present.map fun q => con q (rank * d.count / g + j))
  | _ => if present.contains (j / d.count) then some (con (j / d.count) (j % d.count)) else none

/-- The address of a chunk's mask. -/
def Coll.maskAt (d : Coll) (g c : Nat) : W64 := d.mask + BitVec.ofNat 64 (8 * c * ((g + 63) / 64))

/-- What the engine's records keep of a rank for a chunk (R217). -/
def keptFor (recs : List Contrib) (q c : Nat) : Option Contrib := recs.find? fun x => x.rank == q && x.chunks.contains c

/-- The chunks of a collective, that of operation `id`, that a rank had reached when it dropped out, none of one that was not
submitted by then; none where it takes part: a spare takes its place in the collectives that begin after the spare has joined
(R14, R217). -/
def Group.absence (g : Group) (id q : Nat) : Option (List Nat) :=
  (g.gone.find? fun x => x.rank == q && match x.upTo with | some n => decide (id < n) | none => true).map fun x =>
    (Assoc.get? x.reached id).getD []

/-- The ranks whose contributions are in a chunk of a collective: a rank that dropped out is in those it had reached and those
that the records keep (R217). -/
def Group.present (g : Group) (id : Nat) (recs : List Contrib) (c : Nat) : List Nat :=
  (List.range g.size).filter fun q => match g.absence id q with
    | none => true
    | some cs => cs.contains c || (keptFor recs q c).isSome

/-- The elements of a chunk that its ranks `here` give, as they are written (R216). -/
def Coll.pieces (d : Coll) (g : Group) (here : List Nat) (con : Nat → Nat → Nat) (c : Nat) : List Piece :=
  let js := (List.range d.chunk).map (c * d.chunk + ·) |>.filter (· < d.elems g.size)
  js.filterMap fun j => (d.elem g.size g.rank here con j).map fun v => (⟨d.dst + BitVec.ofNat 64 (j * d.size), d.size, v⟩ : Piece)

/-- The mask of a chunk, as it is written (R217). -/
def Coll.maskPiece (d : Coll) (g : Group) (here : List Nat) (c : Nat) : Piece :=
  ⟨d.maskAt g.size c, 8 * ((g.size + 63) / 64), (here.map (2 ^ ·)).foldl (· + ·) 0⟩

/-- Compute one chunk: its elements and its mask (R216, R217); `here` are the ranks in it. In an all-gather a chunk holds elements
of some ranks alone; that its mask has the bit of every rank that is present all the same, as in the other kinds, is the model's
choice (log 15). -/
def State.collChunk (s : State) (e : Env) (d : Coll) (g : Group) (here : List Nat) (con : Nat → Nat → Nat) (c : Nat) :
    Except Nat State :=
  match s.putPieces e (d.pieces g here con c) with
  | .error k => .error k
  | .ok s => let m := d.maskPiece g here c; s.engStore e m.addr m.n m.v

/-- The LLC on the unit that refuses the write of a chunk (R162). -/
def State.chunkStopped (s : State) (e : Env) (d : Coll) (g : Group) (here : List Nat) (con : Nat → Nat → Nat) (c : Nat) : State :=
  match s.putPieces e (d.pieces g here con c) with
  | .error _ => s.refusedIn s e (d.pieces g here con c)
  | .ok t => s.refusedIn t e [d.maskPiece g here c]

/-- Whether a chunk's mask in memory is full. -/
def State.maskFull (s : State) (e : Env) (d : Coll) (g c : Nat) : Except Nat Bool :=
  (s.engRead e (d.maskAt g c) (8 * ((g + 63) / 64))).map fun m => (List.range g).all m.testBit

/-- The engine's read of a chunk's mask reaches the LLC. -/
def State.maskReach (s : State) (e : Env) (d : Coll) (g c : Nat) : State :=
  if d.res then s.engReach e (d.maskAt g c) (8 * ((g + 63) / 64)) else s

/-- Run a collective: the state, the cause and the number of full chunks; `con` gives a rank's element for a chunk. -/
def State.collective (s : State) (e : Env) (d : Coll) (g : Group) (id : Nat) (recs : List Contrib) (con : Nat → Nat → Nat → Nat) :
    State × Nat × Nat :=
  (List.range (d.chunks g.size)).foldl (fun (acc : State × Nat × Nat) c =>
    let (s, cause, n) := acc
    if cause != 0 && cause != cPartial then acc
    else
      let full := if d.res then s.maskFull e d g.size c else .ok false
      let s := s.maskReach e d g.size c
      match full with
      | .error k => (s, k, n)
      | .ok true => (s, cause, n + 1)
      | .ok false =>
        let here := g.present id recs c
        match s.collChunk e d g here (fun q j => con q c j) c with
        | .error k => (s.chunkStopped e d g here (fun q j => con q c j) c, k, n)
        | .ok s => if here.length == g.size then (s, cause, n + 1) else (s, cPartial, n)) (s, 0, 0)

/-- `coll` (R283): checks at issue, in the lowest lane. -/
def execColl (f : Fields) (s : State) : Res :=
  meaning (.coll f) s fun c s =>
    match c.lanes with
    | [] => .next (s.pass c)
    | l :: _ =>
      let a := c.ptr f.a l
      match firstCause [(l, [(a, causes (c.env.descCause a) a 64)])] with
      | some (cause, hits) => c.raise s cause hits
      | none => .next (((s.modLane c.wid l (·.empty (Name.mains f.d 1))).addOp c.wid (.coll l a f.d)).pass c)

/-- `collwait` (R283): its lanes wait from the seal on. -/
def execCollwait (f : Fields) (s : State) : Res :=
  meaning (.collwait f) s fun c s => .next (s.pass c true (some (.wait (c.each fun _ => .regs (Name.mains f.a 1)))))

/-- The elements of SRC. -/
def State.collSrc (s : State) (e : Env) (d : Coll) : Except Nat (List Nat) :=
  allOk ((List.range d.count).map fun j => s.engRead e (d.src + BitVec.ofNat 64 (j * d.size)) d.size)

/-- What the ranks contribute to a collective now (R216, R217): this rank from SRC, the others as the event brings; for
each rank the chunks that the records do not keep, where it is in any. -/
def Group.contributions (g : Group) (id chunks : Nat) (recs : List Contrib) (own : List Nat) (peers : List (List W32)) :
    List Contrib :=
  (List.range g.size).filterMap fun q =>
    let cs := (List.range chunks).filter fun c => (g.present id recs c).contains q && (keptFor recs q c).isNone
    if cs.isEmpty then none else some ⟨q, cs, if q == g.rank then own.map (BitVec.ofNat 32) else peers.getD q []⟩

/-- The group after one of its collectives (R217): the records of a partial one stay for its resumption. -/
def Group.after (g : Group) (key : BitVec 512) (cause : Nat) (recs : List Contrib) : Group :=
  { g with kept := if cause == cPartial then Assoc.put g.kept key recs
             else if cause == 0 then g.kept.filter (·.1 != key) else g.kept }

/-- COLL_COMPLETE (R216, R217): the collective finishes its chunks and fills its token. `peers` holds each rank's
elements; where they do not fit the descriptor the event is not due, nor where another rank contributes and no Floeb link port
has negotiated, for its elements come over one (R8). -/
def execCollComplete (op : Nat) (peers : List (List W32)) (s : State) : Res :=
  match s.op? op with
  | some o => match o.work, s.env? o.wid with
    | .coll l a dst, some e =>
      let finish := fun (s : State) (cause n : Nat) => Host.Outcome.next ((s.fillStatus o.wid l dst (statusWord cause n)).done o)
      let s := s.engReach e a 64
      match s.record e a with
      | .error k => finish s k 0
      | .ok r =>
        let d : Coll := r
        match Assoc.get? s.groups (Coll.grp d) with
        | none => finish s eIll 0
        | some g =>
          if g.ctx != e.task.ctx || !Coll.ok d g.size then finish s eIll 0
          else
          let s := s.engReach e (Coll.src d) (Coll.count d * Coll.size d)
          match s.collSrc e d with
          | .error k => finish s k 0
          | .ok own =>
            let key : BitVec 512 := d &&& ~~~(BitVec.twoPow 512 12)
            let old := if Coll.res d then (Assoc.get? g.kept key).getD [] else []
            let new := g.contributions op (Coll.chunks d g.size) old own peers
            if new.any fun (x : Contrib) => x.elems.length != Coll.count d || (x.rank != g.rank && s.floeb.isEmpty) then
              .refused .notDue
            else
              let recs := old ++ new
              let con := fun (q c j : Nat) => (((keptFor recs q c).map fun (x : Contrib) => x.elems.getD j 0).getD 0).toNat
              let r := s.collective e d g op recs con
              finish { r.1 with groups := Assoc.put s.groups (Coll.grp d) (g.after key r.2.1 recs) } r.2.1 r.2.2
    | _, _ => .refused .notDue
  | none => .refused .notDue

/-- Whether work is a collective. -/
def Work.isColl : Work → Bool
  | .coll .. => true
  | _ => false

/-- RANK_DROPOUT (R217, R14): another rank of a group drops out, and Pewter fences it; `reached` are the chunks that have
its contribution, of each outstanding collective by the number of its operation. -/
def execRankDropout (group rank : Nat) (reached : List (Nat × List Nat)) (s : State) : Res :=
  match Assoc.get? s.groups group with
  | some g =>
    if rank < g.size && rank != g.rank && !g.fenced.contains rank then
      let out := reached.filter fun x => s.ops.any fun o => o.id == x.1 && o.work.isColl
      let h : Group := { g with gone := g.gone ++ [⟨rank, out, none⟩], joined := g.joined.filter (· != rank),
                                fenced := g.fenced ++ [rank] }
      .next { s with groups := Assoc.put s.groups group h }
    else .refused .notDue
  | none => .refused .notDue

/-- SPARE_JOINING (R217, R14): Pewter joins a spare in place of a rank that dropped out. It takes part in the collectives that
begin from then on, and supplies what the records lack; one that is outstanding completes without it (log 15). -/
def execSpareJoining (group rank : Nat) (s : State) : Res :=
  match Assoc.get? s.groups group with
  | some g =>
    if g.fenced.contains rank then
      let back := fun (x : Gone) => if x.rank == rank && x.upTo.isNone then { x with upTo := some s.nextOp } else x
      let h : Group := { g with gone := g.gone.map back, joined := g.joined ++ [rank],
                                fenced := g.fenced.filter (· != rank) }
      .next { s with groups := Assoc.put s.groups group h }
    else .refused .notDue
  | none => .refused .notDue

end Sys2Proof.Machine
end

