-- ==== Sys2Proof/Decode.lean ====
section
/-! DEFINITION. From bytes to instructions and back (R116-R119, R127). The decoder refuses by name a word that
raises `E_ILL` by itself; the step then takes that trap. -/

namespace Sys2Proof

/-- Why a word is no instruction (R125). -/
inductive Reject where
  /-- Fewer than 12 bytes. -/
  | short
  /-- OP or FN undefined (R127, R128). -/
  | opcode
  /-- A field outside its format, its type, its modifiers or its names. -/
  | fields
  deriving DecidableEq, Repr

/-- Formats RI and X carry imm32 (R118). -/
def opForm (op : Nat) : Form :=
  if op == 0x16 then .ri else if op == 0x90 || op == 0x92 || op == 0x94 then .x
  else if op == 0x97 then .s else .rrrr

/-- The fields of a word (R116); none where a field has no reading at all. -/
def fieldsOf (op w : Nat) : Option Fields :=
  let g : Guard := ⟨w.testBit 45, ⟨natBits w 44 42, Nat.mod_lt _ (by decide)⟩⟩
  let wide := opForm op == .ri || opForm op == .x
  let tm := natBits w 36 34
  if tm > 1 then none
  else if wide && natBits w 63 62 != 0 then none
  else if opForm op == .s && natBits w 54 46 != 0 then none
  else
    match Name.ofCode (natBits w 81 73), Name.ofCode (natBits w 72 64),
      (if wide then some .zero else Name.ofCode (natBits w 63 55)),
      (if wide || opForm op == .s then some .zero else Name.ofCode (natBits w 54 46)) with
    | some d, some a, some b, some c =>
      some { d := d, a := a, b := b, c := c, guard := g, rt := BitVec.ofNat 2 (natBits w 41 40),
             fe := BitVec.ofNat 3 (natBits w 39 37), tz := tm == 1, ty := Ty.ofCode (natBits w 33 30),
             md := BitVec.ofNat 4 (natBits w 29 26), ha := BitVec.ofNat 4 (natBits w 25 22),
             hb := BitVec.ofNat 3 (natBits w 21 19), hc := BitVec.ofNat 3 (natBits w 18 16),
             imm := if wide then 0 else BitVec.ofNat 16 (natBits w 15 0),
             imm32 := if wide then BitVec.ofNat 32 (natBits w 61 46 * 2 ^ 16 + natBits w 15 0) else 0 }
    | _, _, _, _ => none

/-- OP 0x00 to 0x0F (R127). -/
def instr0 (op fn : Nat) (f : Fields) : Option Instr :=
  match op with
  | 0x00 => if fn == 0 then some (.abs f) else none
  | 0x01 => if fn == 0 then some (.add f) else none
  | 0x02 => if fn == 0 then some (.addc f) else none
  | 0x03 => if fn == 0 then some (.div f) else none
  | 0x04 => if fn == 0 then some (.dot2 f) else none
  | 0x05 => if fn == 0 then some (.dot4 f) else none
  | 0x06 => if fn == 0 then some (.fma f) else none
  | 0x07 => if fn == 0 then some (.frnd f) else none
  | 0x08 => if fn == 0 then some (.max f) else none
  | 0x09 => if fn == 0 then some (.min f) else none
  | 0x0A => if fn == 0 then some (.mul f) else none
  | 0x0B => if fn == 0 then some (.mul24 f) else none
  | 0x0C => if fn == 0 then some (.mulhi f) else none
  | 0x0D => if fn == 0 then some (.neg f) else none
  | 0x0E => if fn == 0 then some (.rem f) else none
  | 0x0F => if fn == 0 then some (.sub f) else none
  | _ => none

/-- OP 0x10 to 0x1F (R127). -/
def instr1 (op fn : Nat) (f : Fields) : Option Instr :=
  match op with
  | 0x10 => if fn == 0 then some (.and f) else none
  | 0x11 => if fn == 0 then some (.bfe f) else none
  | 0x12 => if fn == 0 then some (.bfi f) else none
  | 0x13 => if fn == 0 then some (.brev f) else none
  | 0x14 => if fn == 0 then some (.clz f) else none
  | 0x15 => if fn == 0 then some (.mov f) else none
  | 0x16 => if fn == 0 then some (.movi f) else none
  | 0x17 => if fn == 0 then some (.not f) else none
  | 0x18 => if fn == 0 then some (.or f) else none
  | 0x19 => if fn == 0 then some (.popc f) else none
  | 0x1A => match fn with | 0 => some (.rotL f) | 1 => some (.rotR f) | _ => none
  | 0x1B => if fn == 0 then some (.sel f) else none
  | 0x1C => if fn == 0 then some (.shl f) else none
  | 0x1D => if fn == 0 then some (.shr f) else none
  | 0x1E => if fn == 0 then some (.sra f) else none
  | 0x1F => if fn == 0 then some (.xor f) else none
  | _ => none

/-- OP 0x20 to 0x2F (R127). -/
def instr2 (op fn : Nat) (f : Fields) : Option Instr :=
  match op with
  | 0x20 => if h : fn < 8 then some (.cmp f ⟨fn, h⟩) else none
  | 0x21 => if fn == 0 then some (.matchKey f) else none
  | 0x22 => if h : fn < 5 then some (.plog f ⟨fn, h⟩) else none
  | 0x23 => match fn with | 0 => some (.voteAll f) | 1 => some (.voteAny f) | 2 => some (.voteBallot f) | _ => none
  | 0x28 => if fn == 0 then some (.cvt f) else none
  | 0x29 => match fn with | 0 => some (.cvtblkEnc f) | 1 => some (.cvtblkDec f) | _ => none
  | 0x2A => if fn == 0 then some (.pack4 f) else none
  | 0x2B => if fn == 0 then some (.unpk4 f) else none
  | _ => none

/-- OP 0x30 to 0x3F (R127). -/
def instr3 (op fn : Nat) (f : Fields) : Option Instr :=
  match op with
  | 0x30 => if fn == 0 then some (.cos f) else none
  | 0x31 => if fn == 0 then some (.ex2 f) else none
  | 0x32 => if fn == 0 then some (.lg2 f) else none
  | 0x33 => if fn == 0 then some (.rcp f) else none
  | 0x34 => if fn == 0 then some (.rsq f) else none
  | 0x35 => if fn == 0 then some (.sin f) else none
  | 0x36 => if fn == 0 then some (.sqrt f) else none
  | 0x38 => if fn == 0 then some (.tev f) else none
  | 0x39 => if fn == 0 then some (.tget f) else none
  | 0x3A => if fn == 0 then some (.tset f) else none
  | 0x3B => if fn == 0 then some (.tzero f) else none
  | _ => none

/-- OP 0x40 to 0x4F (R127). -/
def instr4 (op fn : Nat) (f : Fields) : Option Instr :=
  match op with
  | 0x40 => match fn with | 0 => some (.laneRank f) | 1 => some (.laneBack f) | 2 => some (.laneFwd f) | 3 => some (.laneMate f) | _ => none
  | 0x41 => if h : fn < 6 then some (.lred f ⟨fn, h⟩) else none
  | 0x42 => if h : fn < 6 then some (.lscan f ⟨fn, h⟩ false) else if h : fn - 8 < 6 then (if 8 ≤ fn then some (.lscan f ⟨fn - 8, h⟩ true) else none) else none
  | 0x48 => if fn == 0 then some (.ld f) else none
  | 0x49 => if fn == 0 then some (.spc f) else none
  | 0x4A => match fn with | 0 => some (.spcastSp f) | 1 => some (.spcastSpan f) | 2 => some (.spcastOff f) | _ => none
  | 0x4B => if fn == 0 then some (.st f) else none
  | _ => none

/-- OP 0x50 to 0x5F (R127). -/
def instr5 (op fn : Nat) (f : Fields) : Option Instr :=
  match op with
  | 0x50 => match fn with | 0 => some (.atomAdd f) | 1 => some (.atomMin f) | 2 => some (.atomMax f) | 3 => some (.atomAnd f) | 4 => some (.atomOr f) | 5 => some (.atomXor f) | 6 => some (.atomExch f) | _ => none
  | 0x51 => if fn == 0 then some (.atomcas f) else none
  | 0x52 => if h : fn < 5 then some (.fence f ⟨fn, h⟩) else if fn == 5 then some (.fenceSys f) else none
  | 0x58 => if fn == 0 then some (.cpkick f) else none
  | 0x59 => if h : fn < 3 then some (.cpl f ⟨fn, h⟩) else none
  | 0x5A => if fn == 0 then some (.cpt f) else none
  | _ => none

/-- OP 0x60 to 0x6F (R127). -/
def instr6 (op fn : Nat) (f : Fields) : Option Instr :=
  match op with
  | 0x60 => match fn with | 0 => some (.mamax f) | 1 => some (.mamaxClr f) | _ => none
  | 0x61 => if fn == 0 then some (.mclaim f) else none
  | 0x62 => match fn with | 0 => some (.mconstIdent f) | 1 => some (.mconstExch f) | 2 => some (.mconstPerm f) | 3 => some (.mconstOnesrow f) | 4 => some (.mconstOnescol f) | 5 => some (.mconstShift f) | _ => none
  | 0x63 => if fn == 0 then some (.mdual f) else none
  | 0x64 => if fn == 0 then some (.mfence f) else none
  | 0x65 => match fn with | 0 => some (.mld f) | 1 => some (.mldT f) | _ => none
  | 0x66 => if fn == 0 then some (.mma f) else none
  | 0x67 => if fn == 0 then some (.mrel f) else none
  | 0x68 => if fn == 0 then some (.mwait f) else none
  | _ => none

/-- OP 0x70 to 0x7F (R127). -/
def instr7 (op fn : Nat) (f : Fields) : Option Instr :=
  match op with
  | 0x70 => if fn == 0 then some (.rsvfin f) else none
  | 0x71 => if fn == 0 then some (.rsvget f) else none
  | 0x72 => if fn == 0 then some (.rsvinit f) else none
  | 0x73 => if fn == 0 then some (.rsvld f) else none
  | 0x74 => if fn == 0 then some (.rsvmerge f) else none
  | 0x75 => if fn == 0 then some (.rsvst f) else none
  | 0x76 => if fn == 0 then some (.rsvupd f) else none
  | 0x78 => match fn with | 0 => some (.dadd f) | 1 => some (.daddSub f) | _ => none
  | 0x79 => if fn == 0 then some (.dld f) else none
  | 0x7A => match fn with | 0 => some (.dmomMean f) | 1 => some (.dmomVar f) | 2 => some (.dmomM3 f) | 3 => some (.dmomMin f) | 4 => some (.dmomMax f) | _ => none
  | 0x7B => if fn == 0 then some (.dmul f) else none
  | 0x7C => if fn == 0 then some (.dqtl f) else none
  | 0x7D => if fn == 0 then some (.dset f) else none
  | 0x7E => if fn == 0 then some (.dsto f) else none
  | 0x7F => if fn == 0 then some (.dtag f) else none
  | _ => none

/-- OP 0x80 to 0x8F (R127). -/
def instr8 (op fn : Nat) (f : Fields) : Option Instr :=
  match op with
  | 0x80 => if fn == 0 then some (.splsub f) else none
  | 0x81 => if fn == 0 then some (.splwait f) else none
  | 0x82 => match fn with | 0 => some (.tex f) | 1 => some (.texLod f) | _ => none
  | 0x83 => if fn == 0 then some (.texd f) else none
  | 0x88 => if fn == 0 then some (.coll f) else none
  | 0x89 => if fn == 0 then some (.collwait f) else none
  | _ => none

/-- OP 0x90 to 0x9F (R127). -/
def instr9 (op fn : Nat) (f : Fields) : Option Instr :=
  match op with
  | 0x90 => if fn == 0 then some (.bra f) else none
  | 0x91 => if fn == 0 then some (.brk f) else none
  | 0x92 => match fn with | 0 => some (.call f) | 1 => some (.callInd f) | _ => none
  | 0x93 => if fn == 0 then some (.exit f) else none
  | 0x94 => match fn with | 0 => some (.jmp f) | 1 => some (.jmpInd f) | _ => none
  | 0x95 => if fn == 0 then some (.nop f) else none
  | 0x96 => match fn with | 0 => some (.ret f) | 1 => some (.retX f) | 2 => some (.retXSkip f) | _ => none
  | 0x97 => if fn < 4 then some (.seal f (fn.testBit 0) (fn.testBit 1)) else none
  | 0x98 => if fn == 0 then some (.task f) else none
  | 0x99 => if fn == 0 then some (.trap f) else none
  | _ => none

/-- OP 0xA0 to 0xAF (R127). -/
def instrA (op fn : Nat) (f : Fields) : Option Instr :=
  match op with
  | 0xA0 => if fn == 0 then some (.bar f) else none
  | 0xA1 => if fn == 0 then some (.bararr f) else none
  | 0xA2 => if fn == 0 then some (.barinit f) else none
  | 0xA3 => if fn == 0 then some (.barinv f) else none
  | 0xA4 => if fn == 0 then some (.barwait f) else none
  | 0xA5 => if fn == 0 then some (.fwait f) else none
  | 0xA8 => if fn == 0 then some (.getsr f) else none
  | 0xA9 => if fn == 0 then some (if f.imm == 0x0A then .setsrMode f else if f.imm == 0x12 then .setsrSplAlpha f else if f.imm == 0x15 then .setsrPwrRatio f else .setsrSeed f) else none
  | 0xAA => if fn == 0 then some (if f.imm == 1 then .syscPagein f else if f.imm == 2 then .syscAbort f else .syscVersion f) else none
  | 0xAB => if fn == 0 then some (.tstamp f) else none
  | _ => none

/-- The instruction of an OP and FN (R127, R128). -/
def instrOf (op fn : Nat) (f : Fields) : Option Instr :=
  match op / 16 with
  | 0 => instr0 op fn f
  | 1 => instr1 op fn f
  | 2 => instr2 op fn f
  | 3 => instr3 op fn f
  | 4 => instr4 op fn f
  | 5 => instr5 op fn f
  | 6 => instr6 op fn f
  | 7 => instr7 op fn f
  | 8 => instr8 op fn f
  | 9 => instr9 op fn f
  | 10 => instrA op fn f
  | _ => none

/-- Decode a 96-bit word (R125). -/
def decodeWord (w : Nat) : Except Reject Instr :=
  let op := natBits w 95 88
  match fieldsOf op w with
  | none => .error (if (instrOf op (natBits w 87 82) default').isSome then .fields else .opcode)
  | some f =>
    match instrOf op (natBits w 87 82) f with
    | none => .error .opcode
    | some i => if i.legal then .ok i else .error .fields
where
  /-- Fields of a word that holds `zero` everywhere. -/
  default' : Fields := ⟨.zero, .zero, .zero, .zero, ⟨false, 7⟩, 0, 0, false, .b32, 0, 0, 0, 0, 0, 0⟩

/-- The number whose bytes, least significant first, are given (R117). -/
def leNat : List Byte → Nat
  | [] => 0
  | b :: bs => b.toNat + 256 * leNat bs

/-- The `n` least significant bytes of a number, least significant first. -/
def leBytes : Nat → Nat → List Byte
  | 0, _ => []
  | n + 1, x => BitVec.ofNat 8 x :: leBytes n (x / 256)

/-- Decode the instruction at the head of a byte stream; the rest follows (R117). -/
def decode (bs : List Byte) : Except Reject (Instr × List Byte) :=
  if bs.length < 12 then .error .short
  else match decodeWord (leNat (bs.take 12)) with
    | .ok i => .ok (i, bs.drop 12)
    | .error e => .error e

/-- The word of an OP, FN and fields (R116, R118). -/
def wordOf (s : Shape) (f : Fields) : Nat :=
  let mid := match s.form with
    | .ri | .x => natBits f.imm32.toNat 31 16 * 2 ^ 46
    | .s => f.b.code * 2 ^ 55
    | _ => f.b.code * 2 ^ 55 + f.c.code * 2 ^ 46
  let low := match s.form with
    | .ri | .x => natBits f.imm32.toNat 15 0
    | _ => f.imm.toNat
  s.op * 2 ^ 88 + s.fn * 2 ^ 82 + f.d.code * 2 ^ 73 + f.a.code * 2 ^ 64 + mid +
  (if f.guard.neg then 2 ^ 45 else 0) + f.guard.pred.val * 2 ^ 42 + f.rt.toNat * 2 ^ 40 + f.fe.toNat * 2 ^ 37 +
  (if f.tz then 2 ^ 34 else 0) + f.ty.code * 2 ^ 30 + f.md.toNat * 2 ^ 26 + f.ha.toNat * 2 ^ 22 + f.hb.toNat * 2 ^ 19 +
  f.hc.toNat * 2 ^ 16 + low

/-- The 96-bit word of an instruction; a device event has none (log 1). -/
def encodeWord (i : Instr) : Option Nat :=
  match i.shape, i.fields? with
  | some s, some f => some (wordOf s f)
  | _, _ => none

/-- The bytes of an instruction as memory holds them (R117). -/
def encode (i : Instr) : Option (List Byte) := (encodeWord i).map (leBytes 12)

/-- The instruction the decoder reads from a word whose bits are numbered as spec/opcode_table.json numbers them:
the word's 12 bytes, lowest first. -/
def decodeTableWord (nbits w : Nat) : Option Instr :=
  match decode (leBytes 12 (w % 2 ^ min nbits 96)) with
  | .ok (i, _) => some i
  | .error _ => none

end Sys2Proof
end

