-- ==== Sys2Proof/Machine/Integrity.lean ====
section
/-! DEFINITION. The refetch of units that fail their check (R165, R13), and the LLC on the accesses that Pewter and the fetch
of instruction words make (R162). -/

namespace Sys2Proof.Machine

/-- Whether some page that holds a unit has an integrity class (R149, R165). -/
def State.classed (s : State) (unit cls : Nat) : Bool :=
  s.jobs.any fun j => j.2.pages.any fun p =>
    Leaf.valid p.2 && Leaf.icls p.2 == cls && Leaf.pbase p.2 ≤ 64 * unit && 64 * unit < Leaf.pbase p.2 + Leaf.size p.2

/-- Whether a copy may serve a refetch (R165): from the next level behind, for a page of class 1 from host memory, which the host
port reaches while it is up (R6), for one of class 2 from storage, which sits on the fabric and is reached through a Floeb port
that has negotiated (R8). That private pages have class 0 is the model's choice (log 24). -/
def State.mayServe (s : State) (c : GoodCopy) : Bool :=
  c.bytes.length == 64 && match c.src, c.unit with
    | 0, _ => true
    | 1, .phys n => s.host.up && s.classed n 1
    | 2, .phys n => !s.floeb.isEmpty && s.classed n 2
    | _, _ => false

/-- The check value that a unit bears, where it is not the one of its bytes. -/
def State.checkOf (s : State) : UnitKey → Option W32
  | .phys n => Assoc.get? s.checks n
  | .priv w p n => (s.wav? w).bind fun v => Assoc.get? v.checks (p, n)

/-- A unit takes 64 bytes and their check value. -/
def State.putUnit (s : State) (bs : List Byte) : UnitKey → State
  | .phys n => s.memWrite (64 * n) 64 (joinBits 8 (bs.map (·.toNat)))
  | .priv w p n => s.modWav w (·.putUnit p n bs)

/-- Refetch a failing unit: of the copies, those of the next level before those of host memory and storage, the first whose
bytes pass the check replaces it, and the event is counted (R165). -/
def State.mendUnit (s : State) (copies : List GoodCopy) (unit : UnitKey) : State :=
  if !s.badKey unit then s
  else
    let good := fun (c : GoodCopy) => c.unit == unit && s.mayServe c && s.checkOf unit == some (crc32c c.bytes)
    match [0, 1, 2].findSome? fun k => copies.find? fun c => c.src == k && good c with
    | some c => { s.putUnit c.bytes unit with refetched := s.refetched + 1 }
    | none => s

/-- Refetch the units that copies are brought for (R165). -/
def State.mend (s : State) (copies : List GoodCopy) : State := (copies.map (·.unit)).eraseDups.foldl (·.mendUnit copies) s

/-- The lines or sectors of `n` bytes of a process's memory, with their pages' hints. -/
def Job.keys (j : Job) (va n : Nat) : List (LlcKey × Nat) :=
  ((List.range n).filterMap fun i => (j.page (va + i)).map fun p => Leaf.keys p.2 (va + i - p.1) 1).flatten.eraseDups

/-- An access of a process's memory that no wavelet's instruction makes reaches the LLC and is charged to the process (R162). -/
def State.touchJob (s : State) (ctx va n : Nat) (w : Option WavId) (isStore : Bool) : State :=
  s.touch ctx w ((s.job ctx).keys va n) 0 isStore false

end Sys2Proof.Machine
end

