-- ==== Sys2Proof/Machine/Matrix.lean ====
section
/-! DEFINITION. Operand memory and the matrix engine (R197-R206, R317-R324, R328). -/

namespace Sys2Proof.Machine

/-- M, N and K of a format (R198). -/
def matShape (t : Ty) : Option (Nat × Nat × Nat) :=
  match t with
  | .bf16 | .f16 => some (128, 128, 64)
  | .e4m3 | .e5m2 => some (128, 128, 128)
  | .i4o => some (128, 128, 256)
  | .f64 => some (64, 64, 16)
  | _ => none

/-- Rows and columns of a tile of a role (0 or 2 A, 1 B). -/
def tileSize (t : Ty) (role : Nat) : Nat × Nat :=
  match matShape t with
  | some (m, n, k) => if role == 1 then (k, n) else (m, k)
  | none => (0, 0)

/-! Slots (R197, R317-R319). -/

/-- Slots of a cluster that no block holds and no command uses. -/
def State.freeSlots (s : State) (cl : Nat) : List Nat :=
  (List.range Config.slots).filter fun n => s.blocks.all fun b =>
    !(b.2.at' == cl) || s.savedBlk b.1 || (!(b.2.slots.any (·.1 == n)) && !(b.2.freeing.any (·.1 == n)))

/-- Grant the lowest free slots to a block (R219): the mask. -/
def State.grant (s : State) (b : BlkId) (cl n : Nat) : State × Nat :=
  let ns := (s.freeSlots cl).take n
  (s.modBlk b fun k => { k with slots := k.slots ++ ns.map fun i => (i, none) }, (ns.map fun i => 2 ^ i).foldl (· + ·) 0)

/-- Whether a block holds a slot. -/
def Block.holds (k : Block) (n : Nat) : Bool := k.slots.any (·.1 == n)

/-- The contents of a slot, held or released and still used. -/
def Block.tile? (k : Block) (n : Nat) : Option Tile :=
  match k.slots.find? (·.1 == n), k.freeing.find? (·.1 == n) with
  | some p, _ => p.2
  | none, some p => p.2
  | none, none => none

/-- Fill a slot. -/
def Block.fill (k : Block) (n : Nat) (t : Tile) : Block :=
  let put := fun (xs : List (Nat × Option Tile)) => xs.map fun p => if p.1 == n then (n, some t) else p
  if k.holds n then { k with slots := put k.slots } else { k with freeing := put k.freeing }

/-- Slots that a matrix command uses. -/
def Matrix.uses : Matrix → List Nat
  | .mld n .. | .mconst n .. => [n]
  | .mma dual p =>
    [dbits p 3 0, dbits p 7 4] ++ (if dual then [dbits p 15 12] ++
      (if dbits p 19 16 == 5 || dbits p 19 16 == 6 then [dbits p 11 8] else []) else [])

/-- Outstanding matrix commands of a block, in order of issue. -/
def State.matrixOps (s : State) (b : BlkId) : List (Op × Matrix × Fence × Bool) :=
  s.ops.filterMap fun o => match o.work with
    | .matrix m fence x => if o.wid.block == b then some (o, m, fence, x) else none
    | _ => none

/-- Drop released slots that no issued command uses any more (R197). -/
def State.freeUnused (s : State) (b : BlkId) : State :=
  let used := ((s.matrixOps b).map (·.2.1.uses)).flatten
  s.modBlk b fun k => { k with freeing := k.freeing.filter fun p => used.contains p.1 }

/-- `mclaim` (R317, R197): a count that cannot be met raises `E_SLOT`; else it is granted, or waits its turn; where its span
is to stop it is abandoned instead, to issue again after the restore (R43). -/
def execMclaim (f : Fields) (s : State) : Res :=
  meaning (.mclaim f) s fun c s =>
    match c.lanes with
    | [] => .next (s.finish c false [])
    | l :: _ =>
      let e := c.env
      let done := fun (s : State) (m : Nat) =>
        Host.Outcome.next ((s.modWav c.wid fun v => { v with granted := none }).finish c false (c.each fun _ => Val.ofTy .n32 m))
      match e.wav.granted with
      | some m => done s m
      | none =>
        let n := c.nat f.a .n32 l
        if n == 0 || n > 16 || n + e.blk.slots.length > e.kern.opm then c.raise s eSlot (noAddr [l])
        else if (s.claims.any (·.1 == e.blk.at')) || (s.freeSlots e.blk.at').length < n then
          let s := s.stallWith c.wid .claim
          if e.span.stage == .stopping || e.task.cause != 0 then .next (s.standAt c.wid)
          else .next { s with claims := s.claims ++ [(e.blk.at', c.wid, n)] }
        else let (s, m) := s.grant c.wid.block e.blk.at' n
             done s m

/-- MCLAIM_GRANT (R318): the first waiting claim of its cluster, once enough slots are free. -/
def execMclaimGrant (w : WavId) (s : State) : Res :=
  match s.claims.find? (·.2.1 == w), s.env? w with
  | some (cl, _, n), some e =>
    if e.wav.stall == .claim && e.span.stage == .running && ((s.claims.find? (·.1 == cl)).map (·.2.1)) == some w &&
      n ≤ (s.freeSlots cl).length then
      let (s, m) := { s with claims := s.claims.filter (·.2.1 != w) }.grant w.block cl n
      .next (s.modWav w fun v => { v with stall := .none, granted := some m })
    else .refused .notDue
  | _, _ => .refused .notDue

/-- `mrel` (R317, R197). -/
def execMrel (f : Fields) (s : State) : Res :=
  meaning (.mrel f) s fun c s =>
    match c.lanes with
    | [] => .next (s.pass c)
    | l :: _ =>
      let m := c.nat f.a .n32 l
      let ns := (List.range 32).filter m.testBit
      if ns.any fun n => n ≥ 16 || !c.env.blk.holds n then c.raise s eSlot (noAddr [l])
      else
        let s := s.modBlk c.wid.block fun k =>
          { k with slots := k.slots.filter fun p => !ns.contains p.1,
                   freeing := k.freeing ++ k.slots.filter fun p => ns.contains p.1 }
        .next ((s.freeUnused c.wid.block).pass c)

/-- What a slot records once the block's outstanding commands are done (R178, R201): format, role, sparsity. -/
def State.slotRec (s : State) (b : BlkId) (n : Nat) : Option (Ty × Nat × Nat) :=
  let pend := (s.matrixOps b).filterMap fun o => match o.2.1, o.2.2.2 with
    | .mld k role sp t .., false => if k == n then some (t, if role == 1 then 1 else 0, if role == 2 then sp + 1 else 0) else none
    | .mconst k role _ t _, false => if k == n then some (t, role, 0) else none
    | _, _ => none
  match pend.getLast?, (s.blk? b).bind (·.tile? n) with
  | some r, _ => some r
  | none, some t => some (t.ty, t.role, t.sp)
  | none, none => none

/-- What a strand has seen and done when it submits a command (R173). -/
def Ctx.submitted (c : Ctx) (s : State) (l : Nat) : Clock := s.seenBy c.wid l

/-- Submit a matrix command: while a failure stands unreported it is cancelled and counted (R205). -/
def State.submitMatrix (s : State) (c : Ctx) (l : Nat) (m : Matrix) : State :=
  let failed := match s.blk? c.wid.block with | some k => k.fail | none => none
  (s.modBlk c.wid.block fun k => { k with fail := failed.map fun r => (r.1, r.2 + 1) }).addOp c.wid
    (.matrix m ⟨c.wid, (c.lane l).fence, (c.lane l).fenced, c.submitted s l⟩ failed.isSome)

/-- `mld` and `mld.t` (R323, R324): checks at issue. -/
def Ctx.mld (c : Ctx) (s : State) (tr : Bool) : Res :=
  match c.lanes with
  | [] => .next (s.pass c)
  | l :: _ =>
    let e := c.env
    let t := c.f.ty
    let a := c.addr l
    let w := c.nat c.f.b .n32 l
    let pitch := c.nat c.f.c .n32 l
    let role := natBits w 5 4
    let n := natBits w 7 6
    let k := (tileSize t 0).2
    let kept := k / 32 * (8 * (n + 1))
    match firstCause [(l, [(a, causes (e.engCause a) a (if tr then 32 else 16))])] with
    | some (cause, hits) => c.raise s cause hits
    | none =>
      let glob := match window a with | .glob _ => true | _ => false
      if role == 3 || n == 3 || (role == 2 && t == .f64) || w ≥ 256 || pitch % 16 != 0 || (tr && (!glob || role == 2)) then
        c.raise s eIll (noAddr [l])
      else
        let (rows, cols) := tileSize t role
        let rowB := if role == 2 then Ty.memBytes t kept else Ty.memBytes t cols
        let size := if role == 2 then max (127 * pitch + rowB) (128 * pitch + 128 * kept) else (rows - 1) * pitch + rowB
        let past : Bool := match e.scr a with | .ok (_, off) => off + size > e.alloc | .error _ => false
        if past then c.raise s eSpace [(l, a)]
        else if !e.blk.holds (natBits w 3 0) then c.raise s eSlot (noAddr [l])
        else .next ((s.submitMatrix c l (.mld (natBits w 3 0) role n t tr a pitch l)).pass c)

/-- `mld` (R323). -/
def execMld (f : Fields) (s : State) : Res := meaning (.mld f) s fun c s => c.mld s false
/-- `mld.t` (R323). -/
def execMldT (f : Fields) (s : State) : Res := meaning (.mldT f) s fun c s => c.mld s true

/-- `mconst` (R319): checks at issue. -/
def Ctx.mconst (c : Ctx) (s : State) (kind : Nat) : Res :=
  match c.lanes with
  | [] => .next (s.pass c)
  | l :: _ =>
    let e := c.env
    let t := c.f.ty
    let w := c.nat c.f.a .n32 l
    let role := natBits w 4 4
    let p := c.ptr c.f.b l
    match (if kind == 2 then firstCause [(l, [(p, (e.ownCause p).toList)])] else none) with
    | some (cause, hits) => c.raise s cause hits
    | none =>
      if w ≥ 32 then c.raise s eIll (noAddr [l])
      else if kind == 2 && p.toNat % 2 ^ 24 + (tileSize t role).1 > e.alloc then c.raise s eSpace [(l, p)]
      else if !e.blk.holds (natBits w 3 0) then c.raise s eSlot (noAddr [l])
      else
        let b : Int := if kind == 2 then (p.toNat % 2 ^ 24 : Nat) else if kind == 5 then Ty.s32.intOf (c.nat c.f.b .s32 l) else 0
        .next ((s.submitMatrix c l (.mconst (natBits w 3 0) role kind t b)).pass c)

/-- `mconst.ident` (R319). -/
def execMconstIdent (f : Fields) (s : State) : Res := meaning (.mconstIdent f) s fun c s => c.mconst s 0
/-- `mconst.exch` (R319). -/
def execMconstExch (f : Fields) (s : State) : Res := meaning (.mconstExch f) s fun c s => c.mconst s 1
/-- `mconst.perm` (R319). -/
def execMconstPerm (f : Fields) (s : State) : Res := meaning (.mconstPerm f) s fun c s => c.mconst s 2
/-- `mconst.onesrow` (R319). -/
def execMconstOnesrow (f : Fields) (s : State) : Res := meaning (.mconstOnesrow f) s fun c s => c.mconst s 3
/-- `mconst.onescol` (R319). -/
def execMconstOnescol (f : Fields) (s : State) : Res := meaning (.mconstOnescol f) s fun c s => c.mconst s 4
/-- `mconst.shift` (R319). -/
def execMconstShift (f : Fields) (s : State) : Res := meaning (.mconstShift f) s fun c s => c.mconst s 5

/-! `mma` and `mdual` (R201-R203, R320, R321). -/

abbrev Par := BitVec 512
def Par.aslot (p : Par) : Nat := dbits p 3 0
def Par.bslot (p : Par) : Nat := dbits p 7 4
def Par.xt1 (p : Par) : Nat := dbits p 11 8
def Par.xt0 (p : Par) : Nat := dbits p 15 12
def Par.afmt (p : Par) : Ty := Ty.ofCode (dbits p 19 16)
def Par.bfmt (p : Par) : Ty := Ty.ofCode (dbits p 23 20)
def Par.spn (p : Par) : Nat := dbits p 25 24
def Par.zero (p : Par) : Bool := p.getLsbD 26
def Par.amxe (p : Par) : Bool := p.getLsbD 27
def Par.amxi (p : Par) : Nat := dbits p 29 28
def Par.p0 (p : Par) : Nat := dbits p 127 64
def Par.p1 (p : Par) : Nat := dbits p 191 128

/-- An accumulator placement (R201, R202): base, wavelets, block width, registers of an element, elements, per strand. -/
structure Place where
  base : Nat
  wvs  : List Nat
  w    : Nat
  regs : Nat
  size : Nat
  per  : Nat
  deriving DecidableEq, Repr

/-- A placement of `size` elements; none where it breaks R202. -/
def Place.of (p w regs size nwavs : Nat) : Option Place :=
  let nwc := natBits p 10 9
  let wvs := (List.range (2 ^ nwc)).map fun i => natBits p (23 + 8 * i) (16 + 8 * i)
  let per := size / (2 ^ nwc * w)
  let base := natBits p 8 0
  if nwc != 3 && base % 8 == 0 && natBits p 15 11 == 0 && natBits p 63 48 == 0 && per * (2 ^ nwc * w) == size && per != 0 &&
    base + per * regs ≤ 448 && wvs.all (· < nwavs) && wvs.eraseDups.length == wvs.length
  then some ⟨base, wvs, w, regs, size, per⟩ else none

/-- The registers of each strand of a placement. -/
def Place.mains (p : Place) : List Nat := (List.range (p.per * p.regs)).map (p.base + ·)

/-- The wavelet index, lane and register of element i (R202). -/
def Place.pos (p : Place) (i : Nat) : Nat × Nat × Nat :=
  let st := i / p.per
  (p.wvs.getD (st / p.w) 0, st % p.w, p.base + p.regs * (i % p.per))

/-- Whether two placements share a register of a wavelet (R321). -/
def Place.meets (p q : Place) : Bool :=
  p.wvs.any q.wvs.contains && p.base < q.base + q.per * q.regs && q.base < p.base + p.per * p.regs

/-- The placements of a command: its accumulator, and dW for `mdual`; none where one breaks R202 (R203). -/
def Par.places (p : Par) (dual : Bool) (w nwavs : Nat) : Option (List Place) :=
  match matShape (Par.afmt p) with
  | none => some []
  | some (m, n, k) =>
    let regs := if Par.afmt p == .f64 then 2 else 1
    match Place.of (Par.p0 p) w regs (m * n) nwavs with
    | none => none
    | some x => if dual then (Place.of (Par.p1 p) w regs (128 * k) nwavs).map fun y => [x, y] else some [x]

/-- Formats that may pair (R201). -/
def fmtPair (a b : Ty) : Bool :=
  (matShape a).isSome && (matShape b).isSome &&
    (a == b || (a == .e4m3 && b == .e5m2) || (a == .e5m2 && b == .e4m3))

/-- Whether the block meets R321 and its reserved bits are clear (R320). -/
def Par.wellFormed (p : Par) (dual : Bool) (places : Option (List Place)) : Bool :=
  let a := Par.afmt p
  let fp8 := a == .e4m3 || a == .e5m2
  let clear := fun (q : Nat) => natBits q 10 9 != 3 && natBits q 15 11 == 0 && natBits q 63 48 == 0
  let common := dbits p 511 192 == 0 && dbits p 63 30 == 0 && clear (Par.p0 p) && clear (Par.p1 p)
  common && match places with
  | none => false
  | some ps =>
    if dual then
      Par.spn p == 0 && (a == .bf16 || a == .f16 || fp8) && (!fp8 || Par.xt1 p == 0) &&
        (match ps with | [x, y] => !x.meets y | _ => true)
    else
      Par.p1 p == 0 && Par.xt0 p == 0 && Par.xt1 p == 0 &&
        (Par.spn p == 0 || a == .bf16 || a == .f16 || fp8 || a == .i4o) &&
        (if a == .f64 || Par.bfmt p == .f64 then a == Par.bfmt p && Par.spn p == 0 else true)

/-- The X slots that `mdual` reads. -/
def Par.xts (p : Par) : List Nat :=
  if Par.afmt p == .bf16 || Par.afmt p == .f16 then [Par.xt0 p, Par.xt1 p] else [Par.xt0 p]

/-- Whether the slots' records fit the command (R201, R320). -/
def State.slotsFit (s : State) (b : BlkId) (p : Par) (dual : Bool) : Bool :=
  fmtPair (Par.afmt p) (Par.bfmt p) && s.slotRec b (Par.aslot p) == some (Par.afmt p, 0, Par.spn p) &&
  s.slotRec b (Par.bslot p) == some (Par.bfmt p, 1, 0) &&
  (!dual || (Par.xts p).all fun n => match s.slotRec b n with
    | some (t, role, sp) => role == 0 && sp == 0 && fmtPair (Par.afmt p) t
    | none => false)

/-- Wavelets of a block by index. -/
def wavOf (b : BlkId) (i : Nat) : WavId := ⟨b.span, b.pos, i⟩

/-- What went before the engines' fills of registers in the lanes of a wavelet that nothing has found full since (R174). -/
def State.arrivedIn (s : State) (w : WavId) (rs : List Nat) : List Clock :=
  match s.wav? w with
  | some v => (v.lanes.map fun x => (x.arrived.filter fun a => rs.contains a.1).map (·.2)).flatten
  | none => []

/-- `mma` and `mdual` at issue (R320). The submitting strand finds the accumulators full, and so observes the commands that
filled them (R174). -/
def Ctx.mma (c : Ctx) (s : State) (dual : Bool) : Res :=
  match c.lanes with
  | [] => .next (s.pass c)
  | l :: _ =>
    let e := c.env
    let b := c.wid.block
    let a := c.ptr c.f.a l
    match firstCause [(l, [(a, causes (e.ownCause a) a 64)])] with
    | some (cause, hits) => c.raise s cause hits
    | none =>
      let p : Par := BitVec.ofNat 512 (s.scrRead b (a.toNat % 2 ^ 24) 64)
      let places := Par.places p dual e.blk.width (s.wavsOf b).length
      let stop := fun cause => c.raise s cause (noAddr [l])
      if !Par.wellFormed p dual places then stop eIll
      else if !((Matrix.mma dual p).uses.all e.blk.holds) then stop eSlot
      else if !s.slotsFit b p dual then stop eFmt
      else
        let named := ((places.getD []).map fun x => x.wvs.map fun i => (wavOf b i, x.mains)).flatten
        if named.any fun x => match s.wav? x.1 with | some v => v.live.isEmpty | none => true then stop eLanegone
        else if named.any fun x => match s.wav? x.1 with
            | some v => v.lanes.any fun y => x.2.any fun r => !(y.reg r).full
            | none => true then stop ePendwrite
        else
          let seen := (named.map fun x => s.arrivedIn x.1 x.2).flatten
          let s := s.modLane c.wid l fun x => seen.foldl Strand.see x
          let s := named.foldl (fun s x => s.modWav x.1 fun v => { v with lanes := v.lanes.map (·.empty x.2) }) s
          .next ((s.submitMatrix c l (.mma dual p)).pass c)

/-- `mma` (R320). -/
def execMma (f : Fields) (s : State) : Res := meaning (.mma f) s fun c s => c.mma s false
/-- `mdual` (R320). -/
def execMdual (f : Fields) (s : State) : Res := meaning (.mdual f) s fun c s => c.mma s true

/-- `mfence` (R322, R177): it comes after all that its wavelet has seen, in whichever lane (R170). -/
def execMfence (f : Fields) (s : State) : Res :=
  meaning (.mfence f) s fun c s =>
    .next ((c.lanes.foldl (fun s l => s.modLane c.wid l fun x => { x with fence := s.steps, fenced := c.env.wav.seen }) s).pass c)

/-- `mwait` (R328): its lanes wait from the seal on. -/
def execMwait (f : Fields) (s : State) : Res :=
  meaning (.mwait f) s fun c s => .next (s.pass c true (some (.wait (c.each fun _ => .mwait f.d))))

/-- The step of `mamax` (R314, R180). -/
def Ctx.mamax (c : Ctx) (s : State) (clr : Bool) : Res :=
  if c.lanes.isEmpty then .next (s.pass c)
  else
    let n := natBits c.f.imm.toNat 1 0
    let old := match s.blk? c.wid.block with | some k => k.amax.getD n 0 | none => 0
    let s := if clr then s.modBlk c.wid.block fun k => { k with amax := listSet k.amax n 0 } else s
    .next (s.finish c false (c.each fun _ => Val.ofTy .f32 (if F32.isNan old then F32.qnan else old).toNat))

/-- `mamax` (R314). -/
def execMamax (f : Fields) (s : State) : Res := meaning (.mamax f) s fun c s => c.mamax s false
/-- `mamax.clr` (R314). -/
def execMamaxClr (f : Fields) (s : State) : Res := meaning (.mamaxClr f) s fun c s => c.mamax s true

/-! The engine at work. -/

/-- One of the values that a read may return: the current one or one held since the fence (R177, log 13). -/
def State.choose (s : State) (now : Nat) (old : List Nat) : Nat × State :=
  if old.isEmpty then (now, s)
  else
    let (k, s) := s.draw
    ((now :: old).getD (k % (old.length + 1)) now, s)

/-- A view of a scratchpad as a matrix command reads units `u` to `u + n - 1` (R177): a fence of the block itself orders
its own scratchpad. -/
def State.viewScr (s : State) (b : BlkId) (fence : Nat) (u : Nat) : Nat → State
  | 0 => s
  | n + 1 =>
    match s.blk? b with
    | none => s
    | some k =>
      let old := k.past.filterMap fun p => if p.1 == u && fence < p.2.1 then some p.2.2.toNat else none
      let (v, t) := s.choose (Sparse.readN k.scratch (16 * u) 16) old
      State.viewScr (t.modBlk b fun k => { k with scratch := Sparse.writeN k.scratch (16 * u) 16 v }) b fence (u + 1) n

/-- Stored codes of a run of elements as E4M3 codes for `i4o` (R101), as they are for other formats. -/
def storedCodes (t : Ty) : List Nat → List Nat
  | a :: b :: c :: d :: xs =>
    (if t == .i4o then
      let v := fun (x : Nat) => Fmt.e4m3.rn (.ofInt (i4code x))
      if b == 8 then [v a, c * 16 + d, 0, 0] else [v a, v b, v c, v d]
     else [a, b, c, d]) ++ storedCodes t xs
  | xs => xs

/-- A stored line of a tile: `n` elements at `a` along its memory row, with their scales where the page has them
(R199, R324). `along` says that memory rows run along k. R199 asks of a BLK page that its blocks run along k, and no more: that a line
whose elements at the multiples of 32 are not the first of a block of their page fails with `E_FMT` is the model's choice (log 19). -/
def State.tileLine (s : State) (e : Env) (t : Ty) (tr along : Bool) (pitch : Nat) (a : W64) (n : Nat) :
    Except Nat (List Nat × List (Option Nat)) :=
  let w := t.elemBits
  let pages := (List.range n).filterMap fun j => e.elemPage w a j
  let glob := match window a with | .glob _ => true | _ => false
  let bad := pages.any fun p => (p.2.1.fmt != t && p.2.1.fmt != .b32) || (tr && (Leaf.pitch p.2.1 == 0 || Leaf.pitch p.2.1 != pitch)) ||
    (p.2.1.blk && (!along || p.2.1.fmt != t))
  let skew := pages.zipIdx.any fun (p, j) => p.2.1.blk && p.2.2 % 32 != j % 32
  let bare := t == .i4o && (!glob || pages.any fun p => !p.2.1.blk)
  match allOk ((List.range n).map fun j => s.codeAt e t a j) with
  | .error c => .error c
  | .ok cs =>
    if (glob && bad) || skew || bare then .error eFmt
    else if !(pages.any fun p => p.2.1.blk) then .ok (storedCodes t cs, [])
    else match allOk (pages.map fun p =>
        if p.2.1.blk then (s.engByte e (BitVec.ofNat 64 (scaleVa p.1 p.2.1 p.2.2))).map some else .ok none) with
      | .error c => .error c
      | .ok sc => .ok (storedCodes t cs, sc)

/-- Transpose a list of `k` columns given as `n` lines. -/
def flipLines {α : Type} (d : α) (k : Nat) (xs : List (List α)) : List α :=
  ((List.range k).map fun i => xs.map fun x => x.getD i d).flatten

/-- The tile that an `mld` loads, or the cause it fails with (R323, R324). -/
def State.loadTile (s : State) (e : Env) (role n : Nat) (t : Ty) (tr : Bool) (a : W64) (pitch : Nat) : Except Nat Tile :=
  let (rows, cols) := tileSize t role
  let row := fun (i : Nat) => a + BitVec.ofNat 64 (i * pitch)
  if role == 2 then
    let kept := cols / 32 * (8 * (n + 1))
    let per := 8 * (n + 1)
    match allOk ((List.range rows).map fun r =>
      match s.tileLine e t false true pitch (row r) kept,
        allOk ((List.range kept).map fun j => s.engByte e (a + BitVec.ofNat 64 (128 * pitch + r * kept + j))) with
      | .ok x, .ok ix => Except.ok (x, ix)
      | .error c, _ => .error c
      | _, .error c => .error c) with
    | .error c => .error c
    | .ok ls =>
      let okIx := ls.all fun l => (List.range kept).all fun j =>
        l.2.getD j 0 < 32 && (j % per == 0 || l.2.getD (j - 1) 0 < l.2.getD j 0)
      if !okIx then .error eFmt
      else
        let at' := fun (l : (List Nat × List (Option Nat)) × List Nat) (k : Nat) =>
          (List.range per).find? fun j => l.2.getD (k / 32 * per + j) 99 == k % 32
        let pos := fun (l : (List Nat × List (Option Nat)) × List Nat) (k : Nat) => (at' l k).map (k / 32 * per + ·)
        .ok { ty := t, role := 0, sp := n + 1, rows := rows, cols := cols
              elems := (ls.map fun l => (List.range cols).map fun k => (pos l k).map fun j => l.1.1.getD j 0).flatten
              scales := if ls.all fun l => l.1.2.isEmpty then []
                else (ls.map fun l => (List.range cols).map fun k => match pos l k with
                  | some j => l.1.2.getD j none | none => none).flatten }
  else
    let lines := if tr then cols else rows
    let len := if tr then rows else cols
    match allOk ((List.range lines).map fun i => s.tileLine e t tr ((role == 1) == tr) pitch (row i) len) with
    | .error c => .error c
    | .ok ls =>
      .ok { ty := t, role := role, sp := 0, rows := rows, cols := cols
            elems := (if tr then flipLines 0 len (ls.map (·.1)) else (ls.map (·.1)).flatten).map some
            scales := if ls.all fun l => l.2.isEmpty then []
              else
                let xs := ls.map fun l => if l.2.isEmpty then List.replicate len none else l.2
                if tr then flipLines none len xs else xs.flatten }

/-- The tile of an `mconst` (R200, R319); `idx` gives the index bytes of `.perm`. -/
def constTile (t : Ty) (role kind : Nat) (b : Int) (idx : Nat → Nat) : Tile :=
  let (rows, cols) := tileSize t role
  let one := if t == .i4o then 0x38 else Lit.one.elem t 0
  let hit := fun (i j : Nat) => match kind with
    | 0 => j == i
    | 1 => j + i + 1 == cols
    | 2 => j == idx i
    | 3 => i == 0
    | 4 => j == 0
    | _ => (j : Int) == i + b
  { ty := t, role := role, sp := 0, rows := rows, cols := cols
    elems := ((List.range rows).map fun i => (List.range cols).map fun j => some (if hit i j then one else 0)).flatten
    scales := if t == .i4o then List.replicate (rows * cols) (some 0x38) else [] }

/-- The exact element values of a tile, scales applied; none where a sparse tile holds no value. Where a chunk of R109 runs over
elements of several blocks, as the dW of `mdual` does over rows of dY, each is scaled by its own block's scale before the exact
sum: the spec has a chunk's one scale alone, and this is the model's choice (log 17). -/
def Tile.values (t : Tile) : Array (Option Num) :=
  let fm : Ty := if t.ty == .i4o then .e4m3 else t.ty
  (t.elems.zipIdx.map fun (x, i) => x.map fun x =>
    match t.scales.getD i none with
    | some sc => scaled sc (x.testBit (fm.elemBits - 1)) (fm.num false x)
    | none => fm.num false x).toArray

/-- An accumulator element (R109): chunk by chunk over k < depth. -/
def accumulate (wide : Bool) (depth : Nat) (a b : Nat → Option Num) (acc : Nat) : Nat :=
  let size := if wide then 16 else 32
  (List.range (depth / size)).foldl (fun acc c =>
    let s := Num.sum false ((List.range size).map fun i => match a (c * size + i), b (c * size + i) with
      | some x, some y => x.mul y
      | _, _ => Num.zero)
    if wide then Fmt.f64.rn ((Fmt.f64.decode acc).add false (Fmt.f64.decode (Fmt.f64.rn s)))
    else (F32.add (BitVec.ofNat 32 acc) (F32.ofNum s)).toNat) acc

/-- Up to which step the register writes of a strand precede a command (R177): its own wavelet's up to the `mfence`, in
program order; another's as far as barrier releases and observed completions showed them before it. -/
def Fence.upTo (f : Fence) (w : WavId) (l : Nat) : Nat :=
  if w == f.wid then f.step else (Assoc.get? f.seen (w, l)).getD 0

/-- The initial value of an accumulator register, as an unfenced read may find it (R177, log 13): a value that was overwritten
behind the fence, or by an engine's fill that nothing has found full, which is behind no fence. -/
def State.accReg (s : State) (w : WavId) (l r : Nat) (fence : Fence) : Nat × State :=
  match s.wav? w with
  | none => (0, s)
  | some v =>
    let x := v.lane l
    s.choose (x.reg r).bits.toNat (x.past.filterMap fun p =>
      if p.1 == r && p.2.1.all (fence.upTo w l < ·) then some p.2.2.toNat else none)

/-- Compute and fill one placement: the state before the fill, the fills and the results. -/
def State.drainPlace (s : State) (b : BlkId) (p : Place) (cols : Nat) (fence : Fence) (zero : Bool) (f : Nat → Nat → Nat → Nat) :
    State × List (WavId × Fill) × List Nat :=
  let wide := p.regs == 2
  (List.range p.size).foldl (fun (acc : State × List (WavId × Fill) × List Nat) i =>
    let (wi, l, r) := p.pos i
    let w := wavOf b wi
    let (lo, s) := if zero then (0, acc.1) else acc.1.accReg w l r fence
    let (hi, s) := if zero || !wide then (0, s) else s.accReg w l (r + 1) fence
    let y := f (i / cols) (i % cols) (lo + hi * 2 ^ 32)
    let tag := if wide then Ty.f64.tag else Ty.f32.tag
    let fills := (w, (⟨l, r, { bits := BitVec.ofNat 32 y, tag := tag }⟩ : Fill)) ::
      (if wide then [(w, ⟨l, r + 1, { bits := BitVec.ofNat 32 (y / 2 ^ 32), tag := tag }⟩)] else [])
    (s, acc.2.1 ++ fills, acc.2.2 ++ [y])) (s, [], [])

/-- A drain's contribution to a max-magnitude register (R204). -/
def amaxOf (wide : Bool) (ys : List Nat) : W32 :=
  let t := if wide then Ty.f64 else .f32
  let ns := ys.map (t.num false)
  if ns.any (·.isNan) then F32.qnan
  else BitVec.ofNat 32 (Fmt.f32.round 2 false 0 (maxMag ns)).bits

/-- The fills and values of a command's accumulators, in the order of their placements (R203). -/
def State.compute (s : State) (b : BlkId) (p : Par) (dual : Bool) (fence : Fence) (places : List Place) :
    State × List (WavId × Fill) × List Nat :=
  let tile := fun (n : Nat) => ((s.blk? b).bind (·.tile? n)).elim #[] Tile.values
  let A := tile (Par.aslot p)
  let B := tile (Par.bslot p)
  match matShape (Par.afmt p), places with
  | some (_, n, k), x :: rest =>
    let at' := fun (t : Array (Option Num)) (cols i j : Nat) => t.getD (i * cols + j) none
    let wide := Par.afmt p == .f64
    let r := s.drainPlace b x n fence (Par.zero p) fun i j acc =>
      accumulate wide k (fun q => at' A k i q) (fun q => at' B n q j) acc
    match dual, rest with
    | true, y :: _ =>
      let X0 := tile (Par.xt0 p)
      let X1 := tile (Par.xt1 p)
      let q := r.1.drainPlace b y k fence (Par.zero p) fun i j acc =>
        accumulate false 128 (fun d => if d < k then at' X0 k i d else at' X1 k i (d - k)) (fun d => at' A k d j) acc
      (q.1, r.2.1 ++ q.2.1, r.2.2 ++ q.2.2)
    | _, _ => r
  | _, _ => (s, [], [])

/-- Whether a matrix command that a wavelet issued has not completed (R328). -/
def State.matrixOut (s : State) (w : WavId) : Bool := (s.matrixOps w.block).any fun o => o.1.wid == w

/-- The status that a release of `mwait` takes: the block's failure report (R328, R205). -/
def State.mwaitWord (s : State) (w : WavId) : W32 :=
  let rep := match s.blk? w.block with | some k => k.fail.getD (0, 0) | none => (0, 0)
  BitVec.ofNat 32 (statusWord rep.1 rep.2)

/-- What a release of `mwait` shows: what had gone before the wavelet's completed commands (R173, R174). -/
def State.mwaitSeen (s : State) (w : WavId) : Clock := match s.wav? w with | some v => v.mseen | none => []

/-- The lanes of a wavelet that wait in `mwait` are released once its commands are done, and take the block's report
whole (R328, R205). -/
def State.releaseMwait (s : State) (w : WavId) : State :=
  match s.wav? w with
  | none => s
  | some v =>
    let waits := v.lanes.any fun x => match x.wait with | .mwait _ => true | _ => false
    if !waits || s.matrixOut w then s
    else
      let word := s.mwaitWord w
      (s.setWav w { v with lanes := v.lanes.map fun x => match x.wait with
        | .mwait d => (x.release s.steps d word .none).see v.mseen
        | _ => x }).modBlk w.block fun k => { k with fail := none }

/-- What had gone before the submission of a matrix command (R173). -/
def Op.sub (o : Op) : Clock := match o.work with | .matrix _ f _ => f.sub | _ => []

/-- A matrix command completes: its slots may become free, `mwait` may be released, the block may end. -/
def State.matrixDone (s : State) (o : Op) : State :=
  let s := s.modWav o.wid fun v => { v with mseen := Clock.join v.mseen o.sub }
  ((((s.dropOp o.id).freeUnused o.wid.block).releaseMwait o.wid).reap o.wid.span)

/-- Fill accumulators of a wavelet, for a command whose submission `sub` went before. -/
def State.drainRegs (s : State) (w : WavId) (fs : List Fill) (sub : Clock) : State :=
  (fs.foldl (fun s f => s.modLane w f.lane fun x => (x.drainReg f.reg f.val).arrive f.reg sub) s).modWav w (·.settle s.steps)

/-- Fill accumulators, all of a command together. -/
def State.fillAll (s : State) (fs : List (WavId × Fill)) (sub : Clock) : State :=
  (fs.map (·.1)).eraseDups.foldl (fun s w => s.drainRegs w ((fs.filter (·.1 == w)).map (·.2)) sub) s

/-- The fills of a cancelled command: the canonical quiet NaN (R205). -/
def nanFills (b : BlkId) (places : List Place) : List (WavId × Fill) :=
  (places.map fun p => (List.range p.size).map fun i =>
    let (wi, l, r) := p.pos i
    if p.regs == 2 then
      [(wavOf b wi, (⟨l, r, { bits := 0, tag := Ty.f64.tag }⟩ : Fill)), (wavOf b wi, ⟨l, r + 1, { bits := 0x7FF80000, tag := Ty.f64.tag }⟩)]
    else [(wavOf b wi, ⟨l, r, { bits := F32.qnan, tag := Ty.f32.tag }⟩)]).flatten.flatten

/-- The matrix command at the head of its block (R178), with its environment. -/
def State.matrixDue (s : State) (op : Nat) : Option (Op × Matrix × Fence × Bool × Env) :=
  match s.op? op with
  | none => none
  | some o => match (s.matrixOps o.wid.block), s.env? o.wid with
    | (h, m, fence, x) :: _, some e => if h.id == op then some (o, m, fence, x, e) else none
    | _, _ => none

/-- The placements of an issued command. -/
def State.placesOf (s : State) (e : Env) (m : Matrix) : List Place :=
  match m with
  | .mma dual p => (Par.places p dual e.blk.width (s.wavsOf e.wid.block).length).getD []
  | _ => []

/-- Complete a command as cancelled (R205). -/
def State.cancelDone (s : State) (o : Op) (e : Env) (m : Matrix) : State :=
  (s.fillAll (nanFills o.wid.block (s.placesOf e m)) o.sub).matrixDone o

/-- A command fails (R205): the failure is recorded, every later command of the block is cancelled. -/
def State.failMatrix (s : State) (o : Op) (e : Env) (m : Matrix) (cause : Nat) : State :=
  let later := ((s.matrixOps o.wid.block).filter fun x => x.1.id != o.id && !x.2.2.2)
  let s := later.foldl (fun s x => s.setOp x.1.id (.matrix x.2.1 x.2.2.1 true)) s
  (s.modBlk o.wid.block fun k => { k with fail := match k.fail with
    | some r => some (r.1, r.2 + 1 + later.length)
    | none => some (cause, 1 + later.length) }).cancelDone o e m

/-- The step up to which a fence orders writes to a block's scratchpad before a command: none orders another block's. -/
def Fence.scratch (f : Fence) (b : BlkId) : Nat := if b == f.wid.block then f.step else 0

/-- The caches on the reads of an `mld` (R161, R162): its memory rows alone, a sparse tile's index bytes, block scales, those of a second page
of a row too; `.t` reads along the column axis (R157). -/
def State.tileReach (s : State) (e : Env) (role n : Nat) (t : Ty) (tr : Bool) (a : W64) (pitch : Nat) : State :=
  let (rows, cols) := tileSize t role
  let kept := cols / 32 * (8 * (n + 1))
  let len := if role == 2 then kept else if tr then rows else cols
  let s := (List.range (if tr then cols else rows)).foldl (fun s i =>
    let r := a + BitVec.ofNat 64 (i * pitch)
    let s := s.engReach e r (Ty.memBytes t len) tr
    (List.range len).foldl (fun s j => match e.elemPage t.elemBits r j with
      | some (p, l, k) => if l.blk && (k % 32 == 0 || j == 0) then s.engReach e (BitVec.ofNat 64 (scaleVa p l k)) 1 else s
      | none => s) s) s
  if role == 2 then s.engReach e (a + BitVec.ofNat 64 (128 * pitch)) (rows * kept) else s

/-- The tile a command fills its slot with, or its cause; and the state that the reading leaves. -/
def State.tileOf (s : State) (e : Env) (m : Matrix) (fence : Fence) : Except Nat (Nat × Tile) × State :=
  match m with
  | .mld slot role n t tr a pitch _ =>
    let (_, cols) := tileSize t role
    let size := if role == 2 then 128 * pitch + 128 * (cols / 32 * (8 * (n + 1))) else (tileSize t role).1 * pitch + Ty.memBytes t cols
    let v := match e.scr a with
      | .ok (b, off) => s.viewScr b (fence.scratch b) (off / 16) (size / 16 + 1)
      | .error _ => s
    ((v.loadTile e role n t tr a pitch).map fun x => (slot, x), { s.tileReach e role n t tr a pitch with free := v.free })
  | .mconst slot role kind t b =>
    let off := b.toNat
    let v := if kind == 2 then s.viewScr e.wid.block (fence.scratch e.wid.block) (off / 16) ((tileSize t role).1 / 16 + 2) else s
    (.ok (slot, constTile t role kind b fun i => v.scrRead e.wid.block (off + i) 1), { s with free := v.free })
  | .mma .. => (.error eIll, s)

/-- A filled tile whose block scales hold a NaN sets SCALENAN in the lane that issued its `mld` (R99). -/
def State.noteScales (s : State) (w : WavId) (m : Matrix) (t : Tile) : State :=
  match m with
  | .mld _ _ _ _ _ _ _ l => if t.scales.any (·.any (0x7F ≤ ·)) then s.flagLanes w [l] stScaleNan else s
  | _ => s

/-- MLD_FILL (R199, R200): the head command of its block, an `mld` or `mconst`, fills its slot or fails. -/
def execMldFill (op : Nat) (s : State) : Res :=
  match s.matrixDue op with
  | some (o, .mma .., _, _, _) => let _ := o; .refused .notDue
  | some (o, m, fence, x, e) =>
    if x then .next (s.cancelDone o e m)
    else match s.tileOf e m fence with
      | (.error cause, t) => .next (t.failMatrix o e m cause)
      | (.ok (slot, tile), t) => .next (((t.modBlk o.wid.block (·.fill slot tile)).noteScales o.wid m tile).matrixDone o)
  | none => .refused .notDue

/-- MATRIX_DRAIN (R203, R204, R180): the max-magnitude update, then all accumulators together. -/
def execMatrixDrain (op : Nat) (s : State) : Res :=
  match s.matrixDue op with
  | some (o, .mma dual p, fence, x, e) =>
    let b := o.wid.block
    if x then .next (s.cancelDone o e (.mma dual p))
    else
      let (t, fills, ys) := s.compute b p dual fence (s.placesOf e (.mma dual p))
      let t := if Par.amxe p then t.modBlk b fun k =>
          let old := k.amax.getD (Par.amxi p) 0
          let new := amaxOf (Par.afmt p == .f64) ys
          { k with amax := listSet k.amax (Par.amxi p) (if F32.isNan old || F32.isNan new then F32.qnan else F32.max old new) }
        else t
      .next ((t.fillAll fills o.sub).matrixDone o)
  | _ => .refused .notDue

/-- MATRIX_COMMAND_FAIL (R205): the head command fails with the cause it meets; an accumulator read that R165 refuses
fails an `mma` or `mdual`. -/
def execMatrixCommandFail (op cause : Nat) (s : State) : Res :=
  match s.matrixDue op with
  | some (o, m, fence, false, e) =>
    match m with
    | .mma .. => if cause == eIntegrity then .next (s.failMatrix o e m cause) else .refused .notDue
    | _ => match s.tileOf e m fence with
      | (.error k, t) => if k == cause then .next (t.failMatrix o e m cause) else .refused .notDue
      | _ => .refused .notDue
  | _ => .refused .notDue

end Sys2Proof.Machine
end

