-- ==== Sys2Proof/Machine/Launch.lean ====
section
/-! DEFINITION. Launch records and tasks (R242-R246), the arbiter (R247), the region dependence unit (R248), the
dispatcher (R249, R245, R76), completion (R244, R264) and Pewter's calls (R242, R262, R263). -/

namespace Sys2Proof.Machine

/-! Launch records (R243). -/

abbrev Region := BitVec 256
def Region.base (r : Region) : Nat := natBits r.toNat 63 0
def Region.rows (r : Region) : Nat := natBits r.toNat 95 64
def Region.rowb (r : Region) : Nat := natBits r.toNat 127 96
def Region.pitch (r : Region) : Nat := natBits r.toNat 191 128
def Region.wr (r : Region) : Bool := r.getLsbD 192

/-- Whether a region descriptor is well formed. -/
def Region.ok (r : Region) : Bool :=
  natBits r.toNat 255 193 == 0 && 1 ≤ r.rows && r.base < 2 ^ 56 &&
  if r.pitch == 0 then r.rows == 1 else 1 ≤ r.rowb && r.base % r.pitch + r.rowb ≤ r.pitch

/-- Whether two regions conflict (R248); an empty range meets none. -/
def Region.conflicts (a b : Region) : Bool :=
  let meet := fun (x n y m : Nat) => decide (0 < n ∧ 0 < m ∧ x < y + m ∧ y < x + n)
  (a.wr || b.wr) &&
  if a.pitch == b.pitch && a.pitch != 0 then
    meet (a.base / a.pitch) a.rows (b.base / b.pitch) b.rows && meet (a.base % a.pitch) a.rowb (b.base % b.pitch) b.rowb
  else meet a.base ((a.rows - 1) * a.pitch + a.rowb) b.base ((b.rows - 1) * b.pitch + b.rowb)

/-- What the header and the declared regions show by themselves (R243, R242 test 1). -/
def Hdr.ok (h : Hdr) (rs : List Region) : Bool :=
  natBits h.toNat 511 338 == 0 && natBits h.toNat 311 305 == 0 && natBits h.toNat 255 248 == 0 &&
  (!h.pix || (1 ≤ h.iw && 1 ≤ h.tx && h.bsz % h.tx == 0)) && h.priv % 256 == 0 && h.priv ≤ 2 ^ 24 && h.nreg ≤ 4 &&
  1 ≤ h.span && h.span ≤ 8 && 1 ≤ h.bsz && h.bsz ≤ 1024 && 1 ≤ h.nblk && h.nblk ≤ 2 ^ 31 && h.nblk % h.span == 0 &&
  (h.sig == 0 || (isGlob h.sig && h.sig.toNat % 16 == 0)) && (rs.take h.nreg).all Region.ok

/-- The width a kernel is pinned to (R134, R20). -/
def Kern.pinned (k : Kern) : Option Nat :=
  match k.wid with | 1 => some 8 | 2 => some 16 | 3 => some 32 | 4 => some 64 | _ => none

/-- Bytes of a slice's main and tangent files that a wavelet takes (R249). -/
def Kern.mainBytes (k : Kern) (w : Nat) : Nat := k.regs * 4 * w
def Kern.tanBytes (k : Kern) (w : Nat) : Nat := k.tregs * k.stored * 4 * w

/-- Choose a slice for each of `n` wavelets, given the bytes used in each slice: the first with room; none where they do
not fit. -/
def pickSlices (k : Kern) (w : Nat) : Nat → List (Nat × Nat) → Option (List Nat)
  | 0, _ => some []
  | n + 1, used =>
    match used.findIdx? fun u => u.1 + k.mainBytes w ≤ Config.mainFileBytes && u.2 + k.tanBytes w ≤ Config.tangentFileBytes with
    | none => none
    | some i => (pickSlices k w n (listModify (fun u => (u.1 + k.mainBytes w, u.2 + k.tanBytes w)) used i)).map (i :: ·)

/-- Slices with nothing in them. -/
def emptySlices : List (Nat × Nat) := List.replicate Config.slices (0, 0)

/-- Whether one block fits an empty cluster at width 64 or its pinned width (R243, R249). -/
def Kern.fits (k : Kern) (bsz : Nat) : Bool :=
  let w := k.pinned.getD 64
  k.alloc ≤ Config.scratchBytes && (pickSlices k w ((bsz + w - 1) / w) emptySlices).isSome

/-- Whether SIG's page is mapped readable and writable (R243). -/
def Job.sigMapped (j : Job) (h : Hdr) : Bool :=
  h.sig == 0 || ((j.phys .load h.sig.toNat).isSome && (j.phys .store h.sig.toNat).isSome)

/-- Tasks of a queue that have not entered the region dependence unit. -/
def State.queued (s : State) (ctx qid : Nat) : List (Nat × Task) :=
  s.tasks.filter fun t => t.2.ctx == ctx && t.2.qid == qid && (t.2.stage == .queued || t.2.stage == .selected)

/-- The entry of the kernel whose record lies at an address (R19). -/
def Job.origin (j : Job) (krec : W64) : Origin := (Assoc.get? j.origins krec.toNat).getD {}

/-- Test a record and accept its task (R242, R245): the state and the test that failed, 0 for none: 1 malformed, 3 bad
QID, 4 kernel not loaded, 5 the block or SIG does not fit, 2 queue full. -/
def State.accept (s : State) (ctx : Nat) (h : Hdr) (rs : List Region) : State × Nat :=
  let j := s.job ctx
  if !Hdr.ok h rs then (s, 1)
  else match j.queues.find? (·.qid == h.qid) with
  | none => (s, 3)
  | some q => match Assoc.get? j.kernels h.krec.toNat with
    | none => (s, 4)
    | some k =>
      if !Kern.fits k h.bsz || !j.sigMapped h then (s, 5)
      else if q.cap ≤ (s.queued ctx h.qid).length then (s, 2)
      else
        let t : Task :=
          { ctx := ctx, qid := h.qid, hdr := h, regions := rs.take h.nreg, kern := k, origin := j.origin h.krec,
            grid := j.accepted % 2 ^ 32 }
        let s := s.setTask s.nextOp t
        ({ s with nextOp := s.nextOp + 1, jobs := Assoc.put s.jobs ctx { j with accepted := j.accepted + 1 } }, 0)

/-- Bytes of the region descriptors that a record declares, which alone are read (R243): none where NREG is out of range. -/
def regionBytes (h : Hdr) : Nat := if h.nreg ≤ 4 then 32 * h.nreg else 0

/-- The bytes of a record as header and regions. -/
def splitRecord (n : Nat) : Hdr × List Region :=
  (BitVec.ofNat 512 n, (List.range 4).map fun i => BitVec.ofNat 256 (n >>> (512 + 256 * i)))

/-! The arbiter (R247) and the region dependence unit (R248). -/

/-- The virtual functions that have turns: those that Pewter has set, and function 0, to which a process belongs that Pewter has
assigned to none (log 22), also where Pewter has not set it. -/
def State.vfIds (s : State) : List Nat :=
  let ids := s.vfs.map (·.id)
  if ids.contains 0 then ids else ids ++ [0]

/-- Virtual functions in the order in which they are served, the one in turn first. -/
def State.vfOrder (s : State) : List Nat :=
  (s.vfIds.dropWhile (· != s.turn)) ++ (s.vfIds.takeWhile (· != s.turn))

/-- The oldest ready task of a queue. -/
def State.readyIn (s : State) (ctx qid : Nat) : Option Nat :=
  (s.tasks.find? fun t => t.2.ctx == ctx && t.2.qid == qid && t.2.stage == .queued && t.2.cause == 0).map (·.1)

/-- A list turned so that it begins behind the first entry that meets a test. -/
def behind {α : Type} (p : α → Bool) (xs : List α) : List α :=
  match xs.findIdx? p with
  | some i => xs.drop (i + 1) ++ xs.take (i + 1)
  | none => xs

/-- The queue of a process that is served next (R247): the highest priority, round robin among equals in their order of
creation. -/
def State.pickQueue (s : State) (ctx : Nat) (j : Job) : Option (Queue × Nat) :=
  let ready := fun (qs : List Queue) => qs.filterMap fun q => (s.readyIn ctx q.qid).map fun t => (q, t)
  let top := ((ready j.queues).map (·.1.prio)).foldl max 0
  (ready (behind (fun (q : Queue) => some q.qid == Assoc.get? s.served (ctx, top)) j.queues)).find? (·.1.prio == top)

/-- Processes of a virtual function with a ready task. -/
def State.readyJobs (s : State) (vf : Nat) : List (Nat × Job) :=
  s.jobs.filter fun j => j.2.vf == vf && (s.pickQueue j.1 j.2).isSome

/-- The process of a virtual function that is served next, with the tasks it may have chosen before the next one's turn
(R247): deficit round robin, each task costing 1. -/
def State.pickJob (s : State) (vf : Nat) : Option (Nat × Nat) :=
  let ready := s.readyJobs vf
  let last := Assoc.get? s.lastJob vf
  match ready.find? fun j => some j.1 == last && j.2.deficit > 0 with
  | some j => some (j.1, j.2.deficit)
  | none =>
    let ring := behind (fun (j : Nat × Job) => some j.1 == last) (s.jobs.filter (·.2.vf == vf))
    (ring.find? fun j => ready.any (·.1 == j.1)).map fun j => (j.1, j.2.weight)

/-- Tasks in the region dependence unit. -/
def State.inUnit (s : State) : List (Nat × Task) := s.tasks.filter fun t => t.2.stage == .held || t.2.stage == .released

/-- Whether blocks of a task are left to be placed (R249, R253). -/
def Task.toPlace (t : Task) : Bool := t.stage == .released && t.cause == 0 && t.next < Hdr.nblk t.hdr

/-- Whether a virtual function has ready work (R247): a task that may enter the unit now, blocks of a released grid that are left to
be placed, or a saved span that is left to be restored. A task that is held, and one whose blocks are all placed, is none. That
what is left to be placed or restored counts, though the arbiter has chosen it, is the model's reading (log 22). -/
def State.hasWork (s : State) (vf : Nat) : Bool :=
  let mine := fun (ctx : Nat) => (s.job ctx).vf == vf
  (s.inUnit.length < Config.rduTasks && (!(s.readyJobs vf).isEmpty || s.tasks.any fun t => mine t.2.ctx && t.2.stage == .selected)) ||
    (s.tasks.any fun t => mine t.2.ctx && t.2.toPlace) || s.spans.any fun p => mine p.2.ctx && p.2.stage == .saved

/-- The slice of the virtual function in turn ends and the turn passes to `vf` (R247). The one that had it has received `time` of its
slice; where another has the turn now, its grace period begins, and that of `vf` is void. That function 0 has a grace period of 0
where Pewter has not set it is the model's choice (log 22). -/
def State.endSlice (s : State) (vf : Nat) (time : Vf → Nat) : State :=
  let vfs := s.vfs.map fun v => if v.id == s.turn then { v with time := v.time + time v } else v
  let now := (vfs.map (·.time)).foldl (· + ·) 0
  let old := now + ((vfs.find? (·.id == s.turn)).map (·.grace)).getD 0
  { s with turn := vf, vfs := vfs
           grace := if vf == s.turn then s.grace else s.grace.filter (fun g => g.1 != vf && g.1 != s.turn) ++ [(s.turn, old)] }

/-- The turn passes to a virtual function; the one that had it and gives up the rest of its slice has received part of it
(R247; how much is a time, log 8). -/
def State.passTurn (s : State) (vf : Nat) : State :=
  if vf == s.turn then s else let (k, s) := s.draw; s.endSlice vf fun v => k % (v.slice + 1)

/-- A virtual function without ready work gives up the rest of its slice to the next one that has some (R247). -/
def State.yieldTurn (s : State) : State :=
  if s.vfs.isEmpty || s.hasWork s.turn then s
  else match s.vfOrder.find? s.hasWork with
    | some v => s.passTurn v
    | none => s

/-- ARBITER_SELECT (R247): virtual function in turn, process by deficit round robin, queue by priority. -/
def execArbiterSelect (s : State) : Res :=
  if s.tasks.any (·.2.stage == .selected) then .refused .notDue
  else match s.vfOrder.find? fun v => s.hasWork v || !(s.readyJobs v).isEmpty with
  | none => .refused .notDue
  | some v => match s.pickJob v with
    | none => .refused .notDue
    | some (c, d) => match s.pickQueue c (s.job c) with
      | none => .refused .notDue
      | some (q, t) =>
        let s := (s.passTurn v).setJob c { s.job c with deficit := d - 1 }
        .next ({ s with served := Assoc.put s.served (c, q.prio) q.qid
                        lastJob := Assoc.put s.lastJob v c }.modTask t fun k => { k with stage := .selected })

/-- Whether a task conflicts with one that entered the unit before it (R248). -/
def State.heldBack (s : State) (t : Task) : Bool :=
  s.inUnit.any fun u => u.2.entry < t.entry && t.regions.any fun a => u.2.regions.any (Region.conflicts a)

/-- Whether a task may enter the unit now (R247). -/
def State.mayEnter (s : State) (t : Task) : Bool := t.stage == .selected && s.inUnit.length < Config.rduTasks

/-- RDU_ENTER (R248): the task that the arbiter chose enters, and is released or held. -/
def execRduEnter (task : Nat) (s : State) : Res :=
  match s.task? task with
  | some t =>
    if !s.mayEnter t then .refused .notDue
    else
      let t := { t with entry := s.nextOp }
      let t := { t with stage := if s.heldBack t then .held else .released }
      .next ({ s with nextOp := s.nextOp + 1 }.setTask task t)
  | none => .refused .notDue

/-- Release the held tasks that nothing holds back any more. -/
def State.releaseHeld (s : State) : State :=
  { s with tasks := s.tasks.map fun t =>
      if t.2.stage == .held && !s.heldBack t.2 then (t.1, { t.2 with stage := .released }) else t }

/-- Whether the virtual function in turn has a slice that can end: once Pewter has set one, each has, function 0 too (R40, log 22). -/
def State.sliced (s : State) : Bool := !s.vfs.isEmpty && s.vfIds.contains s.turn

/-- VF_SLICE_EXPIRY (R247): the turn passes to the next virtual function. -/
def execVfSliceExpiry (s : State) : Res :=
  if !s.sliced then .refused .notDue
  else match s.vfOrder with
    | _ :: next :: _ => .next (s.endSlice next (·.slice))
    | _ => .next (s.endSlice s.turn (·.slice))

/-! Pre-emption (R43, R44, R255). -/

/-- Ask a running span to stop (R43): wavelets at a boundary stop at once. -/
def State.stopSpan (s : State) (sp : Nat) : State :=
  let s := s.modSpan sp fun p => { p with stage := if p.stage == .running then .stopping else p.stage }
  let ws := s.wavs.map fun v => if v.1.span == sp && v.2.atBoundary then (v.1, { v.2 with stopped := true }) else v
  { s with wavs := ws, claims := s.claims.filter (·.2.1.span != sp) }.trySave sp

/-- PREEMPT_REQUEST (R43, R255). -/
def execPreemptRequest (span : Nat) (s : State) : Res :=
  match s.span? span with
  | some p => if p.stage == .running then .next (s.stopSpan span) else .refused .notDue
  | none => .refused .notDue

/-- The running spans of a virtual function. -/
def State.spansOf (s : State) (vf : Nat) : List (Nat × Span) :=
  s.spans.filter fun p => p.2.stage == .running && (s.job p.2.ctx).vf == vf

/-- The virtual function whose grace period ends next (R247): of those whose slice is over and that have running spans still, while
another one has ready work, the one whose grace period ends first. -/
def State.graceDue (s : State) : Option Nat :=
  let due := s.grace.filter fun g =>
    g.1 != s.turn && !(s.spansOf g.1).isEmpty && s.vfOrder.any fun v => v != g.1 && s.hasWork v
  match due with
  | [] => none
  | g :: gs => some (gs.foldl (fun a b => if b.2 < a.2 then b else a) g).1

/-- GRACE_PERIOD_EXPIRY (R247): the grace period of a virtual function whose slice is over has passed; its running spans are
pre-empted. -/
def execGracePeriodExpiry (s : State) : Res :=
  match s.graceDue with
  | none => .refused .notDue
  | some v => .next ((s.spansOf v).foldl (fun s p => s.stopSpan p.1) { s with grace := s.grace.filter (·.1 != v) })

/-! The dispatcher (R249). -/

/-- Whether a wavelet's registers are still allocated (R41). -/
def Wavelet.holdsRegs (v : Wavelet) : Bool :=
  !v.live.isEmpty || v.lanes.any fun x => x.regs.any fun r => !r.2.full

/-- Bytes used in each slice of a cluster. -/
def State.sliceUse (s : State) (cl : Nat) : List (Nat × Nat) :=
  s.wavs.foldl (fun acc v =>
    match s.env? v.1 with
    | some e =>
      if e.blk.at' == cl && e.span.stage != .saved && v.2.holdsRegs then
        listModify (fun u => (u.1 + Kern.mainBytes e.kern v.2.width, u.2 + Kern.tanBytes e.kern v.2.width)) acc v.2.slice
      else acc
    | none => acc) emptySlices

/-- Scratchpad bytes used in a cluster (R144, R42). -/
def State.scratchUse (s : State) (cl : Nat) : Nat :=
  (s.blocks.map fun b =>
    match s.task? b.2.task with
    | some t => if b.2.at' == cl && b.2.held && !s.savedBlk b.1 then Kern.alloc t.kern else 0
    | none => 0).foldl (· + ·) 0

/-- The slices for a block's wavelets on a cluster; none where the block does not fit. -/
def State.room (s : State) (k : Kern) (cl w n : Nat) : Option (List Nat) :=
  if s.scratchUse cl + k.alloc ≤ Config.scratchBytes then pickSlices k w n (s.sliceUse cl) else none

/-- Distinct clusters of one die (R249). -/
def oneDie (cls : List Nat) : Bool :=
  cls.eraseDups.length == cls.length && cls.all (· < Config.clusters) &&
  match cls with | [] => true | c :: _ => cls.all fun d => d / Config.clustersPerDie == c / Config.clustersPerDie

/-- The width at placement of a kernel with this entry (R18-R20). -/
def State.widthOf (s : State) (o : Origin) (k : Kern) : Nat :=
  match k.pinned with
  | some w => w
  | none =>
    let f : Int := (Assoc.get? s.div o).getD 4096
    if f ≥ 3072 then 64 else if f ≥ 2048 then 32 else if f ≥ 1024 then 16 else 8

/-- The launcher's pixel centre in a strand (R245, R76). That one which `f32` cannot hold is rounded to nearest is the model's
choice (log 22). -/
def pixelRegs (h : Hdr) (k : Kern) (b st : Nat) : List (Nat × Reg) :=
  let bx := (h.iw + h.tx - 1) / h.tx
  let x := h.tx * (b % bx) + st % h.tx
  let y := h.bsz / h.tx * (b / bx) + st / h.tx
  let tan := fun (r kind : Nat) => if r < k.tregs then
      trimTan ((List.range k.count).map fun i => if natBits k.kinds.toNat (4 * i + 3) (4 * i) == kind then F32.one else 0)
    else []
  let mid := fun (n : Nat) => F32.ofNum ((Num.ofNat n).add false (.fin false 1 (-1) false))
  [(0, { bits := mid x, tag := Ty.f32.tag, tan := tan 0 1 }), (1, { bits := mid y, tag := Ty.f32.tag, tan := tan 1 2 })]

/-- The start state of a wavelet (R245, R17). -/
def startWavelet (h : Hdr) (k : Kern) (w b i slice age : Nat) : Wavelet :=
  let ur := fun (n : Nat) (v : Nat) (t : Tag) (us : List (Nat × UReg)) => Sparse.put {} us n ⟨BitVec.ofNat 32 v, t⟩
  { width := w
    lanes := (List.range w).map fun l =>
      if i * w + l < h.bsz then
        { pc := k.entry, live := true, regs := if h.pix then pixelRegs h k b (i * w + l) else [] }
      else {}
    w := ur 0 h.args.toNat Tag.ptr (ur 1 (h.args.toNat / 2 ^ 32) Tag.ptr (ur 2 h.nblk Ty.n32.tag (ur 3 h.bsz Ty.n32.tag [])))
    slice := slice
    age := age }

/-- A slice that receives a wavelet is gated no more (R257). -/
def State.ungate (s : State) (cl sl : Nat) : State :=
  if (s.cluster cl).gated.contains sl then s.modCluster cl fun k => { k with gated := k.gated.filter (· != sl) } else s

/-- Place one block of a span. -/
def State.placeBlock (s : State) (task sp idx pos cl w : Nat) (t : Task) (slices : List Nat) : State :=
  let b : BlkId := ⟨sp, pos⟩
  let s := s.setBlk b { task := task, idx := idx, home := cl, at' := cl, width := w }
  slices.zipIdx.foldl (fun s (sl, i) =>
    (s.setWav ⟨sp, pos, i⟩ (startWavelet t.hdr t.kern w idx i sl s.steps)).ungate cl sl) s

/-- Whether a context's virtual function has the turn, or none is set (R247). -/
def State.inTurn (s : State) (ctx : Nat) : Bool := s.vfs.isEmpty || (s.job ctx).vf == s.turn

/-- The slices of the blocks of a task's next span on clusters of one die (R249); none where it may not be placed there. -/
def State.fitSpan (s : State) (t : Task) (clusters : List Nat) : Option (List (List Nat)) :=
  let w := s.widthOf t.origin t.kern
  if t.toPlace && clusters.length == Hdr.span t.hdr && oneDie clusters && s.inTurn t.ctx && !s.boot.held && s.idle == .active then
    clusters.mapM fun c => s.room t.kern c w ((Hdr.bsz t.hdr + w - 1) / w)
  else none

/-- DISPATCH_SPAN (R249): the next span of a released grid is placed whole, on the clusters that the dispatcher chose
(log 14). -/
def execDispatchSpan (task : Nat) (clusters : List Nat) (s : State) : Res :=
  match s.task? task with
  | none => .refused .notDue
  | some t => match s.fitSpan t clusters with
    | none => .refused .notDue
    | some slices =>
      let n := Hdr.span t.hdr
      let w := s.widthOf t.origin t.kern
      let sp := s.nextOp
      let s := { s with nextOp := sp + 1, spans := Assoc.put s.spans sp { task := task, ctx := t.ctx, blocks := n } }
      let s := s.setTask task { t with next := t.next + n }
      .next ((clusters.zip slices).zipIdx.foldl (fun s (p, i) => s.placeBlock task sp (t.next + i) i p.1 w t p.2) s)

/-- The slices of the blocks of a saved span on clusters of one die (R44, R255); none where it may not be restored there. -/
def State.fitSaved (s : State) (span : Nat) (clusters : List Nat) : Option (List (List Nat)) :=
  match s.span? span with
  | none => none
  | some p =>
    if p.stage == .saved && clusters.length == p.blocks && oneDie clusters && s.idle == .active then
      ((List.range p.blocks).zip clusters).mapM fun (i, c) =>
        match s.blk? ⟨span, i⟩, s.task? p.task with
        | some k, some t =>
          if k.slots.all fun n => (s.freeSlots c).contains n.1 then s.room t.kern c k.width (s.wavsOf ⟨span, i⟩).length else none
        | _, _ => none
    else none

/-- SPAN_RESTORE (R46, R255): a saved span goes on, on free clusters of one die. -/
def execSpanRestore (span : Nat) (clusters : List Nat) (s : State) : Res :=
  match s.fitSaved span clusters with
  | none => .refused .notDue
  | some slices =>
    let s := clusters.zipIdx.foldl (fun s (c, i) => s.modBlk ⟨span, i⟩ fun k => { k with at' := c }) s
    let s := s.modSpan span fun p => { p with stage := .running }
    let ws := s.wavs.map fun v =>
      if v.1.span != span then v
      else (v.1, { v.2 with stopped := false, slice := (slices.getD v.1.blk []).getD v.1.wid 0,
                            stall := match v.2.stall with | .fetch | .check | .claim => .none | k => k })
    let s := (clusters.zip slices).foldl (fun s p => p.2.foldl (fun s sl => s.ungate p.1 sl) s) { s with wavs := ws }
    .next (State.reclock s (s.ranked span))

/-- The first clusters of one die that a test accepts as a choice of `n` (the default order, log 2): each is tried alone, and
the first `n` of a die that pass. -/
def firstFit (n : Nat) (ok : Nat → Bool) : Option (List Nat) :=
  [0, 1].findSome? fun die =>
    let cs := (((List.range Config.clustersPerDie).map (die * Config.clustersPerDie + ·)).filter ok).take n
    if cs.length == n then some cs else none

/-- The placement that the default order gives a released task (log 2). -/
def State.dispatchTurn (s : State) (task : Nat) (t : Task) : Option Instr :=
  if !t.toPlace then none
  else
    let w := s.widthOf t.origin t.kern
    match firstFit (Hdr.span t.hdr) fun c => (s.room t.kern c w ((Hdr.bsz t.hdr + w - 1) / w)).isSome with
    | some cs => if (s.fitSpan t cs).isSome then some (.dispatchSpan task cs) else none
    | none => none

/-- The restoration that the default order gives a saved span of the function in turn (log 2). -/
def State.restoreTurn (s : State) (span : Nat) (p : Span) : Option Instr :=
  if p.stage != .saved || !s.inTurn p.ctx then none
  else
    let fits := fun (c : Nat) => (List.range p.blocks).all fun i => match s.blk? ⟨span, i⟩, s.task? p.task with
      | some k, some t => (k.slots.all fun n => (s.freeSlots c).contains n.1) &&
        (s.room t.kern c k.width (s.wavsOf ⟨span, i⟩).length).isSome
      | _, _ => false
    match firstFit p.blocks fits with
    | some cs => if (s.fitSaved span cs).isSome then some (.spanRestore span cs) else none
    | none => none

/-! Completion (R244). -/

/-- Whether a task has run to its end (R244). -/
def State.taskOver (s : State) (t : Nat) (k : Task) : Bool :=
  k.stage == .released && (k.cause != 0 || k.next == Hdr.nblk k.hdr) && s.spans.all (·.2.task != t)

/-- The count of a signal, where its page can be read and its unit passes its check. -/
def State.sigCount (s : State) (ctx : Nat) (sig : W64) : Option Nat :=
  match (s.job ctx).phys .load sig.toNat with
  | some a => if s.badAt a 8 then none else some (Sparse.readN s.mem a 8)
  | none => none

/-- Write a task's status word and add 1 to its count (R244). Into a unit that fails its check after its refetch nothing is
written (R166), and the fault is reported to the control program (R13). -/
def State.signal (s : State) (t : Task) : State :=
  let sig := Hdr.sig t.hdr
  match (s.job t.ctx).phys .atomic sig.toNat with
  | some a =>
    if sig == 0 then s
    else
      let s := s.touchJob t.ctx sig.toNat 16 none true
      if s.badAt a 16 then s.report (.notPassed a)
      else
        (s.memWrite (a + 8) 4 (statusWord t.cause t.ended)).memWrite a 8 ((Sparse.readN s.mem a 8 + 1) % 2 ^ 64)
  | none => s

/-- Whether a wait's count has been reached. -/
def State.reached (s : State) (ctx : Nat) (w : SigWait) : Bool :=
  match s.sigCount ctx w.sig with
  | some n => decide (w.count ≤ n)
  | none => false

/-- The calls of nx_signal_wait whose count has been reached, whatever raised it, return 0 (R242). -/
def State.pollWaits (s : State) : State :=
  { s with jobs := s.jobs.map fun j =>
      if j.2.waits.any (s.reached j.1) then
        (j.1, { j.2 with a0 := 0, waits := j.2.waits.filter fun w => !s.reached j.1 w })
      else j }

/-- Whether a queue has a task that is not complete. -/
def State.queueBusy (s : State) (ctx qid : Nat) : Bool :=
  s.tasks.any fun t => t.2.ctx == ctx && t.2.qid == qid && t.2.stage != .done

/-- The calls of nx_queue_destroy that wait return once their queues' tasks have completed (R242). -/
def State.closeQueues (s : State) (ctx : Nat) : State :=
  let j := s.job ctx
  let gone := j.closing.filter fun q => !s.queueBusy ctx q
  if gone.isEmpty then s
  else s.setJob ctx { j with a0 := 0, closing := j.closing.filter fun q => !gone.contains q,
                             queues := j.queues.filter fun q => !gone.contains q.qid }

/-- TASK_COMPLETE (R244, R264): status, count, the waits for it, dependences. -/
def execTaskComplete (task : TaskEnd) (s : State) : Res :=
  match s.task? task.task with
  | some t =>
    if s.taskOver task.task t then
      let s := ((s.mend task.copies).signal t).pollWaits
      .next (((s.modTask task.task fun t => { t with stage := .done }).releaseHeld).closeQueues t.ctx)
    else .refused .notDue
  | none => .refused .notDue

/-! Pewter's calls. The result stands in `a0` of the calling process (R242). -/

/-- Return a result to a process. -/
def State.ret0 (s : State) (ctx : Nat) (r : Int) : Res := .next (s.setJob ctx { s.job ctx with a0 := r })

/-- nx_queue_create: the handle is one that the process does not hold, chosen freely (log 4). -/
def execNxQueueCreate (ctx prio cap : Nat) (s : State) : Res :=
  let j := s.job ctx
  if prio > 7 || cap < 16 || cap > 65536 || cap != 2 ^ Nat.log2 cap then s.ret0 ctx (-1)
  else if Config.maxQueues ≤ j.queues.length then s.ret0 ctx (-2)
  else
    let (k, s) := s.draw
    let ids := (List.range (Config.maxQueues + 1)).map fun i => 1 + (k + i) % 65535
    match ids.find? fun q => j.queues.all (·.qid != q) with
    | some q => .next (s.setJob ctx { j with queues := j.queues ++ [⟨q, prio, cap⟩], a0 := q })
    | none => s.ret0 ctx (-2)

/-- nx_queue_destroy (R242): where tasks of the queue are not complete the call waits for them. -/
def execNxQueueDestroy (ctx qid : Nat) (s : State) : Res :=
  let j := s.job ctx
  if j.queues.all (·.qid != qid) then s.ret0 ctx (-1)
  else if s.queueBusy ctx qid then
    .next (s.setJob ctx { j with closing := if j.closing.contains qid then j.closing else j.closing ++ [qid] })
  else .next (s.setJob ctx { j with queues := j.queues.filter (·.qid != qid), a0 := 0 })

/-- What a read of a process's global memory finds. -/
inductive JobBytes where
  | ok (n : Nat)
  /-- Some byte is on no readable page. -/
  | absent
  /-- The physical address of a byte whose unit fails its check. -/
  | broken (pa : Nat)
  deriving DecidableEq, Repr

/-- The bytes at a global address that a process can read, where all of them are mapped and pass their check. -/
def State.jobRead (s : State) (ctx : Nat) (a : W64) (n : Nat) : JobBytes :=
  match (List.range n).mapM fun i => (s.job ctx).phys .load (a.toNat + i) with
  | none => .absent
  | some as => match as.find? fun p => s.badUnit (p / 64) with
    | some p => .broken p
    | none => .ok (joinBits 8 (as.map fun p => (Sparse.get 0 s.mem p).toNat))

/-- A launch record in a process's memory: its header, then the descriptors that it declares (R243). -/
def State.recordOf (s : State) (ctx : Nat) (at0 : W64) : JobBytes :=
  if !(isGlob at0 && at0.toNat % 64 == 0) then .absent
  else match s.jobRead ctx at0 64 with
  | .ok h => match s.jobRead ctx (at0 + 64) (regionBytes (BitVec.ofNat 512 h)) with
    | .ok rs => .ok (h + rs * 2 ^ 512)
    | x => x
  | x => x

/-- The LLC on Pewter's read of a launch record, up to the unit or the page that stops it (R162). -/
def State.recordReach (s : State) (ctx : Nat) (at0 : W64) : State :=
  let upTo := fun (n : Nat) => s.touchJob ctx at0.toNat n none false
  if !(isGlob at0 && at0.toNat % 64 == 0) then s
  else match s.jobRead ctx at0 64 with
  | .absent => s
  | .broken _ => upTo 64
  | .ok h =>
    let n := regionBytes (BitVec.ofNat 512 h)
    match s.jobRead ctx (at0 + 64) n with
    | .absent => upTo 64
    | .ok _ => upTo (64 + n)
    | .broken pa =>
      let bad := fun (i : Nat) => match (s.job ctx).phys .load (at0.toNat + i) with | some p => p / 64 == pa / 64 | none => false
      upTo (min (64 + n) (64 * (((List.range (64 + n)).find? bad).getD 0 / 64 + 1)))

/-- A launch, host access, link traffic or management request starts the exit from an idle state (R261). -/
def State.rouse (s : State) : State := if s.idle == .active then s else { s with exiting := true }

/-- nx_launch (R242, R243). A record in a unit that still fails its check after its refetch is not passed on: the fault is
reported to the control program (R13, log 16). -/
def execNxLaunch (ctx : Nat) (rec : CallRead) (s : State) : Res :=
  let s := s.mend rec.copies
  match s.recordOf ctx rec.at' with
  | .absent => (s.recordReach ctx rec.at').ret0 ctx (-1)
  | .broken pa => ((s.recordReach ctx rec.at').report (.notPassed pa)).ret0 ctx (-1)
  | .ok n =>
    let (h, rs) := splitRecord n
    let s := s.touchJob ctx rec.at'.toNat (64 + regionBytes h) none false
    let (t, k) := s.accept ctx h rs
    match k with
    | 0 => t.rouse.ret0 ctx 0
    | 3 => s.ret0 ctx (-3)
    | 4 => s.ret0 ctx (-4)
    | 2 => s.ret0 ctx (-2)
    | _ => s.ret0 ctx (-1)

/-- Pewter reads the count of a signal for a call: after the refetch of its unit, which is reported where it still fails its
check (R13, R165). -/
def State.readCount (s : State) (ctx : Nat) (sig : CallRead) : State :=
  let s := s.mend sig.copies
  match (s.job ctx).phys .load sig.at'.toNat with
  | some a =>
    let s := s.touchJob ctx sig.at'.toNat 8 none false
    if s.badAt a 8 then s.report (.notPassed a) else s
  | none => s

/-- nx_signal_wait: it returns 0 when the count is reached; else the call waits. A count in a unit that still fails its check
is not passed on. -/
def execNxSignalWait (ctx : Nat) (sig : CallRead) (count timeout : Nat) (s : State) : Res :=
  let s := s.readCount ctx sig
  let j := s.job ctx
  let w : SigWait := ⟨sig.at', count, timeout⟩
  if s.reached ctx w then .next (s.setJob ctx { j with a0 := 0, waits := j.waits.filter (· != w) })
  else .next (s.setJob ctx { j with waits := j.waits ++ [w] })

/-- SIGNAL_WAIT_TIMEOUT (R242): a wait with a timeout whose count is not reached returns −5. -/
def execSignalWaitTimeout (ctx : Nat) (sig : CallRead) (s : State) : Res :=
  let j := s.job ctx
  match j.waits.find? fun w => w.sig == sig.at' && w.timeout != 0 with
  | some w =>
    let s := s.readCount ctx sig
    .next (s.setJob ctx { s.job ctx with a0 := if s.reached ctx w then 0 else -5, waits := j.waits.erase w })
  | none => .refused .notDue

/-- What nx_vf_report tells (R242): of each virtual function the LLC charges of its processes and the time received. -/
def State.vfUse (s : State) : List (Nat × Nat × Nat) :=
  s.vfs.map fun v =>
    (v.id, ((s.jobs.filter (·.2.vf == v.id)).map fun j => Sparse.get 0 s.charges j.1).foldl (· + ·) 0, v.time)

/-- nx_vf_report (R242); the spec does not lay the bytes out (log 4). -/
def execNxVfReport (ctx : Nat) (buf : W64) (s : State) : Res :=
  let bs := Config.vfReport s.vfUse
  let j := s.job ctx
  let ctl := bs.zipIdx.foldl (fun m b => Sparse.put 0 m (buf.toNat + b.2) b.1) j.ctl
  .next (s.setJob ctx { j with ctl := ctl, a0 := bs.length })

/-! Kernel records and mappings that Pewter accepts. -/

/-- Whether a kernel record keeps the ranges and the zeros of R134 and the limit of R74; the loader refuses an object with one
that does not (the spec states no such test; log 16). That one whose ENTRY or TRAP is not a multiple of 4 is accepted, and
runs from there, is the model's choice too (log 16), and so is that PKND is not tested: kinds in fields of components at or above
K, and a kind that stands twice against R72, are accepted. -/
def Kern.ok (k : Kern) : Bool :=
  1 ≤ k.regs && k.regs ≤ 448 && k.tregs ≤ k.regs && k.tregs * k.stored ≤ 512 && k.count ≤ 8 && k.wid ≤ 4 && k.opm ≤ 16 &&
  natBits k.toNat 21 0 == 0 && natBits k.toNat 63 56 == 0

/-- Whether Pewter accepts a mapping in a context (R84, R102); code pages are readable and never writable (R117). A leaf that
R149 has the device treat as invalid maps nothing and is tested for nothing. -/
def Job.mapOk (j : Job) (m : Mapping) : Bool :=
  let l : Leaf := m.leaf
  let s := Ty.memBytes l.fmt 1
  let chunk := fun (need : Leaf → Bool) (a : Nat) => match j.page a with | some p => need p.2 | none => false
  let range := fun (need : Leaf → Bool) (a n : Nat) => (List.range ((n + 8191) / 8192)).all fun i => chunk need (a + 8192 * i)
  !l.valid || (isGlob m.va && m.va.toNat % l.size == 0 && (!l.x || (l.r && !l.w)) &&
    (l.tp == 0 || ([Ty.e4m3, .e5m2, .f16, .bf16, .f32, .f64].contains l.fmt && 2 * l.size / s ≤ l.stride &&
      (List.range l.tp).all fun i => range Leaf.w (m.va.toNat + (i + 1) * l.stride) (2 * l.size / s))) &&
    (!l.blk || ((l.fmt == .i4o || l.fmt == .e4m3 || l.fmt == .e5m2) && !(l.tp != 0 && l.fmt == .i4o) &&
      range (fun _ => true) (m.va.toNat + (l.tp + 1) * l.stride) (l.size * 8 / l.fmt.elemBits / 32))))

/-- Whether a leaf that is valid lies in memory that the device has (R4, R7): PBASE selects HBM or the second tier (R149), and the
host-memory pages of R184 are no others than those of the class 'copy of host memory' there (log 7, DEDUCED). -/
def State.backs (s : State) (l : Leaf) : Bool := !l.valid || s.has l.pbase l.size

/-- Change a context's page table, where Pewter accepts every mapping. -/
def State.mapPages (s : State) (ctx : Nat) (ms : List Mapping) : Option State :=
  let j := Job.map (s.job ctx) ms
  if ms.all fun m => j.mapOk m && s.backs m.leaf then some (s.setJob ctx j) else none

/-- The fault record of a kept trap context (R263). -/
def Kept.record (k : Kept) : Nat :=
  k.cause + k.epc.toNat * 2 ^ 64 + k.fmask.toNat * 2 ^ 128 + k.faddr.toNat * 2 ^ 192

/-- nx_task_fault (R262, R263); SIG 0 is no signal (R243), so it names no task. -/
def execNxTaskFault (ctx : Nat) (sig buf : W64) (s : State) : Res :=
  match (s.tasks.filter fun t => sig != 0 && t.2.ctx == ctx && Hdr.sig t.2.hdr == sig).getLast? with
  | none => s.ret0 ctx (-1)
  | some (_, t) =>
    if t.stage != .done then s.ret0 ctx (-6)
    else match t.kept with
    | none => s.ret0 ctx (-1)
    | some k =>
      let j := s.job ctx
      .next (s.setJob ctx { j with ctl := Sparse.writeN j.ctl buf.toNat 32 k.record, a0 := 0 })

end Sys2Proof.Machine
end

