-- ==== Sys2Proof/Machine/Fetch.lean ====
section
/-! DEFINITION. Fetching an instruction's bytes (R117, R252, R13) and the placing of a program for the host's questions
(log 5). -/

namespace Sys2Proof.Machine

/-- The physical address of an instruction byte: a page mapped executable (R117). -/
def Job.code (j : Job) (va : Nat) : Option Nat :=
  match j.page va with
  | some p => if Leaf.x p.2 && va < 2 ^ 56 then some (Leaf.pbase p.2 + (va - p.1)) else none
  | none => none

/-- The physical addresses of the 12 bytes at a PC, where all of them are mapped. -/
def Env.word (e : Env) (pc : W64) : Option (List Nat) := (List.range 12).mapM fun i => Job.code e.job (pc.toNat + i)

/-- Whether a mapped word lies in a unit that fails its check (R164, R165). -/
def State.wordFails (s : State) (e : Env) (pc : W64) : Bool :=
  match e.word pc with | some as => as.any fun a => s.badUnit (a / 64) | none => false

/-- The 12 bytes at a PC; none is a fetch fault (R252) or a unit that fails its check (R13). -/
def State.fetch (s : State) (e : Env) (pc : W64) : Option (List Byte) :=
  if s.wordFails e pc then none else (e.word pc).map fun as => as.map (Sparse.get 0 s.mem)

/-- The PC of a wavelet's bundle. -/
def Wavelet.pc (v : Wavelet) : W64 :=
  match v.run with
  | some r => match r.lanes.lanes 64 with | l :: _ => (v.lane l).pc | [] => r.start
  | none => 0

/-- A wavelet whose bundle may issue: the wavelet with its run begun (R22, R23). A run restored by `ret.x` waits for lanes
that its seal blocked (log 18). -/
def Wavelet.begin (v : Wavelet) : Option Wavelet :=
  if v.stopped then none
  else match v.stall with
  | .none | .empty => match v.run with
    | some r => if (r.lanes.lanes v.width).all fun l => (v.lane l).wait == .none then some v else none
    | none => v.startRun
  | _ => none

/-- Whether a wavelet issues next under the default order (log 2). -/
def Wavelet.due (v : Wavelet) : Bool := v.stall == .none && (Wavelet.begin v).isSome

/-- Time passes (log 8): the waits for signals see the counts as they are now (R242), and a virtual function without ready work gives
up its slice (R247). -/
def State.tick (s : State) : State := (State.pollWaits { s with steps := s.steps + 1 }).yieldTurn

/-- The whole-wavelet part of a step: begin a run where none is open, and look at the word at its PC. -/
inductive Look where
  /-- The wavelet cannot issue. -/
  | idle
  /-- The word cannot be fetched. -/
  | noWord (s : State)
  /-- The word raises E_ILL by itself; `m` is the bundle. -/
  | illegal (s : State) (m : Mask)
  | word (s : State) (i : Instr)

/-- The word at a PC is fetched through the LLC, for the wavelet's context, also where its unit then fails the check (R162, log
23). -/
def State.fetched (s : State) (e : Env) (w : WavId) (pc : W64) : State := s.touchJob e.task.ctx pc.toNat 12 (some w) false

/-- Prepare a wavelet's next instruction. -/
def State.look (s : State) (w : WavId) : Look :=
  match s.env? w with
  | none => .idle
  | some e =>
    match Wavelet.begin e.wav with
    | none => .idle
    | some v =>
      match s.fetch e (Wavelet.pc v) with
      | none =>
        let u := { s.setWav w v with cur := some w }
        .noWord (if s.wordFails e (Wavelet.pc v) then u.fetched e w (Wavelet.pc v) else u)
      | some bs =>
        let s := State.fetched { s.setWav w { v with retried := false } with cur := some w } e w (Wavelet.pc v)
        match decode bs with
        | .ok (i, _) => .word s i
        | .error _ => .illegal s (match v.run with | some r => r.lanes | none => 0)

/-! Placing a word for the host (log 5). -/

/-- Where the placed code lies, virtual and physical. -/
def placeVa : Nat := 0x10000
/-- The kernel record of the placed code: every resource at its limit, no handler. -/
def placeKern : Kern :=
  BitVec.ofNat 256 (placeVa * 2 ^ 128 + 65536 * 2 ^ 96 + 0x87654321 * 2 ^ 64 + 16 * 2 ^ 48 + 8 * 2 ^ 44 + 1 * 2 ^ 40 +
    64 * 2 ^ 31 + 448 * 2 ^ 22)
/-- The launch record header of the placed task: one block of 8 strands. -/
def placeHdr : Hdr := BitVec.ofNat 512 (1 * 2 ^ 192 + 8 * 2 ^ 224 + 1 * 2 ^ 240 + 4096 * 2 ^ 256 + 1 * 2 ^ 288)
/-- An 8 KiB executable page at the same physical address. -/
def placeLeaf : Leaf := BitVec.ofNat 128 (placeVa * 2 ^ 64 + 0xB)
def placeWav : WavId := ⟨1, 0, 0⟩
/-- A wavelet of 8 live lanes about to issue at the placed code. -/
def placeWavelet : Wavelet :=
  { width := 8, lanes := List.replicate 8 { pc := BitVec.ofNat 64 placeVa, live := true },
    run := some { start := BitVec.ofNat 64 placeVa, count := 0, lanes := 0xFF } }

/-- `s` with the bytes of a word where the wavelet `placeWav` issues next, and that wavelet first on the agenda. -/
def State.place (s : State) (n v : Nat) : State :=
  { s with
    mem := Sparse.writeN s.mem placeVa n v
    boot := { s.boot with held := false }
    jobs := Assoc.put s.jobs 1 { (s.job 1).map [⟨BitVec.ofNat 64 placeVa, placeLeaf⟩] with
      queues := [⟨1, 0, 16⟩], kernels := [(placeVa, placeKern)], accepted := 1 }
    tasks := Assoc.put s.tasks 1 { ctx := 1, qid := 1, hdr := placeHdr, regions := [], kern := placeKern, grid := 0,
                                   stage := .released, next := 1 }
    spans := Assoc.put s.spans 1 { task := 1, ctx := 1, blocks := 1 }
    blocks := Assoc.put s.blocks ⟨1, 0⟩ { task := 1, idx := 0, home := 0, at' := 0, width := 8 }
    wavs := Assoc.put s.wavs placeWav placeWavelet
    nextOp := max s.nextOp 2
    agenda := .run placeWav :: s.agenda }

end Sys2Proof.Machine
end

