-- ==== Sys2Proof/Machine/Elf.lean ====
section
/-! DEFINITION. The bytes of a code object read as a code object (R133-R136). The spec names the ELF format and the numbers of
its own that the file holds; the layout of the ELF header, the section headers, the symbols and the relocations is taken from
the ELF-64 format (PRESUMED, log 9). -/

namespace Sys2Proof

open Sys2Proof.Machine

/-- A little-endian number of `n` bytes at an offset; none past the end. -/
def leAt (bs : List Byte) (off n : Nat) : Option Nat :=
  let x := (bs.drop off).take n
  if x.length == n then some (joinBits 8 (x.map (·.toNat))) else none

/-- The bytes of a name, as a file holds it without its NUL. -/
def nameOf (bs : List Byte) (off : Nat) : List Byte := (bs.drop off).takeWhile (· != 0)

/-- A section header, with the section's bytes. -/
structure ElfSection where
  name  : Nat
  type  : Nat
  flags : Nat
  bytes : List Byte
  link  : Nat
  info  : Nat
  align : Nat
  deriving DecidableEq, Repr

/-- The section whose header lies at an offset; none where the header or its bytes pass the end of the file. -/
def elfSection (bs : List Byte) (off : Nat) : Option ElfSection := do
  let name ← leAt bs off 4
  let type ← leAt bs (off + 4) 4
  let flags ← leAt bs (off + 8) 8
  let start ← leAt bs (off + 24) 8
  let size ← leAt bs (off + 32) 8
  let link ← leAt bs (off + 40) 4
  let info ← leAt bs (off + 44) 4
  let align ← leAt bs (off + 48) 8
  let held := type != 0 && type != 8
  if held && bs.length < start + size then none
  else some ⟨name, type, flags, if held then (bs.drop start).take size else [], link, info, align⟩

/-- What a section is (R133), by its name; of the others those that hold program data are data. -/
def ElfSection.kind (x : ElfSection) (name : List Byte) : SecKind :=
  let is := fun (s : String) => name == s.toList.map fun c => BitVec.ofNat 8 c.toNat
  if is ".text" then .text
  else if is ".nx.kernels" then .kernels
  else if is ".note.nx" then .note
  else if x.type == 1 && x.flags / 2 % 2 == 1 then .data
  else .other

/-- The symbol at an offset of the symbol table. An undefined local one is the null symbol, whose value is 0. One of hidden or
internal visibility is exported to no other object, as ELF has it (PRESUMED, log 9); that one of a reserved section index other than
that of absolute symbols (a common symbol) makes the file no code object is the model's choice (log 9). -/
def elfSymbol (tab names : List Byte) (off : Nat) : Option Symbol := do
  let name ← leAt tab off 4
  let info ← leAt tab (off + 4) 1
  let other ← leAt tab (off + 5) 1
  let sec ← leAt tab (off + 6) 2
  let value ← leAt tab (off + 8) 8
  let bind := info / 16
  let val ← if sec == 0 then some (if bind == 2 then SymVal.weak else if bind == 1 then .extern else .absolute 0)
    else if sec == 0xFFF1 then some (.absolute (BitVec.ofNat 64 value))
    else if sec < 0xFF00 then some (.sec sec value)
    else none
  some ⟨nameOf names name, val, sec != 0 && (bind == 1 || bind == 2) && (other % 4 == 0 || other % 4 == 3), bind == 2⟩

/-- The relocation at an offset of a relocation table for a section. -/
def elfReloc (tab : List Byte) (sec off : Nat) : Option Reloc := do
  let place ← leAt tab off 8
  let kind ← leAt tab (off + 8) 4
  let sym ← leAt tab (off + 12) 4
  let addend ← leAt tab (off + 16) 8
  some ⟨kind, sec, place, sym, BitVec.ofNat 64 addend⟩

/-- The entries of a table of `n` bytes each; none where its size is no multiple of `n`. -/
def entries {α : Type} (tab : List Byte) (n : Nat) (read : Nat → Option α) : Option (List α) :=
  if tab.length % n == 0 then (List.range (tab.length / n)).mapM fun i => read (n * i) else none

/-- The sections of a file; none where its section table is no table of ELF-64 section headers. -/
def elfSections (bs : List Byte) : Option (List ElfSection) := do
  let off ← leAt bs 40 8
  let size ← leAt bs 58 2
  let n ← leAt bs 60 2
  if size == 64 then (List.range n).mapM fun i => elfSection bs (off + 64 * i) else none

/-- The symbols of a file, in its one symbol table. R133 lists that table and its names among an object's sections, and states no
test: that an object without them is accepted, and has no symbols, is the model's choice (log 9). -/
def elfSymbols (xs : List ElfSection) : Option (List Symbol) :=
  match xs.filter (·.type == 2) with
  | [] => some []
  | [x] => (xs[x.link]?).bind fun names => entries x.bytes 24 (elfSymbol x.bytes names.bytes)
  | _ => none

/-- The relocations of a file; ones without addends are none of R136's. -/
def elfRelocs (xs : List ElfSection) : Option (List Reloc) :=
  if xs.any (·.type == 9) then none
  else ((xs.filter (·.type == 4)).mapM fun x => entries x.bytes 24 (elfReloc x.bytes x.info)).map List.flatten

/-- The code object that bytes hold, each data section with its page request (R140); none where the bytes are no ELF file. -/
def readElf (bs : List Byte) (pages : List (Nat × PageReq)) : Option CodeObject := do
  let cls ← leAt bs 4 1
  let data ← leAt bs 5 1
  let type ← leAt bs 16 2
  let machine ← leAt bs 18 2
  let strs ← leAt bs 62 2
  let xs ← elfSections bs
  let names := ((xs[strs]?).map (·.bytes)).getD []
  let symbols ← elfSymbols xs
  let relocs ← elfRelocs xs
  if bs.take 4 != [0x7F, 0x45, 0x4C, 0x46] then none
  else some {
    cls := cls, data := data, type := type, machine := machine, symbols := symbols, relocs := relocs
    sections := xs.zipIdx.map fun x =>
      ⟨x.1.kind (nameOf names x.1.name), x.1.align, x.1.bytes, (Assoc.get? pages x.2).getD {}⟩ }

end Sys2Proof
end

