-- ==== Sys2Proof/Machine/Loader.lean ====
section
/-! DEFINITION. The loader (R262): the version note (R135), the tests of a code object (R133, R134), page requests (R140),
planes (R186) and relocations (R136). -/

namespace Sys2Proof

open Sys2Proof.Machine

/-- The descriptor of a note section's entry with the owner name and type of R135, searched entry by entry. -/
def noteDesc : Nat → List Byte → Option (BitVec 128)
  | 0, _ => none
  | n + 1, bs =>
    let word := fun (i : Nat) => joinBits 8 (((bs.drop (4 * i)).take 4).map (·.toNat))
    let pad := fun (k : Nat) => (k + 3) / 4 * 4
    let desc := (bs.drop (12 + pad (word 0))).take (word 1)
    if bs.length < 12 then none
    else if word 0 == 8 && word 1 == 16 && word 2 == 1 && desc.length == 16 &&
        ((bs.drop 12).take 8).map (·.toNat) == [0x5A, 0x77, 0x69, 0x70, 0x68, 0x6F, 0x72, 0] then
      some (BitVec.ofNat 128 (joinBits 8 (desc.map (·.toNat))))
    else noteDesc n (bs.drop (12 + pad (word 0) + pad (word 1)))

/-- The version note of an object (R135). That of several such notes the first, in the order of the section headers and of the
entries of a section, is the one that counts is the model's choice (log 9). -/
def CodeObject.note (o : CodeObject) : Option (BitVec 128) :=
  (o.sections.filter (·.kind == .note)).findSome? fun x => noteDesc x.bytes.length x.bytes

/-- Bytes that a relocation writes: into data, or the word whose immediate it fills (R136). -/
def Reloc.width (r : Reloc) : Nat := if r.kind == 1 then 8 else 12

/-- Whether a section is mapped. -/
def Section.mapped (x : Section) : Bool := match x.kind with | .text | .data | .kernels => true | .note | .other => false

/-- Whether a relocation is one of R136's at a place in a mapped section of its object. R136 fills the imm32 of an RI word, and
states no test: that NXREL_LO32 and NXREL_HI32 are accepted at any place of code that 12 bytes follow, no start of a word among
them, and over a word of any format, whose bits [63:46] and [15:0] they fill, is the model's choice (log 9). -/
def Reloc.ok (o : CodeObject) (r : Reloc) : Bool :=
  match o.sections[r.sec]?, o.symbols[r.sym]? with
  | some x, some _ => x.mapped && 1 ≤ r.kind && r.kind ≤ 3 && (r.kind == 1) == (x.kind != .text) && r.offset + r.width ≤ x.bytes.length
  | _, _ => false

/-- The kernel records of an object as its bytes give them, little-endian (R134). -/
def CodeObject.records (o : CodeObject) : List Kern :=
  match o.sections.find? (·.kind == .kernels) with
  | some x => (List.range (x.bytes.length / 32)).map fun i =>
      BitVec.ofNat 256 (joinBits 8 (((x.bytes.drop (32 * i)).take 32).map (·.toNat)))
  | none => []

/-- Whether an object is a valid code object (R133): its ELF header, its sections, their alignment, its relocations, and the
fields of its kernel records. That an NXREL_ABS64 over fields of a record other than ENTRY and TRAP is accepted, and that the
fields are tested as the file holds them, before relocation, and not after it, are the model's choices (log 9). A `.text` is a whole number
of instruction words of 12 bytes (R133). The model's choices too (log 9): an object with several sections named `.text` is accepted,
each tested alike; and a symbol in a section that the table lacks, or at an offset past the bytes that its section holds (so any
above 0 in a section without bytes in the file), makes the object no valid one, also where no relocation uses it. -/
def CodeObject.ok (o : CodeObject) : Bool :=
  o.cls == 2 && o.data == 1 && o.type == 1 && o.machine == 0x5A9 &&
  (o.sections.filter (·.kind == .kernels)).length == 1 && o.sections.any (·.kind == .text) &&
  (o.sections.all fun x => match x.kind with
    | .text => 1 ≤ x.align && x.align % 4 == 0 && x.bytes.length % 12 == 0
    | .kernels => x.bytes.length % 32 == 0
    | _ => true) &&
  (o.symbols.all fun y => match y.val with
    | .sec n off => match o.sections[n]? with | some x => off ≤ x.bytes.length | none => false
    | _ => true) &&
  o.relocs.all (Reloc.ok o) && o.records.all Kern.ok

/-- The attributes of a page request as a leaf that is readable and writable (R140, R149). -/
def PageReq.leaf (q : PageReq) (base : Nat) : Leaf :=
  let tp := match q.tp with | 2 => 1 | 4 => 2 | 8 => 3 | _ => 0
  BitVec.ofNat 128 (7 + q.size % 4 * 2 ^ 4 + q.ev % 4 * 2 ^ 6 + q.fmt.code * 2 ^ 8 + (if q.blk then 2 ^ 12 else 0) +
    tp * 2 ^ 13 + q.psc % 4 * 2 ^ 15 + (if q.cmp then 2 ^ 17 else 0) + q.icls % 4 * 2 ^ 18 + q.two / 32 % 2 ^ 12 * 2 ^ 20 +
    base * 2 ^ 64)

/-- Whether a request's values are ones that the leaf can hold (R140). -/
def PageReq.ok (q : PageReq) : Bool :=
  (q.tp == 0 || q.tp == 2 || q.tp == 4 || q.tp == 8) && q.psc ≤ 3 && q.two % 32 == 0 && q.two ≤ 131040 && q.ev ≤ 2 &&
  q.icls ≤ 2 && q.size ≤ 3

/-- The leaf of the pages of a section at a physical base: code is readable and executable, never writable (R117), data has
its request, the kernel records are read only (log 9). -/
def Section.leaf (x : Section) (base : Nat) : Leaf :=
  match x.kind with
  | .text => BitVec.ofNat 128 (0xB + base * 2 ^ 64)
  | .data => x.page.leaf base
  | _ => BitVec.ofNat 128 (0x3 + base * 2 ^ 64)

/-- Bytes of the pages of a section. -/
def Section.span (x : Section) : Nat :=
  let p := Leaf.size (x.leaf 0)
  (x.bytes.length + p - 1) / p * p

/-- Offsets from a section's start of the 8 KiB pages that hold its planes and scale plane, after it (R140, R84, R102). Where R84's
stride puts planes of two of its pages on the same bytes the spec states nothing: that they are accepted, and share those bytes, is
the model's choice (log 9). -/
def Section.planes (x : Section) : List Nat :=
  let l : Leaf := x.leaf 0
  let part := fun (a n : Nat) => (List.range ((a % 8192 + n + 8191) / 8192)).map fun i => a / 8192 * 8192 + 8192 * i
  ((List.range (x.span / l.size)).map fun j =>
    ((List.range l.tp).map fun i => part (j * l.size + (i + 1) * l.stride) (2 * l.size / Ty.memBytes l.fmt 1)).flatten ++
    if l.blk then part (j * l.size + (l.tp + 1) * l.stride) (l.size * 8 / l.fmt.elemBits / 32) else []).flatten.eraseDups

/-- The mappings of a section at its place: its own pages, then ordinary writable pages for its planes (R140, R186). The model's
choices (log 9): the pages of the planes lie in physical memory at the section's physical base plus their offset from its virtual
base, as its own pages do; and they have format `b32`, integrity class 0, no hint of eviction (EV 0) and no compression (CMP 0),
whatever the section's request says. -/
def Section.maps (x : Section) (p : SectionPlace) : List Mapping :=
  if !x.mapped then []
  else
    let n := (x.leaf 0).size
    ((List.range (x.span / n)).map fun j =>
      (⟨p.va + BitVec.ofNat 64 (j * n), x.leaf (p.pa + j * n)⟩ : Mapping)) ++
    x.planes.map fun o => ⟨p.va + BitVec.ofNat 64 o, BitVec.ofNat 128 (0x7 + (p.pa + o) * 2 ^ 64)⟩

/-- Whether Pewter can map a section wherever it places it: its request's values are ones that the leaf can hold, no plane
lies on the section's own pages, and R84 and R102 refuse none of its mappings. -/
def Section.layable (x : Section) : Bool :=
  !x.mapped || (x.page.ok && (x.planes.all fun o => x.span ≤ o) && (x.maps ⟨0, 0⟩).all (Job.map {} (x.maps ⟨0, 0⟩)).mapOk)

end Sys2Proof

namespace Sys2Proof.Machine

/-- Whether a place is one that Pewter may choose for a section (log 9): aligned, to the greater of the section's alignment and its
page size, where the file's alignment is taken as it stands, a power of two or not (the model's choice, log 9), its mappings in the global window and in
memory that the device has (R4, R7), at virtual addresses that nothing is mapped at and physical ones that no page of any process holds. -/
def State.placeOk (s : State) (ctx : Nat) (x : Section) (p : SectionPlace) : Bool :=
  !x.mapped || (p.va.toNat % max x.align (x.leaf 0).size == 0 && p.pa % (x.leaf 0).size == 0 && (x.maps p).all fun m =>
    let l : Leaf := m.leaf
    isGlob m.va && s.has l.pbase l.size &&
    (s.job ctx).pages.all (fun q => !(m.va.toNat < q.1 + Leaf.size q.2 && q.1 < m.va.toNat + l.size)) &&
    s.jobs.all fun j => j.2.pages.all fun q =>
      !(l.pbase < Leaf.pbase q.2 + Leaf.size q.2 && Leaf.pbase q.2 < l.pbase + l.size))

/-- Whether mappings share no address, virtual or physical (log 9). -/
def apart : List Mapping → Bool
  | [] => true
  | m :: ms =>
    let meets := fun (x n y k : Nat) => decide (x < y + k ∧ y < x + n)
    (ms.all fun q => !meets m.va.toNat (Leaf.size m.leaf) q.va.toNat (Leaf.size q.leaf) &&
      !meets (Leaf.pbase m.leaf) (Leaf.size m.leaf) (Leaf.pbase q.leaf) (Leaf.size q.leaf)) && apart ms

/-- Whether the places of an object's sections are ones that Pewter may choose together (log 9). -/
def State.placesOk (s : State) (ctx : Nat) (obj : CodeObject) (places : List SectionPlace) : Bool :=
  let xs := obj.sections.zip places
  places.length == obj.sections.length && (xs.all fun x => s.placeOk ctx x.1 x.2) &&
    apart (xs.map fun x => x.1.maps x.2).flatten

/-- Fill physical bytes with zeros. -/
def State.zeroPhys (s : State) (pa n : Nat) : State :=
  let inn := fun (a : Nat) => decide (pa ≤ a ∧ a < pa + n)
  { s with mem := s.mem.filter fun c => !inn c.1, checks := s.checks.filter fun c => !inn (64 * c.1) }

/-- The address of a symbol (R136): in a placed section, a value that no place changes, that which another loaded object
exports, or 0 for a weak one that none does; a weak definition, an absolute one too, gives way to a global one that a loaded object
exports, as ELF has it. -/
def Job.symbol (j : Job) (places : List SectionPlace) (y : Symbol) : W64 :=
  let other := Assoc.get? j.exports y.name
  match y.isWeak, other with
  | true, some (a, false) => a
  | _, _ => match y.val with
    | .extern | .weak => (other.map (·.1)).getD 0
    | .sec n off => ((places[n]?).map (·.va)).getD 0 + BitVec.ofNat 64 off
    | .absolute v => v

/-- A definition of an object enters the names that loaded objects export: a weak one replaces no global one, as ELF has it. That
of two of one binding the last loaded is the one that a later object meets is the model's choice (log 9). -/
def addExport (ex : List (List Byte × W64 × Bool)) (y : Symbol) (a : W64) : List (List Byte × W64 × Bool) :=
  match Assoc.get? ex y.name, y.isWeak with
  | some (_, false), true => ex
  | _, _ => Assoc.put ex y.name (a, y.isWeak)

/-- Whether the symbol of a relocation has no address: one that no loaded object exports and that one must, or one of a
section that is not mapped. -/
def Job.missing (j : Job) (o : CodeObject) (r : Reloc) : Bool :=
  match (o.symbols[r.sym]?).map (·.val) with
  | some SymVal.extern => ((o.symbols[r.sym]?).bind fun y => Assoc.get? j.exports y.name).isNone
  | some (SymVal.sec n _) => !((o.sections[n]?).map Section.mapped).getD false
  | _ => false

/-- Resolve a relocation (R136): the address into data, or a half of it into the imm32 of an RI word. -/
def State.relocate (s : State) (places : List SectionPlace) (r : Reloc) (a : W64) : State :=
  let pa := (places[r.sec]?.map (·.pa)).getD 0 + r.offset
  let v := (a + r.addend).toNat
  if r.kind == 1 then s.memWrite pa 8 v
  else
    let h := if r.kind == 2 then v % 2 ^ 32 else v / 2 ^ 32
    let word := Sparse.readN s.mem pa 12
    let kept := word - natBits word 63 46 * 2 ^ 46 - natBits word 15 0
    s.memWrite pa 12 (kept + h / 2 ^ 16 * 2 ^ 46 + h % 2 ^ 16)

/-- The check of R262 that refuses an object, if any, in R262's order. A page request that R84 or R102 has Pewter refuse, or
that cannot be laid out, and a symbol that no loaded object exports make an object no valid code object (log 9). The device
has every feature, so -11 never comes (R135). -/
def codeRefusal (j : Job) (o : CodeObject) : Option Int :=
  if !CodeObject.ok o || !(o.sections.all Section.layable) || o.relocs.any (j.missing o) then some (-13)
  else match CodeObject.note o with
  | none => some (-12)
  | some n =>
    if natBits n.toNat 127 72 != 0 || natBits n.toNat 63 33 != 0 then some (-12)
    else if natBits n.toNat 31 0 > Config.isaLevel && !n.getLsbD 32 then some (-10)
    else none

/-- Where an address lies in an object at its places, the object being number `n` (R19). -/
def originAt (n : Nat) (o : CodeObject) (places : List SectionPlace) (a : W64) : Origin :=
  let inside := fun (x : (Section × SectionPlace) × Nat) =>
    x.1.1.mapped && decide (x.1.2.va.toNat ≤ a.toNat ∧ a.toNat < x.1.2.va.toNat + x.1.1.bytes.length)
  match (o.sections.zip places).zipIdx.find? inside with
  | some x => ⟨n, some x.2, a.toNat - x.1.2.va.toNat⟩
  | none => ⟨n, none, a.toNat⟩

/-- The number of a code object among those loaded, where it stands once (R19). That two loads which read alike (header, sections with
their page requests, symbols, relocations) are of one code object, in one context or in two, is the model's choice (log 9). -/
def State.objectNo (s : State) (o : CodeObject) : Nat := s.objects.findIdx (· == o)

/-- The code object is among those loaded. -/
def State.enterObject (s : State) (o : CodeObject) : State :=
  if s.objects.contains o then s else { s with objects := s.objects ++ [o] }

/-- Map a code object at the places that Pewter chose (R262, R133-R136, R140, R186): pages, bytes, planes of zeros, relocations,
kernel records, their entries in the object (R19) and exports. -/
def State.mapObject (s : State) (ctx : Nat) (obj : CodeObject) (places : List SectionPlace) : State :=
  let j := s.job ctx
  let put := (obj.sections.zip places).filter (·.1.mapped)
  let s := s.setJob ctx (j.map (put.map fun x => x.1.maps x.2).flatten)
  let s := put.foldl (fun s x => (x.1.maps x.2).foldl (fun s m => s.zeroPhys (Leaf.pbase m.leaf) (Leaf.size m.leaf)) s) s
  let s := put.foldl (fun s x => s.memWrite x.2.pa x.1.bytes.length (joinBits 8 (x.1.bytes.map (·.toNat)))) s
  let addr := fun (k : Nat) => ((obj.symbols[k]?).map (j.symbol places)).getD 0
  let s := obj.relocs.foldl (fun s r => s.relocate places r (addr r.sym)) s
  let s := s.enterObject obj
  let j := s.job ctx
  match put.find? (·.1.kind == .kernels) with
  | none => s
  | some (x, p) =>
    let recs := (List.range (x.bytes.length / 32)).map fun i =>
      (p.va.toNat + 32 * i, (BitVec.ofNat 256 (Sparse.readN s.mem (p.pa + 32 * i) 32) : Kern))
    let ks := recs.foldl (fun ks r => Assoc.put ks r.1 r.2) j.kernels
    let os := recs.foldl (fun os r => Assoc.put os r.1 (originAt (s.objectNo obj) obj places (Kern.entry r.2))) j.origins
    let ex := (obj.symbols.zipIdx.filter (·.1.isGlobal)).foldl (fun ex y => addExport ex y.1 (addr y.2)) j.exports
    s.setJob ctx { j with kernels := ks, origins := os, exports := ex, a0 := p.va.toNat }

/-- nx_object_load (R262, R12): the object's bytes are read and checked, and it is mapped at the places that Pewter chose. -/
def execNxObjectLoad (ctx : Nat) (obj : PlacedObject) (s : State) : Res :=
  match readElf obj.bytes obj.pages with
  | none => s.ret0 ctx (-13)
  | some o => match codeRefusal (s.job ctx) o with
    | some r => s.ret0 ctx r
    | none => if s.placesOk ctx o obj.places then .next (s.mapObject ctx o obj.places) else .refused .notDue

end Sys2Proof.Machine
end

