-- ==== Sys2Proof/Machine/Control.lean ====
section
/-! DEFINITION. Control transfers, traps, the seal (R27, R28, R342), the barrier instructions (R30-R37, R273, R274),
system registers (R68, R307, R344), `sysc` (R352), `task` (R246) and `tstamp` (R260). -/

namespace Sys2Proof.Machine

/-! Transfers (R25, R120). -/

/-- The target of a direct transfer (R119). -/
def Ctx.target (c : Ctx) : W64 := c.pc + 12 * c.f.imm32.signExtend 64

/-- End a control or waiting instruction: its effect waits for the seal (R25). -/
def State.defer (s : State) (c : Ctx) (d : Deferred) : State := s.pass c true (some d)

/-- A direct transfer; a misaligned target, which only code that starts misaligned has (log 16), raises `E_ALIGN` (R120). -/
def Ctx.goto (c : Ctx) (s : State) : Res :=
  if !c.lanes.isEmpty && c.target.toNat % 4 != 0 then c.raise s eAlign (noAddr c.lanes)
  else .next (s.defer c (.goto (c.each fun _ => c.target)))

/-- Lanes whose indirect target is misaligned (R120). -/
def Ctx.skew (c : Ctx) : List Nat := c.lanes.filter fun l => (c.ptr c.f.a l).toNat % 4 != 0

/-- `bra` (R276). -/
def execBra (f : Fields) (s : State) : Res := meaning (.bra f) s fun c s => c.goto s
/-- `jmp` (R308). -/
def execJmp (f : Fields) (s : State) : Res := meaning (.jmp f) s fun c s => c.goto s
/-- `jmp.ind` (R308). -/
def execJmpInd (f : Fields) (s : State) : Res :=
  meaning (.jmpInd f) s fun c s =>
    if c.skew.isEmpty then .next (s.defer c (.goto (c.each (c.ptr f.a)))) else c.raise s eAlign (noAddr c.skew)

/-- Entries of a return stack (R280). -/
def stackDepth : Nat := 16

/-- Write the link, push it, and transfer at the seal (R279, R280). -/
def Ctx.link (c : Ctx) (s : State) (target : Nat → W64) : Res :=
  let full := c.lanes.filter fun l => stackDepth ≤ (c.lane l).stack.length
  if !full.isEmpty then c.raise s eSpace (noAddr full)
  else if c.lanes.any fun l => (target l).toNat % 4 != 0 then
    c.raise s eAlign (noAddr (c.lanes.filter fun l => (target l).toNat % 4 != 0))
  else
    let ret := c.pc + 24
    let vs := c.each fun _ => Val.ofTy .n64 ret.toNat
    let s := (s.putD c true vs).shiftAll c vs
    let s := c.lanes.foldl (fun s l => s.modLane c.wid l fun x => { x with stack := ret :: x.stack }) s
    .next (s.defer c (.goto (c.each target)))

/-- `call` (R279). -/
def execCall (f : Fields) (s : State) : Res :=
  meaning (.call f) s fun c s =>
    let full := c.lanes.filter fun l => stackDepth ≤ (c.lane l).stack.length
    if !full.isEmpty then c.raise s eSpace (noAddr full) else c.link s fun _ => c.target
/-- `call.ind` (R279). -/
def execCallInd (f : Fields) (s : State) : Res := meaning (.callInd f) s fun c s => c.link s (c.ptr f.a)

/-- `ret` (R337, R120). -/
def execRet (f : Fields) (s : State) : Res :=
  meaning (.ret f) s fun c s =>
    let none' := c.lanes.filter fun l => (c.lane l).stack.isEmpty
    let skew := c.lanes.filter fun l => ((c.lane l).stack.headD 0).toNat % 4 != 0
    if !none'.isEmpty then c.raise s eSpace (noAddr none')
    else if !skew.isEmpty then c.raise s eAlign (noAddr skew)
    else
      let s := c.lanes.foldl (fun s l => s.modLane c.wid l fun x => { x with stack := x.stack.drop 1 }) s
      .next (s.defer c (.goto (c.each fun l => (c.lane l).stack.headD 0)))

/-- `exit` (R303). -/
def execExit (f : Fields) (s : State) : Res :=
  meaning (.exit f) s fun c s => .next (s.defer c (.exit (Mask.ofLanes c.lanes)))

/-- `ret.x` and `ret.x.skip` (R338). -/
def Ctx.retX (c : Ctx) (s : State) (skip : Bool) : Res :=
  match c.env.wav.handler with
  | none => if c.lanes.isEmpty then .next (s.pass c true) else c.raise s eIll (noAddr c.lanes)
  | some h =>
    if c.env.wav.live.all fun l => !h.lanes.has l || c.lanes.contains l then .next (s.defer c (.retX skip))
    else c.raise s eIll (noAddr (if c.lanes.isEmpty then c.run.lanes.lanes c.env.wav.width else c.lanes))

/-- `ret.x` (R338). -/
def execRetX (f : Fields) (s : State) : Res := meaning (.retX f) s fun c s => c.retX s false
/-- `ret.x.skip` (R338). -/
def execRetXSkip (f : Fields) (s : State) : Res := meaning (.retXSkip f) s fun c s => c.retX s true

/-- `trap` (R356). -/
def execTrap (f : Fields) (s : State) : Res :=
  meaning (.trap f) s fun c s =>
    if c.lanes.isEmpty then .next (s.pass c) else c.raise s eTrap (c.each fun _ => f.imm.setWidth 64)

/-- `brk` (R278): to Pewter when a debugger is attached, else to the handler (R251); inside a handler it suspends the span as
any trap does there (R168). With a debugger attached the trap context is set and the wavelet stops: log 18. -/
def execBrk (f : Fields) (s : State) : Res :=
  meaning (.brk f) s fun c s =>
    if c.lanes.isEmpty then .next (s.pass c)
    else if c.env.job.debug && c.env.wav.handler.isNone then
      .next ((s.modWav c.wid fun v => { v.context eBrk c.pc (noAddr c.lanes) with stopped := true }).report (.fault c.wid))
    else c.raise s eBrk (noAddr c.lanes)

/-- `nop` (R330). -/
def execNop (f : Fields) (s : State) : Res := meaning (.nop f) s fun c s => .next (s.pass c)

/-! The seal. -/

/-- The divergence history entry of a kernel after a run (R19). -/
def State.history (s : State) (e : Env) (r : Run) : State :=
  match e.kern.pinned with
  | some _ => s
  | none =>
    let key := e.task.origin
    let f : Int := (Assoc.get? s.div key).getD 4096
    let n : Int := (4096 * (r.lanes.lanes e.wav.width).length / e.wav.width : Nat)
    { s with div := ((key, f + (n - f) / 16) :: s.div.filter (·.1 != key)).take Config.divEntries }

/-- Whether a lane that is about to block on an object need not (R274). -/
def Obj.passes (o : Obj) (t : W32) : Option W32 := if o.inv then some 1 else if o.released t then some 0 else none

/-- The lanes of `mwait` at the seal (R28, R328): where every matrix command of the wavelet has completed they are not blocked
and take the block's report at once (R205). -/
def State.passMwait (s : State) (w : WavId) (r : Run) : State × Run :=
  match r.deferred with
  | some (.wait ws) =>
    let waits := ws.any fun x => match x.2 with | .mwait _ => true | _ => false
    if !waits || s.matrixOut w then (s, r)
    else
      let word := s.mwaitWord w
      let ls := (ws.filter fun x => match x.2 with | .mwait _ => true | _ => false).map (·.1)
      ((ls.foldl (fun s l => s.modLane w l (·.see (s.mwaitSeen w))) s).modBlk w.block fun k => { k with fail := none },
        { r with deferred := some (.wait (ws.map fun x => match x.2 with | .mwait d => (x.1, .known d word) | _ => x)) })
  | _ => (s, r)

/-- The deferred effect in one lane, its PC already past the seal (R25, R28). -/
def Strand.deferred (s : State) (x : Strand) (l : Nat) : Option Deferred → Strand
  | none | some (.retX _) => x
  | some (.goto ts) => match Assoc.get? ts l with | some t => { x with pc := t } | none => x
  | some (.exit m) => if m.has l then { x with live := false, wait := .none } else x
  | some (.wait ws) => match Assoc.get? ws l with
    | some (.known d st) => x.release s.steps d st .none
    | some (.bar b off t d) => match (s.obj b off).passes t with
      | some st => (x.release s.steps d st .none).see (s.released b off st)
      | none => { x with wait := .bar b off t d }
    | some (.barwait b off t d) => match (s.obj b off).passes t with
      | some st => (x.release s.steps d st .none).see (s.released b off st)
      | none => { x with wait := .barwait b off t d }
    | some (.regs rs) => if rs.all fun r => (x.reg r).full then x.find s.steps rs else { x with wait := .regs rs }
    | some w => { x with wait := w }
    | none => x

/-- Block a lane of a seal on pending producers: W, or the named results (R28, R342); what it finds full it observes (R174). -/
def Strand.sealWait (x : Strand) (step : Nat) (w : Bool) (names : List Nat) : Strand :=
  if !x.live || x.wait != .none then x
  else if w then (if x.regs.all fun r => r.2.full then x.find step (x.arrived.map (·.1)) else { x with wait := .allRegs })
  else if names.all fun r => (x.reg r).full then x.find step names else { x with wait := .regs names }

/-- The deferred effect at a seal in each lane of the bundle, whose `o` and `q` are then invalid but for those that the return from a
handler restores (R25, R28, R168). -/
def Wavelet.applied (v : Wavelet) (s : State) (r : Run) (y : Bool) : Wavelet :=
  let lanes := v.lanes.zipIdx.map fun (x, l) =>
    if r.lanes.has l then { Strand.deferred s { x with pc := x.pc + 12 } l r.deferred with o := [], q := [] } else x
  let v := { v with lanes := lanes, run := none, pass := if y then some (r.start, r.lanes) else none,
                    stall := .none, replay := none, marks := [] }
  match r.deferred with
  | some (.retX skip) => v.retTrap skip
  | some (.exit m) => if m != 0 then { v with handler := none } else v
  | _ => v

/-- The wavelet after a seal (R28), before it may be stopped: the deferred effect first, the return from a handler with the accesses
that it abandons among it, then the wait for results in the lanes that it leaves unblocked. That Y has no effect at the seal after
`ret.x` or `ret.x.skip`, since the run that the return restores continues at once, is the model's choice (log 18). -/
def Wavelet.sealed (v : Wavelet) (s : State) (r : Run) (y w : Bool) (names : List Nat) : Wavelet :=
  let v := v.applied s r y
  { v with lanes := v.lanes.zipIdx.map fun (x, l) => if r.lanes.has l then x.sealWait s.steps w names else x }

/-- Objects that lanes of a wavelet are blocked on. -/
def Wavelet.objects (v : Wavelet) : List (BlkId × Nat) :=
  (v.lanes.filterMap fun x => match x.wait with
    | .bar b o _ _ | .barwait b o _ _ => some (b, o)
    | _ => none).eraseDups

/-- Show in memory the WT bits of the objects that a wavelet is blocked on (R31). -/
def State.showWt (s : State) (w : WavId) : State :=
  match s.wav? w with
  | some v => (Wavelet.objects v).foldl (fun s o => s.setObj o.1 o.2 (s.obj o.1 o.2)) s
  | none => s

/-- What follows a seal: WT bits, the end of the block (R41, R42), stopping for pre-emption (R43) or the
end of the grid (R253). A block whose last wavelet exits at its seal ends and counts, ended grid or not (R264). -/
def State.afterSeal (s : State) (e : Env) : State :=
  let w := e.wid
  (((s.showWt w).reap w.span).standAt w).sweep e.span.task

/-- `seal` (R27, R28, R342). -/
def execSeal (f : Fields) (y w : Bool) (s : State) : Res :=
  meaning (.seal f y w) s fun c s =>
    let names := Name.mains f.d 1 ++ Name.mains f.a 1 ++ Name.mains f.b 1
    let (s, r) := (s.history c.env c.run).passMwait c.wid c.run
    .next ((s.modWav c.wid fun v => v.sealed s r y w names).afterSeal c.env)

/-- `fwait` (R306). -/
def execFwait (f : Fields) (s : State) : Res :=
  meaning (.fwait f) s fun c s =>
    let rs := Name.mains f.a 1 ++ Name.mains f.b 1 ++ Name.mains f.c 1
    .next (s.defer c (.wait (c.each fun _ => .regs rs)))

/-! Barrier instructions. -/

/-- The cause a barrier address meets (R30). -/
def Env.barCause (e : Env) (a : W64) : Option Nat := match e.scr a with | .error c => some c | .ok _ => none

/-- The lanes with the objects they name, or the first address cause (R30, R146). -/
def Ctx.objs (c : Ctx) : Except (Nat × List (Nat × W64)) (List (Nat × BlkId × Nat)) :=
  match firstCause (c.each fun l => [(c.addr l, causes (c.env.barCause (c.addr l)) (c.addr l) 16)]) with
  | some x => .error x
  | none => .ok (c.lanes.filterMap fun l => match c.env.scr (c.addr l) with | .ok o => some (l, o) | .error _ => none)

/-- Whether a lane names its object through the span window (R30). -/
def Ctx.thruSpan (c : Ctx) (l : Nat) : Bool := match window (c.addr l) with | .span .. => true | _ => false

/-- Marked lanes with the addresses of their objects. -/
def Ctx.atObj (c : Ctx) (ls : List Nat) : List (Nat × W64) := ls.map fun l => (l, c.addr l)

/-- `bar` (R274, R34): the arrivals are made at issue. -/
def execBar (f : Fields) (s : State) : Res :=
  meaning (.bar f) s fun c s =>
    match c.objs with
    | .error (cause, hits) => c.raise s cause hits
    | .ok os =>
      let bad := s.refused os
      if !bad.isEmpty then c.raise s eBar (c.atObj bad)
      else
        let (s, ts) := s.arrivals c.wid os c.thruSpan
        let ws := os.map fun (l, b, off) => (l, match (Assoc.get? ts l).getD none with
          | some t => Wait.bar b off t f.d
          | none => .known f.d 1)
        .next ((s.defer c (.wait ws)).checkAll os)

/-- `bararr` (R34). -/
def execBararr (f : Fields) (s : State) : Res :=
  meaning (.bararr f) s fun c s =>
    match c.objs with
    | .error (cause, hits) => c.raise s cause hits
    | .ok os =>
      let bad := s.refused os
      if !bad.isEmpty then c.raise s eBar (c.atObj bad)
      else
        let (s, ts) := s.arrivals c.wid os c.thruSpan
        let s := s.checkAll os
        .next (s.finish c false (ts.map fun t => (t.1, Val.ofTy .n32 (t.2.getD 0xFFFFFFFF).toNat)))

/-- Write the reset values of an object (R31, R35). -/
def State.initObj (s : State) (b : BlkId) (off exp : Nat) : State :=
  State.modBlk (s.forget b off fun _ => true) b fun k =>
    let k := k.write (s.wt b) s.steps off 16 ((⟨0, 0, 0, 0, exp, false⟩ : Obj).toNat 0 false)
    { k with objs := if k.objs.contains (off / 16) then k.objs else k.objs ++ [off / 16]
             sync := k.sync.filter (·.1 != off / 16) }

/-- `barinit` (R35): the counts first, then the addresses (R30, R146), then the lanes' steps in order. -/
def execBarinit (f : Fields) (s : State) : Res :=
  meaning (.barinit f) s fun c s =>
    let held := if c.again then c.lanes else []
    let n := fun l => c.nat f.b .n32 l
    let bad := c.lanes.filter fun l => n l == 0 || n l > 8192
    if !bad.isEmpty then c.memRaise s [] eBar (noAddr bad) held
    else match c.objs with
      | .error (cause, hits) => c.memRaise s [] cause hits held
      | .ok os =>
        let (s, failed) := os.foldl (fun (acc : State × List Nat) (l, b, off) =>
          let o := acc.1.obj b off
          if acc.1.wt b (off / 16) || o.cnt != 0 || o.hld != 0 then (acc.1, acc.2 ++ [l])
          else (acc.1.initObj b off (n l), acc.2)) (s, [])
        if failed.isEmpty then .next (s.pass c)
        else .next (s.takeTrap c.wid eBar (c.atObj failed) { marked := some (Mask.ofLanes failed) })

/-- Invalidate an object (R36). -/
def State.invalidate (s : State) (b : BlkId) (off : Nat) : State :=
  let ops := s.ops.map fun (o : Op) => match o.work with
    | .bulk c => if c.bar == b && c.off == off && c.charged then { o with work := Work.bulk { c with inval := true } } else o
    | _ => o
  let s := ({ s with ops := ops }.releaseOn b off (fun _ => true) 1).forget b off fun _ => true
  s.setObj b off { s.obj b off with inv := true, arr := 0, hld := 0, cnt := 0 }

/-- `barinv` (R36). -/
def execBarinv (f : Fields) (s : State) : Res :=
  meaning (.barinv f) s fun c s =>
    match c.objs with
    | .error (cause, hits) => c.raise s cause hits
    | .ok os => .next ((os.foldl (fun s o => s.invalidate o.2.1 o.2.2) s).pass c)

/-- `barwait` (R34). -/
def execBarwait (f : Fields) (s : State) : Res :=
  meaning (.barwait f) s fun c s =>
    match c.objs with
    | .error (cause, hits) => c.raise s cause hits
    | .ok os =>
      let bad := (os.filter fun o => !(s.obj o.2.1 o.2.2).ok).map (·.1)
      if !bad.isEmpty then c.raise s eBar (c.atObj bad)
      else
        let t := fun l => (c.val f.b .n32 l).bits.setWidth 32
        let u := os.foldl (fun u (l, b, off) => match (s.obj b off).passes (t l) with
          | some st => u.modLane c.wid l (·.see (s.released b off st))
          | none => u) s
        .next (u.defer c (.wait (os.map fun (l, b, off) =>
          (l, match (s.obj b off).passes (t l) with
            | some st => Wait.known f.d st
            | none => .barwait b off (t l) f.d))))

/-! System registers. -/

/-- Sample the reference count, which never decreases (R260, log 8). -/
def State.sampleNow (s : State) : Nat × State :=
  let n := s.now + Config.elapsed s.steps
  (n, { s with now := n })

/-- The value of a system register in a lane (R68, R307); `sys.cyc` is read apart. -/
def State.sysReg (s : State) (e : Env) (l n : Nat) : Val :=
  let x := e.lane l
  let v := e.wav
  let w := fun (k : Nat) => Val.ofTy .n32 k
  match n with
  | 0x00 => w l
  | 0x01 => w v.width
  | 0x02 => w e.wid.wid
  | 0x03 => w e.blk.idx
  | 0x04 => w e.blk.home
  | 0x05 => w e.wid.blk
  | 0x06 => w e.task.grid
  | 0x07 => Val.ofTy .n64 x.pc.toNat
  | 0x09 => Val.ofTy .b32 x.status.toNat
  | 0x0A => Val.ofTy .b32 v.mode.toNat
  | 0x0B => w v.cause
  | 0x0C => Val.ofTy .n64 v.epc.toNat
  | 0x0D => Val.of x.faddr.toNat Tag.ptr
  | 0x0E => Val.ofTy .n64 v.fmask.toNat
  | 0x0F => w v.seed.toNat
  | 0x10 => w e.K
  | 0x11 => Val.ofTy .b32 ((Kern.kinds e.kern).toNat % 2 ^ (4 * e.K))
  | 0x12 => Val.ofTy .f32 v.alpha.toNat
  | 0x13 => w s.slope
  | 0x14 => w s.droop
  | 0x15 => Val.ofTy .b32 (v.req.toNat + 16 * ((s.cluster e.blk.at').eff.getD v.slice 0).toNat)
  | 0x16 => w e.task.ctx
  | 0x18 | 0x19 | 0x1A | 0x1B => Val.ofTy .n64 (e.blk.wptr.getD (n - 0x18) 0).toNat
  | 0x1C | 0x1D | 0x1E | 0x1F => Val.ofTy .f32 (e.blk.amax.getD (n - 0x1C) 0).toNat
  | _ => w 0

/-- Reading a write pointer observes the records whose bytes it counts (R174, R179). -/
def Ctx.seeWptr (c : Ctx) (s : State) (ch : Nat) : State :=
  let k := c.env.blk.wsync.getD ch []
  if k.isEmpty then s else c.lanes.foldl (fun s l => s.modLane c.wid l (·.see k)) s

/-- `getsr` (R307). -/
def execGetsr (f : Fields) (s : State) : Res :=
  meaning (.getsr f) s fun c s =>
    let n := f.sysReg
    let wide := ((sysRegTag n).getD .n32).wide
    let s := if 0x18 ≤ n && n ≤ 0x1B then c.seeWptr s (n - 0x18) else s
    if n == 0x08 then
      let (k, s) := s.sampleCyc c.env.blk.at'
      .next (s.finish c wide (c.each fun _ => Val.ofTy .n64 k))
    else .next (s.finish c wide (c.each fun l => s.sysReg c.env l n))

/-- Write a system register with the value of the lowest acting lane (R344, R68). -/
def Ctx.setsr (c : Ctx) (s : State) (t : Ty) (g : W32 → Wavelet → Wavelet) : Res :=
  match c.lanes with
  | [] => .next (s.pass c)
  | l :: _ => .next ((s.modWav c.wid (g ((c.val c.f.a t l).bits.setWidth 32))).pass c)

/-- `setsr sys.seed`, and `setsr` of a register that a kernel may not write: `E_PERM` (R344, R68). -/
def execSetsrSeed (f : Fields) (s : State) : Res :=
  meaning (.setsrSeed f) s fun c s =>
    if f.sysReg == 0x0F then c.setsr s .n32 fun x v => { v with seed := x }
    else if c.lanes.isEmpty then .next (s.pass c)
    else c.raise s ePerm (noAddr c.lanes)
/-- `setsr sys.mode` (R344, R69). -/
def execSetsrMode (f : Fields) (s : State) : Res :=
  meaning (.setsrMode f) s fun c s => c.setsr s .b32 fun x v => { v with mode := x.setWidth 3 }
/-- `setsr spl.alpha` (R344). -/
def execSetsrSplAlpha (f : Fields) (s : State) : Res :=
  meaning (.setsrSplAlpha f) s fun c s => c.setsr s .f32 fun x v => { v with alpha := x }
/-- `setsr pwr.ratio` (R344, R257). -/
def execSetsrPwrRatio (f : Fields) (s : State) : Res :=
  meaning (.setsrPwrRatio f) s fun c s => c.setsr s .b32 fun x v => { v with req := x.setWidth 2 }

/-- `tstamp` (R260). -/
def execTstamp (f : Fields) (s : State) : Res :=
  meaning (.tstamp f) s fun c s =>
    let (k, s) := s.sampleNow
    .next (s.finish c true (c.each fun _ => Val.ofTy .n64 k))

/-! `sysc` (R352). -/

/-- Stall until Pewter answers. -/
def Ctx.request (c : Ctx) (s : State) (version : Bool) : Res :=
  if c.lanes.isEmpty then .next (s.finish c true []) else .next (s.stallWith c.wid (.sysc version c.f))

/-- `sysc` PAGEIN. -/
def execSyscPagein (f : Fields) (s : State) : Res := meaning (.syscPagein f) s fun c s => c.request s false

/-- `sysc` ABORT: the span is suspended; A of the lowest lane is kept. -/
def execSyscAbort (f : Fields) (s : State) : Res :=
  meaning (.syscAbort f) s fun c s =>
    if c.lanes.isEmpty then .next (s.finish c true [])
    else
      let hits := c.each fun l => (c.val f.a .n64 l).bits
      .next ((s.modWav c.wid fun v => v.context eSysc c.pc hits).suspend c.wid (keptOf eSysc c.pc hits))

/-- `sysc` VERSION, and the reserved and undefined services: `E_SYSC`. -/
def execSyscVersion (f : Fields) (s : State) : Res :=
  meaning (.syscVersion f) s fun c s =>
    if f.imm == 3 || c.lanes.isEmpty then c.request s true else c.raise s eSysc (noAddr c.lanes)

/-- SYSC_ANSWER (R352): Pewter answers; for PAGEIN it maps pages and each lane learns whether its page is there. A D that
another wavelet's `mma` has marked empty since the issue is pending: the write raises `E_PENDWRITE` (R59). -/
def execSyscAnswer (w : WavId) (maps : List Mapping) (s : State) : Res :=
  match s.env? w with
  | some e => match e.wav.stall, e.wav.run with
    | .sysc version f, some r =>
      let ls := e.acting f.guard r
      let pending := ls.filter fun l => !((Name.mains f.d 2).all fun k => ((e.lane l).reg k).full)
      if !pending.isEmpty then .next (s.takeTrap w ePendwrite (noAddr pending))
      else match s.mapPages e.task.ctx (if version then [] else maps) with
      | none => .refused .notDue
      | some s =>
        let e := { e with job := s.job e.task.ctx }
        let c : Ctx := ⟨e, f, ls, r, Wavelet.pc e.wav, false⟩
        .next (s.finish c true (c.each fun l =>
          Val.ofTy .n64 (if version then 0x10001 else match window (c.val f.a .n64 l).bits with
            | .glob va => if (e.job.page va).isSome then 0 else 1
            | _ => 2)))
    | _, _ => .refused .notDue
  | none => .refused .notDue

/-! `task` (R246). -/

/-- A cause that the address of a launch record meets. -/
def Env.recCause (e : Env) (a : W64) : Option Nat :=
  match e.descCause a with
  | some c => some c
  | none => match e.scr a with
    | .ok (_, off) => if off + 192 > e.alloc then some eSpace else none
    | .error _ => none

/-- Where the parts of a record that are read lie, each within one unit, with their sizes: the header and the declared region
descriptors (R243); none is a page fault. A header that is not there, or whose unit fails its check, declares none. -/
def State.recParts (s : State) (e : Env) (l : Nat) (a : W64) : List (Option Spot × Nat) :=
  let at' := fun (i : Nat) => e.spot .load false (fun _ => 64) (a + BitVec.ofNat 64 (64 * i)) l
  (at' 0, 64) :: match at' 0 with
  | none => []
  | some sp =>
    if s.fails e .load false 64 sp l then []
    else
      let n := regionBytes (BitVec.ofNat 512 (s.readLoc e.wid l sp.loc 64))
      (List.range ((n + 63) / 64)).map fun i => (at' (i + 1), min 64 (n - 64 * i))

/-- The parts of a record, where all of them are there. -/
def State.recSpots (s : State) (e : Env) (l : Nat) (a : W64) : Option (List (Spot × Nat)) :=
  (s.recParts e l a).mapM fun p => p.1.map fun sp => (sp, p.2)

/-- The caches on the read of a lane's record, as far as it is there (R162). -/
def State.recReach (s : State) (e : Env) (l : Nat) (ps : List (Option Spot × Nat)) : State :=
  ((ps.map fun p => p.1.map fun sp => (sp, p.2)).takeWhile (·.isSome)).reduceOption.foldl (fun s q =>
    let ks := e.keys .load false q.2 l q.1
    if s.fails e .load false q.2 q.1 l then s.pastL1 e .load false {} q.1 ks else s.through e .load false {} q.1 ks) s

/-- The status of `task` for a test that failed. -/
def taskStatus : Nat → Nat | 0 => 0 | 2 => 1 | 3 => 3 | 4 => 4 | _ => 2

/-- Submit the records of the lanes in order. -/
def State.submitTasks (s : State) (e : Env) (ls : List (Nat × List (Spot × Nat))) : State × List (Nat × Val) :=
  ls.foldl (fun (acc : State × List (Nat × Val)) p =>
    let n := joinBits 512 (p.2.map fun sp => acc.1.readLoc e.wid p.1 sp.1.loc sp.2)
    let (h, rs) := splitRecord n
    let (s, k) := acc.1.accept e.task.ctx h rs
    (s, acc.2 ++ [(p.1, Val.ofTy .n32 (taskStatus k))])) (s, [])

/-- `task` (R246). -/
def execTask (f : Fields) (s : State) : Res :=
  meaning (.task f) s fun c s =>
    let e := c.env
    let a := fun l => c.ptr f.a l
    match firstCause (c.each fun l => [(a l, causes (e.recCause (a l)) (a l) 64)]) with
    | some (cause, hits) => c.raise s cause hits
    | none =>
      let at' := fun (l : Nat) => (l, a l)
      let spots := fun (l : Nat) => s.recSpots e l (a l)
      let faulted := (c.lanes.filter fun l => (spots l).isNone).map at'
      let units := fun (l : Nat) => match spots l with
        | some ps => (ps.map fun p => s.failing e .load false p.2 p.1 l).flatten
        | none => []
      let broken := (c.lanes.filter fun l => !(units l).isEmpty).map at'
      let fresh := broken.filter fun p => (units p.1).any fun u => !e.wav.tried.contains u
      let ps := c.lanes.filterMap fun l => (spots l).map fun p => (l, p)
      let s := c.lanes.foldl (fun t l => t.recReach e l (s.recParts e l (a l))) s
      if faulted.isEmpty && fresh.isEmpty && !broken.isEmpty then c.raise s eIntegrity broken
      else if !faulted.isEmpty || !fresh.isEmpty then
        .next (s.modWav c.wid fun v =>
          { v with stall := .fault true, faults := faulted, integ := fresh,
                   tried := v.tried ++ (fresh.map fun p => units p.1).flatten })
      else
        let (s, vs) := s.submitTasks e ps
        .next (s.finish c false vs)

end Sys2Proof.Machine
end

