-- ==== Sys2Proof/Machine/Events.lean ====
section
/-! DEFINITION. The device events that no instruction makes: waves (R256), faults and recovery (R151, R165, R252,
R254), leases (R171), clocks and power (R250, R257, R259, R261), the memory system (R149, R163, R164, R184), links
(R6-R8), boot (R10) and Pewter's settings. -/

namespace Sys2Proof.Machine

/-- BARRIER_WAKE_WAVE (R256): the next wave of the wavelets of a cluster that one release let go wakes. -/
def execBarrierWakeWave (rel : Release) (s : State) : Res :=
  match s.wave rel.cluster rel.phase with
  | [] => .refused .notDue
  | ws => .next (ws.foldl (fun s w => s.modWav w (·.wakeAll rel.phase)) s)

/-- Wavelets resident in a slice of a cluster. -/
def State.resident (s : State) (cluster slice : Nat) : List Wavelet :=
  s.wavs.filterMap fun v => match s.blk? v.1.block with
    | some k => if k.at' == cluster && !s.savedBlk v.1.block && v.2.slice == slice && !v.2.live.isEmpty then some v.2 else none
    | none => none

/-- PWR_RATIO_EFFECT (R257): a slice takes the fastest ratio that its wavelets ask for; one without a wavelet is gated (R4; when
is time, log 8). -/
def execPwrRatioEffect (cluster slice : Nat) (s : State) : Res :=
  match s.resident cluster slice with
  | [] =>
    if cluster < Config.clusters && slice < Config.slices && !(s.cluster cluster).gated.contains slice then
      .next (s.modCluster cluster fun k => { k with gated := k.gated ++ [slice] })
    else .refused .notDue
  | v :: vs =>
    let r := vs.foldl (fun m x => if x.req.toNat < m.toNat then x.req else m) v.req
    .next (s.modCluster cluster fun k => { k with eff := listSet k.eff slice r })

/-! Faults (R151, R165, R360, R252). -/

/-- A bundle whose faulted lanes are all answered goes on. -/
def Wavelet.resume (v : Wavelet) : Wavelet :=
  match v.stall with
  | .fault _ => if v.faults.isEmpty && v.integ.isEmpty then { v with stall := .none } else v
  | _ => v

/-- The private page that holds an offset is mapped (R66). -/
def Strand.mapPriv (x : Strand) (off : Nat) : Strand :=
  { x with absent := x.absent.filter fun p => !(p.1 ≤ off && off < p.1 + p.2) }

/-- Pewter maps the private pages that faulted lanes of a wavelet address (R66). -/
def State.mapPrivs (s : State) (w : WavId) (faults : List (Nat × W64)) : State :=
  faults.foldl (fun s f => match window f.2 with
    | .priv off => s.modLane w f.1 (·.mapPriv off)
    | _ => s) s

/-- FAULT_RESOLVE (R151): Pewter maps pages, the private ones that the faults name among them (R66); the faulted lanes are
performed again. -/
def execFaultResolve (w : WavId) (maps : List Mapping) (s : State) : Res :=
  match s.env? w with
  | some e => match e.wav.stall with
    | .fault _ =>
      if e.wav.faults.isEmpty then .refused .notDue
      else match s.mapPages e.task.ctx maps with
        | some s => .next ((s.mapPrivs w e.wav.faults).modWav w fun v => { v with faults := [] }.resume)
        | none => .refused .notDue
    | _ => .refused .notDue
  | none => .refused .notDue

/-- The lanes of a faulted instruction that `E_PAGE` does not mark and that are not performed: those whose units failed their
check, mended since or not (R360). -/
def Wavelet.heldBack (v : Wavelet) : Mask :=
  Mask.ofLanes (((v.replay.getD 0).lanes v.width ++ v.failing.map (·.1)).filter fun l => !(v.faults.map (·.1)).contains l)

/-- FAULT_DECLINE (R151, R360): the instruction raises `E_PAGE` in the faulted lanes; the others that are left are
held. -/
def execFaultDecline (w : WavId) (s : State) : Res :=
  match s.wav? w with
  | some v => match v.stall with
    | .fault whole =>
      if v.faults.isEmpty then .refused .notDue
      else
        let ls := v.faults.map (·.1)
        let mem : MemTrap := if whole then {} else
          { marked := some (Mask.ofLanes ls), held := v.heldBack
            abandon := v.marks }
        .next (s.takeTrap w ePage v.faults mem)
    | _ => .refused .notDue
  | none => .refused .notDue

/-- Work of an engine, which reads memory when its event comes. -/
def Work.engine : Work → Bool
  | .load _ | .atomic _ => false
  | _ => true

/-- INTEGRITY_REFETCH (R165): the copies that the refetch of failing units brings. The failed lanes are performed again, and
those whose units still fail raise `E_INTEGRITY`; a bundle that waits for its word issues it; a command of the wavelet finds
the units mended. -/
def execIntegrityRefetch (w : WavId) (copies : List GoodCopy) (s : State) : Res :=
  match s.wav? w with
  | some v =>
    let stalled := match v.stall with | .fault _ => !v.integ.isEmpty | _ => false
    if stalled then .next ((s.mend copies).modWav w fun v => { v with integ := [] }.resume)
    else if v.stall == .check then .next ((s.mend copies).modWav w fun v => { v with stall := .none, retried := true })
    else if s.ops.any fun o => o.wid == w && o.work.engine then .next (s.mend copies)
    else .refused .notDue
  | none => .refused .notDue

/-- FETCH_FAULT (R252, R13): the bundle waits for its instruction word, or for the refetch of its unit; a span that is to be
pre-empted stops there. A unit that the refetch did not mend raises `E_INTEGRITY` in the bundle, at the word's address (R251,
log 18). -/
def execFetchFault (w : WavId) (s : State) : Res :=
  match s.env? w with
  | some e => match Wavelet.begin e.wav with
    | some v =>
      let pc := Wavelet.pc v
      if (s.fetch e pc).isSome then .refused .notDue
      else if !s.wordFails e pc then .next ((s.setWav w { v with stall := .fetch }).standAt w)
      else if v.retried then
        .next ((s.setWav w v).takeTrap w eIntegrity ((match v.run with | some r => r.lanes.lanes v.width | none => []).map fun l => (l, pc)))
      else .next ((s.setWav w { v with stall := .check }).standAt w)
    | none => .refused .notDue
  | none => .refused .notDue

/-- FETCH_FAULT_RESOLVED (R252): Pewter supplies the page, or ends the grid with `E_FETCH`. -/
def execFetchFaultResolved (w : WavId) (map : Option Mapping) (s : State) : Res :=
  match s.env? w with
  | some e => match e.wav.stall, e.wav.run with
    | .fetch, some r =>
      match map with
      | some m => match s.mapPages e.task.ctx [m] with
        | some s => .next (s.modWav w fun v => { v with stall := .none })
        | none => .refused .notDue
      | none => .next (s.suspend w (keptOf eFetch (Wavelet.pc e.wav) ((r.lanes.lanes e.wav.width).map fun l => (l, Wavelet.pc e.wav))))
    | _, _ => .refused .notDue
  | none => .refused .notDue

/-- UNCORRECTABLE_STATE_ERROR (R254): the grid ends with `E_INTEGRITY`. -/
def execUncorrectableStateError (w : WavId) (s : State) : Res :=
  match s.wav? w with
  | some v =>
    .next (s.suspend w (keptOf eIntegrity v.epc ((v.fmask.lanes v.width).map fun l => (l, (v.lane l).faddr))))
  | none => .refused .notDue

/-- UNCORRECTABLE_ERROR_IN_FLIGHT (R254): the response is discarded and the work stays to be done. -/
def execUncorrectableErrorInFlight (op : Nat) (s : State) : Res :=
  match s.op? op with | some _ => .next s | none => .refused .notDue

/-- LEASE_EXPIRY (R171, R157): a cluster's lease of a line or sector ends. -/
def execLeaseExpiry (cluster : Nat) (key : LlcKey) (s : State) : Res :=
  if (s.cluster cluster).leases.contains key then
    .next (s.modCluster cluster fun k => { k with leases := k.leases.filter (· != key) })
  else .refused .notDue

/-! Clocks and power. -/

/-- The memory-issue limit of a score (R250). -/
def memLimit (score : Nat) : Option Nat :=
  if score < 64 then none else if score < 256 then some 8 else if score < 1024 then some 4 else some 2

/-- LOST_LOCALITY_WINDOW (R250): a window ends; its count is the score that sets the limit of the next. When windows end is
time (log 8). -/
def execLostLocalityWindow (cluster : Nat) (s : State) : Res :=
  if cluster < Config.clusters then
    .next (s.modCluster cluster fun k => { k with score := k.lost, lost := 0, limit := memLimit k.lost })
  else .refused .notDue

/-- DROOP_DETECT (R259): a fall beyond the threshold. -/
def execDroopDetect (cluster fall : Nat) (s : State) : Res :=
  if s.droop < fall then .next (s.modCluster cluster fun k => { k with stretch := 6, halve := 64 }) else .refused .notDue

/-- DROOP_STRETCH_END (R259). -/
def execDroopStretchEnd (cluster : Nat) (s : State) : Res :=
  if (s.cluster cluster).stretch != 0 then .next (s.modCluster cluster fun k => { k with stretch := 0 }) else .refused .notDue

/-- DROOP_HALVE_END (R259). -/
def execDroopHalveEnd (cluster : Nat) (s : State) : Res :=
  if (s.cluster cluster).halve != 0 then .next (s.modCluster cluster fun k => { k with halve := 0 }) else .refused .notDue

/-- The idle state of lowest power within a tolerance in nanoseconds (R261). -/
def idleFor (ns : Nat) : Idle :=
  if 500000 ≤ ns then .i3 else if 20000 ≤ ns then .i2 else if 2000 ≤ ns then .i1 else if 100 ≤ ns then .i0 else .active

/-- Whether the device has work (R261): a task that waits to be chosen, released or placed, or that is over; a span that is
saved; a wavelet that may issue or wakes; outstanding work of any kind, collectives among it. -/
def State.busy (s : State) : Bool :=
  (s.tasks.any fun t => t.2.stage == .queued || t.2.stage == .selected || t.2.stage == .held || s.taskOver t.1 t.2 ||
    t.2.toPlace) ||
  (s.spans.any (·.2.stage != .running)) || !s.ops.isEmpty ||
  s.wavs.any fun w => Wavelet.due w.2 || w.2.lanes.any fun x => match x.wait with | .wake _ => true | _ => false

/-- IDLE_ENTER (R261): an idle device; resident spans are saved first. -/
def execIdleEnter (s : State) : Res :=
  let i := idleFor (s.ltr.getD 10000)
  let t := s.spans.foldl (fun s p => s.stopSpan p.1) s
  if s.idle != .active || i == .active || s.busy || t.spans.any (·.2.stage != .saved) then .refused .notDue
  else .next { t with idle := i, exiting := false }

/-- IDLE_EXIT (R261): the exit that a launch, a host access, link traffic or a management request started is done. -/
def execIdleExit (s : State) : Res :=
  if s.idle != .active && s.exiting then .next { s with idle := .active, exiting := false } else .refused .notDue

/-- LATENCY_TOLERANCE_REPORT (R261): the host reports through its port, which must be up (R6); an idle device takes the state of
lowest power that the new tolerance allows; where it allows none, the exit starts. -/
def execLatencyToleranceReport (ns : Nat) (s : State) : Res :=
  let up := s.host.up
  let s := { s with ltr := some ns }
  if !up then .refused .notDue
  else if s.idle == .active then .next s
  else if idleFor ns == .active then .next { s with exiting := true }
  else .next { s with idle := idleFor ns }

/-- PWR_LIMITS_SET (R256, R259). -/
def execPwrLimitsSet (slope droop : Nat) (s : State) : Res :=
  if 64 ≤ slope && slope ≤ 1536 && 10 ≤ droop && droop ≤ 200 then .next { s.rouse with slope := slope, droop := droop }
  else .refused .notDue

/-- ARBITER_PARAMETERS_SET (R247, R258). -/
def execArbiterParametersSet (vf slice grace : Nat) (weights : List (Nat × Nat)) (boost : List (Nat × Bool)) (s : State) : Res :=
  let inRange := vf < 16 && 1 ≤ slice && slice ≤ 65535 && grace ≤ 1000 && weights.all fun w => 1 ≤ w.2 && w.2 ≤ 255
  if !inRange then .refused .notDue
  else
    let old := s.vfs.find? (·.id == vf)
    let v : Vf := { id := vf, slice := slice, grace := grace, time := (old.map (·.time)).getD 0 }
    let s := { s with vfs := if old.isSome then s.vfs.map fun (x : Vf) => if x.id == vf then v else x else s.vfs ++ [v] }
    let s := weights.foldl (fun s w => s.setJob w.1 { s.job w.1 with vf := vf, weight := w.2 }) s
    .next (boost.foldl (fun s b => s.setJob b.1 { s.job b.1 with boost := b.2 }) s.rouse)

/-! The memory system. -/

/-- Copy a range of physical memory with its check values. -/
def State.copyPhys (s : State) (src dst n : Nat) : State :=
  let inn := fun (a b : Nat) => decide (b ≤ a ∧ a < b + n)
  let us := s.checks.filter fun c => inn (64 * c.1) src
  { s with
    mem := (s.mem.filter fun c => inn c.1 src).foldl (fun m c => Sparse.put 0 m (c.1 - src + dst) c.2)
      (s.mem.filter fun c => !inn c.1 dst)
    checks := (s.checks.filter fun c => !inn (64 * c.1) dst) ++ us.map fun c => ((64 * c.1 - src + dst) / 64, c.2) }

/-- A valid leaf that lies in a moved range points to the new place. -/
def Leaf.moved (l : Leaf) (src dst n : Nat) : Leaf :=
  if l.valid && src ≤ l.pbase && l.pbase < src + n then
    l - BitVec.ofNat 128 (l.pbase * 2 ^ 64) + BitVec.ofNat 128 ((l.pbase - src + dst) * 2 ^ 64)
  else l

/-- PAGE_MIGRATE (R163): the page's bytes are copied and every leaf of the range points to the copy. No other page may lie
partly in the range; the target must be aligned, unused, and in memory that the device has (R4, R7). -/
def execPageMigrate (ctx : Nat) (va : W64) (base : Nat) (s : State) : Res :=
  match (s.job ctx).page va.toNat with
  | none => .refused .notDue
  | some (_, l) =>
    let n := Leaf.size l
    let src := Leaf.pbase l
    let used := s.jobs.any fun j => j.2.pages.any fun p =>
      Leaf.valid p.2 && Leaf.pbase p.2 < base + n && base < Leaf.pbase p.2 + Leaf.size p.2
    let across := s.jobs.any fun j => j.2.pages.any fun p =>
      Leaf.valid p.2 && Leaf.pbase p.2 < src + n && src < Leaf.pbase p.2 + Leaf.size p.2 &&
        !(src ≤ Leaf.pbase p.2 && Leaf.pbase p.2 + Leaf.size p.2 ≤ src + n)
    if base % n != 0 || !s.has base n || used || across then .refused .notDue
    else
      let s := s.copyPhys src base n
      .next { s with jobs := s.jobs.map fun j =>
        (j.1, { j.2 with pages := j.2.pages.map fun p => (p.1, Leaf.moved p.2 src base n) }) }

/-- Pewter unmaps a private page of a strand, or maps it again where the leaf is valid (R66, R150). -/
def Strand.changePriv (x : Strand) (off size : Nat) (valid : Bool) : Strand :=
  let out := x.absent.filter fun p => !(off < p.1 + p.2 && p.1 < off + size)
  { x with absent := if valid then out else out ++ [(off, size)] }

/-- PAGE_TABLE_CHANGE (R150): one leaf; mappings that R84, R102 and R117 refuse are not made. With a strand, the address is in
its private window, and the page that holds it is unmapped, or mapped again (R66). -/
def execPageTableChange (ctx : Nat) (change : PageChange) (s : State) : Res :=
  match change.strand, window change.map.va with
  | none, .glob _ => match s.mapPages ctx [change.map] with
    | some s => .next s
    | none => .refused .notDue
  | some (w, l), .priv off =>
    let leaf : Leaf := change.map.leaf
    match s.env? w with
    | some e =>
      if e.task.ctx == ctx && l < e.wav.width && off % leaf.size == 0 then
        .next (s.modLane w l (·.changePriv off leaf.size leaf.valid))
      else .refused .notDue
    | none => .refused .notDue
  | _, _ => .refused .notDue

/-- DATA_ENTRY_CRC (R164): a unit of 64 bytes enters the device and takes its check value: from the host, through its port (R6),
or from the fabric or the storage on it, through a Floeb port that has negotiated (R8). -/
def execDataEntryCrc (unit : Nat) (bytes : List Byte) (s : State) : Res :=
  if bytes.length == 64 && s.has (64 * unit) 64 && (s.host.up || !s.floeb.isEmpty) then
    .next (s.rouse.memWrite (64 * unit) 64 (joinBits 8 (bytes.map (·.toNat))))
  else .refused .notDue

/-- HOST_READ (R164, R165, R10, log 14): bytes leave at an exit. Failing units are refetched; bytes that still fail are
stopped there and reported. The host reads through its port while that is up (R6), and the fabric, and the storage on it, take bytes
through a Floeb port that has negotiated (R8). Another host reads the second tier alone, and only where it may be shared (R7); a request for the
identity certificate is answered with it by Pewter, which runs once the image is taken (R10). -/
def execHostRead (addr : Nat) (read : HostBytes) (s : State) : Res :=
  if read.via == .identity then
    if s.boot.held then .refused .notDue else .next (s.rouse.report (.certificate s.otp.cert))
  else if (read.via == .host && !s.host.up) || ((read.via == .fabric || read.via == .storage) && s.floeb.isEmpty) then .refused .notDue
  else if read.via == .otherHost && !(s.tier.shared && s.inTier addr read.n) then .refused .notDue
  else if !s.has addr read.n then .fault .noMemory
  else
    let s := s.rouse.mend read.copies
    if read.n != 0 && s.badAt addr read.n then .next (s.report (.exitStopped read.via addr)) else .next s

/-- CONTROL_CORE_ACCESS (R184, R166): a store that reaches the LLC; it writes nothing where it would cover part of a
unit that fails its check after the refetch. -/
def execControlCoreAccess (addr : Nat) (store : CoreBytes) (s : State) : Res :=
  let n := store.bytes.length
  let here := s.has addr n
  let s := if here then s.mend store.copies else s
  let part := fun (u : Nat) => !(addr ≤ 64 * u && 64 * u + 64 ≤ addr + n)
  if !here then .fault .noMemory
  else if n != 0 && (List.range ((addr + n - 1) / 64 + 1 - addr / 64)).any fun i => part (addr / 64 + i) && s.badUnit (addr / 64 + i) then
    .next (s.report (.notPassed addr))
  else .next (s.memWrite addr n (joinBits 8 (store.bytes.map (·.toNat))))

/-- LINE_MODE_SWITCH (R160). The spec does not say what becomes of the lines that the mode holds at half their size when it is
switched off: that they keep half a way until they are evicted is the model's choice (log 23). -/
def execLineModeSwitch (on : Bool) (s : State) : Res := .next { s.rouse with lineMode := on }

/-- CORRECTED_ERROR (R13): counted and reported. -/
def execCorrectedError (store : Nat) (s : State) : Res :=
  .next ({ s with corrected := s.corrected + 1 }.report (.corrected store))

/-! Links. -/

/-- The width a link trains to (R6): the widest that the other end offers and whose lanes pass training; a link with a good
lane comes up at x1 whatever widths are offered, for only where no single lane passes does the port stay down. -/
def linkWidth (widths : List Nat) (goodLanes : Nat) : Option Nat :=
  match [16, 8, 4, 2, 1].find? fun w => widths.contains w && w ≤ goodLanes with
  | some w => some w
  | none => if 1 ≤ goodLanes then some 1 else none

/-- HOST_LINK_TRAIN (R6): the highest generation that both ends support, of PCIe 5.0 to 7.0; the widest common width; the CXL
features of the host's version, at most 3.x. That a host without CXL 2.0 or 3.x links with no CXL features, version 0, is the
model's choice (log 14). -/
def execHostLinkTrain (hostGen hostCxl : Nat) (widths : List Nat) (goodLanes : Nat) (s : State) : Res :=
  if hostGen < 5 then .refused .notDue
  else match linkWidth widths goodLanes with
  | some w =>
    .next { s with host := { up := true, gen := min Config.pcieGen hostGen, width := w,
                             cxl := if hostCxl < 2 then 0 else min 3 hostCxl } }
  | none => .next ({ s with host := {} }.report .hostDown)

/-- FLOEB_NEGOTIATE (R8). -/
def execFloebNegotiate (port partnerGen : Nat) (s : State) : Res :=
  if port < 18 && (partnerGen == 1 || partnerGen == 2) then .next { s.rouse with floeb := Assoc.put s.floeb port partnerGen }
  else .refused .notDue

/-- FLIT_RESEND (R8): programs see nothing of it. -/
def execFlitResend (port : Nat) (s : State) : Res :=
  match Assoc.get? s.floeb port with
  | some _ => .next { s.rouse with resent := s.resent + 1 }
  | none => .refused .notDue

/-- CXL_ROOT_PORT_TRAIN (R7): on the TVD9-P the Type 3 device behind the port, of CXL 2.0 or 3.x, becomes the second tier; one
of CXL 2.0 cannot be shared with another host. R7 names a port of width x16 and the bandwidth of the trained link; that it may
train narrower, as the host port does, and that its PCIe generation is 7 whatever the device, are the model's choices (log
14), and so is that one device at a time stands behind the port, and that the device of a later training replaces the tier. A device
does not take away memory that a leaf maps. -/
def execCxlRootPortTrain (dev : CxlDevice) (width : Nat) (s : State) : Res :=
  let l : Link := { up := true, gen := Config.pcieGen, width := width, cxl := dev.version }
  let t := { s with cxl := l, tier := { bytes := dev.bytes, shared := l.full3 } }
  if !s.otp.isModule && (dev.version == 2 || dev.version == 3) && [16, 8, 4, 2, 1].contains width &&
      s.jobs.all fun j => j.2.pages.all fun p => t.backs p.2 then .next t
  else .refused .notDue

/-! Boot (R10). -/

/-- BOOT_RESET: the device is reset; the ROM begins to fetch the image. Fuses keep their values; the TVD9-P has no second
tier until its root port has trained (R7). -/
def execBootReset (s : State) : Res :=
  .next { State.reset with steps := s.steps, agenda := s.agenda, free := s.free, otp := s.otp
                           tier := if s.otp.isModule then State.reset.tier else {} }

/-- Whether the ROM is fetching. -/
def Boot.fetching (b : Boot) : Bool := b.image.isNone && !b.waiting

/-- One fetch attempt fails, is reported, and the other source is next; after a full round the ROM waits. -/
def State.bootFailOnce (s : State) (why : BootFail) : State :=
  let b := s.boot
  let failed := b.failed ++ [b.src]
  let next : Source := match b.src with | .port => .fabric | .fabric => .port
  let round := failed.contains .port && failed.contains .fabric
  let b := if round then { b with failed := failed, waiting := true, wait := if b.wait == 0 then 1 else min (2 * b.wait) 60, src := next }
    else { b with failed := failed, src := next }
  { s with boot := b }.report (.boot s.boot.src (some why))

/-- A fetch attempt fails. A fabric source without a target counts as a failed attempt at once and is skipped, so that the ROM
fetches from the management port alone. -/
def State.bootFail (s : State) (why : BootFail) : State :=
  let t := s.bootFailOnce why
  if t.boot.src == .fabric && !t.otp.fabric then t.bootFailOnce .noTarget else t

/-- IMAGE_FETCH_COMPLETE: the image is tested, that of the fabric storage target, which sits behind a Floeb port that has
negotiated (R8); one that verifies is held in the protected region and ends the boot. Which
reason is reported of an image that fails several tests the spec does not state: the first of signature, version and form is
the model's choice (log 14). -/
def execImageFetchComplete (img : BootImage) (s : State) : Res :=
  if !s.boot.fetching || (s.boot.src == .fabric && s.floeb.isEmpty) then .refused .notDue
  else if !img.sigOk then .next (s.bootFail .signature)
  else if img.version < s.otp.minVer then .next (s.bootFail .version)
  else if img.forModule != s.otp.isModule then .next (s.bootFail .form)
  else .next ({ s with boot := { s.boot with image := some (img.version, img.bytes), held := false } }.report (.boot s.boot.src none))

/-- DHCP_TIMEOUT: of the management port. -/
def execDhcpTimeout (s : State) : Res :=
  if s.boot.fetching && s.boot.src == .port then .next (s.bootFail .noOffer) else .refused .notDue

/-- SOURCE_TIMEOUT. -/
def execSourceTimeout (s : State) : Res :=
  if s.boot.fetching then .next (s.bootFail .noAnswer) else .refused .notDue

/-- TRANSFER_BREAK. -/
def execTransferBreak (s : State) : Res :=
  if s.boot.fetching then .next (s.bootFail .broken) else .refused .notDue

/-- BOOT_RETRY_WAIT_EXPIRY: the next round begins. -/
def execBootRetryWaitExpiry (s : State) : Res :=
  if s.boot.waiting then .next { s with boot := { s.boot with waiting := false, failed := [] } } else .refused .notDue

end Sys2Proof.Machine
end

