-- ==== Sys2Proof/Machine/Dispatch.lean ====
section
/-! DEFINITION. One arm per instruction, each a direct call of its meaning. -/

namespace Sys2Proof.Machine

def exec (i : Instr) (s : State) : Host.Outcome State Fault Refusal :=
  match i with
  | .abs f => Sys2Proof.Machine.execAbs f s
  | .neg f => Sys2Proof.Machine.execNeg f s
  | .add f => Sys2Proof.Machine.execAdd f s
  | .sub f => Sys2Proof.Machine.execSub f s
  | .addc f => Sys2Proof.Machine.execAddc f s
  | .div f => Sys2Proof.Machine.execDiv f s
  | .rem f => Sys2Proof.Machine.execRem f s
  | .dot2 f => Sys2Proof.Machine.execDot2 f s
  | .dot4 f => Sys2Proof.Machine.execDot4 f s
  | .fma f => Sys2Proof.Machine.execFma f s
  | .frnd f => Sys2Proof.Machine.execFrnd f s
  | .max f => Sys2Proof.Machine.execMax f s
  | .min f => Sys2Proof.Machine.execMin f s
  | .mul f => Sys2Proof.Machine.execMul f s
  | .mul24 f => Sys2Proof.Machine.execMul24 f s
  | .mulhi f => Sys2Proof.Machine.execMulhi f s
  | .and f => Sys2Proof.Machine.execAnd f s
  | .or f => Sys2Proof.Machine.execOr f s
  | .xor f => Sys2Proof.Machine.execXor f s
  | .not f => Sys2Proof.Machine.execNot f s
  | .bfe f => Sys2Proof.Machine.execBfe f s
  | .bfi f => Sys2Proof.Machine.execBfi f s
  | .brev f => Sys2Proof.Machine.execBrev f s
  | .clz f => Sys2Proof.Machine.execClz f s
  | .popc f => Sys2Proof.Machine.execPopc f s
  | .mov f => Sys2Proof.Machine.execMov f s
  | .sel f => Sys2Proof.Machine.execSel f s
  | .movi f => Sys2Proof.Machine.execMovi f s
  | .rotL f => Sys2Proof.Machine.execRotL f s
  | .rotR f => Sys2Proof.Machine.execRotR f s
  | .shl f => Sys2Proof.Machine.execShl f s
  | .shr f => Sys2Proof.Machine.execShr f s
  | .sra f => Sys2Proof.Machine.execSra f s
  | .cmp f cond => Sys2Proof.Machine.execCmp f cond s
  | .matchKey f => Sys2Proof.Machine.execMatchKey f s
  | .plog f op => Sys2Proof.Machine.execPlog f op s
  | .voteAll f => Sys2Proof.Machine.execVoteAll f s
  | .voteAny f => Sys2Proof.Machine.execVoteAny f s
  | .voteBallot f => Sys2Proof.Machine.execVoteBallot f s
  | .cvt f => Sys2Proof.Machine.execCvt f s
  | .cvtblkEnc f => Sys2Proof.Machine.execCvtblkEnc f s
  | .cvtblkDec f => Sys2Proof.Machine.execCvtblkDec f s
  | .pack4 f => Sys2Proof.Machine.execPack4 f s
  | .unpk4 f => Sys2Proof.Machine.execUnpk4 f s
  | .cos f => Sys2Proof.Machine.execCos f s
  | .sin f => Sys2Proof.Machine.execSin f s
  | .ex2 f => Sys2Proof.Machine.execEx2 f s
  | .lg2 f => Sys2Proof.Machine.execLg2 f s
  | .rsq f => Sys2Proof.Machine.execRsq f s
  | .rcp f => Sys2Proof.Machine.execRcp f s
  | .sqrt f => Sys2Proof.Machine.execSqrt f s
  | .tev f => Sys2Proof.Machine.execTev f s
  | .tget f => Sys2Proof.Machine.execTget f s
  | .tset f => Sys2Proof.Machine.execTset f s
  | .tzero f => Sys2Proof.Machine.execTzero f s
  | .laneRank f => Sys2Proof.Machine.execLaneRank f s
  | .laneBack f => Sys2Proof.Machine.execLaneBack f s
  | .laneFwd f => Sys2Proof.Machine.execLaneFwd f s
  | .laneMate f => Sys2Proof.Machine.execLaneMate f s
  | .lred f op => Sys2Proof.Machine.execLred f op s
  | .lscan f op ex => Sys2Proof.Machine.execLscan f op ex s
  | .ld f => Sys2Proof.Machine.execLd f s
  | .st f => Sys2Proof.Machine.execSt f s
  | .spc f => Sys2Proof.Machine.execSpc f s
  | .spcastSp f => Sys2Proof.Machine.execSpcastSp f s
  | .spcastSpan f => Sys2Proof.Machine.execSpcastSpan f s
  | .spcastOff f => Sys2Proof.Machine.execSpcastOff f s
  | .atomAdd f => Sys2Proof.Machine.execAtomAdd f s
  | .atomMin f => Sys2Proof.Machine.execAtomMin f s
  | .atomMax f => Sys2Proof.Machine.execAtomMax f s
  | .atomAnd f => Sys2Proof.Machine.execAtomAnd f s
  | .atomOr f => Sys2Proof.Machine.execAtomOr f s
  | .atomXor f => Sys2Proof.Machine.execAtomXor f s
  | .atomExch f => Sys2Proof.Machine.execAtomExch f s
  | .atomcas f => Sys2Proof.Machine.execAtomcas f s
  | .fence f scope => Sys2Proof.Machine.execFence f scope s
  | .fenceSys f => Sys2Proof.Machine.execFenceSys f s
  | .cpl f size => Sys2Proof.Machine.execCpl f size s
  | .cpt f => Sys2Proof.Machine.execCpt f s
  | .cpkick f => Sys2Proof.Machine.execCpkick f s
  | .mamax f => Sys2Proof.Machine.execMamax f s
  | .mamaxClr f => Sys2Proof.Machine.execMamaxClr f s
  | .mclaim f => Sys2Proof.Machine.execMclaim f s
  | .mrel f => Sys2Proof.Machine.execMrel f s
  | .mld f => Sys2Proof.Machine.execMld f s
  | .mldT f => Sys2Proof.Machine.execMldT f s
  | .mconstIdent f => Sys2Proof.Machine.execMconstIdent f s
  | .mconstExch f => Sys2Proof.Machine.execMconstExch f s
  | .mconstPerm f => Sys2Proof.Machine.execMconstPerm f s
  | .mconstOnesrow f => Sys2Proof.Machine.execMconstOnesrow f s
  | .mconstOnescol f => Sys2Proof.Machine.execMconstOnescol f s
  | .mconstShift f => Sys2Proof.Machine.execMconstShift f s
  | .mma f => Sys2Proof.Machine.execMma f s
  | .mdual f => Sys2Proof.Machine.execMdual f s
  | .mfence f => Sys2Proof.Machine.execMfence f s
  | .mwait f => Sys2Proof.Machine.execMwait f s
  | .rsvinit f => Sys2Proof.Machine.execRsvinit f s
  | .rsvupd f => Sys2Proof.Machine.execRsvupd f s
  | .rsvmerge f => Sys2Proof.Machine.execRsvmerge f s
  | .rsvfin f => Sys2Proof.Machine.execRsvfin f s
  | .rsvget f => Sys2Proof.Machine.execRsvget f s
  | .rsvld f => Sys2Proof.Machine.execRsvld f s
  | .rsvst f => Sys2Proof.Machine.execRsvst f s
  | .dset f => Sys2Proof.Machine.execDset f s
  | .dtag f => Sys2Proof.Machine.execDtag f s
  | .dadd f => Sys2Proof.Machine.execDadd f s
  | .daddSub f => Sys2Proof.Machine.execDaddSub f s
  | .dmul f => Sys2Proof.Machine.execDmul f s
  | .dmomMean f => Sys2Proof.Machine.execDmomMean f s
  | .dmomVar f => Sys2Proof.Machine.execDmomVar f s
  | .dmomM3 f => Sys2Proof.Machine.execDmomM3 f s
  | .dmomMin f => Sys2Proof.Machine.execDmomMin f s
  | .dmomMax f => Sys2Proof.Machine.execDmomMax f s
  | .dqtl f => Sys2Proof.Machine.execDqtl f s
  | .dld f => Sys2Proof.Machine.execDld f s
  | .dsto f => Sys2Proof.Machine.execDsto f s
  | .splsub f => Sys2Proof.Machine.execSplsub f s
  | .splwait f => Sys2Proof.Machine.execSplwait f s
  | .tex f => Sys2Proof.Machine.execTex f s
  | .texLod f => Sys2Proof.Machine.execTexLod f s
  | .texd f => Sys2Proof.Machine.execTexd f s
  | .coll f => Sys2Proof.Machine.execColl f s
  | .collwait f => Sys2Proof.Machine.execCollwait f s
  | .bra f => Sys2Proof.Machine.execBra f s
  | .jmp f => Sys2Proof.Machine.execJmp f s
  | .jmpInd f => Sys2Proof.Machine.execJmpInd f s
  | .call f => Sys2Proof.Machine.execCall f s
  | .callInd f => Sys2Proof.Machine.execCallInd f s
  | .ret f => Sys2Proof.Machine.execRet f s
  | .retX f => Sys2Proof.Machine.execRetX f s
  | .retXSkip f => Sys2Proof.Machine.execRetXSkip f s
  | .exit f => Sys2Proof.Machine.execExit f s
  | .brk f => Sys2Proof.Machine.execBrk f s
  | .trap f => Sys2Proof.Machine.execTrap f s
  | .nop f => Sys2Proof.Machine.execNop f s
  | .seal f y w => Sys2Proof.Machine.execSeal f y w s
  | .bar f => Sys2Proof.Machine.execBar f s
  | .bararr f => Sys2Proof.Machine.execBararr f s
  | .barinit f => Sys2Proof.Machine.execBarinit f s
  | .barinv f => Sys2Proof.Machine.execBarinv f s
  | .barwait f => Sys2Proof.Machine.execBarwait f s
  | .fwait f => Sys2Proof.Machine.execFwait f s
  | .getsr f => Sys2Proof.Machine.execGetsr f s
  | .setsrSeed f => Sys2Proof.Machine.execSetsrSeed f s
  | .setsrMode f => Sys2Proof.Machine.execSetsrMode f s
  | .setsrSplAlpha f => Sys2Proof.Machine.execSetsrSplAlpha f s
  | .setsrPwrRatio f => Sys2Proof.Machine.execSetsrPwrRatio f s
  | .syscPagein f => Sys2Proof.Machine.execSyscPagein f s
  | .syscAbort f => Sys2Proof.Machine.execSyscAbort f s
  | .syscVersion f => Sys2Proof.Machine.execSyscVersion f s
  | .task f => Sys2Proof.Machine.execTask f s
  | .tstamp f => Sys2Proof.Machine.execTstamp f s
  | .barrierWakeWave rel => Sys2Proof.Machine.execBarrierWakeWave rel s
  | .pwrRatioEffect cluster slice => Sys2Proof.Machine.execPwrRatioEffect cluster slice s
  | .loadFill op => Sys2Proof.Machine.execLoadFill op s
  | .atomicReturn op => Sys2Proof.Machine.execAtomicReturn op s
  | .cplComplete op => Sys2Proof.Machine.execCplComplete op s
  | .bulkCopyRow op => Sys2Proof.Machine.execBulkCopyRow op s
  | .bulkCopyFail op cause => Sys2Proof.Machine.execBulkCopyFail op cause s
  | .mldFill op => Sys2Proof.Machine.execMldFill op s
  | .matrixDrain op => Sys2Proof.Machine.execMatrixDrain op s
  | .matrixCommandFail op cause => Sys2Proof.Machine.execMatrixCommandFail op cause s
  | .mclaimGrant w => Sys2Proof.Machine.execMclaimGrant w s
  | .texComplete op => Sys2Proof.Machine.execTexComplete op s
  | .splatBatchComplete op => Sys2Proof.Machine.execSplatBatchComplete op s
  | .collComplete op peers => Sys2Proof.Machine.execCollComplete op peers s
  | .rankDropout group rank reached => Sys2Proof.Machine.execRankDropout group rank reached s
  | .faultResolve w maps => Sys2Proof.Machine.execFaultResolve w maps s
  | .faultDecline w => Sys2Proof.Machine.execFaultDecline w s
  | .integrityRefetch w copies => Sys2Proof.Machine.execIntegrityRefetch w copies s
  | .fetchFault w => Sys2Proof.Machine.execFetchFault w s
  | .fetchFaultResolved w map => Sys2Proof.Machine.execFetchFaultResolved w map s
  | .uncorrectableStateError w => Sys2Proof.Machine.execUncorrectableStateError w s
  | .preemptRequest span => Sys2Proof.Machine.execPreemptRequest span s
  | .spanRestore span clusters => Sys2Proof.Machine.execSpanRestore span clusters s
  | .leaseExpiry cluster key => Sys2Proof.Machine.execLeaseExpiry cluster key s
  | .syscAnswer w maps => Sys2Proof.Machine.execSyscAnswer w maps s
  | .nxQueueCreate ctx prio cap => Sys2Proof.Machine.execNxQueueCreate ctx prio cap s
  | .nxQueueDestroy ctx qid => Sys2Proof.Machine.execNxQueueDestroy ctx qid s
  | .nxLaunch ctx rec => Sys2Proof.Machine.execNxLaunch ctx rec s
  | .nxSignalWait ctx sig count timeout => Sys2Proof.Machine.execNxSignalWait ctx sig count timeout s
  | .signalWaitTimeout ctx sig => Sys2Proof.Machine.execSignalWaitTimeout ctx sig s
  | .nxVfReport ctx buf => Sys2Proof.Machine.execNxVfReport ctx buf s
  | .nxObjectLoad ctx obj => Sys2Proof.Machine.execNxObjectLoad ctx obj s
  | .nxTaskFault ctx sig buf => Sys2Proof.Machine.execNxTaskFault ctx sig buf s
  | .arbiterSelect => Sys2Proof.Machine.execArbiterSelect s
  | .vfSliceExpiry => Sys2Proof.Machine.execVfSliceExpiry s
  | .gracePeriodExpiry => Sys2Proof.Machine.execGracePeriodExpiry s
  | .rduEnter task => Sys2Proof.Machine.execRduEnter task s
  | .dispatchSpan task clusters => Sys2Proof.Machine.execDispatchSpan task clusters s
  | .taskComplete task => Sys2Proof.Machine.execTaskComplete task s
  | .lostLocalityWindow cluster => Sys2Proof.Machine.execLostLocalityWindow cluster s
  | .droopDetect cluster fall => Sys2Proof.Machine.execDroopDetect cluster fall s
  | .droopStretchEnd cluster => Sys2Proof.Machine.execDroopStretchEnd cluster s
  | .droopHalveEnd cluster => Sys2Proof.Machine.execDroopHalveEnd cluster s
  | .idleEnter => Sys2Proof.Machine.execIdleEnter s
  | .idleExit => Sys2Proof.Machine.execIdleExit s
  | .latencyToleranceReport ns => Sys2Proof.Machine.execLatencyToleranceReport ns s
  | .pageMigrate ctx va base => Sys2Proof.Machine.execPageMigrate ctx va base s
  | .pageTableChange ctx change => Sys2Proof.Machine.execPageTableChange ctx change s
  | .hostLinkTrain hostGen hostCxl widths goodLanes => Sys2Proof.Machine.execHostLinkTrain hostGen hostCxl widths goodLanes s
  | .floebNegotiate port partnerGen => Sys2Proof.Machine.execFloebNegotiate port partnerGen s
  | .flitResend port => Sys2Proof.Machine.execFlitResend port s
  | .dataEntryCrc unit bytes => Sys2Proof.Machine.execDataEntryCrc unit bytes s
  | .bootReset => Sys2Proof.Machine.execBootReset s
  | .imageFetchComplete img => Sys2Proof.Machine.execImageFetchComplete img s
  | .dhcpTimeout => Sys2Proof.Machine.execDhcpTimeout s
  | .sourceTimeout => Sys2Proof.Machine.execSourceTimeout s
  | .transferBreak => Sys2Proof.Machine.execTransferBreak s
  | .bootRetryWaitExpiry => Sys2Proof.Machine.execBootRetryWaitExpiry s
  | .spareJoining group rank => Sys2Proof.Machine.execSpareJoining group rank s
  | .correctedError store => Sys2Proof.Machine.execCorrectedError store s
  | .uncorrectableErrorInFlight op => Sys2Proof.Machine.execUncorrectableErrorInFlight op s
  | .hostRead addr read => Sys2Proof.Machine.execHostRead addr read s
  | .controlCoreAccess addr store => Sys2Proof.Machine.execControlCoreAccess addr store s
  | .lineModeSwitch on => Sys2Proof.Machine.execLineModeSwitch on s
  | .cxlRootPortTrain dev width => Sys2Proof.Machine.execCxlRootPortTrain dev width s
  | .pwrLimitsSet slope droop => Sys2Proof.Machine.execPwrLimitsSet slope droop s
  | .arbiterParametersSet vf slice grace weights boost => Sys2Proof.Machine.execArbiterParametersSet vf slice grace weights boost s

end Sys2Proof.Machine
end

