-- ==== Sys2Proof/Machine/Turn.lean ====
section
/-! DEFINITION. The default order of turns (log 2): which agent moves next where the agenda is empty. -/

namespace Sys2Proof.Machine

/-- The event that completes outstanding work; a collective's brings its peers' data, so none is made for it (log 15). -/
def Op.event (o : Op) : Option Instr :=
  match o.work with
  | .load _ => some (.loadFill o.id)
  | .atomic _ => some (.atomicReturn o.id)
  | .cpl .. => some (.cplComplete o.id)
  | .bulk _ => some (.bulkCopyRow o.id)
  | .matrix (.mma ..) _ _ => some (.matrixDrain o.id)
  | .matrix _ _ _ => some (.mldFill o.id)
  | .tex .. => some (.texComplete o.id)
  | .splat .. => some (.splatBatchComplete o.id)
  | .coll .. => none

/-- The first wave of wavelets due to wake (R256). -/
def State.waveTurn (s : State) : Option Instr :=
  s.wavs.findSome? fun v => match s.blk? v.1.block with
    | some k => if s.savedBlk v.1.block then none else v.2.lanes.findSome? fun x => match x.wait with
      | .wake ph => some (.barrierWakeWave ⟨k.at', ph⟩)
      | _ => none
    | none => none

/-- The first waiting claim whose slots are free (R318). -/
def State.claimTurn (s : State) : Option Instr :=
  s.claims.findSome? fun x => match execMclaimGrant x.2.1 s with
    | .next _ => some (.mclaimGrant x.2.1)
    | _ => none

/-- What the engines do next: the oldest outstanding work. -/
def State.engineTurn (s : State) : Option Instr := s.ops.findSome? fun o => (s.op? o.id).bind Op.event

/-- The first task that is over. -/
def State.overTurn (s : State) : Option Instr :=
  (s.tasks.find? fun t => s.taskOver t.1 t.2).map fun t => .taskComplete ⟨t.1, []⟩

/-- The entry of the task that the arbiter chose. -/
def State.enterTurn (s : State) : Option Instr := (s.tasks.find? fun t => s.mayEnter t.2).map fun t => .rduEnter t.1

/-- The arbiter's next choice. -/
def State.selectTurn (s : State) : Option Instr := match execArbiterSelect s with | .next _ => some .arbiterSelect | _ => none

/-- Whether what waits longest has the clusters to itself, so that smaller spans do not hold up one that needs more of them (R40): so
in every second stretch of steps, each stretch being twice as long as the one before. -/
def State.reserving (s : State) : Bool := Nat.log2 s.steps % 2 == 1

/-- The saved spans, and the tasks with blocks left to be placed, of the virtual function in turn. -/
def State.savedInTurn (s : State) : List (Nat × Span) := s.spans.filter fun p => p.2.stage == .saved && s.inTurn p.2.ctx
def State.toPlaceInTurn (s : State) : List (Nat × Task) := s.tasks.filter fun t => t.2.toPlace && s.inTurn t.2.ctx

/-- The next restoration (R46): of the first span alone while the clusters are reserved. -/
def State.restoreNext (s : State) : Option Instr :=
  (if s.reserving then s.savedInTurn.take 1 else s.savedInTurn).findSome? fun p => s.restoreTurn p.1 p.2

/-- The next placement (R249): of the first task alone, and only with no span to be restored, while the clusters are reserved. -/
def State.placeNext (s : State) : Option Instr :=
  (if !s.reserving then s.toPlaceInTurn else if s.savedInTurn.isEmpty then s.toPlaceInTurn.take 1 else []).findSome? fun t =>
    s.dispatchTurn t.1 t.2

/-- The end of a slice, and that of a grace period, where it is due (R247): each once in 65,536 steps. -/
def State.vfTurn (s : State) : Option Instr :=
  if s.steps % 65536 == 65535 && s.sliced then some .vfSliceExpiry
  else if s.steps % 65536 == 32768 && s.graceDue.isSome then some .gracePeriodExpiry
  else none

/-- The first kind of the device's turns that is due, the kind `k` before the others: a wave due to wake, outstanding work, a
claim that can be granted, a task that is over, the entry of the task chosen, the arbiter's choice, a restoration, a placement,
the exit from an idle state. -/
def State.kindTurn (s : State) (k : Nat) : Option Instr :=
  let kinds : List (State → Option Instr) :=
    [State.waveTurn, State.engineTurn, State.claimTurn, State.overTurn, State.enterTurn, State.selectTurn,
     State.restoreNext, State.placeNext,
     fun s => if s.idle != .active && s.exiting then some .idleExit else none]
  (kinds.drop (k % kinds.length) ++ kinds.take (k % kinds.length)).findSome? (· s)

/-- What the device does next: in turns of 256 steps each kind comes before the others, so that none holds another up (R40). -/
def State.deviceTurn (s : State) : Option Instr := s.kindTurn (s.steps / 256)

/-- The wavelet that issues next (R40, R250): one that has been ready for 256 steps before the others, the longest first; else
the oldest. -/
def State.issueTurn (s : State) : Option WavId :=
  let first := fun (better : Wavelet → Wavelet → Bool) (ws : List (WavId × Wavelet)) => match ws with
    | [] => none
    | w :: ws => some (ws.foldl (fun a b => if better b.2 a.2 then b else a) w).1
  let due := s.wavs.filter fun w => Wavelet.due w.2
  match first (fun a b => a.waited > b.waited) (due.filter fun w => 256 ≤ w.2.waited) with
  | some w => some w
  | none => first (fun a b => a.age < b.age) due

/-- The turn taken when the agenda is empty: the end of a slice or a grace period, a wave due to wake, then a wavelet that can issue,
then the device; in every 256th step the device before the wavelets, so that a wavelet that spins holds nothing up (R40). None when
nothing is due. -/
def State.defaultTurn (s : State) : Option Turn :=
  let dev := s.deviceTurn.map Turn.event
  let run := s.issueTurn.map Turn.run
  (s.vfTurn.map Turn.event).or (if s.steps % 256 == 255 then dev.or run else (s.waveTurn.map Turn.event).or (run.or dev))

/-- Count how long the wavelets that may issue have waited while `t` moves (R40). -/
def State.waitFor (s : State) (t : Turn) : State :=
  { s with wavs := s.wavs.map fun w =>
      if t == .run w.1 then (w.1, { w.2 with waited := 0 })
      else if Wavelet.due w.2 then (w.1, { w.2 with waited := w.2.waited + 1 }) else w }

end Sys2Proof.Machine
end

