-- ==== Sys2Proof/Machine/Step.lean ====
section
/-! DEFINITION. One step: the next turn of the agenda, or of the default order (log 2), is a device event or the next
instruction of a wavelet. -/

namespace Sys2Proof.Machine

/-- One turn. -/
def turn (t : Turn) (s : State) : Res :=
  match t with
  | .event i => exec i { s with cur := none }
  | .run w => match s.look w with
    | .idle => .refused .notDue
    | .noWord s => exec (.fetchFault w) s
    | .illegal s m => .next (s.trapWord w eIll m)
    | .word s i => exec i s

def step (s : State) : Host.Outcome State Fault Refusal :=
  let s := s.tick
  match s.agenda with
  | t :: ts => turn t { s with agenda := ts }
  | [] => match s.defaultTurn with
    | some t => turn t (s.waitFor t)
    | none => .next s

/-- `s` with the instruction of a table word where step fetches its next instruction (log 5). -/
def State.withFetchWord (s : State) (nbits w : Nat) : State := s.place 12 (w % 2 ^ min nbits 96)

end Sys2Proof.Machine
end

