-- ==== Sys2Proof/Safety.lean ====
section
/-! DEFINITION. What counts as a safe run: one that no step stops. -/

namespace Sys2Proof

/-- A run of `n` steps from a state that stops nowhere. -/
def Safe (n : Nat) (s : Machine.State) : Prop := ∃ t, core.run n s = .next t

end Sys2Proof
end

