-- ==== Sys2Proof/Certificates/Slice0/Claim.lean ====
section
/-! DEFINITION. The words the statements are said in: the bundle that issues an instruction word and the conditions on
it, what a completed instruction leaves, and what it leaves alone. -/

namespace Sys2Proof.Claim

open Sys2Proof.Machine

/-- The fields of an unguarded word without hints that names `zero` everywhere: what the assembler leaves unwritten. -/
def blank : Fields := ⟨.zero, .zero, .zero, .zero, ⟨false, 7⟩, 0, 0, false, .b32, 0, 0, 0, 0, 0, 0⟩

/-! The bundle that issues an instruction word, and the conditions on it. -/

/-- A wavelet whose lists have the form the model keeps them in. -/
def Tidy (v : Wavelet) : Prop :=
  v.lanes.length = v.width ∧ v.width ≤ 64 ∧ Sparse.wf ({} : UReg) v.w = true ∧ ∀ x ∈ v.lanes, Sparse.wf ({} : Reg) x.regs = true

/-- The wavelet `e.wid` issues the word `i`, of fields `f` and shape `sh`, in its run `r`. -/
def Issues (i : Instr) (s : State) (e : Env) (f : Fields) (sh : Shape) (r : Run) : Prop :=
  s.cur.bind s.env? = some e ∧ i.fields? = some f ∧ i.shape = some sh ∧ e.wav.run = some r ∧ Tidy e.wav

/-- No check of R125 fails. -/
def WordOk (i : Instr) (e : Env) (f : Fields) (r : Run) : Prop :=
  i.legal = true ∧ i.kOk e.K = true ∧ (i.isSeal = true ∨ r.count < 24 ∧ r.mustSeal = false) ∧ f.hc = 0

/-- Lanes in which the sources are read: the acting lanes, or the lowest alone (R198). -/
def readers (sh : Shape) (ls : List Nat) : List Nat := if sh.once then ls.take 1 else ls

/-- The sources that are read in a lane: FE bit, name, reading; a lane that only lends its A to `lane` (R240) reads that. -/
def reads (i : Instr) (f : Fields) (sh : Shape) (e : Env) (ls : List Nat) (l : Nat) : List (Nat × Name × Read) :=
  if (readers sh ls).contains l then sources i f sh e (ls.headD 0) l else [(2, f.a, sh.a)]

/-- Every operand-file and last-result name that is read is valid (R51), the second of two coordinates too (R354), and in the
lanes whose A a `lane` reads (R309). -/
def Valid (i : Instr) (f : Fields) (sh : Shape) (e : Env) (ls : List Nat) : Prop :=
  ∀ l ∈ readers sh ls ++ laneReads i f sh e ls, ∀ p ∈ reads i f sh e ls l,
    p.2.2 = .none ∨ e.valid l p.2.1 = true ∧ (p.2.2 = .coords → e.valid l p.2.1.next = true)

/-- Every main register that is read under an FE policy is full (R58), the A of a `lane` in every member lane that is in the
bundle (R240). -/
def Full (pol : Bool) (i : Instr) (f : Fields) (sh : Shape) (e : Env) (r : Run) (ls : List Nat) : Prop :=
  ∀ l ∈ readers sh ls ++ laneMembers i f sh e r ls, ∀ p ∈ reads i f sh e ls l, f.fe.getLsbD p.1 = pol →
    ∀ k ∈ p.2.2.mains p.2.1, ((e.lane l).reg k).full = true

/-- No source is refused by R56 or R61; the image that D already holds is tested once it is full (R60). -/
def Fits (i : Instr) (f : Fields) (sh : Shape) (e : Env) (ls : List Nat) : Prop :=
  ∀ l ∈ readers sh ls, (∀ p ∈ sources i f sh e (ls.headD 0) l, (e.fmt l p.2.2 p.2.1).1 = false) ∧
    match i with
    | .rsvupd _ | .rsvmerge _ => (∀ k ∈ Name.mains f.d 8, ((e.lane l).reg k).full = true) →
        ∀ k ∈ Name.mains f.d 8, ((e.lane l).reg k).tag = Tag.rsv
    | _ => True

/-- No main register that is written is pending (R59): `coll` writes in the lowest lane, `cpkick` where it submits (R195). -/
def Free (i : Instr) (f : Fields) (sh : Shape) (e : Env) (ls : List Nat) : Prop :=
  ∀ l ∈ writeLanes i f e ls, ∀ k ∈ dests f sh, ((e.lane l).reg k).full = true

/-- What a lane fails of R51, of R58 under FE = 1, of R56 and R61, and of R59. -/
def lacks (i : Instr) (f : Fields) (sh : Shape) (e : Env) (ls : List Nat) (l : Nat) : Bool :=
  (reads i f sh e ls l).any fun p => p.2.2 != .none && (!e.valid l p.2.1 || p.2.2 == .coords && !e.valid l p.2.1.next)
def hollow (i : Instr) (f : Fields) (sh : Shape) (e : Env) (ls : List Nat) (l : Nat) : Bool :=
  (reads i f sh e ls l).any fun p => f.fe.getLsbD p.1 && (p.2.2.mains p.2.1).any fun k => !((e.lane l).reg k).full
def unfit (i : Instr) (f : Fields) (sh : Shape) (e : Env) (ls : List Nat) (l : Nat) : Bool :=
  ((sources i f sh e (ls.headD 0) l).any fun p => (e.fmt l p.2.2 p.2.1).1) ||
  match i with
  | .rsvupd _ | .rsvmerge _ => (Name.mains f.d 8).all (fun k => ((e.lane l).reg k).full) &&
      (Name.mains f.d 8).any fun k => ((e.lane l).reg k).tag != Tag.rsv
  | _ => false
def pends (f : Fields) (sh : Shape) (e : Env) (l : Nat) : Bool := (dests f sh).any fun k => !((e.lane l).reg k).full

/-- Nothing of R60, steps 1 to 5, stops the word, which is issued for the first time. -/
def Ready (i : Instr) (s : State) (e : Env) (f : Fields) (sh : Shape) (r : Run) : Prop :=
  Issues i s e f sh r ∧ WordOk i e f r ∧ e.wav.replay = none ∧ Valid i f sh e (e.acting f.guard r) ∧
  Full true i f sh e r (e.acting f.guard r) ∧ Full false i f sh e r (e.acting f.guard r) ∧
  Fits i f sh e (e.acting f.guard r) ∧ Free i f sh e (e.acting f.guard r)

/-- The context of an instruction issued for the first time. -/
def ctx (e : Env) (f : Fields) (r : Run) : Ctx :=
  ⟨e, f, e.acting f.guard r, r, match r.lanes.lanes 64 with | l :: _ => (e.lane l).pc | [] => r.start, false⟩

/-- Lanes of the bundle. -/
def bundle (e : Env) (r : Run) : List Nat := r.lanes.lanes e.wav.width

/-! What a completed instruction leaves. -/

/-- The bundle has moved past the word: its PCs, and one more instruction in its run. -/
def Moved (e : Env) (r : Run) (v : Wavelet) : Prop :=
  v.run = some { r with count := r.count + 1, mustSeal := false, deferred := none } ∧ v.stall = .none ∧ v.replay = none ∧
  ∀ l ∈ bundle e r, (v.lane l).pc = (e.lane l).pc + 12

/-- The destination holds a value in each lane of `ls` (R47, R49, R63); a uniform register takes the lowest lane's (R52). -/
def Holds (e : Env) (d : Name) (wide : Bool) (ls : List Nat) (val : Nat → Val) (v : Wavelet) : Prop :=
  match d with
  | .v n => ∀ l ∈ ls,
      (v.lane l).reg n = { bits := (val l).bits.setWidth 32, tag := (val l).tag, full := true, tan := e.shadow n (val l).tan } ∧
      (wide = true → (v.lane l).reg (n + 1) = { bits := ((val l).bits >>> 32).setWidth 32, tag := (val l).tag })
  | .o n => ∀ l ∈ ls, (v.lane l).o.head? = some (n.val, val l)
  | .w n => ∀ l, ls.head? = some l →
      Sparse.get {} v.w n = ⟨(val l).bits.setWidth 32, (val l).tag⟩ ∧
      (wide = true → Sparse.get {} v.w (n + 1) = ⟨((val l).bits >>> 32).setWidth 32, (val l).tag⟩)
  | _ => True

/-- The last results have shifted once in every lane of the bundle; an acting lane's newest is its value (R50). -/
def Shifted (e : Env) (f : Fields) (r : Run) (val : Nat → Val) (v : Wavelet) : Prop :=
  ∀ l ∈ bundle e r, (v.lane l).q = ((if l ∈ e.acting f.guard r then some (val l) else none) :: (e.lane l).q).take 4

/-- The instruction wrote its result `val`, cut by TM (R121), and the bundle moved on. -/
def Wrote (e : Env) (f : Fields) (wide : Bool) (r : Run) (val : Nat → Val) (t : State) : Prop :=
  ∃ v, t.wav? e.wid = some v ∧ Moved e r v ∧ Shifted e f r (fun l => (ctx e f r).tm (val l)) v ∧
    Holds e f.d wide (e.acting f.guard r) (fun l => (ctx e f r).tm (val l)) v

/-- Whether a result takes a register pair. -/
def pairD : Write → Bool | .as t => t.wide | .ptr => true | _ => false

/-- The instruction completes; in each acting lane its result and the lane it leaves are as `P` says. -/
def Yields (i : Instr) (P : Env → Run → Nat → Val → Strand → Prop) : Prop :=
  ∀ s e f sh r, Ready i s e f sh r → ∃ t val v, exec i s = .next t ∧ t.wav? e.wid = some v ∧
    Wrote e f (pairD sh.d) r val t ∧ ∀ l ∈ e.acting f.guard r, P e r l (val l) (v.lane l)

/-- Instructions that write one register or pair and can raise nothing of their own. -/
def oneResult : Instr → Bool
  | .abs _ | .neg _ | .add _ | .sub _ | .addc _ | .dot2 _ | .dot4 _ | .fma _ | .frnd _ | .max _ | .min _ | .mul _ | .mul24 _
  | .mulhi _ | .and _ | .or _ | .xor _ | .not _ | .bfe _ | .bfi _ | .brev _ | .clz _ | .popc _ | .mov _ | .sel _ | .movi _
  | .rotL _ | .rotR _ | .shl _ | .shr _ | .sra _ | .matchKey _ | .cvt _ | .pack4 _ | .cos _ | .sin _ | .ex2 _ | .lg2 _
  | .rsq _ | .rcp _ | .sqrt _ | .tev _ | .tget _ | .tset _ | .tzero _ | .lred .. | .lscan .. | .spc _ | .getsr _
  | .tstamp _ | .rsvget _ | .dmomMean _ | .dmomVar _ | .dmomM3 _ | .dmomMin _ | .dmomMax _ | .dqtl _ => true
  | _ => false

/-! What an instruction leaves alone. -/

/-- What an instruction may write of its wavelet. -/
structure Writes where
  /-- Main registers, uniform registers, operand-file entries and predicates. -/
  regs   : Nat → Bool := fun _ => false
  unis   : Nat → Bool := fun _ => false
  outs   : Nat → Bool := fun _ => false
  preds  : Nat → Bool := fun _ => false
  /-- Whether the last results shift. -/
  shifts : Bool := false
  /-- Sticky flags it may set. -/
  flags  : W32 := 0
  /-- Whether it counts up the lineage counters of the lanes that act (R231). -/
  counts : Bool := false

/-- The main registers from a name on. -/
def from' (d : Name) (k n : Nat) : Bool := (Name.mains d k).contains n

/-- Predicates that an instruction writes (R53); p7 discards the write. -/
def writesPred (i : Instr) (n : Nat) : Bool :=
  match i with
  | .addc f | .cmp f _ | .matchKey f | .plog f _ => n == natBits f.imm.toNat 2 0
  | .voteAll f | .voteAny f => n == natBits f.imm.toNat 6 4
  | _ => false

/-- The writes of an instruction with a result of one register or pair in D, and of its predicates. -/
def Writes.result (i : Instr) (d : Name) (wide : Bool) (flags : W32 := stCnvSat) : Writes where
  regs := from' d (if wide then 2 else 1)
  unis := fun n => match d with | .w k => n == k.val || (wide && n == k.val + 1) | _ => false
  outs := fun n => d.code == 448 + n
  preds := writesPred i
  shifts := true
  flags := flags

/-- The writes of an instruction that writes `k` main registers from D and no last result. -/
def Writes.group (d : Name) (k : Nat) (flags : W32 := stCnvSat) : Writes where
  regs := from' d k
  flags := flags

/-- What is left of a lane: `acts` says that the lane acts, `held` that it is in the bundle. -/
def LaneKept (k : Writes) (acts held : Bool) (x y : Strand) : Prop :=
  y.live = x.live ∧ y.wait = x.wait ∧ y.stack = x.stack ∧ y.faddr = x.faddr ∧ y.priv = x.priv ∧ y.planes = x.planes ∧
  y.absent = x.absent ∧ y.lineage = (if acts && k.counts then x.lineage + 1 else x.lineage) ∧ (held = false → y.pc = x.pc) ∧ (held = false ∨ k.shifts = false → y.q = x.q) ∧
  (∀ n, acts = false ∨ k.preds n = false → y.pred n = x.pred n) ∧
  (∀ n, acts = false ∨ k.regs n = false → y.reg n = x.reg n) ∧
  (∀ p : Nat × Val, acts = false ∨ k.outs p.1 = false → (p ∈ y.o ↔ p ∈ x.o)) ∧
  y.status &&& ~~~k.flags = x.status &&& ~~~k.flags ∧ y.status &&& x.status = x.status

/-- What is left of the wavelet: all but what `k` allows, its PCs and the state of its run. -/
def WaveKept (k : Writes) (f : Fields) (e : Env) (r : Run) (v : Wavelet) : Prop :=
  v.lanes.length = e.wav.lanes.length ∧
  v = { e.wav with lanes := v.lanes, w := v.w, run := v.run, stall := v.stall, replay := v.replay, marks := v.marks,
                   tried := v.tried, failing := v.failing } ∧
  (∀ n, k.unis n = false → Sparse.get {} v.w n = Sparse.get {} e.wav.w n) ∧
  ∀ l, LaneKept k ((e.acting f.guard r).contains l) (r.lanes.has l) (e.lane l) (v.lane l)

/-- What is left of the machine: every other wavelet, and of this one what `WaveKept` says. -/
def OthersKept (k : Writes) (s : State) (e : Env) (f : Fields) (r : Run) (t : State) : Prop :=
  (∀ w, w ≠ e.wid → t.wav? w = s.wav? w) ∧ ∃ v, t.wav? e.wid = some v ∧ WaveKept k f e r v

/-- The frame of an instruction that writes nothing but its own wavelet's registers, predicates and flags: memory reads
everywhere as before, and every other part of the machine is the same. -/
def RegisterFrame (k : Writes) (s : State) (e : Env) (f : Fields) (r : Run) (t : State) : Prop :=
  t = { s with wavs := t.wavs } ∧ (∀ w l a, t.readLoc w l a 1 = s.readLoc w l a 1) ∧ OthersKept k s e f r t

/-! Values. -/

/-- The value of a source read as a type (R56), as a number, an integer, an element of it, an exact number. -/
def src (e : Env) (x : Name) (t : Ty) (l : Nat) : Val := e.readTy l x t
def srcN (e : Env) (x : Name) (t : Ty) (l : Nat) : Nat := (src e x t l).bits.toNat
/-- Element `j` of a value of a type. -/
def elem (t : Ty) (v : Val) (j : Nat) : Nat := (t.elems v.bits.toNat).getD j 0
def srcI (e : Env) (x : Name) (t : Ty) (l j : Nat) : Int := t.intOf (elem t (src e x t l) j)
def srcX (e : Env) (x : Name) (t : Ty) (l j : Nat) : Num := t.num e.ftz (elem t (src e x t l) j)
/-- Component `k` of element `j` of a source's tangents, and its primal as R78 takes it. -/
def srcT (e : Env) (x : Name) (t : Ty) (l k j : Nat) : W32 := (src e x t l).tanEl t k j
def srcP (e : Env) (x : Name) (t : Ty) (l j : Nat) : W32 := t.primal e.ftz (elem t (src e x t l) j)

/-- Bits of the register or pair that a value of a type takes. -/
def bitsOf (t : Ty) : Nat := if t.wide then 64 else 32

/-- The value is of a type, has `n` bits at most and no tangents. -/
def Plain (t : Ty) (n : Nat) (v : Val) : Prop := v.tag = t.tag ∧ v.tan = [] ∧ v.bits.toNat < 2 ^ n

/-- A tangent component as a register of a type keeps it: FP32, or BF16 for a 16-bit element (R75). -/
def kept (t : Ty) (x : W32) : W32 := if t.perReg = 2 then F32.ofBf (F32.toBf x) else x

/-- The draw of the element of index `x` in a `.sr` rounding (R107): of the seed, the d of its two neighbours within 32
indices, and its place among them. -/
def drawn (seed : W32) (d : Nat → Nat) (x : Nat) : Nat :=
  let near := fun (k : Nat) => BitVec.ofNat 32 (d (x / 32 * 32 + k % 32))
  (mix32 (seed ^^^ near (x % 32 + 31) <<< 16 ^^^ near (x % 32 + 1) ^^^ BitVec.ofNat 32 (x % 32))).toNat

/-- The random bits of element `j` of lane `l`, where a register of the result holds `p` elements and `d` gives the d of an
element of a lane: 0 but in a `.sr` mode; the d of a lane that does not act is 0 (R107). -/
def srBits (e : Env) (f : Fields) (r : Run) (p : Nat) (d : Nat → Nat → Nat) (l j : Nat) : Nat :=
  if f.rm = 4 then drawn e.wav.seed (fun x => if x / p ∈ e.acting f.guard r then d (x / p) (x % p) else 0) (l * p + j) else 0

/-- The tangents of a value of a type without a clamp follow a row of R78: component `k` of element `j` is `g k j`, one
beyond K is +0, and a type without tangents has none. -/
def Row (e : Env) (t : Ty) (g : Nat → Nat → W32) (v : Val) : Prop :=
  (t.hasTan = false → v.tan = []) ∧
  (t.hasTan = true → ∀ k j, j < t.perReg → v.tanEl t k j = if k < e.K then kept t (g k j) else 0)

/-- Each element of the value is the exact number `x l j` rounded once, in the instruction's mode and under SAT (R105,
R106), a `.sr` mode by the draw of R107 from the numbers of all acting lanes; its tangents follow a row of R78 and are +0 where
SAT clamped (R80) and beyond K. -/
def RoundedOnce (e : Env) (f : Fields) (r : Run) (t : Ty) (x : Nat → Nat → Num) (row : Nat → Nat → W32 → W32) (l : Nat)
    (v : Val) : Prop :=
  v.tag = t.tag ∧ ∀ fm, t.fmt? = some fm → ∀ j, j < t.perReg → ∀ y,
    y = fm.round f.rm f.sat (srBits e f r t.perReg (fun m k => fm.dOf (x m k)) l j) (x l j) →
    elem t v j = y.bits ∧
    (t.hasTan = true → ∀ k, v.tanEl t k j = if k < e.K ∧ y.clamp = false then kept t (row k j (t.primal false (elem t v j))) else 0)

/-- A source copied in a type's width without a format test (R325). -/
def Copied (e : Env) (l : Nat) (x : Name) (t : Ty) (v : Val) : Prop :=
  (∀ k, v.bits.getLsbD k = (decide (k < bitsOf t) && (e.raw l x t).bits.getLsbD k)) ∧
  v.tag = (if (e.raw l x t).tag = Tag.none ∨ (e.raw l x t).tag.wide = t.wide then (e.raw l x t).tag else t.tag) ∧
  ∀ k, v.word k = if v.tag.hasTan then (e.raw l x t).word k else 0

/-- Each element is an integer operation of the sources' elements, modulo 2ⁿ or clamped under SAT (R106). -/
def IntResult (f : Fields) (op : Int → Int → Int) (e : Env) (l : Nat) (v : Val) : Prop :=
  v.tan = [] ∧ ∀ j, j < f.ty.perReg →
    if f.sat then f.ty.intOf (elem f.ty v j) = max f.ty.lo (min f.ty.hi (op (srcI e f.a f.ty l j) (srcI e f.b f.ty l j)))
    else (elem f.ty v j : Int) = op (srcI e f.a f.ty l j) (srcI e f.b f.ty l j) % 2 ^ f.ty.elemBits

/-- Whether a source is a main register pair tagged PTR (R267). -/
def isPtr (e : Env) (x : Name) (l : Nat) : Bool :=
  match x with
  | .v n => ((e.lane l).reg n).tag == Tag.ptr && ((e.lane l).reg (n + 1)).tag == Tag.ptr
  | _ => false

/-- An element as F16FTZ reads it: a subnormal of `f16` or `bf16` is the zero of its sign (R97). -/
def flushed (t : Ty) (ftz : Bool) (x : Nat) : Nat :=
  match t.fmt? with
  | some fm => if ftz && t.perReg == 2 && (t.num ftz x).isZero then (if x.testBit fm.signBit then 2 ^ fm.signBit else 0) else x
  | none => x

/-- What `max` or `min` returns for an element, B where the comparison `less` or `lessI` of A and B says so (R112, R316),
as read under F16FTZ (R97). -/
def Picked (t : Ty) (ftz : Bool) (less : Num → Num → Bool) (lessI : Int → Int → Bool) (a b y : Nat) : Prop :=
  match t.fmt? with
  | some fm =>
    if (t.num ftz a).isNan ∧ (t.num ftz b).isNan then y = fm.qnan
    else y = flushed t ftz (if (t.num ftz a).isNan ∨ (!(t.num ftz b).isNan && less (t.num ftz a) (t.num ftz b)) then b else a)
  | none => y = if lessI (t.intOf a) (t.intOf b) then b else a

/-- Whether `max` or `min` returns B of two elements, `less` comparing A with B: where they compare equal, and of two NaNs, A's
tangents go on (R78, R112). -/
def takesB (t : Ty) (ftz : Bool) (less : Num → Num → Bool) (a b : Nat) : Bool :=
  !(t.num ftz b).isNan && ((t.num ftz a).isNan || less (t.num ftz a) (t.num ftz b))

/-- The result of an integer division or remainder of `x` by `y` (R113). -/
def DivResult (t : Ty) (isDiv : Bool) (x y : Int) (out : Nat) : Prop :=
  if isDiv then
    if y = 0 then (out : Int) = (if t.isSigned then (if 0 ≤ x then t.hi else t.lo) else t.hi) % 2 ^ t.elemBits
    else if t.isSigned && x == t.lo && y == -1 then (out : Int) = t.lo % 2 ^ t.elemBits
    else t.intOf out = x.tdiv y
  else if y = 0 then t.intOf out = x
  else ∃ q, x = y * q + t.intOf out ∧ (t.intOf out).natAbs < y.natAbs ∧ (t.intOf out = 0 ∨ (t.intOf out < 0 ↔ x < 0))

/-- The instruction completes without a result: the bundle moves on, nothing but what `k` allows changes, and the lanes
it leaves are as `P` says. -/
def Passes (i : Instr) (k : Writes) (P : Env → Run → Nat → Strand → Prop) : Prop :=
  ∀ s e f sh r, Ready i s e f sh r → ∃ t v, exec i s = .next t ∧ t.wav? e.wid = some v ∧ Moved e r v ∧
    RegisterFrame k s e f r t ∧ ∀ l ∈ e.acting f.guard r, P e r l (v.lane l)

/-- The condition of `cmp` on one element (R282). -/
def CmpHolds (cond : Nat) (t : Ty) (ftz : Bool) (a b : Nat) : Prop :=
  if t.isFloat then
    match cond with
    | 0 => (t.num ftz a).eq (t.num ftz b) = true
    | 1 => (t.num ftz a).eq (t.num ftz b) = false
    | 2 => (t.num ftz a).lt (t.num ftz b) = true
    | 3 => (t.num ftz a).lt (t.num ftz b) = true ∨ (t.num ftz a).eq (t.num ftz b) = true
    | 4 => (t.num ftz b).lt (t.num ftz a) = true
    | 5 => (t.num ftz b).lt (t.num ftz a) = true ∨ (t.num ftz b).eq (t.num ftz a) = true
    | 6 => (t.num ftz a).isNan = true ∨ (t.num ftz b).isNan = true
    | _ => (t.num ftz a).isNan = false ∧ (t.num ftz b).isNan = false
  else
    match cond with
    | 0 => t.intOf a = t.intOf b | 1 => t.intOf a ≠ t.intOf b | 2 => t.intOf a < t.intOf b | 3 => t.intOf a ≤ t.intOf b
    | 4 => t.intOf b < t.intOf a | 5 => t.intOf b ≤ t.intOf a | _ => False

/-- Equal keys of `match` (R115). -/
def KeyEq (t : Ty) (a b : Nat) : Prop := if t.isFloat then (t.num false a).eq (t.num false b) = true else a = b

/-- Lane `k` is the one whose A lane `l` receives from `lane`, with member mask `m` and B = `b` (R240). -/
def LaneFrom (form : Nat) (m : Mask) (w l b k : Nat) : Prop :=
  let rank := fun (j : Nat) => ((m.lanes w).filter (· < j)).length
  let c := (m.lanes w).length
  let t : Int := match form with
    | 0 => b | 1 => ((rank l : Int) - b) % c | 2 => ((rank l : Int) + b) % c | _ => (rank l ^^^ b : Nat)
  if l ∈ m.lanes w ∧ t < c then k ∈ m.lanes w ∧ (rank k : Int) = t else k = l

/-- R111: the present values of lanes `j` to `j + 2ⁿ − 1` combined pairwise, the lower half as operand A; none where all are
absent. -/
def both {α : Type} (g : α → α → α) : Option α → Option α → Option α
  | some a, some b => some (g a b)
  | some a, none => some a
  | none, b => b
def pairwise {α : Type} (g : α → α → α) (x : Nat → Option α) : Nat → Nat → Option α
  | 0, j => x j
  | n + 1, j => both g (pairwise g x n j) (pairwise g x n (j + 2 ^ n))

/-- R111: what a lane holds after `n` steps of the inclusive scan. -/
def prefixes {α : Type} (g : α → α → α) (x : Nat → Option α) : Nat → Nat → Option α
  | 0, l => x l
  | n + 1, l => if 2 ^ n ≤ l then both g (prefixes g x n (l - 2 ^ n)) (prefixes g x n l) else prefixes g x n l

/-- One step of a reduction on an element (R111, R313): a floating sum rounded in the mode, an integer one modulo 2ⁿ, R112's
choice, or bit by bit. -/
def reduceOp (t : Ty) (rm op a b : Nat) : Nat :=
  match op with
  | 0 => match t.fmt? with
    | some fm => (fm.round rm false 0 ((t.num false a).add (rm == 3) (t.num false b))).bits
    | none => (a + b) % 2 ^ t.elemBits
  | 1 => pickElem t false false a b
  | 2 => pickElem t false true a b
  | 3 => a &&& b
  | 4 => a ||| b
  | _ => a ^^^ b

/-- The identities of R111 and R313. -/
def reduceId (t : Ty) (op : Nat) : Nat :=
  match t.fmt?, op with
  | some fm, 0 => fm.signed true 0
  | some fm, 1 => fm.infMag
  | some fm, _ => fm.signed true fm.infMag
  | none, 1 => t.wrap t.hi
  | none, 2 => t.wrap t.lo
  | none, 3 => 2 ^ t.elemBits - 1
  | none, _ => 0

/-- Element `j` of the A of a lane that takes part, as F16FTZ reads it; none of another lane (R111). -/
def part (e : Env) (f : Fields) (r : Run) (j l : Nat) : Option Nat :=
  if l ∈ e.acting f.guard r then some (flushed f.ty e.ftz (elem f.ty (src e f.a f.ty l) j)) else none

/-- The elements of `part`, each with component `k` of its tangents, and a step of a reduction on them (R78): sums add the
components, `min` and `max` take those of the lane that they choose. -/
def partTan (e : Env) (f : Fields) (r : Run) (k j l : Nat) : Option (Nat × W32) :=
  (part e f r j l).map fun x => (x, srcT e f.a f.ty l k j)
def reduceTan (t : Ty) (rm op : Nat) (a b : Nat × W32) : Nat × W32 :=
  (reduceOp t rm op a.1 b.1,
    if op = 0 then F32.add a.2 b.2
    else if takesB t false (fun x y => if op = 1 then y.lt x else x.lt y) a.1 b.1 then b.2 else a.2)

/-- The source element of element `j` of a `cvt` result: across consecutive registers where D holds more elements, else
from group G (R287). -/
def cvtSource (e : Env) (f : Fields) (r : Run) (l j : Nat) : Nat :=
  let st := f.cvtST
  if st.perReg ≤ f.ty.perReg then elem st ((ctx e f r).cvtReg st l (j / st.perReg)) (j % st.perReg)
  else elem st ((ctx e f r).cvtReg st l 0) (f.cvtG * f.ty.perReg + j)

/-- Component `k` of that element's tangents, as the result's type takes it (R78). -/
def cvtTan (e : Env) (f : Fields) (r : Run) (l k j : Nat) : W32 :=
  let st := f.cvtST
  tanConv st f.ty (if st.perReg ≤ f.ty.perReg then ((ctx e f r).cvtReg st l (j / st.perReg)).tanEl st k (j % st.perReg)
    else ((ctx e f r).cvtReg st l 0).tanEl st k (f.cvtG * f.ty.perReg + j))

/-- Each element is a function of the decoded element, rounded once (R284), with tangents of a row of R78: `g` of a component,
the primal and the result. -/
def SpecialResult (e : Env) (f : Fields) (l : Nat) (fn : Fmt → Num → Nat) (g : W32 → W32 → W32 → W32) (v : Val) : Prop :=
  v.tag = f.ty.tag ∧ ∀ fm, f.ty.fmt? = some fm → ∀ j, j < f.ty.perReg → elem f.ty v j = fn fm (srcX e f.a f.ty l j) ∧
    ∀ k, k < e.K → f.ty.hasTan = true → v.tanEl f.ty k j =
      kept f.ty (g (srcT e f.a f.ty l k j) (srcP e f.a f.ty l j) (f.ty.primal false (elem f.ty v j)))

/-- Element `j` of a block whose codes are `code`, without its scale (R95, R100, R101), and its sign (R99). -/
def blockElem (t : Ty) (code : Nat → Nat) (j : Nat) : Num :=
  let q := j / 4 * 4
  let int := fun (x : Nat) => Num.ofInt (if x < 8 then x else if x = 8 then 0 else (x : Int) - 16)
  if t ≠ .i4o then t.num false (code j)
  else if code (q + 1) = 8 then
    (if j % 4 = 0 then int (code q) else if j % 4 = 1 then Fmt.e4m3.decode (code (q + 2) * 16 + code (q + 3)) else .zero)
  else int (code j)
def blockSign (t : Ty) (code : Nat → Nat) (j : Nat) : Bool :=
  if t ≠ .i4o then (code j).testBit 7
  else if code (j / 4 * 4 + 1) = 8 ∧ j % 4 = 1 then (code (j / 4 * 4 + 2)).testBit 3 else (blockElem t code j).sign

/-- Whether the scale `k` covers element `j` of a block (R291). -/
def covers (t : Ty) (x : Nat → Num) (k j : Nat) : Prop :=
  (x j).isNan = true ∨
  (x j).abs.le ((Fmt.e4m3.decode k).mul (.ofNat (if t = .e5m2 then 57344 else 448))) = true ∧
    (t = .i4o → j % 4 ≠ 1 → (x j).abs.le ((Fmt.e4m3.decode k).mul (.ofNat 7)) = true)

/-- The scale of a block (R291): 0 where no element has a magnitude, else the least that covers all, or the greatest. -/
def BlockScale (t : Ty) (x : Nat → Num) (sc : Nat) : Prop :=
  sc ≤ 0x7E ∧ (sc = 0 ↔ ∀ j, j < 32 → (x j).isNan = true ∨ (x j).isZero = true) ∧
  (0 < sc → sc < 0x7E → ∀ j, j < 32 → covers t x sc j) ∧ ∀ k, 1 ≤ k → k < sc → ∃ j, j < 32 ∧ ¬ covers t x k j

/-- The integer that a scaled element rounds to, in a mode and with a draw: 0 for NaN, past the clamp for an infinity; and the
code of an integer, clamped to −7 to 7 (R291). -/
def nearest (rm d : Nat) : Num → Int
  | .nan => 0
  | .inf n => if n then -1000 else 1000
  | x => x.toInt rm d
def int4 (k : Int) : Nat := (max (-7) (min 7 k) % 16).toNat

/-- The mean of the points of a distribution, and a power of an exact number (R235). -/
def mean (ps : List (W32 × W32)) : W32 := F32.ofNum (Num.sum false (ps.map fun p => (F32.num p.2).mul (F32.num p.1)))
def power (x : Num) : Nat → Num
  | 0 => .ofNat 1
  | 1 => x
  | n + 1 => (power x n).mul x

/-! Images and groups of registers. -/

/-- Word `k` of the image or group that a name gives in a strand. -/
def imgIn (y : Strand) (x : Name) (k : Nat) : W32 :=
  match x with
  | .v n => (y.reg (n + k)).bits
  | _ => 0

/-- The registers that an instruction writes from D at issue, where they are more than one result, and their tags. -/
def groupOf : Instr → Option (Nat × (Nat → Tag))
  | .cvtblkDec _ => some (32, fun _ => Ty.f32.tag)
  | .cvtblkEnc f => some (blkRegs f.ty + 1, fun j => if j = blkRegs f.ty then Ty.n32.tag else f.ty.tag)
  | .unpk4 f => some (4, fun _ => match f.ty with
      | .s8x4 | .i4o => Ty.s32.tag
      | .n8x4 => Ty.n32.tag
      | _ => Ty.f32.tag)
  | .rsvinit _ | .rsvupd _ | .rsvmerge _ | .rsvfin _ => some (8, fun _ => Tag.rsv)
  | .dset _ | .dtag _ | .dadd _ | .daddSub _ | .dmul _ => some (16, fun _ => Tag.dis)
  | _ => none

/-- A candidate weight as a reservoir takes it, and WSUM with a weight added, which never becomes infinite (R224). -/
def weightOf (b : W32) : W32 := if F32.lt 0 b = true ∧ (F32.num b).isFin = true then b else 0
def rsvSum (s w : W32) : W32 := if F32.add s w = F32.inf then F32.maxFin else F32.add s w

/-- Whether a reservoir keeps a candidate of weight `w`, with WSUM `s` and M `m` after it (R224): the draw of the seed, M, the
lane and the block, times WSUM, lies below w · 2³². -/
def rsvKeeps (e : Env) (l : Nat) (m s w : W32) : Bool :=
  ((Num.ofNat (mix32 (e.wav.seed ^^^ mix32 (m ^^^ BitVec.ofNat 32 l <<< 16 ^^^ BitVec.ofNat 32 e.blk.idx <<< 8))).toNat).mul
    (F32.num s)).lt ((F32.num w).mul (.ofNat (2 ^ 32)))

/-- The image `y` is the image `x` with a candidate streamed into it (R224, R225): of weight `w`, payload `pay` and target value
`phat`, counting as `n`; a cap on M scales WSUM with it. -/
def Streams (e : Env) (l : Nat) (w : W32) (n cap : Nat) (pay : Nat → W32) (phat : W32) (x y : Nat → W32) : Prop :=
  ∀ s m, s = rsvSum (x 5) (weightOf w) → m = min ((x 6).toNat + n) 0xFFFFFFFF →
    (∀ k, k < 4 → y k = if rsvKeeps e l (BitVec.ofNat 32 m) s (weightOf w) then pay k else x k) ∧
    (y 4 = if rsvKeeps e l (BitVec.ofNat 32 m) s (weightOf w) then phat else x 4) ∧
    (y 5 = if cap ≠ 0 ∧ cap < m then F32.ofNum (((F32.num s).mul (.ofNat cap)).div (.ofNat m)) else s) ∧
    (y 6).toNat = (if cap ≠ 0 ∧ cap < m then cap else m) ∧ y 7 = 0

/-- W of a finished reservoir (R226). -/
def finalW (x : Nat → W32) : W32 :=
  if x 6 = 0 ∨ F32.lt 0 (x 4) = false then 0
  else
    let d := F32.mul (F32.ofNum (.ofNat (x 6).toNat)) (x 4)
    if (F32.num d).isInf = true ∨ (F32.num d).isZero = true then 0 else F32.div (x 5) d

/-! Condensation (R233). -/

/-- Candidate `i` stands before candidate `j`: by value, NaN after every number, equal values by index. -/
def Before (cand : List (W32 × W32)) (i j : Nat) : Prop :=
  ∀ x y, x = F32.num (cand.getD i (0, 0)).1 → y = F32.num (cand.getD j (0, 0)).1 →
    if x.isNan = true then y.isNan = true ∧ i < j else y.isNan = true ∨ x.lt y = true ∨ x.eq y = true ∧ i < j

/-- The cost of merging two neighbours, and whether position `k` has the least of `n` costs: NaN above every number, the lowest
on ties. -/
def costOf (a b : W32 × W32) : W32 :=
  F32.mul (F32.div (F32.mul a.2 b.2) (F32.add a.2 b.2)) (F32.mul (F32.sub b.1 a.1) (F32.sub b.1 a.1))
def Cheaper (x y : W32) : Prop := F32.isNan x = false ∧ (F32.isNan y = true ∨ F32.lt x y = true)
def Least (c : Nat → W32) (n k : Nat) : Prop :=
  k < n ∧ (∀ j, j < n → ¬ Cheaper (c j) (c k)) ∧ ∀ j, j < k → Cheaper (c k) (c j)

/-- Two neighbours merged into one point: the weighted mean, held between them. -/
def MergeOf (a b m : W32 × W32) : Prop :=
  m.2 = F32.add a.2 b.2 ∧ ∃ y : W32,
    Picked .f32 false (fun p q => p.lt q) (fun _ _ => false) (F32.div (F32.fma a.2 a.1 (F32.mul b.2 b.1)) m.2).toNat a.1.toNat y.toNat ∧
    Picked .f32 false (fun p q => q.lt p) (fun _ _ => false) y.toNat b.1.toNat m.1.toNat

/-- Points merged at the least cost until at most eight remain. -/
inductive MergesTo : List (W32 × W32) → List (W32 × W32) → Prop where
  | few (ps : List (W32 × W32)) : ps.length ≤ 8 → MergesTo ps ps
  | merge (pre rest qs : List (W32 × W32)) (a b m : W32 × W32) : 8 < (pre ++ a :: b :: rest).length →
      Least (fun j => costOf ((pre ++ a :: b :: rest).getD j (0, 0)) ((pre ++ a :: b :: rest).getD (j + 1) (0, 0)))
        ((pre ++ a :: b :: rest).length - 1) pre.length →
      MergeOf a b m → MergesTo (pre ++ m :: rest) qs → MergesTo (pre ++ a :: b :: rest) qs

/-- The words of a distribution image of points and a lineage mask (R229). -/
def ImageOf (ps : List (W32 × W32)) (lin : Nat) (w : Nat → W32) : Prop :=
  natBits (w 0).toNat 3 0 = ps.length ∧ natBits (w 0).toNat 15 4 = 0 ∧ natBits (w 0).toNat 31 16 = lin ∧
  (∀ k, k < 8 → w (1 + k) = (ps.map (·.1)).getD k 0) ∧
  ∀ k, k < 7 → w (9 + k) = if k + 1 < ps.length then (ps.map (·.2)).getD k 0 else 0

/-- The image that condensation makes of candidates: sorted, without zero weights, merged; the failed image where none remains. -/
def Condenses (cand : List (W32 × W32)) (lin : Nat) (w : Nat → W32) : Prop :=
  ∃ order : List Nat, order.Perm (List.range cand.length) ∧ order.Pairwise (Before cand) ∧
    ∀ q, q = (order.map fun i => cand.getD i (0, 0)).filter (fun p => !(F32.num p.2).isZero) →
      if q = [] then ImageOf [(F32.qnan, F32.one)] 0 w else ∃ ps, MergesTo q ps ∧ ImageOf ps lin w

/-- An operand of `dadd` and `dmul`: an image, or an `f32` value of weight 1 without lineage (R222, R232); and the candidates
that two operands give (R232). -/
def distOf (e : Env) (f : Fields) (x : Name) (i l : Nat) : Dist :=
  if f.imm.getLsbD i then ⟨[((src e x .f32 l).bits.setWidth 32, F32.one)], 0⟩ else Dist.ofWords (imgIn (e.lane l) x)
def candidates (op : W32 → W32 → W32) (a b : Dist) : List (W32 × W32) :=
  if a.lin &&& b.lin = 0 then (a.pts.map fun p => b.pts.map fun q => (op p.1 q.1, F32.mul p.2 q.2)).flatten
  else (List.range a.pts.length).map fun i =>
    (op (a.pts.getD i (0, 0)).1 (b.pts.getD (min i (b.pts.length - 1)) (0, 0)).1, (a.pts.getD i (0, 0)).2)

/-- The instruction completes and writes no result of one register; in each acting lane what it leaves is as `P` says. -/
def Leaves (i : Instr) (P : Env → Run → Nat → Strand → Prop) : Prop :=
  ∀ s e f sh r, Ready i s e f sh r → ∃ t v, exec i s = .next t ∧ t.wav? e.wid = some v ∧ Moved e r v ∧
    ∀ l ∈ e.acting f.guard r, P e r l (v.lane l)

/-- A distribution image as R229 writes it: N from 1 to 8, the reserved bits 0, +0 beyond the last point. -/
def WholeImage (w : Nat → W32) : Prop :=
  1 ≤ natBits (w 0).toNat 3 0 ∧ natBits (w 0).toNat 3 0 ≤ 8 ∧ natBits (w 0).toNat 15 4 = 0 ∧
  (∀ k, natBits (w 0).toNat 3 0 ≤ k → k < 8 → w (1 + k) = 0) ∧
  ∀ k, natBits (w 0).toNat 3 0 ≤ k + 1 → k < 7 → w (9 + k) = 0

/-- Whether `spcast.off` fails on an address: `spc` WIN 0 or 1 (R147, R148); and the offset it gives. -/
def offFails (a : W64) : Bool :=
  match window a with
  | .none | .glob _ => true
  | .sp st _ => decide (191 < st)
  | _ => false
def offOf (a : W64) : W64 :=
  match window a with
  | .priv _ => (a.setWidth 32).setWidth 64
  | _ => (a.setWidth 24).setWidth 64

/-! Memory instructions. -/

/-- The invariant of the machine: memory, scratchpads, private memory, its tangent planes and register files have their
canonical form, pages whose leaves are valid lie at multiples of their size (R149), a wavelet has a lane for each strand of its
width, and no return stack holds more than its 16 entries (R280). -/
def Canonical (s : State) : Prop :=
  Memory.wf s.mem = true ∧ (∀ b ∈ s.blocks, Sparse.wf 0 b.2.scratch = true) ∧
  (∀ j ∈ s.jobs, ∀ p ∈ j.2.pages, Leaf.valid p.2 = true → p.1 % Leaf.size p.2 = 0) ∧
  ∀ v ∈ s.wavs, v.2.lanes.length = v.2.width ∧ ∀ x ∈ v.2.lanes,
    Sparse.wf ({} : Reg) x.regs = true ∧ Sparse.wf 0 x.priv = true ∧ Sparse.wf 0 x.planes = true ∧ x.stack.length ≤ 16

/-- The address of a memory instruction in a lane (R119). -/
def addr (e : Env) (f : Fields) (l : Nat) : W64 := e.readPtr l f.a + f.offset

/-- What a memory instruction moves. -/
structure Move where
  dir    : Dir
  /-- Bytes of a lane outside the global window; on a page, none is `E_FMT` (R153). -/
  n      : Nat
  glob   : Leaf → Option Nat
  /-- Whether the tangent planes of a page move too (R86). -/
  planes : Bool
  /-- Whether the private tangent plane words do (R67). -/
  words  : Bool
  /-- Registers that take what is read, and their tag. -/
  regs   : Nat
  tag    : Tag

/-- The memory instructions (R310, R349, R270, R272, R228). -/
def moveOf : Instr → Option Move
  | .ld f => some ⟨.load, f.ty.regBytes, fmtBytes f.ty, true, f.ty.hasTan, if f.ty.wide then 2 else 1, f.ty.tag⟩
  | .st f => some ⟨.store, f.ty.regBytes, fmtBytes f.ty, true, true, 0, 0⟩
  | .rsvld _ => some ⟨.load, 32, imgBytes 32, false, false, 8, Tag.rsv⟩
  | .rsvst _ => some ⟨.store, 32, imgBytes 32, false, true, 0, 0⟩
  | .dld _ => some ⟨.load, 64, imgBytes 64, false, false, 16, Tag.dis⟩
  | .dsto _ => some ⟨.store, 64, imgBytes 64, false, true, 0, 0⟩
  | .atomAdd f | .atomMin f | .atomMax f | .atomAnd f | .atomOr f | .atomXor f | .atomExch f | .atomcas f =>
    some ⟨.atomic, f.ty.regBytes, atomBytes f.ty, false, false, if f.ty.wide then 2 else 1, f.ty.tag⟩
  | _ => none

/-- Whether tangent planes move where an access goes. -/
def Move.deep (m : Move) (sp : Spot) : Bool := match sp.loc with | .priv _ => m.words | _ => m.planes

/-- Bytes that a lane moves at an address, and the alignment it needs there (R145, R146). -/
def Move.bytes (m : Move) (e : Env) (a : W64) : Nat := match e.page? a with | some p => (m.glob p.2).getD m.n | none => m.n
def Move.align (m : Move) (e : Env) (a : W64) : Nat :=
  match window a, e.page? a with
  | .glob _, none => 1
  | _, _ => m.bytes e a

/-- Nothing of R146 or R153 stops a lane of `ls`. -/
def Checked (m : Move) (e : Env) (f : Fields) (ls : List Nat) : Prop :=
  ∀ l ∈ ls, e.winCause (addr e f l) = none ∧ (addr e f l).toNat % m.align e (addr e f l) = 0 ∧
    ∀ p, e.page? (addr e f l) = some p → (m.glob p.2).isSome = true

/-- Every lane of `ls` may perform its access, at `spot l`: no page fault, no unit that fails its check. -/
def Lands (m : Move) (s : State) (e : Env) (f : Fields) (ls : List Nat) (spot : Nat → Spot) : Prop :=
  Checked m e f ls ∧ e.wav.failing = [] ∧ ∀ l ∈ ls,
    e.spot m.dir m.planes (fun p => (m.glob p).getD m.n) (addr e f l) l = some (spot l) ∧
    s.fails e m.dir (m.deep (spot l)) (m.bytes e (addr e f l)) (spot l) l = false

/-- No lane of `ls` would write a unit on whose barrier object a lane waits (R37). -/
def NoWaiter (m : Move) (s : State) (ls : List Nat) (spot : Nat → Spot) : Prop :=
  ∀ l ∈ ls, ∀ b off, (spot l).loc = .scr b off → ∀ i, i < (m.n + 15) / 16 → s.wt b (off / 16 + i) = false

/-- The destinations of a memory instruction are empty, and outstanding work of the wavelet will fill them with `x`, whose
tangents `ts` go to the first register as far as it keeps them (R63). -/
def Pending (m : Move) (e : Env) (f : Fields) (ls : List Nat) (x : Nat → Nat) (ts : Nat → List W32) (t : State) (v : Wavelet) : Prop :=
  ∀ n, f.d = .v n → ∀ l ∈ ls, ∀ j, j < m.regs → ((v.lane l).reg (n + j)).full = false ∧
    ∃ o fs z, o ∈ t.ops ∧ o.wid = e.wid ∧ (o.work = .load fs ∨ o.work = .atomic fs) ∧ z ∈ fs ∧ z.lane = l ∧ z.reg = n + j ∧
      z.val.bits = BitVec.ofNat 32 (x l >>> (32 * j)) ∧ z.val.tag = m.tag ∧ z.val.full = true ∧
      z.val.tan = if j = 0 then e.shadow n (ts l) else []

/-- What a load reads at a spot, as a register or pair holds it: the bytes as they stand, or each element converted from
the page's format (R153). -/
def Loaded (i : Instr) (m : Move) (s : State) (e : Env) (l : Nat) (sp : Spot) (x : Nat) : Prop :=
  match i, sp.page with
  | .ld f, some p =>
    if fmtRaw f.ty p.2 then x = s.readLoc e.wid l sp.loc m.n
    else ∀ j, j < f.ty.perReg → (f.ty.elems x).getD j 0 = (cvtElem p.2.fmt f.ty e.ftz 0 (!f.ty.isFloat) 0
      ((splitBits p.2.fmt.elemBits f.ty.perReg (s.readLoc e.wid l sp.loc ((m.glob p.2).getD 0))).getD j 0)).bits
  | _, _ => x = s.readLoc e.wid l sp.loc m.n

/-- Whether the conversion of an element from or to a page's format clamps it or sets CNVSAT, so that its planes give and
take +0 (R87). -/
def clamps (st dt : Ty) (raw ftz : Bool) (x : Nat) : Bool := !raw && (cvtElem st dt ftz 0 (!dt.isFloat) 0 x).cnv

/-- The tangents that a load brings: of a page with planes their elements (R85, R87), of the private window its plane words
(R67), of any other place none; images bring none, nor does a word with TM set (R121). -/
def LoadedTan (i : Instr) (m : Move) (s : State) (e : Env) (l : Nat) (sp : Spot) (ts : List W32) : Prop :=
  match i with
  | .ld f =>
    if f.tz || !f.ty.hasTan then ts = []
    else match sp.page, sp.loc with
      | some (p, lf), _ => ∀ n, m.glob lf = some n → ∀ k j, k < e.K → j < f.ty.perReg → (⟨0, f.ty.tag, ts⟩ : Val).tanEl f.ty k j =
          if decide (k < lf.tp) && !clamps lf.fmt f.ty (fmtRaw f.ty lf) e.ftz
              ((splitBits (Ty.elemBits lf.fmt) f.ty.perReg (s.readLoc e.wid l sp.loc n)).getD j 0) then
            match e.job.phys .load (planeVa p lf k ((planeSpan lf (sp.va - p) n).1 + j)) with
            | some q => F32.ofBf (Sparse.readN s.mem q 2)
            | none => 0
          else 0
      | none, .priv off => ∀ k, ts.getD k 0 =
          if k < min e.K (Hdr.planes e.task.hdr) then Sparse.get 0 (e.lane l).planes (privKey k off) else 0
      | none, _ => ts = []
  | _ => ts = []

/-- What a store leaves at a spot (R153, R228). -/
def StoredAs (i : Instr) (m : Move) (t : State) (e : Env) (l : Nat) (sp : Spot) : Prop :=
  match i, sp.page with
  | .st f, some p =>
    if fmtRaw f.ty p.2 then t.readLoc e.wid l sp.loc m.n = srcN e f.b f.ty l
    else ∀ j, j < f.ty.perReg → (splitBits p.2.fmt.elemBits f.ty.perReg (t.readLoc e.wid l sp.loc ((m.glob p.2).getD 0))).getD j 0 =
      (cvtElem f.ty p.2.fmt e.ftz 0 (!Ty.isFloat p.2.fmt) 0 (elem f.ty (src e f.b f.ty l) j)).bits
  | .st f, none => t.readLoc e.wid l sp.loc m.n = srcN e f.b f.ty l
  | .rsvst f, _ | .dsto f, _ => ∀ k, k < m.n / 4 →
      (splitBits 32 (m.n / 4) (t.readLoc e.wid l sp.loc m.n)).getD k 0 = (imgIn (e.lane l) f.b k).toNat
  | _, _ => False

/-- What a store leaves in tangent planes: on a page the plane elements of the bytes stored take the value's components, +0
beyond K and for an element that was clamped (R85, R87); in the private window the plane words take its words, and every
other plane word that the store covers +0 (R67). -/
def StoredTan (i : Instr) (m : Move) (t : State) (e : Env) (l : Nat) (sp : Spot) (y : Strand) : Prop :=
  match sp.page, sp.loc with
  | some (p, lf), _ => ∀ f, i = .st f → ∀ n, m.glob lf = some n → ∀ k j q, k < lf.tp → j < (planeSpan lf (sp.va - p) n).2 →
      e.job.phys .store (planeVa p lf k ((planeSpan lf (sp.va - p) n).1 + j)) = some q →
      Sparse.readN t.mem q 2 =
        if decide (k < e.K) && !(decide (j < f.ty.perReg) && clamps f.ty lf.fmt (fmtRaw f.ty lf) e.ftz (elem f.ty (src e f.b f.ty l) j))
        then F32.toBf (tanConv f.ty .bf16 (srcT e f.b f.ty l k j)) else 0
  | none, .priv off => ∀ k j, k < Hdr.planes e.task.hdr → 4 * j < m.n → Sparse.get 0 y.planes (privKey k (off + 4 * j)) =
      match i with
      | .st f => if j = 0 ∧ k < e.K ∧ f.ty.hasTan = true then (src e f.b f.ty l).word k else 0
      | _ => 0
  | _, _ => True

/-- What an atomic writes over `old` (R270, R272); `new = none` where it writes nothing. -/
def AtomNew (i : Instr) (e : Env) (l : Nat) (old : Nat) (new : Option Nat) : Prop :=
  match i with
  | .atomAdd f => new = some (if f.ty.isFloat then
        Fmt.f32.rn ((Ty.num .f32 false old).add false (Ty.num .f32 false (srcN e f.b f.ty l)))
      else (old + srcN e f.b f.ty l) % 2 ^ f.ty.elemBits)
  | .atomMin f => ∃ y, new = some y ∧ Picked f.ty false (fun a b => b.lt a) (fun a b => decide (b < a)) old (srcN e f.b f.ty l) y
  | .atomMax f => ∃ y, new = some y ∧ Picked f.ty false (fun a b => a.lt b) (fun a b => decide (a < b)) old (srcN e f.b f.ty l) y
  | .atomAnd f => new = some (old &&& srcN e f.b f.ty l)
  | .atomOr f => new = some (old ||| srcN e f.b f.ty l)
  | .atomXor f => new = some (old ^^^ srcN e f.b f.ty l)
  | .atomExch f => new = some (srcN e f.b f.ty l)
  | .atomcas f => new = if old = srcN e f.b f.ty l then some (srcN e f.c f.ty l) else none
  | _ => False

/-- The accesses of the lanes, their tangent plane elements among them (R84), share no byte and no unit of a barrier
object. -/
def Apart (m : Move) (s : State) (e : Env) (f : Fields) (ls : List Nat) (spot : Nat → Spot) : Prop :=
  (∀ l ∈ ls, ∀ k ∈ ls, l ≠ k → ∀ x ∈ e.foot m.dir m.planes (m.bytes e (addr e f l)) (spot l),
    ∀ y ∈ e.foot m.dir m.planes (m.bytes e (addr e f k)) (spot k), x.1.meets y.1 x.2 y.2 = false) ∧
  (∀ l ∈ ls, (e.foot m.dir m.planes (m.bytes e (addr e f l)) (spot l)).Pairwise fun x y => x.1.meets y.1 x.2 y.2 = false) ∧
  ∀ l ∈ ls, ∀ b off, (spot l).loc = .scr b off → ∃ k, s.blk? b = some k ∧ ∀ u ∈ k.objs, off + m.n ≤ 16 * u ∨ 16 * u + 16 ≤ off

/-- Whether a lane's store writes the byte at a location of lane `l` of wavelet `w`: the bytes of its spot, and the plane
elements on a tangent page (R84, R86). -/
def Stores (m : Move) (e : Env) (f : Fields) (spot : Nat → Spot) (k : Nat) (w : WavId) (l : Nat) (a : Loc) : Prop :=
  (match (spot k).loc, a with
    | .mem p, .mem q => p ≤ q ∧ q < p + m.bytes e (addr e f k)
    | .priv p, .priv q => w = e.wid ∧ l = k ∧ p ≤ q ∧ q < p + m.n
    | .scr b p, .scr c q => b = c ∧ p ≤ q ∧ q < p + m.n
    | _, _ => False) ∨
  m.planes = true ∧ ∃ p va q pa, (spot k).page = some p ∧ va ∈ planeVas p.1 p.2 (spot k).va (m.bytes e (addr e f k)) ∧
    e.job.phys .store va = some q ∧ a = .mem pa ∧ q ≤ pa ∧ pa < q + 2

/-- The frame of a load: memory reads everywhere as before; beside its registers it may change outstanding work and
what the caches keep. -/
def LoadFrame (k : Writes) (s : State) (e : Env) (f : Fields) (r : Run) (t : State) : Prop :=
  t = { s with wavs := t.wavs, ops := t.ops, nextOp := t.nextOp, llc := t.llc, charges := t.charges, clusters := t.clusters } ∧
  (∀ w l a, t.readLoc w l a 1 = s.readLoc w l a 1) ∧ OthersKept k s e f r t

/-- The frame of a store or an atomic: every byte outside those that its acting lanes store reads as before, and so does
every private plane word but those that a lane's store to its private window covers (R67). -/
def StoreFrame (m : Move) (k : Writes) (spot : Nat → Spot) (s : State) (e : Env) (f : Fields) (r : Run) (t : State) : Prop :=
  (∀ w l a, (∀ j ∈ e.acting f.guard r, ¬ Stores m e f spot j w l a) → t.readLoc w l a 1 = s.readLoc w l a 1) ∧
  t = { s with mem := t.mem, checks := t.checks, blocks := t.blocks, wavs := t.wavs, ops := t.ops, nextOp := t.nextOp,
               llc := t.llc, charges := t.charges, clusters := t.clusters, free := t.free } ∧
  (∀ b x, s.blk? b = some x → ∃ y, t.blk? b = some y ∧ y = { x with scratch := y.scratch, past := y.past }) ∧
  (∀ w, w ≠ e.wid → t.wav? w = s.wav? w) ∧ ∃ v, t.wav? e.wid = some v ∧ v.lanes.length = e.wav.lanes.length ∧
    v = { e.wav with lanes := v.lanes, run := v.run, stall := v.stall, replay := v.replay, marks := v.marks, tried := v.tried,
                     failing := v.failing, checks := v.checks } ∧
    ∀ l, LaneKept k ((e.acting f.guard r).contains l) (r.lanes.has l) (e.lane l)
        { (v.lane l) with priv := (e.lane l).priv, planes := (e.lane l).planes } ∧
      ∀ q, Sparse.get 0 (v.lane l).planes q = Sparse.get 0 (e.lane l).planes q ∨
        l ∈ e.acting f.guard r ∧ m.dir = .store ∧ ∃ off k j, (spot l).loc = .priv off ∧ k < Hdr.planes e.task.hdr ∧ 4 * j < m.n ∧
          q = privKey k (off + 4 * j)

/-- What the lanes of a memory instruction that perform their accesses do (R151): the outstanding work of a load carries
what memory holds, a store writes its value, an atomic its new one over the old, which its work carries. That they do so in
the step of issue is log 3. -/
def Performs (i : Instr) (m : Move) (s : State) (e : Env) (f : Fields) (good : List Nat) (spot : Nat → Spot) (t : State)
    (v : Wavelet) : Prop :=
  (∀ w l a, (∀ j ∈ good, m.dir = .load ∨ ¬ Stores m e f spot j w l a) → t.readLoc w l a 1 = s.readLoc w l a 1) ∧
  match m.dir with
  | .load => ∃ x ts, Pending m e f good x ts t v ∧ ∀ l ∈ good, Loaded i m s e l (spot l) (x l) ∧ LoadedTan i m s e l (spot l) (ts l)
  | .store => Apart m s e f good spot → ∀ l ∈ good, StoredAs i m t e l (spot l) ∧ StoredTan i m t e l (spot l) (v.lane l)
  | .atomic => Apart m s e f good spot → Pending m e f good (fun l => s.readLoc e.wid l (spot l).loc m.n) (fun _ => []) t v ∧
      ∀ l ∈ good, ∃ new, AtomNew i e l (s.readLoc e.wid l (spot l).loc m.n) new ∧
        t.readLoc e.wid l (spot l).loc m.n = new.getD (s.readLoc e.wid l (spot l).loc m.n)

/-- Where the lanes of a memory instruction go: the spots, the lanes on a page that is not there, the units of a lane that fail
their check, the lanes that have one, and those that perform. -/
structure Parting where
  spot   : Nat → Option Spot
  absent : List Nat
  units  : Nat → List UnitKey
  broken : List Nat
  good   : List Nat

/-- How the lanes `ls` part (R151, R165, R166). -/
def parting (m : Move) (s : State) (e : Env) (f : Fields) (ls : List Nat) : Parting :=
  let spot := fun (l : Nat) => e.spot m.dir m.planes (fun p => (m.glob p).getD m.n) (addr e f l) l
  let units := fun (l : Nat) => match spot l with
    | some x => s.failing e m.dir (m.deep x) (m.bytes e (addr e f l)) x l
    | none => []
  ⟨spot, ls.filter fun l => (spot l).isNone, units, ls.filter fun l => !(units l).isEmpty,
    ls.filter fun l => (spot l).isSome && (units l).isEmpty⟩

/-- The place of a lane that goes somewhere. -/
def Parting.at (p : Parting) (l : Nat) : Spot := (p.spot l).getD ⟨.mem 0, none, 0⟩

/-- The lanes that have a failing unit whose refetch has not been tried (R165). -/
def Parting.fresh (p : Parting) (e : Env) : List Nat := p.broken.filter fun l => (p.units l).any fun u => !e.wav.tried.contains u

/-- Lanes marked with the addresses that they access. -/
def marked (e : Env) (f : Fields) (ls : List Nat) : List (Nat × W64) := ls.map fun l => (l, addr e f l)

/-- A word that is issued again for lanes of a memory access (R151, R181): the checks of R60 let it pass, and its
destinations still bear its marks. -/
def Again (i : Instr) (s : State) (e : Env) (f : Fields) (sh : Shape) (r : Run) : Prop :=
  Issues i s e f sh r ∧ WordOk i e f r ∧ e.wav.replay.isSome = true ∧ gate i f sh e r (e.acting f.guard r) true = .pass ∧
  ∀ l ∈ e.acting f.guard r, ∀ k ∈ dests f sh, ((e.lane l).reg k).full = false

/-! Control, waiting and barriers. -/

/-- The bundle has moved past a control or waiting instruction whose effect waits for the seal (R25). -/
def Defers (e : Env) (r : Run) (d : Deferred) (v : Wavelet) : Prop :=
  v.run = some { r with count := r.count + 1, mustSeal := true, deferred := some d } ∧ v.stall = .none ∧ v.replay = none ∧
  ∀ l ∈ bundle e r, (v.lane l).pc = (e.lane l).pc + 12

/-- The target of a direct transfer (R119). -/
def target (e : Env) (f : Fields) (r : Run) : W64 := (ctx e f r).pc + 12 * f.imm32.signExtend 64

/-- The effect that a control or waiting instruction leaves to the seal, where it is decided at issue (R276, R308, R303,
R306, R328, R347, R283). -/
def deferOf (e : Env) (r : Run) : Instr → Option Deferred
  | .bra f | .jmp f => some (.goto ((e.acting f.guard r).map fun l => (l, target e f r)))
  | .jmpInd f => some (.goto ((e.acting f.guard r).map fun l => (l, e.readPtr l f.a)))
  | .exit f => some (.exit (Mask.ofLanes (e.acting f.guard r)))
  | .fwait f => some (.wait ((e.acting f.guard r).map fun l => (l, .regs (Name.mains f.a 1 ++ Name.mains f.b 1 ++ Name.mains f.c 1))))
  | .splwait f | .collwait f => some (.wait ((e.acting f.guard r).map fun l => (l, .regs (Name.mains f.a 1))))
  | .mwait f => some (.wait ((e.acting f.guard r).map fun l => (l, .mwait f.d)))
  | _ => none

/-- The grid of a wavelet runs on: nothing stops it at its seal (R43, R253), and its block has not ended. -/
def RunsOn (e : Env) : Prop :=
  e.span.stage = .running ∧ e.task.cause = 0 ∧ e.blk.ended = false ∧ e.wid.blk < e.span.blocks

/-- The lanes of a bundle that a seal ends (R303). -/
def exits (r : Run) (l : Nat) : Bool := match r.deferred with | some (.exit m) => m.has l | _ => false

/-- D takes the status of a released lane (R34, R274); one that an `mma` has marked empty meanwhile keeps its mark
(log 20). -/
def Took (d : Name) (st : W32) (x y : Strand) : Prop :=
  ∀ n, d = .v n → y.reg n = if (x.reg n).full then { bits := st, tag := Ty.n32.tag } else x.reg n

/-- What a lane of a waiting instruction does at the seal (R25, R28, R274, R306, R328): it blocks as the instruction says, or
goes on where what it waits for is there already. -/
def Waits (s : State) (e : Env) (w : Option Wait) (x y : Strand) : Prop :=
  match w with
  | none => y.wait = .none
  | some (.regs rs) => y.wait = if rs.all fun n => (x.reg n).full then .none else .regs rs
  | some (.known d st) => y.wait = .none ∧ Took d st x y
  | some (.bar b off tk d) => match (s.obj b off).passes tk with
    | some st => y.wait = .none ∧ Took d st x y
    | none => y.wait = .bar b off tk d
  | some (.barwait b off tk d) => match (s.obj b off).passes tk with
    | some st => y.wait = .none ∧ Took d st x y
    | none => y.wait = .barwait b off tk d
  | some (.mwait d) =>
    if (s.matrixOps e.wid.block).any fun o => o.1.wid == e.wid then y.wait = .mwait d
    else y.wait = .none ∧ Took d (BitVec.ofNat 32 (statusWord (e.blk.fail.getD (0, 0)).1 (e.blk.fail.getD (0, 0)).2)) x y
  | some _ => True

/-- The lanes name barrier objects, at `obj l` (R30). -/
def OnObjects (e : Env) (f : Fields) (ls : List Nat) (obj : Nat → BlkId × Nat) : Prop :=
  ∀ l ∈ ls, e.scr (addr e f l) = .ok (obj l) ∧ (addr e f l).toNat % 16 = 0

/-- No object refuses the arrivals of the lanes (R31, R32). -/
def Admits (s : State) (ls : List Nat) (obj : Nat → BlkId × Nat) : Prop :=
  ∀ l ∈ ls, ∀ o, o = s.obj (obj l).1 (obj l).2 → o.ok = true ∧
    (o.inv = true ∨ (ls.filter fun k => obj k == obj l).length ≤ (o.exp - o.arr) + (o.exp - o.hld))

/-- The ticket of the arrival that finds `k` earlier ones of its bundle (R32). -/
def ticket (o : Obj) (k : Nat) : W32 :=
  if o.inv then 0xFFFFFFFF
  else if o.arr + k < o.exp then BitVec.ofNat 32 (o.ph * o.exp + o.arr + k)
  else BitVec.ofNat 32 ((o.ph + 1) * o.exp + o.hld + (k - (o.exp - o.arr)))

/-- The lanes blocked on an object whose tickets meet a test are let go, with a status in D, and wait to wake as one release; the
others stay as they are (R32, R36, R256). Nothing is said of the lanes that `skip` names. -/
def LetGo (s t : State) (b : BlkId × Nat) (p : W32 → Bool) (st : W32) (skip : WavId → Nat → Bool) : Prop :=
  ∃ k, ∀ w v l, s.wav? w = some v → w.span = b.1.span → skip w l = false → ∃ y, t.wav? w = some y ∧
    match (v.lane l).wait with
    | .bar o off tk d | .barwait o off tk d =>
      if (o, off) = b ∧ p tk = true then (y.lane l).wait = .wake k ∧ Took d st (v.lane l) (y.lane l)
      else (y.lane l).wait = (v.lane l).wait
    | x => (y.lane l).wait = x

/-- A ticket that the completion of an object's phase releases (R32). -/
def freed (o : Obj) (tk : W32) : Bool :=
  let d := (BitVec.ofNat 32 ((o.ph + 1) % 2 ^ 32 * o.exp) - tk).toNat
  decide (1 ≤ d ∧ d ≤ 2 ^ 31)

/-! Tasks. -/

/-- A launch record that a `task` submits (R242, R243, R245, R246): the status that it writes, and the machine after it. A
record that a test refuses submits nothing; one that is accepted stands in its queue with its header, kernel record and
regions, under the next grid number. -/
def Submits (ctx : Nat) (h : Hdr) (rs : List Region) (s : State) (st : Nat) (t : State) : Prop :=
  if Hdr.ok h rs = false then st = 2 ∧ t = s
  else match (s.job ctx).queues.find? (fun q => q.qid == Hdr.qid h), Assoc.get? (s.job ctx).kernels (Hdr.krec h).toNat with
    | none, _ => st = 3 ∧ t = s
    | some _, none => st = 4 ∧ t = s
    | some q, some k =>
      if Kern.fits k (Hdr.bsz h) = false ∨ (s.job ctx).sigMapped h = false then st = 2 ∧ t = s
      else if q.cap ≤ (s.queued ctx (Hdr.qid h)).length then st = 1 ∧ t = s
      else st = 0 ∧ t = { s with tasks := t.tasks, jobs := t.jobs, nextOp := s.nextOp + 1 } ∧
        t.job ctx = { s.job ctx with accepted := (s.job ctx).accepted + 1 } ∧ (∀ c, c ≠ ctx → t.job c = s.job c) ∧
        (∀ n, n ≠ s.nextOp → t.task? n = s.task? n) ∧ ∃ x, t.task? s.nextOp = some x ∧ x.ctx = ctx ∧ x.qid = Hdr.qid h ∧
          x.hdr = h ∧ x.kern = k ∧ x.origin = (s.job ctx).origin (Hdr.krec h) ∧ x.regions = rs.take (Hdr.nreg h) ∧ x.stage = .queued ∧
          x.grid = (s.job ctx).accepted % 2 ^ 32 ∧ x.next = 0 ∧ x.ended = 0 ∧ x.cause = 0

/-- The records of the lanes, submitted one after the other (R246). -/
def SubmitsAll (ctx : Nat) (record st : Nat → Nat) : List Nat → State → State → Prop
  | [], s, t => t = s
  | l :: ls, s, t => ∃ u, Submits ctx (splitRecord (record l)).1 (splitRecord (record l)).2 s (st l) u ∧ SubmitsAll ctx record st ls u t

/-! Engines. -/

/-- The first test that is met, with the cause and the address that it gives. -/
def firstOf (xs : List (Bool × Nat × W64)) : Option (Nat × W64) := (xs.find? (·.1)).map (·.2)

/-- Bytes that an `mld` with pitch, role and N − 1 reads of a scratchpad (R323, R324). -/
def tileBytes (t : Ty) (pitch role n : Nat) : Nat :=
  if role = 2 then
    max (127 * pitch + Ty.memBytes t ((tileSize t 0).2 / 32 * (8 * (n + 1)))) (128 * pitch + 128 * ((tileSize t 0).2 / 32 * (8 * (n + 1))))
  else ((tileSize t role).1 - 1) * pitch + Ty.memBytes t (tileSize t role).2

/-- The tests of `mld` at issue, in their order (R146, R323): the windows, the alignment, the fields, the scratchpad
allocation, the slot. -/
def mldTests (e : Env) (f : Fields) (trans : Bool) (l : Nat) : List (Bool × Nat × W64) :=
  let a := addr e f l
  let w := srcN e f.b .n32 l
  let pitch := srcN e f.c .n32 l
  let role := natBits w 5 4
  let n := natBits w 7 6
  [(e.engCause a == some eSpace, eSpace, a), (e.engCause a == some eSpforeign, eSpforeign, a),
   (a.toNat % (if trans then 32 else 16) != 0, eAlign, a),
   (decide (256 ≤ w) || role == 3 || n == 3 || (role == 2 && f.ty == .f64) || pitch % 16 != 0 ||
      (trans && (role == 2 || !isGlob a)), eIll, 0),
   (match e.scr a with | .ok (_, off) => decide (e.alloc < off + tileBytes f.ty pitch role n) | .error _ => false, eSpace, a),
   (!e.blk.holds (natBits w 3 0), eSlot, 0)]

/-- The tests of `mconst` at issue, in their order (R319, R146): those of B's window for `.perm` alone. -/
def mconstTests (e : Env) (f : Fields) (kind l : Nat) : List (Bool × Nat × W64) :=
  let w := srcN e f.a .n32 l
  let p := e.readPtr l f.b
  [(kind == 2 && e.ownCause p == some eSpace, eSpace, p), (kind == 2 && e.ownCause p == some eSpforeign, eSpforeign, p),
   (decide (32 ≤ w), eIll, 0),
   (kind == 2 && decide (e.alloc < p.toNat % 2 ^ 24 + (tileSize f.ty (natBits w 4 4)).1), eSpace, p),
   (!e.blk.holds (natBits w 3 0), eSlot, 0)]

/-- The parameter block of `mma` and `mdual`, and its placements (R201, R202, R320). -/
def parOf (s : State) (e : Env) (f : Fields) (l : Nat) : Par :=
  BitVec.ofNat 512 (s.scrRead e.wid.block ((e.readPtr l f.a).toNat % 2 ^ 24) 64)
def placesOf (s : State) (e : Env) (p : Par) (dual : Bool) : Option (List Place) :=
  Par.places p dual e.blk.width (s.wavsOf e.wid.block).length

/-- The tests of `mma` and `mdual` at issue, in their order (R146, R320, R321): the window and the alignment of the parameter
block, its form, the slots, their formats, a named wavelet that has exited, an accumulator that is pending. -/
def mmaTests (s : State) (e : Env) (f : Fields) (dual : Bool) (l : Nat) : List (Bool × Nat × W64) :=
  let a := e.readPtr l f.a
  let p := parOf s e f l
  let named := (((placesOf s e p dual).getD []).map fun x => x.wvs.map fun i => (s.wav? (wavOf e.wid.block i), x.mains)).flatten
  [(e.ownCause a == some eSpace, eSpace, a), (e.ownCause a == some eSpforeign, eSpforeign, a), (a.toNat % 64 != 0, eAlign, a),
   (!Par.wellFormed p dual (placesOf s e p dual), eIll, 0), (!(Matrix.mma dual p).uses.all e.blk.holds, eSlot, 0),
   (!s.slotsFit e.wid.block p dual, eFmt, 0),
   (named.any fun x => match x.1 with | some v => v.live.isEmpty | none => true, eLanegone, 0),
   (named.any fun x => match x.1 with
      | some v => v.lanes.any fun y => x.2.any fun n => !(y.reg n).full
      | none => true, ePendwrite, 0)]

/-- The tests of the matrix instructions in the lane that acts for the bundle: of a claim the count that it makes, unless it was
granted one already, and of a release the slots that it names (R197, R317), and those above. -/
def matrixTests (s : State) (e : Env) (l : Nat) : Instr → List (Bool × Nat × W64)
  | .mclaim f =>
    let n := srcN e f.a .n32 l
    [(e.wav.granted.isNone && (n == 0 || decide (16 < n) || decide (e.kern.opm < n + e.blk.slots.length)), eSlot, 0)]
  | .mrel f => [((List.range 32).any fun n => (srcN e f.a .n32 l).testBit n && (decide (16 ≤ n) || !e.blk.holds n), eSlot, 0)]
  | .mld f => mldTests e f false l
  | .mldT f => mldTests e f true l
  | .mconstIdent f => mconstTests e f 0 l
  | .mconstExch f => mconstTests e f 1 l
  | .mconstPerm f => mconstTests e f 2 l
  | .mconstOnesrow f => mconstTests e f 3 l
  | .mconstOnescol f => mconstTests e f 4 l
  | .mconstShift f => mconstTests e f 5 l
  | .mma f => mmaTests s e f false l
  | .mdual f => mmaTests s e f true l
  | _ => []

/-- A matrix command is handed over (R178, R205): it stands last among the outstanding work, cancelled while a failure is
unreported. -/
def HandsOver (e : Env) (l : Nat) (m : Matrix) (s t : State) : Prop :=
  (∃ sub, t.ops = s.ops ++
    [⟨s.nextOp, e.wid, .matrix m ⟨e.wid, (e.lane l).fence, (e.lane l).fenced, sub⟩ e.blk.fail.isSome, s.steps⟩]) ∧ t.nextOp = s.nextOp + 1 ∧
  t.blk? e.wid.block = some { e.blk with fail := e.blk.fail.map fun x => (x.1, x.2 + 1) } ∧
  ∀ b, b ≠ e.wid.block → t.blk? b = s.blk? b

/-- What a lane of a texture read takes (R207, R208, R209, R354): of a malformed descriptor zeros and status 3; else, for some
free values of its coordinates and λ (log 4), the colour and the status of the levels that are there; and of a `texd` whose
levels are not there the border colour, with status 4 or 5. A descriptor that cannot be read gives values that nothing
states. -/
def Textured (s : State) (e : Env) (deferred lod : Bool) (bias : Int) (x : TexLane) (cs : List W32) (st : W32) : Prop :=
  ∀ d, s.record e x.desc = .ok d →
    if Tex.ok d then ∃ (k : Nat) (p : TexPick), State.texPlan { s with free := k } e lod bias x = some (d, p) ∧
      if deferred = true ∧ p.status ≠ 0 then cs = (List.range 4).map (Tex.border d) ∧ (st = 4 ∨ st = 5)
      else cs = (List.range 4).map (s.texColour e d p) ∧ st = BitVec.ofNat 32 p.status
    else cs = [0, 0, 0, 0] ∧ st = 3

/-- Whether a record counts on the barrier object at an offset of a block's scratchpad (R192, R193). -/
def counts (e : Env) (d : Req) (b : BlkId) (off : Nat) : Bool :=
  match e.scr (Req.bar d) with | .ok o => o == (b, off) | .error _ => false

/-- The bytes of the records stand in the CNT of their objects, but for objects that are invalid (R33, R36). -/
def Charged (s t : State) (e : Env) (recs : List Req) : Prop :=
  Canonical s → ∀ b off, off % 16 = 0 → (s.blk? b).isSome = true → ∀ o, o = s.obj b off →
    t.obj b off = if o.inv then o else { o with cnt := o.cnt + ((recs.filter fun d => counts e d b off).map Req.bytes).sum }

/-- Records submitted one after the other (R193), where each is taken: each with its submitting lane and what had gone before its
submission. -/
def submitted (e : Env) : State → List (Nat × Req × Clock) → Option State
  | s, [] => some s
  | s, x :: xs => match s.submitSeen e x.2.1 x.2.2 with | some t => submitted e t xs | none => none

/-- Records submitted one after the other, those that are refused left out; and the lanes of these with the objects that refuse them
(R33, R195). -/
def submitEach (e : Env) : State → List (Nat × Req × Clock) → State × List (Nat × W64)
  | s, [] => (s, [])
  | s, x :: xs => match s.submitSeen e x.2.1 x.2.2 with
    | some t => submitEach e t xs
    | none => ((submitEach e s xs).1, (x.1, Req.bar x.2.1) :: (submitEach e s xs).2)

/-- Records of lanes with what had gone before their submission, of which nothing is said but that it has all that the submitting
strand had done (R173). -/
def Submitted (s : State) (e : Env) (recs : List (Nat × Req)) (xs : List (Nat × Req × Clock)) : Prop :=
  (xs.map fun x => (x.1, x.2.1)) = recs ∧ ∀ x ∈ xs, Assoc.get? x.2.2 (e.wid, x.1) = some s.steps

/-- Records of which nothing has gone before their submission: whether they are refused does not depend on that. -/
def bare (recs : List (Nat × Req)) : List (Nat × Req × Clock) := recs.map fun x => (x.1, x.2, [])

/-- Bytes that a block has submitted on a channel: what the next record's start count is (R195). -/
def sentOf (s : State) (e : Env) (ch : Nat) : Val := ⟨((s.blk? e.wid.block).elim [] (·.sent)).getD ch 0, Ty.n64.tag, []⟩

/-- The scratchpad offset of a lane's ring header, and whether its address meets nothing (R146, R286). -/
def headAt (e : Env) (f : Fields) (l : Nat) : Nat := (e.readPtr l f.a).toNat % 2 ^ 24
def headOk (e : Env) (f : Fields) (l : Nat) : Bool := e.ownCause (e.readPtr l f.a) == none && (e.readPtr l f.a).toNat % 16 == 0

/-- The offsets of the records that a lane's ring gives it next; none where the ring is malformed or has fewer (R195). -/
def ringAt (s : State) (e : Env) (f : Fields) (l : Nat) : Option (List Nat) :=
  match ringOf (s.scrRead e.wid.block (headAt e f l) 16) with
  | some (head, rsize, rbase) =>
    if rsize < srcN e f.b .n32 l then none
    else some ((List.range (srcN e f.b .n32 l)).map fun j => rbase + 64 * ((head + j) % rsize))
  | none => none

/-- The records of the lanes of `cpkick` as they follow one another where every lane submits (R195). -/
def kickPlan (e : Env) (f : Fields) : State → List Nat → List (Nat × Option (List Nat))
  | _, [] => []
  | s, l :: ls =>
    if headOk e f l then
      (l, ringAt s e f l) ::
        kickPlan e f (if (ringAt s e f l).isSome then s.moveHead e.wid.block (headAt e f l) (srcN e f.b .n32 l) else s) ls
    else kickPlan e f s ls

/-- The lanes of `cpkick` submit one after the other, each all its records or none, and move HEAD, `seen` having gone before those of a
lane (R195, R33): the machine after them, the start counts of those that submit a record, and those that are refused with their
records. -/
def kicked (e : Env) (f : Fields) (seen : Nat → Clock) : State → List Nat → State × List (Nat × Val) × List (Nat × List Req)
  | s, [] => (s, [], [])
  | s, l :: ls =>
    let ds := ((ringAt s e f l).getD []).map fun o => (BitVec.ofNat 512 (s.scrRead e.wid.block o 64) : Req)
    match submitted e s (ds.map fun d => (l, d, seen l)) with
    | some u =>
      let r := kicked e f seen (u.moveHead e.wid.block (headAt e f l) (srcN e f.b .n32 l)) ls
      (r.1, (ds.head?.map fun d => (l, sentOf s e (Req.ch d))).toList ++ r.2.1, r.2.2)
    | none =>
      let r := kicked e f seen s ls
      (r.1, r.2.1, (l, ds) :: r.2.2)

/-- The addresses that a record names (R193), each with the cause that it meets in decoding and its alignment; BAR names a barrier
object (R30), and STAT 0 nothing. -/
def recordAddrs (e : Env) (d : Req) : List (W64 × Option Nat × Nat) :=
  [(Req.src d, e.engCause (Req.src d), 1), (Req.dst d, e.engCause (Req.dst d), 1),
   (Req.bar d, (match e.scr (Req.bar d) with | .error c => some c | .ok _ => none), 16)] ++
  if Req.stat d = 0 then [] else [(Req.stat d, e.engCause (Req.stat d), 4)]

/-- The addresses of an engine instruction in a lane, in the order in which its entry names them, each with the cause that it meets
in decoding and its alignment (R146, R190, R191, R286, R347, R354, R283): `cpl` names its source and its destination, the splat, the
texture and the collective instructions a descriptor, `cpt` a record, whose addresses follow where its own is good, and `cpkick` a
ring, whose records follow those of the acting lanes `ls` before it, and where the first record that lies outside the scratchpad
allocation counts alone. -/
def engAddrs (s : State) (e : Env) (f : Fields) (ls : List Nat) (l : Nat) (i : Instr) : List (W64 × Option Nat × Nat) :=
  let a := e.readPtr l f.a
  let good := fun (n : Nat) => e.ownCause a == none && a.toNat % n == 0
  let recOf := fun (off : Nat) => (BitVec.ofNat 512 (s.scrRead e.wid.block off 64) : Req)
  match i with
  | .cpl _ n => [(addr e f l, e.winCause (addr e f l), 4 * 2 ^ n.val), (e.readPtr l f.b, e.winCause (e.readPtr l f.b), 4 * 2 ^ n.val)]
  | .splsub _ | .coll _ => [(a, e.descCause a, 64)]
  | .tex _ | .texLod _ | .texd _ => [(e.readPtr l f.b, e.descCause (e.readPtr l f.b), 64)]
  | .cpt _ => (a, e.ownCause a, 64) :: if good 64 then recordAddrs e (recOf (a.toNat % 2 ^ 24)) else []
  | .cpkick _ => (a, e.ownCause a, 16) ::
    match Assoc.get? (kickPlan e f s ls) l with
    | some (some offs) =>
      match offs.find? fun o => decide (e.alloc ≤ o) with
      | some o => [(BitVec.ofNat 64 (0xFD00000000000000 + e.blk.home * 2 ^ 32 + o), some eSpace, 1)]
      | none => (offs.map fun o => recordAddrs e (recOf o)).flatten
    | _ => []
  | _ => []

/-- The first of a lane's addresses that meets a cause (R146). -/
def meets (xs : List (W64 × Option Nat × Nat)) (c : Nat) : Option W64 :=
  (xs.find? fun x => x.2.1 == some c || (c == eAlign && x.1.toNat % x.2.2 != 0)).map (·.1)

/-! Events. -/

/-- A wavelet that has a live lane in a block that has not ended: the end of other work drops nothing of it (R42). -/
def Alive (s : State) (w : WavId) (v : Wavelet) : Prop :=
  s.wav? w = some v ∧ Tidy v ∧ v.live ≠ [] ∧ ∃ p b, s.span? w.span = some p ∧ w.blk < p.blocks ∧ s.blk? w.block = some b ∧
    b.ended = false

/-- The register that takes an engine's status word (R189): full, tagged `n32`, its DONE bit set. -/
def StatusIn (t : State) (w : WavId) (l : Nat) (d : Name) : Prop :=
  ∀ n, d = .v n → ∃ y, t.wav? w = some y ∧ ((y.lane l).reg n).full = true ∧ ((y.lane l).reg n).tag = Ty.n32.tag ∧
    ((y.lane l).reg n).bits.getLsbD 31 = true

end Sys2Proof.Claim
end

