-- ==== Sys2Proof/Certificates/Slice0/Obligations.lean ====
section
/-! DEFINITION. The statements for the provers, one `Obligations.<Name>` each, in the order of OBLIGATIONS.json. -/

section

open Sys2Proof Sys2Proof.Machine Sys2Proof.Claim

/-! Issuing an instruction, and the instructions of one result. -/

/-- Every instruction that writes one result and raises nothing of its own completes (R50, R52, R62). -/
def Obligations.OneResultCompletes : Prop :=
  ∀ i s e f sh r, oneResult i = true → Ready i s e f sh r →
    ∃ t val, exec i s = .next t ∧ Wrote e f (pairD sh.d) r val t

/-- The frame of those instructions; that of `getsr` and `tstamp`, which sample a clock, stands with their values, in
SystemRegisters. -/
def Obligations.OneResultFrame : Prop :=
  ∀ i s e f sh r t, oneResult i = true → (∀ g, i ≠ .getsr g ∧ i ≠ .tstamp g) → Ready i s e f sh r → exec i s = .next t →
    RegisterFrame (Writes.result i f.d (pairD sh.d)) s e f r t

/-! Results of the arithmetic and logic families. -/

/-- R269, R331, R359: `and`, `or` and `xor` act bit by bit over the whole register or pair, `not` complements, and
none carries tangents. -/
def Obligations.BitwiseResults : Prop :=
  (∀ f, Yields (.and f) fun e _ l v _ => v.tan = [] ∧ ∀ k, v.bits.getLsbD k =
    (decide (k < bitsOf f.ty) && ((src e f.a f.ty l).bits.getLsbD k && (src e f.b f.ty l).bits.getLsbD k))) ∧
  (∀ f, Yields (.or f) fun e _ l v _ => v.tan = [] ∧ ∀ k, v.bits.getLsbD k =
    (decide (k < bitsOf f.ty) && ((src e f.a f.ty l).bits.getLsbD k || (src e f.b f.ty l).bits.getLsbD k))) ∧
  (∀ f, Yields (.xor f) fun e _ l v _ => v.tan = [] ∧ ∀ k, v.bits.getLsbD k =
    (decide (k < bitsOf f.ty) && ((src e f.a f.ty l).bits.getLsbD k != (src e f.b f.ty l).bits.getLsbD k))) ∧
  (∀ f, Yields (.not f) fun e _ l v _ => v.tan = [] ∧ ∀ k, v.bits.getLsbD k =
    (decide (k < bitsOf f.ty) && !(src e f.a f.ty l).bits.getLsbD k))

/-- R277: `brev` reverses the bits of the register or the pair.
R281, R334: `clz` counts the zero bits above the highest one, `popc` the one bits, into a single `n32` register.
R275: `bfe` takes the field of offset o = B[7:0] and width min(B[15:8], n − o) and extends it by its type; `bfi`
replaces that field, described by C, in B by the low bits of A. -/
def Obligations.BitManipulation : Prop :=
  (∀ f, Yields (.brev f) fun e _ l v _ => Plain f.ty (bitsOf f.ty) v ∧
     ∀ i, i < bitsOf f.ty → v.bits.getLsbD i = (src e f.a f.ty l).bits.getLsbD (bitsOf f.ty - 1 - i)) ∧
  ((∀ f, Yields (.clz f) fun e _ l v _ => Plain .n32 32 v ∧ v.bits.toNat ≤ bitsOf f.ty ∧
     (∀ k, bitsOf f.ty - v.bits.toNat ≤ k → k < bitsOf f.ty → (src e f.a f.ty l).bits.getLsbD k = false) ∧
     (v.bits.toNat < bitsOf f.ty → (src e f.a f.ty l).bits.getLsbD (bitsOf f.ty - 1 - v.bits.toNat) = true)) ∧
   (∀ f, Yields (.popc f) fun e _ l v _ => Plain .n32 32 v ∧
     v.bits.toNat = ((List.range (bitsOf f.ty)).filter fun k => (src e f.a f.ty l).bits.getLsbD k).length)) ∧
  ((∀ f, Yields (.bfe f) fun e _ l v _ => Plain f.ty (bitsOf f.ty) v ∧
     ∀ o k, o = srcN e f.b .n32 l % 256 → k = min (srcN e f.b .n32 l / 256 % 256) (bitsOf f.ty - o) →
     ∀ i, i < bitsOf f.ty → v.bits.getLsbD i =
       if i < k then (src e f.a f.ty l).bits.getLsbD (o + i)
       else decide (0 < k) && f.ty.isSigned && (src e f.a f.ty l).bits.getLsbD (o + k - 1)) ∧
   (∀ f, Yields (.bfi f) fun e _ l v _ => Plain f.ty (bitsOf f.ty) v ∧
     ∀ o k, o = srcN e f.c .n32 l % 256 → k = min (srcN e f.c .n32 l / 256 % 256) (bitsOf f.ty - o) →
     ∀ i, i < bitsOf f.ty → v.bits.getLsbD i =
       if o ≤ i ∧ i < o + k then (src e f.a f.ty l).bits.getLsbD (i - o) else (src e f.b f.ty l).bits.getLsbD i))

/-- R339: `rot.l` and `rot.r` move bit k to bit k + B and k − B, modulo the width.
R345: shifts of each element by the whole count in B; beyond the element's width `shl` and `shr` give 0 and `sra`
copies of the top bit. -/
def Obligations.RotationsAndShifts : Prop :=
  ((∀ f, Yields (.rotL f) fun e _ l v _ => Plain f.ty (bitsOf f.ty) v ∧ ∀ k, k < bitsOf f.ty →
     v.bits.getLsbD ((k + srcN e f.b .n32 l) % bitsOf f.ty) = (src e f.a f.ty l).bits.getLsbD k) ∧
   (∀ f, Yields (.rotR f) fun e _ l v _ => Plain f.ty (bitsOf f.ty) v ∧ ∀ k, k < bitsOf f.ty →
     v.bits.getLsbD k = (src e f.a f.ty l).bits.getLsbD ((k + srcN e f.b .n32 l) % bitsOf f.ty))) ∧
  ((∀ f, Yields (.shl f) fun e _ l v _ => Plain f.ty (bitsOf f.ty) v ∧ ∀ j, j < f.ty.perReg → ∀ k, k < f.ty.elemBits →
     (elem f.ty v j).testBit k =
       (decide (srcN e f.b .n32 l ≤ k) && (elem f.ty (src e f.a f.ty l) j).testBit (k - srcN e f.b .n32 l))) ∧
   (∀ f, Yields (.shr f) fun e _ l v _ => Plain f.ty (bitsOf f.ty) v ∧ ∀ j, j < f.ty.perReg → ∀ k, k < f.ty.elemBits →
     (elem f.ty v j).testBit k = (elem f.ty (src e f.a f.ty l) j).testBit (k + srcN e f.b .n32 l)) ∧
   (∀ f, Yields (.sra f) fun e _ l v _ => Plain f.ty (bitsOf f.ty) v ∧ ∀ j, j < f.ty.perReg → ∀ k, k < f.ty.elemBits →
     (elem f.ty v j).testBit k =
       (elem f.ty (src e f.a f.ty l) j).testBit (min (k + srcN e f.b .n32 l) (f.ty.elemBits - 1))))

/-- R325, R343: `mov` copies A, and `sel` A or B as the predicate XOR NS says, in the type's width without a format test:
the bits as they stand, the source's tag where its width matches (else the type's), the source's tangents.
R119, R326: `movi` writes its immediate: as it stands, sign-extended for `s64`, zero-extended for `n64`; an `f64`
takes the binary32 value of it, a NaN its sign and payload. -/
def Obligations.CopiesAndImmediates : Prop :=
  ((∀ f, Yields (.mov f) fun e _ l v _ => Copied e l f.a f.ty v) ∧
   (∀ f, Yields (.sel f) fun e _ l v _ =>
     Copied e l (if (e.lane l).pred (natBits f.imm.toNat 2 0) != f.imm.getLsbD 3 then f.a else f.b) f.ty v)) ∧
  (∀ f, Yields (.movi f) fun _ _ _ v _ => v.tag = f.ty.tag ∧ v.tan = [] ∧
     (f.ty = .s64 → v.bits = f.imm32.signExtend 64) ∧
     (f.ty ≠ .s64 → f.ty ≠ .f64 → v.bits = f.imm32.setWidth 64) ∧
     (f.ty = .f64 → v.bits.getLsbD 63 = f.imm32.getLsbD 31 ∧
       (F32.isNan f.imm32 = true → v.bits.extractLsb' 52 11 = 0x7FF ∧ v.bits.extractLsb' 29 23 = f.imm32.extractLsb' 0 23 ∧
         v.bits.extractLsb' 0 29 = 0) ∧
       (F32.isNan f.imm32 = false → (Fmt.f64.decode v.bits.toNat).eq (F32.num f.imm32) = true)))

/-- R267, R351, R327, R106: integer sums, differences and products of each element modulo 2ⁿ, clamped to the type's range
under SAT; a 64-bit sum with a pointer in A, or difference of one and an integer, is tagged PTR. -/
def Obligations.IntegerArithmetic : Prop :=
  (∀ f, f.ty.isFloat = false → Yields (.add f) fun e _ l v _ =>
    IntResult f (· + ·) e l v ∧ v.tag = if f.ty.wide && isPtr e f.a l then Tag.ptr else f.ty.tag) ∧
  (∀ f, f.ty.isFloat = false → Yields (.sub f) fun e _ l v _ =>
    IntResult f (· - ·) e l v ∧ v.tag =
      if f.ty.wide && isPtr e f.a l && (e.raw l f.b f.ty).tag != Tag.ptr then Tag.ptr else f.ty.tag) ∧
  (∀ f, f.ty.isFloat = false → Yields (.mul f) fun e _ l v _ => IntResult f (· * ·) e l v ∧ v.tag = f.ty.tag)

/-- R114, R327: `mulhi` writes bits 2n − 1 to n of the full product, `mul24` the low 32 bits of the product of the low 24
bits of its sources, extended by the type.
R268: `addc` adds A, B and the carry that CIE takes from predicate CI, writes the sum modulo 2ⁿ, and the carry out to
predicate CO. -/
def Obligations.ProductsAndCarry : Prop :=
  ((∀ f, Yields (.mulhi f) fun e _ l v _ => v.tag = f.ty.tag ∧ v.tan = [] ∧
     (v.bits.toNat : Int) = srcI e f.a f.ty l 0 * srcI e f.b f.ty l 0 / 2 ^ bitsOf f.ty % 2 ^ bitsOf f.ty) ∧
   (∀ f, Yields (.mul24 f) fun e _ l v _ => v.tag = f.ty.tag ∧ v.tan = [] ∧
     ∀ x y, x = BitVec.ofNat 24 (srcN e f.a f.ty l) → y = BitVec.ofNat 24 (srcN e f.b f.ty l) →
       (v.bits.toNat : Int) = (if f.ty = .s32 then x.toInt * y.toInt else (x.toNat : Int) * y.toNat) % 2 ^ 32)) ∧
  (∀ f, Yields (.addc f) fun e _ l v y => v.tag = f.ty.tag ∧ v.tan = [] ∧
     ∀ c, c = (if f.imm.getLsbD 6 && (e.lane l).pred (natBits f.imm.toNat 5 3) then 1 else 0) →
       v.bits.toNat = (srcN e f.a f.ty l + srcN e f.b f.ty l + c) % 2 ^ bitsOf f.ty ∧
       (natBits f.imm.toNat 2 0 < 7 →
         y.pred (natBits f.imm.toNat 2 0) = decide (2 ^ bitsOf f.ty ≤ srcN e f.a f.ty l + srcN e f.b f.ty l + c)))

/-- R266, R329: `abs` and `neg` change the sign bit of a floating element, as F16FTZ reads it (R97), alone; an integer element
becomes its magnitude or its negative modulo 2ⁿ.
R112, R316: `max` and `min` return one of the elements as read: the other of a NaN, the canonical NaN of two, A where
they compare equal, else the greater or the lesser.
R78: `abs` copies the element's tangent where its sign bit is 0 and negates it where it is 1, `neg` negates it; `max` and `min`
take the tangent of the operand that they return, A's of two NaNs. -/
def Obligations.SignsAndExtremes : Prop :=
  ((∀ f, Yields (.abs f) fun e _ l v _ => v.tag = f.ty.tag ∧ ∀ j, j < f.ty.perReg →
     if f.ty.isFloat then ∀ k, k < f.ty.elemBits → (elem f.ty v j).testBit k =
       (decide (k ≠ f.ty.elemBits - 1) && (flushed f.ty e.ftz (elem f.ty (src e f.a f.ty l) j)).testBit k)
     else (elem f.ty v j : Int) = ((srcI e f.a f.ty l j).natAbs : Int) % 2 ^ f.ty.elemBits) ∧
   (∀ f, Yields (.abs f) fun e _ l v _ => Row e f.ty (fun k j =>
     if (elem f.ty (src e f.a f.ty l) j).testBit (f.ty.elemBits - 1) then F32.neg (srcT e f.a f.ty l k j) else srcT e f.a f.ty l k j) v) ∧
   (∀ f, Yields (.neg f) fun e _ l v _ => Row e f.ty (fun k j => F32.neg (srcT e f.a f.ty l k j)) v) ∧
   (∀ f, Yields (.neg f) fun e _ l v _ => v.tag = f.ty.tag ∧ ∀ j, j < f.ty.perReg →
     if f.ty.isFloat then ∀ k, k < f.ty.elemBits → (elem f.ty v j).testBit k =
       (decide (k = f.ty.elemBits - 1) != (flushed f.ty e.ftz (elem f.ty (src e f.a f.ty l) j)).testBit k)
     else (elem f.ty v j : Int) = -srcI e f.a f.ty l j % 2 ^ f.ty.elemBits)) ∧
  ((∀ f, Yields (.max f) fun e _ l v _ => v.tag = f.ty.tag ∧ ∀ j, j < f.ty.perReg →
     Picked f.ty e.ftz (fun x y => x.lt y) (fun x y => decide (x < y)) (elem f.ty (src e f.a f.ty l) j)
       (elem f.ty (src e f.b f.ty l) j) (elem f.ty v j)) ∧
   (∀ (i : Instr) (f : Fields) (less : Sys2Proof.Num → Sys2Proof.Num → Bool), (i, less) ∈ [(Instr.max f, fun x y => x.lt y), (.min f, fun x y => y.lt x)] →
     Yields i fun e _ l v _ => Row e f.ty (fun k j =>
       if takesB f.ty e.ftz less (elem f.ty (src e f.a f.ty l) j) (elem f.ty (src e f.b f.ty l) j) then srcT e f.b f.ty l k j
       else srcT e f.a f.ty l k j) v) ∧
   (∀ f, Yields (.min f) fun e _ l v _ => v.tag = f.ty.tag ∧ ∀ j, j < f.ty.perReg →
     Picked f.ty e.ftz (fun x y => y.lt x) (fun x y => decide (y < x)) (elem f.ty (src e f.a f.ty l) j)
       (elem f.ty (src e f.b f.ty l) j) (elem f.ty v j)))

/-- R105, R304, R293, R335, R348, R305, R78, R107: every floating result is the exact result rounded once, a `.sr` mode drawing
from the exact results of all acting lanes, with the tangents of its row of R78. -/
def Obligations.FloatingResults : Prop :=
  (∀ f, f.ty.isFloat = true → Yields (.add f) fun e r l v _ => RoundedOnce e f r f.ty
    (fun m j => (srcX e f.a f.ty m j).add (f.rm == 3) (srcX e f.b f.ty m j))
    (fun k j _ => F32.add (srcT e f.a f.ty l k j) (srcT e f.b f.ty l k j)) l v) ∧
  (∀ f, f.ty.isFloat = true → Yields (.sub f) fun e r l v _ => RoundedOnce e f r f.ty
    (fun m j => (srcX e f.a f.ty m j).add (f.rm == 3) (srcX e f.b f.ty m j).neg)
    (fun k j _ => F32.sub (srcT e f.a f.ty l k j) (srcT e f.b f.ty l k j)) l v) ∧
  (∀ f, f.ty.isFloat = true → Yields (.mul f) fun e r l v _ => RoundedOnce e f r f.ty
    (fun m j => (srcX e f.a f.ty m j).mul (srcX e f.b f.ty m j))
    (fun k j _ => F32.fma (srcT e f.a f.ty l k j) (srcP e f.b f.ty l j) (F32.mul (srcP e f.a f.ty l j) (srcT e f.b f.ty l k j))) l v) ∧
  (∀ f, Yields (.fma f) fun e r l v _ => RoundedOnce e f r f.ty
    (fun m j => ((srcX e f.a f.ty m j).mul (srcX e f.b f.ty m j)).add (f.rm == 3) (srcX e f.c f.ty m j))
    (fun k j _ => F32.fma (srcT e f.a f.ty l k j) (srcP e f.b f.ty l j)
      (F32.fma (srcP e f.a f.ty l j) (srcT e f.b f.ty l k j) (srcT e f.c f.ty l k j))) l v) ∧
  (∀ f, f.ty.isFloat = true → Yields (.div f) fun e r l v _ => RoundedOnce e f r f.ty
    (fun m j => (srcX e f.a f.ty m j).div (srcX e f.b f.ty m j))
    (fun k j y => F32.div (F32.fma (F32.neg y) (srcT e f.b f.ty l k j) (srcT e f.a f.ty l k j)) (srcP e f.b f.ty l j)) l v) ∧
  (∀ f, Yields (.rcp f) fun e r l v _ => RoundedOnce e f r f.ty (fun m j => (Sys2Proof.Num.ofNat 1).div (srcX e f.a f.ty m j))
    (fun k j y => F32.mul (F32.neg y) (F32.mul y (srcT e f.a f.ty l k j))) l v) ∧
  (∀ f, Yields (.sqrt f) fun e r l v _ => RoundedOnce e f r f.ty (fun m j => (srcX e f.a f.ty m j).sqrt)
    (fun k j y => if (F32.num (srcP e f.a f.ty l j)).isZero then
        (if (F32.num (srcT e f.a f.ty l k j)).isZero then 0
         else if (srcT e f.a f.ty l k j).getLsbD 31 then F32.neg F32.inf else F32.inf)
      else F32.div (srcT e f.a f.ty l k j) (F32.mul 0x40000000 y)) l v) ∧
  (∀ f, Yields (.frnd f) fun e r l v _ => RoundedOnce e f r f.ty (fun m j => Sys2Proof.Machine.Num.integral f.rm (srcX e f.a f.ty m j))
    (fun _ _ _ => 0) l v)

/-- R113, R293, R336: integer `div` truncates and `rem` takes the dividend's sign, with R113's values and the IDIV flag in
its edge cases, unless IDIVTRAP is set.
R113: with IDIVTRAP set, an integer `div` or `rem` in which a lane meets an edge case raises `E_IDIV` in the lanes that
do, and changes nothing else. -/
def Obligations.IntegerDivision : Prop :=
  (∀ i f isDiv s e sh r, (i, isDiv) ∈ [(Instr.div f, true), (Instr.rem f, false)] → f.ty.isFloat = false →
     Ready i s e f sh r → (e.idivTrap = false ∨ ∀ l ∈ e.acting f.guard r, divEdge f.ty isDiv (srcI e f.a f.ty l 0) (srcI e f.b f.ty l 0) = false) →
     ∃ t val v, exec i s = .next t ∧ t.wav? e.wid = some v ∧ Wrote e f f.ty.wide r val t ∧
       ∀ l ∈ e.acting f.guard r, (val l).tag = f.ty.tag ∧ (val l).tan = [] ∧
         ∀ x y : Int, x = srcI e f.a f.ty l 0 → y = srcI e f.b f.ty l 0 →
           DivResult f.ty isDiv x y (elem f.ty (val l) 0) ∧
           ((v.lane l).status.getLsbD 0 =
             ((e.lane l).status.getLsbD 0 || divEdge f.ty isDiv (srcI e f.a f.ty l 0) (srcI e f.b f.ty l 0)))) ∧
  (∀ i f isDiv s e sh r, (i, isDiv) ∈ [(Instr.div f, true), (Instr.rem f, false)] → f.ty.isFloat = false →
     Ready i s e f sh r → e.idivTrap = true →
     ∀ hits, hits = (e.acting f.guard r).filter (fun l => divEdge f.ty isDiv (srcI e f.a f.ty l 0) (srcI e f.b f.ty l 0)) → hits ≠ [] →
     exec i s = .next (s.takeTrap e.wid eIdiv (noAddr hits)))

/-! Comparison, predicates, tangents, conversion and the cross-lane instructions. -/

/-- R282: `cmp` writes its predicate with the condition, which a packed type must meet in every element; nothing else
changes. -/
def Obligations.Comparisons : Prop :=
  ∀ f cond, Passes (.cmp f cond) { preds := writesPred (.cmp f cond), flags := stCnvSat } fun e _ l y =>
    natBits f.imm.toNat 2 0 < 7 → (y.pred (natBits f.imm.toNat 2 0) = true ↔
      ∀ j, j < f.ty.perReg → CmpHolds cond.val f.ty e.ftz (elem f.ty (src e f.a f.ty l) j) (elem f.ty (src e f.b f.ty l) j))

/-- R333: `plog` combines two predicates. -/
def Obligations.PredicateLogic : Prop :=
  ∀ f op, Passes (.plog f op) { preds := writesPred (.plog f op) } fun e _ l y =>
    natBits f.imm.toNat 2 0 < 7 → ∀ a b, a = (e.lane l).pred (natBits f.imm.toNat 5 3) → b = (e.lane l).pred (natBits f.imm.toNat 8 6) →
      (op.val = 0 → y.pred (natBits f.imm.toNat 2 0) = (a && b)) ∧ (op.val = 1 → y.pred (natBits f.imm.toNat 2 0) = (a || b)) ∧
      (op.val = 2 → y.pred (natBits f.imm.toNat 2 0) = (a != b)) ∧ (op.val = 3 → y.pred (natBits f.imm.toNat 2 0) = (a && !b)) ∧
      (op.val = 4 → y.pred (natBits f.imm.toNat 2 0) = !a)

/-- R358: the votes of the acting lanes; a ballot without a participating lane does nothing. -/
def Obligations.Votes : Prop :=
  (∀ f, Passes (.voteAll f) { preds := writesPred (.voteAll f) } fun e r _ y => natBits f.imm.toNat 6 4 < 7 →
    (y.pred (natBits f.imm.toNat 6 4) = true ↔ ∀ m ∈ e.acting f.guard r,
      ((e.lane m).pred (natBits f.imm.toNat 2 0) != f.imm.getLsbD 3) = true)) ∧
  (∀ f, Passes (.voteAny f) { preds := writesPred (.voteAny f) } fun e r _ y => natBits f.imm.toNat 6 4 < 7 →
    (y.pred (natBits f.imm.toNat 6 4) = true ↔ ∃ m ∈ e.acting f.guard r,
      ((e.lane m).pred (natBits f.imm.toNat 2 0) != f.imm.getLsbD 3) = true)) ∧
  (∀ f s e sh r, Ready (.voteBallot f) s e f sh r → e.acting f.guard r ≠ [] → ∃ t val,
    exec (.voteBallot f) s = .next t ∧ Wrote e f true r val t ∧
    RegisterFrame (Writes.result (.voteBallot f) f.d true 0) s e f r t ∧
    ∀ l ∈ e.acting f.guard r, (val l).tag = Ty.n64.tag ∧ (val l).tan = [] ∧ ∀ k, (val l).bits.getLsbD k = true ↔
      k ∈ e.acting f.guard r ∧ ((e.lane k).pred (natBits f.imm.toNat 2 0) != f.imm.getLsbD 3) = true) ∧
  (∀ f s e sh r, Ready (.voteBallot f) s e f sh r → e.acting f.guard r = [] → ∃ t v,
    exec (.voteBallot f) s = .next t ∧ t.wav? e.wid = some v ∧ Moved e r v ∧ RegisterFrame {} s e f r t)

/-- R315, R115: `match` gives each lane the mask of the lanes with its key, its own always among them, and a predicate in
the lowest lane of each mask. -/
def Obligations.Matches : Prop :=
  ∀ f, Yields (.matchKey f) fun e r l v y => v.tag = Ty.n64.tag ∧ v.tan = [] ∧
    (∀ k, v.bits.getLsbD k = true ↔ k ∈ e.acting f.guard r ∧ (k = l ∨ KeyEq f.ty (srcN e f.a f.ty l) (srcN e f.a f.ty k))) ∧
    (natBits f.imm.toNat 2 0 < 7 → (y.pred (natBits f.imm.toNat 2 0) = true ↔
      ∀ k ∈ e.acting f.guard r, k < l → ¬ KeyEq f.ty (srcN e f.a f.ty l) (srcN e f.a f.ty k)))

/-- R77, R89, R353, R97: `tget` reads one component widened to `f32`; `tset` copies A, as F16FTZ reads it, but for one component,
rounded to the format's precision; `tzero` copies A so without tangents; `tev` adds component times delta in order, rounding each step in the
format. -/
def Obligations.TangentInstructions : Prop :=
  (∀ f, Yields (.tget f) fun e _ l v _ => v.tag = Ty.f32.tag ∧ v.tan = [] ∧
    v.bits = (srcT e f.a f.ty l (natBits f.imm.toNat 2 0) (natBits f.imm.toNat 3 3)).setWidth 64) ∧
  (∀ f, Yields (.tset f) fun e _ l v _ => v.bits.toNat < 2 ^ bitsOf f.ty ∧ v.tag = (src e f.a f.ty l).tag ∧
    (∀ j, j < f.ty.perReg → elem f.ty v j = flushed f.ty e.ftz (elem f.ty (src e f.a f.ty l) j)) ∧
    ∀ k j, k < e.K → j < f.ty.perReg → v.tag.hasTan = true → v.tanEl f.ty k j =
      if k = natBits f.imm.toNat 2 0 ∧ j = natBits f.imm.toNat 3 3 then tanConv .f32 f.ty ((src e f.b .f32 l).bits.setWidth 32)
      else srcT e f.a f.ty l k j) ∧
  (∀ f, Yields (.tzero f) fun e _ l v _ => v.bits.toNat < 2 ^ bitsOf f.ty ∧ v.tag = (src e f.a f.ty l).tag ∧ v.tan = [] ∧
    ∀ j, j < f.ty.perReg → elem f.ty v j = flushed f.ty e.ftz (elem f.ty (src e f.a f.ty l) j)) ∧
  (∀ f n, f.ty = .f32 → f.b = .w n → Yields (.tev f) fun e _ l v _ => v.tag = Ty.f32.tag ∧
    (v.bits.setWidth 32 : W32) = (List.range e.K).foldl (fun y k => F32.fma ((src e f.a .f32 l).word k)
      (((e.wav.uval (n.val + k) false).readAs .f32 e.strict e.ftz e.K).elim 0 fun p => p.1.bits.setWidth 32) y)
      ((src e f.a .f32 l).bits.setWidth 32) ∧
    ∀ k, v.word k = (src e f.a .f32 l).word k) ∧
  (∀ f n, f.ty = .f64 → f.b = .w n → Yields (.tev f) fun e _ l v _ => v.tag = Ty.f64.tag ∧
    v.bits.toNat = (List.range e.K).foldl (fun y k => Fmt.f64.rn ((Fmt.f64.decode y).add false
      ((F32.num ((src e f.a .f64 l).word k)).mul
        (F32.num (((e.wav.uval (n.val + k) false).readAs .f32 e.strict e.ftz e.K).elim 0 fun p => p.1.bits.setWidth 32)))))
      (src e f.a .f64 l).bits.toNat ∧
    ∀ k, v.word k = (src e f.a .f64 l).word k)

/-- R287, R288, R108: `cvt` rounds each element's exact value once into a floating type; into an integer type it takes the
nearest integer of the mode within the range, 0 for NaN; `b32` moves the bits.
R107: a `.sr` mode draws from the exact values of all acting lanes. R78, R80: between floating types the tangents go on, rounded
to the destination's precision, +0 where SAT clamped; else there are none but +0. -/
def Obligations.Conversions : Prop :=
  (∀ f fm, f.ty.fmt? = some fm → f.cvtST ≠ .b32 → Yields (.cvt f) fun e r l v _ => v.tag = f.ty.tag ∧
    (f.ty.hasTan = false → v.tan = []) ∧ ∀ j, j < f.ty.perReg → ∀ y,
    y = fm.round f.rm f.sat (srBits e f r f.ty.perReg (fun m k => fm.dOf (f.cvtST.num e.ftz (cvtSource e f r m k))) l j)
      (f.cvtST.num e.ftz (cvtSource e f r l j)) → elem f.ty v j = y.bits ∧ (f.ty.hasTan = true → ∀ k, v.tanEl f.ty k j =
        if k < e.K ∧ y.clamp = false ∧ f.cvtST.isFloat = true then kept f.ty (cvtTan e f r l k j) else 0)) ∧
  (∀ f, f.ty.isInt = true → f.cvtST.isFloat = true → Yields (.cvt f) fun e r l v _ => v.tag = f.ty.tag ∧ v.tan = [] ∧
    ∀ j, j < f.ty.perReg → ∀ x d, x = f.cvtST.num e.ftz (cvtSource e f r l j) →
      d = srBits e f r f.ty.perReg (fun m k => (f.cvtST.num e.ftz (cvtSource e f r m k)).dInt) l j →
      f.ty.intOf (elem f.ty v j) = match x with
        | .nan => 0
        | .inf neg => if neg then f.ty.lo else f.ty.hi
        | .fin .. => max f.ty.lo (min f.ty.hi (x.toInt f.rm d))) ∧
  (∀ f, f.ty.isInt = true → f.cvtST.isInt = true → Yields (.cvt f) fun e r l v _ => v.tag = f.ty.tag ∧ v.tan = [] ∧
    ∀ j, j < f.ty.perReg → ∀ x, x = f.cvtST.intOf (cvtSource e f r l j) →
      if f.sat then f.ty.intOf (elem f.ty v j) = max f.ty.lo (min f.ty.hi x)
      else (elem f.ty v j : Int) = x % 2 ^ f.ty.elemBits) ∧
  (∀ f, f.ty = .b32 ∨ f.cvtST = .b32 → Yields (.cvt f) fun e _ l v _ =>
    v.tag = f.ty.tag ∧ v.tan = [] ∧ v.bits = (src e f.a f.cvtST l).bits)

/-- R240, R309: `lane` copies to each acting lane the A of the lane that its form and B name by rank among the members,
bits, tag and tangents, when every member is in the bundle and holds a full A, acting or not.
R240: a member outside the bundle raises `E_LANEGONE`, which marks those members with address 0. -/
def Obligations.LaneReads : Prop :=
  (∀ i form f s e sh r, (i, form) ∈ [(Instr.laneRank f, 0), (.laneBack f, 1), (.laneFwd f, 2), (.laneMate f, 3)] →
     Ready i s e f sh r → (∀ j ∈ (e.members f.c ((e.acting f.guard r).headD 0)).lanes e.wav.width, r.lanes.has j = true) →
     ∃ t val, exec i s = .next t ∧ Wrote e f f.ty.wide r val t ∧ ∀ l ∈ e.acting f.guard r, ∃ k,
       LaneFrom form (e.members f.c ((e.acting f.guard r).headD 0)) e.wav.width l (srcN e f.b .n32 l) k ∧
       (val l).tag = (e.raw k f.a f.ty).tag ∧
       (∀ n, (val l).bits.getLsbD n = (decide (n < bitsOf f.ty) && (e.raw k f.a f.ty).bits.getLsbD n)) ∧
       ∀ n, (val l).word n = if (val l).tag.hasTan then (e.raw k f.a f.ty).word n else 0) ∧
  (∀ i f s e sh r, i ∈ [Instr.laneRank f, .laneBack f, .laneFwd f, .laneMate f] → Ready i s e f sh r → e.acting f.guard r ≠ [] →
     ∀ gone, gone = ((e.members f.c ((e.acting f.guard r).headD 0)).lanes e.wav.width).filter (fun j => !r.lanes.has j) → gone ≠ [] →
     exec i s = .next (s.takeTrap e.wid eLanegone (noAddr gone)))

/-- R111, R313: integer reductions combine the acting lanes' values, and scans those of the acting lanes up to (or below)
each lane. Every reduction combines the elements of the acting lanes pairwise, the lower lane as operand A, each floating step
rounded in the mode, and every scan in steps of 1, 2, 4 and so on; where no lane takes part they give the identity. An element
that passes on alone keeps its bits, a NaN too (log 24).
R78: the tangents of a sum are added in the same order, those of `min` and `max` are the chosen lane's, and either rounds to the
format's precision at the end. -/
def Obligations.Reductions : Prop :=
  (∀ f, f.ty.isFloat = false → Yields (.lred f 0) fun e r _ v _ => Plain f.ty (bitsOf f.ty) v ∧
    (v.bits.toNat : Int) = ((e.acting f.guard r).map fun m => srcI e f.a f.ty m 0).sum % 2 ^ bitsOf f.ty) ∧
  (∀ f, f.ty.isFloat = false → Yields (.lred f 1) fun e r _ v _ => Plain f.ty (bitsOf f.ty) v ∧
    (∃ m ∈ e.acting f.guard r, v.bits.toNat = srcN e f.a f.ty m) ∧
    ∀ m ∈ e.acting f.guard r, f.ty.intOf v.bits.toNat ≤ srcI e f.a f.ty m 0) ∧
  (∀ f, f.ty.isFloat = false → Yields (.lred f 2) fun e r _ v _ => Plain f.ty (bitsOf f.ty) v ∧
    (∃ m ∈ e.acting f.guard r, v.bits.toNat = srcN e f.a f.ty m) ∧
    ∀ m ∈ e.acting f.guard r, srcI e f.a f.ty m 0 ≤ f.ty.intOf v.bits.toNat) ∧
  (∀ f, Yields (.lred f 3) fun e r _ v _ => ∀ k, k < bitsOf f.ty → v.bits.getLsbD k =
    (e.acting f.guard r).all fun m => (src e f.a f.ty m).bits.getLsbD k) ∧
  (∀ f, Yields (.lred f 4) fun e r _ v _ => ∀ k, k < bitsOf f.ty → v.bits.getLsbD k =
    (e.acting f.guard r).any fun m => (src e f.a f.ty m).bits.getLsbD k) ∧
  (∀ f, Yields (.lred f 5) fun e r _ v _ => ∀ k, k < bitsOf f.ty → v.bits.getLsbD k =
    decide (((e.acting f.guard r).filter fun m => (src e f.a f.ty m).bits.getLsbD k).length % 2 = 1)) ∧
  (∀ f ex, f.ty.isFloat = false → Yields (.lscan f 0 ex) fun e r l v _ => Plain f.ty (bitsOf f.ty) v ∧
    (v.bits.toNat : Int) = (((e.acting f.guard r).filter fun m => decide (m < l) || (!ex && decide (m = l))).map fun m =>
      srcI e f.a f.ty m 0).sum % 2 ^ bitsOf f.ty) ∧
  (∀ f op, Yields (.lred f op) fun e r _ v _ => v.tag = f.ty.tag ∧ ∀ j, j < f.ty.perReg →
    elem f.ty v j = (pairwise (reduceOp f.ty f.rm op.val) (part e f r j) 6 0).getD (reduceId f.ty op.val)) ∧
  (∀ f op ex, Yields (.lscan f op ex) fun e r l v _ => v.tag = f.ty.tag ∧ ∀ j, j < f.ty.perReg →
    elem f.ty v j = (if ex && l == 0 then none
      else prefixes (reduceOp f.ty f.rm op.val) (part e f r j) 6 (if ex then l - 1 else l)).getD (reduceId f.ty op.val)) ∧
  (∀ f op, op.val ≤ 2 → Yields (.lred f op) fun e r _ v _ => Row e f.ty (fun k j =>
    ((pairwise (reduceTan f.ty f.rm op.val) (partTan e f r k j) 6 0).map (·.2)).getD 0) v) ∧
  (∀ f op ex, op.val ≤ 2 → Yields (.lscan f op ex) fun e r l v _ => Row e f.ty (fun k j =>
    ((if ex && l == 0 then none
      else prefixes (reduceTan f.ty f.rm op.val) (partTan e f r k j) 6 (if ex then l - 1 else l)).map (·.2)).getD 0) v)

/-! Pointers, groups of registers and images. -/

/-- R148: the pointer casts give their table's results; where a lane fails, they raise `E_SPACE` in the lanes that fail and
write nothing. -/
def Obligations.PointerCasts : Prop :=
  ∀ (i : Instr) (f : Fields) (s : State) (e : Env) (sh : Shape) (r : Run) (bad : Nat → Bool) (val : Nat → Val),
    (i, bad, val) ∈
      [(Instr.spcastSp f, fun l => decide (2 ^ 24 ≤ srcN e f.a .n32 l),
          fun l => ⟨BitVec.ofNat 64 (0xFD00000000000000 + e.blk.home * 2 ^ 32 + srcN e f.a .n32 l), Tag.ptr, []⟩),
       (Instr.spcastSpan f, fun l => decide (2 ^ 24 ≤ srcN e f.a .n32 l) || decide (8 ≤ srcN e f.b .n32 l),
          fun l => ⟨BitVec.ofNat 64 (0xFE00000000000000 + srcN e f.b .n32 l * 2 ^ 48 + srcN e f.a .n32 l), Tag.ptr, []⟩),
       (Instr.spcastOff f, fun l => offFails (e.readPtr l f.a), fun l => ⟨offOf (e.readPtr l f.a), Ty.n32.tag, []⟩)] →
    Ready i s e f sh r →
    ((∀ l ∈ e.acting f.guard r, bad l = false) → ∃ t, exec i s = .next t ∧ Wrote e f (pairD sh.d) r val t) ∧
    ∀ hits, hits = (e.acting f.guard r).filter bad → hits ≠ [] → exec i s = .next (s.takeTrap e.wid eSpace (noAddr hits))

/-- The instructions that write a group of registers complete: every register of the group holds a value of its tag, full
and without tangents, and nothing else changes but the lineage counters of the lanes in which `dtag` acts, which count up
(R61, R63, R223, R229, R231). -/
def Obligations.GroupWriters : Prop :=
  ∀ i s e f sh r k tag, groupOf i = some (k, tag) → Ready i s e f sh r →
    ∃ t v, exec i s = .next t ∧ t.wav? e.wid = some v ∧ Moved e r v ∧
      (∀ l ∈ e.acting f.guard r, ∀ n, f.d = .v n → ∀ j, j < k →
        ((v.lane l).reg (n + j)).tag = tag j ∧ ((v.lane l).reg (n + j)).full = true ∧ ((v.lane l).reg (n + j)).tan = []) ∧
      RegisterFrame { Writes.group f.d k (stCnvSat ||| stScaleNan) with counts := match i with | .dtag _ => true | _ => false } s e f r t

/-- R221, R223, R224, R225, R226, R238: a fresh reservoir is all +0; a candidate counts in M, its weight in WSUM, which stays
finite; it is kept, payload and target value, exactly where the draw from the current seed says so, and clears W; a merged image
is a candidate of weight B · W · M that counts as M, with a cap; `rsvfin` copies seven words and sets W; `rsvget` reads a word. -/
def Obligations.Reservoirs : Prop :=
  (∀ f n, f.d = .v n → Leaves (.rsvinit f) fun _ _ _ y => ∀ k, k < 8 → imgIn y f.d k = 0) ∧
  (∀ f n, f.d = .v n → Leaves (.rsvupd f) fun e _ l y => Streams e l ((src e f.b .f32 l).bits.setWidth 32) 1 0
    (imgIn (e.lane l) f.a) ((src e f.c .f32 l).bits.setWidth 32) (imgIn (e.lane l) f.d) (imgIn y f.d)) ∧
  (∀ f n, f.d = .v n → Leaves (.rsvmerge f) fun e _ l y => ∀ a b, a = imgIn (e.lane l) f.a → b = (src e f.b .f32 l).bits.setWidth 32 →
    Streams e l (F32.ofNum (((F32.num b).mul (F32.num (a 7))).mul (.ofNat (a 6).toNat))) (a 6).toNat (srcN e f.c .n32 l)
      a b (imgIn (e.lane l) f.d) (imgIn y f.d)) ∧
  (∀ f n, f.d = .v n → Leaves (.rsvfin f) fun e _ l y => (∀ k, k < 7 → imgIn y f.d k = imgIn (e.lane l) f.a k) ∧
    imgIn y f.d 7 = finalW (imgIn (e.lane l) f.a)) ∧
  (∀ f, Yields (.rsvget f) fun e _ l v _ => ∀ k, k = natBits f.imm.toNat 2 0 → v.tan = [] ∧
    v.bits = (imgIn (e.lane l) f.a k).setWidth 64 ∧
    v.tag = (if k ≤ 3 then Ty.b32.tag else if k = 6 then Ty.n32.tag else Ty.f32.tag))

/-- R229, R230, R231, R232, R233: the distribution operations write whole images. `dset` condenses its values with the weights
over their sum, and writes the failed image where R230 says; `dadd`, `dadd.sub` and `dmul` condense the pairings of their
operands, those of one index where they share lineage, with both masks; `dtag` keeps the points, writes the mask of the lane's
lineage counter and counts it up; `dmom.min` and `.max` read the first and the last point. -/
def Obligations.Distributions : Prop :=
  (∀ i f n, i ∈ [Instr.dset f, .dtag f, .dadd f, .daddSub f, .dmul f] → f.d = .v n →
    Leaves i fun _ _ _ y => WholeImage (imgIn y f.d)) ∧
  (∀ f n, f.d = .v n → Leaves (.dtag f) fun e _ l y => y.lineage = (e.lane l).lineage + 1 ∧
    ImageOf (Dist.ofWords (imgIn (e.lane l) f.a)).pts (2 ^ (e.lane l).lineage.toNat) (imgIn y f.d)) ∧
  (∀ f n, f.d = .v n → Leaves (.dset f) fun e r l y => ∀ (c : Nat) (x w : Nat → W32) (sum : Sys2Proof.Num), c = srcN e f.c .n32 l →
    (x = fun i => ((ctx e f r).grp f.a .f32 l i).bits.setWidth 32) → (w = fun i => ((ctx e f r).grp f.b .f32 l i).bits.setWidth 32) →
    sum = Num.sum false ((List.range c).map fun i => F32.num (w i)) →
    ∀ fails, fails = (c = 0 ∨ 8 < c ∨ (∃ i, i < c ∧ (F32.lt (w i) 0 = true ∨ (F32.num (w i)).isFin = false)) ∨ sum.isZero = true) →
    (fails → ImageOf [(F32.qnan, F32.one)] 0 (imgIn y f.d)) ∧
    (¬ fails → Condenses ((List.range c).map fun i => (x i, F32.div (w i) (F32.ofNum sum))) 0 (imgIn y f.d))) ∧
  (∀ (i : Instr) (f : Fields) (op : W32 → W32 → W32) (n : Fin 448), (i, op) ∈ [(Instr.dadd f, F32.add), (.daddSub f, F32.sub), (.dmul f, F32.mul)] →
    f.d = .v n → Leaves i fun e _ l y => ∀ a b, a = distOf e f f.a 0 l → b = distOf e f f.b 1 l →
      Condenses (candidates op a b) (a.lin ||| b.lin) (imgIn y f.d)) ∧
  (∀ f, Yields (.dmomMin f) fun e _ l v _ => ∀ n, n = natBits (imgIn (e.lane l) f.a 0).toNat 3 0 → 1 ≤ n → n ≤ 8 →
    natBits (imgIn (e.lane l) f.a 0).toNat 15 4 = 0 → (∀ k, k < n → F32.isNan (imgIn (e.lane l) f.a (1 + k)) = false) →
    v.bits = (imgIn (e.lane l) f.a 1).setWidth 64 ∧ v.tag = Ty.f32.tag) ∧
  (∀ f, Yields (.dmomMax f) fun e _ l v _ => ∀ n, n = natBits (imgIn (e.lane l) f.a 0).toNat 3 0 → 1 ≤ n → n ≤ 8 →
    natBits (imgIn (e.lane l) f.a 0).toNat 15 4 = 0 → (∀ k, k < n → F32.isNan (imgIn (e.lane l) f.a (1 + k)) = false) →
    v.bits = (imgIn (e.lane l) f.a n).setWidth 64 ∧ v.tag = Ty.f32.tag)

/-- R314, R180: `mamax` reads a max-magnitude register of the block once, NaN as the canonical one, into every acting lane;
`.clr` sets it to +0; without an acting lane nothing happens. -/
def Obligations.MaxMagnitude : Prop :=
  ∀ (i : Instr) (f : Fields) (clr : Bool), (i, clr) ∈ [(Instr.mamax f, false), (.mamaxClr f, true)] → ∀ s e sh r, Ready i s e f sh r →
    (e.acting f.guard r = [] → ∃ t v, exec i s = .next t ∧ t.wav? e.wid = some v ∧ Moved e r v ∧ RegisterFrame {} s e f r t) ∧
    (e.acting f.guard r ≠ [] → ∃ t val, exec i s = .next t ∧ Wrote e f false r val t ∧
      (∀ l ∈ e.acting f.guard r, ∀ x, x = e.blk.amax.getD (natBits f.imm.toNat 1 0) 0 →
        (val l).tag = Ty.f32.tag ∧ (val l).tan = [] ∧ (val l).bits = (if F32.isNan x then F32.qnan else x).setWidth 64) ∧
      t.blk? e.wid.block = some { e.blk with amax := if clr then listSet e.blk.amax (natBits f.imm.toNat 1 0) 0 else e.blk.amax } ∧
      (∀ b, b ≠ e.wid.block → t.blk? b = s.blk? b) ∧ t = { s with wavs := t.wavs, blocks := t.blocks } ∧
      OthersKept (Writes.result i f.d false) s e f r t)

/-! Memory. -/

/-- R310, R57, R153, R228, R85, R67: a load whose lanes meet no cause marks its destination empty and will fill it with what
memory holds, tagged, and with the tangents of the page's or the private window's planes; it changes no memory. That the value
is the one memory holds in the step of issue is the model's reading (log 3, DEDUCED). -/
def Obligations.Loads : Prop :=
  ∀ i m s e f sh r spot, moveOf i = some m → m.dir = .load → Ready i s e f sh r → Lands m s e f (e.acting f.guard r) spot →
    ∃ t v, exec i s = .next t ∧ t.wav? e.wid = some v ∧ Moved e r v ∧ Performs i m s e f (e.acting f.guard r) spot t v ∧
      LoadFrame (Writes.group f.d m.regs) s e f r t

/-- R349, R153, R66, R67, R85, R228: a store whose lanes meet no cause writes each lane's value where its address lies, its
components into the page's or the private window's tangent planes, and changes no byte of memory and no private plane word
outside those stored. That the store is performed in the step of issue is the model's reading (log 3, DEDUCED). That a 4-byte `b32`
store to half of an `f64` element of a page with tangent planes reaches the element's plane elements, and clears them, is the model's
choice (log 19, DESIGN CHOICE). -/
def Obligations.StoresWrite : Prop :=
  ∀ i m s e f sh r spot, moveOf i = some m → m.dir = .store → Canonical s → Ready i s e f sh r →
    Lands m s e f (e.acting f.guard r) spot → NoWaiter m s (e.acting f.guard r) spot →
    ∃ t v, exec i s = .next t ∧ t.wav? e.wid = some v ∧ Moved e r v ∧ Performs i m s e f (e.acting f.guard r) spot t v ∧
      StoreFrame m { flags := stCnvSat } spot s e f r t

/-- R270, R272: an atomic writes its new value over the old one, which its destination will take; nothing else in memory
changes. That it takes and writes its value in the step of issue is the model's reading (log 3, DEDUCED). -/
def Obligations.Atomics : Prop :=
  ∀ i m s e f sh r spot, moveOf i = some m → m.dir = .atomic → Canonical s → Ready i s e f sh r →
    Lands m s e f (e.acting f.guard r) spot → NoWaiter m s (e.acting f.guard r) spot →
    ∃ t v, exec i s = .next t ∧ t.wav? e.wid = some v ∧ Moved e r v ∧ Performs i m s e f (e.acting f.guard r) spot t v ∧
      StoreFrame m (Writes.group f.d m.regs) spot s e f r t

/-- R146, R153, R37: the causes of a memory instruction, in their order; it traps with the lanes that meet the cause and their
addresses, and performs nothing. The alignment of a lane whose page's format refuses the type is that of the register's own
bytes (log 19, DEDUCED); a conversion's CNVSAT is dropped with the instruction (log 18). An `atomcas` meets `E_BAR` where it
would write. -/
def Obligations.AccessTraps : Prop :=
  ∀ i m s e f sh r, moveOf i = some m → Ready i s e f sh r →
    ∀ at' : List Nat → List (Nat × W64), (at' = fun ls => ls.map fun l => (l, addr e f l)) → ∀ ls, ls = e.acting f.guard r →
    (∀ hits, hits = ls.filter (fun l => e.winCause (addr e f l) == some eSpace) → hits ≠ [] →
      exec i s = .next (s.takeTrap e.wid eSpace (at' hits))) ∧
    ((∀ l ∈ ls, e.winCause (addr e f l) ≠ some eSpace) →
      ∀ hits, hits = ls.filter (fun l => e.winCause (addr e f l) == some eSpforeign) → hits ≠ [] →
      exec i s = .next (s.takeTrap e.wid eSpforeign (at' hits))) ∧
    ((∀ l ∈ ls, e.winCause (addr e f l) = none) →
      ∀ hits, hits = ls.filter (fun l => (addr e f l).toNat % m.align e (addr e f l) != 0) → hits ≠ [] →
      exec i s = .next (s.takeTrap e.wid eAlign (at' hits))) ∧
    ((∀ l ∈ ls, e.winCause (addr e f l) = none ∧ (addr e f l).toNat % m.align e (addr e f l) = 0) →
      ∀ hits, hits = ls.filter (fun l => match e.page? (addr e f l) with | some p => (m.glob p.2).isNone | none => false) → hits ≠ [] →
      exec i s = .next (s.takeTrap e.wid eFmt (at' hits))) ∧
    (Checked m e f ls → m.dir ≠ .load → (∀ g, i ≠ .atomcas g) →
      ∀ hits, hits = ls.filter (fun l => match e.scr (addr e f l) with
        | .ok (b, off) => (List.range ((m.n + 15) / 16)).any fun j => s.wt b (off / 16 + j)
        | .error _ => false) → hits ≠ [] →
      exec i s = .next (s.takeTrap e.wid eBar (at' hits))) ∧
    (Checked m e f ls → i = .atomcas f →
      ∀ hits, hits = ls.filter (fun l => match e.scr (addr e f l) with
        | .ok (b, off) => s.scrRead b off m.n == srcN e f.b f.ty l && (List.range ((m.n + 15) / 16)).any fun j => s.wt b (off / 16 + j)
        | .error _ => false) → hits ≠ [] →
      exec i s = .next (s.takeTrap e.wid eBar (at' hits)))

/-- R151, R165, R166: the lanes whose page is not there wait for Pewter, and those whose unit fails its check for the refetch,
with their addresses; the other lanes perform, and the bundle stays at the instruction, as when it is issued again for some of
its lanes. The lanes whose units all have been tried raise `E_INTEGRITY` after the others have performed, and write nothing. That a
unit has one refetch for an instruction, also where it first fails when the instruction is executed again, and that those lanes
raise `E_INTEGRITY` after the others performed are the model's readings (log 19, DEDUCED), and so is that the lanes perform in the
step of issue (log 3, DEDUCED). -/
def Obligations.PageFaultsWait : Prop :=
  (∀ i m s e f sh r, moveOf i = some m → (m.dir = .load ∨ Canonical s) → (Ready i s e f sh r ∨ Again i s e f sh r) →
    Checked m e f (e.acting f.guard r) →
    ∀ p, p = parting m s e f (e.acting f.guard r) → NoWaiter m s (if m.dir = .load then [] else p.good) p.at →
    p.absent ++ p.fresh e ≠ [] →
    ∃ t v, exec i s = .next t ∧ t.wav? e.wid = some v ∧ v.stall = .fault false ∧ v.run = e.wav.run ∧
      v.faults = marked e f p.absent ∧ v.integ = marked e f (p.fresh e) ∧
      v.replay = some (Mask.ofLanes (p.absent ++ p.fresh e)) ∧ v.tried = e.wav.tried ++ ((p.fresh e).map p.units).flatten ∧
      v.failing = e.wav.failing ++ marked e f (p.broken.filter fun l => !(p.fresh e).contains l) ∧
      (∀ l, (v.lane l).pc = (e.lane l).pc) ∧ Performs i m s e f p.good p.at t v ∧
      ∀ n, f.d = .v n → ∀ l ∈ e.acting f.guard r, ∀ j, j < m.regs → ((v.lane l).reg (n + j)).full = false) ∧
  ∀ i m s e f sh r, moveOf i = some m → (m.dir = .load ∨ Canonical s) → Again i s e f sh r → Checked m e f (e.acting f.guard r) →
    ∀ p, p = parting m s e f (e.acting f.guard r) → NoWaiter m s (if m.dir = .load then [] else p.good) p.at → p.absent = [] →
    p.fresh e = [] →
    ∀ hits, hits = e.wav.failing ++ marked e f p.broken → hits ≠ [] → ∃ u c,
      exec i s = .next (u.takeTrap e.wid eIntegrity hits c) ∧ c.marked = some (Mask.ofLanes (hits.map (·.1))) ∧ c.held = 0 ∧
      ∃ v, u.wav? e.wid = some v ∧ Performs i m s e f p.good p.at u v

/-- R182, R183, R330: the fences and `nop` complete and change nothing. -/
def Obligations.FencesAndNop : Prop :=
  (∀ f scope, Passes (.fence f scope) {} fun _ _ _ _ => True) ∧ (∀ f, Passes (.fenceSys f) {} fun _ _ _ _ => True) ∧
  ∀ f, Passes (.nop f) {} fun _ _ _ _ => True

/-! Control. -/

/-- R276, R308, R303, R306, R328, R347, R283, R119: the transfers, `exit` and the waiting instructions leave their effect to
the seal and change nothing else; a target that is misaligned raises `E_ALIGN` in the lanes that take it (R120). -/
def Obligations.Deferrals : Prop :=
  (∀ i s e f sh r d, Ready i s e f sh r → deferOf e r i = some d →
    (∀ g, i = .jmpInd g → ∀ l ∈ e.acting f.guard r, (e.readPtr l f.a).toNat % 4 = 0) →
    (i = .bra f ∨ i = .jmp f → e.acting f.guard r = [] ∨ (target e f r).toNat % 4 = 0) →
    ∃ t v, exec i s = .next t ∧ t.wav? e.wid = some v ∧ Defers e r d v ∧ RegisterFrame {} s e f r t) ∧
  (∀ i f s e sh r, i = Instr.bra f ∨ i = .jmp f → Ready i s e f sh r → e.acting f.guard r ≠ [] → (target e f r).toNat % 4 ≠ 0 →
    exec i s = .next (s.takeTrap e.wid eAlign (noAddr (e.acting f.guard r)))) ∧
  ∀ f s e sh r, Ready (.jmpInd f) s e f sh r → ∀ bad, bad = (e.acting f.guard r).filter (fun l => (e.readPtr l f.a).toNat % 4 != 0) →
    bad ≠ [] → exec (.jmpInd f) s = .next (s.takeTrap e.wid eAlign (noAddr bad))

/-- R279, R280, R337: `call` writes the link, pushes it and leaves the transfer to the seal; `ret` pops it and leaves the
transfer to what it popped; a full or an empty stack raises `E_SPACE`, after that test a misaligned target `E_ALIGN` (R120), and
no lane pushes or pops. -/
def Obligations.CallsAndReturns : Prop :=
  (∀ (i : Instr) (f : Fields) (s : State) (e : Env) (sh : Shape) (r : Run) (tgt : Nat → W64),
    (i, tgt) ∈ [(Instr.call f, fun _ => target e f r), (.callInd f, fun l => e.readPtr l f.a)] → Ready i s e f sh r →
    ∀ ls, ls = e.acting f.guard r →
    ((∀ l ∈ ls, (e.lane l).stack.length < 16 ∧ (tgt l).toNat % 4 = 0) → ∀ link, link = (ctx e f r).pc + 24 →
      ∃ t v, exec i s = .next t ∧ t.wav? e.wid = some v ∧ Defers e r (.goto (ls.map fun l => (l, tgt l))) v ∧
        Shifted e f r (fun _ => ⟨link, Ty.n64.tag, []⟩) v ∧ Holds e f.d true ls (fun _ => ⟨link, Ty.n64.tag, []⟩) v ∧
        (∀ l ∈ ls, (v.lane l).stack = link :: (e.lane l).stack) ∧ (∀ l, l ∉ ls → (v.lane l).stack = (e.lane l).stack) ∧
        t = { s with wavs := t.wavs } ∧ ∀ w, w ≠ e.wid → t.wav? w = s.wav? w) ∧
    (∀ full, full = ls.filter (fun l => decide (16 ≤ (e.lane l).stack.length)) → full ≠ [] →
      exec i s = .next (s.takeTrap e.wid eSpace (noAddr full))) ∧
    ((∀ l ∈ ls, (e.lane l).stack.length < 16) → ∀ skew, skew = ls.filter (fun l => (tgt l).toNat % 4 != 0) → skew ≠ [] →
      exec i s = .next (s.takeTrap e.wid eAlign (noAddr skew)))) ∧
  ∀ f s e sh r, Ready (.ret f) s e f sh r → ∀ ls, ls = e.acting f.guard r →
    ((∀ l ∈ ls, (e.lane l).stack ≠ [] ∧ ((e.lane l).stack.headD 0).toNat % 4 = 0) → ∃ t v, exec (.ret f) s = .next t ∧ t.wav? e.wid = some v ∧
      Defers e r (.goto (ls.map fun l => (l, (e.lane l).stack.headD 0))) v ∧
      (∀ l, (v.lane l).stack = if l ∈ ls then (e.lane l).stack.tail else (e.lane l).stack) ∧
      t = { s with wavs := t.wavs } ∧ ∀ w, w ≠ e.wid → t.wav? w = s.wav? w) ∧
    (∀ none', none' = ls.filter (fun l => (e.lane l).stack.isEmpty) → none' ≠ [] →
      exec (.ret f) s = .next (s.takeTrap e.wid eSpace (noAddr none'))) ∧
    ((∀ l ∈ ls, (e.lane l).stack ≠ []) → ∀ skew, skew = ls.filter (fun l => ((e.lane l).stack.headD 0).toNat % 4 != 0) → skew ≠ [] →
      exec (.ret f) s = .next (s.takeTrap e.wid eAlign (noAddr skew)))

/-- R28, R25, R27, R342: a seal always completes. Where the grid runs on and a lane stays live, the run ends, a yield is
noted, the bundle's lanes pass the seal or take their transfer, lose their `o` and `q` entries, stop being live on `exit`,
block as a waiting instruction of the run says, and else block exactly on pending results that the seal names; so does a lane of
an `mwait` whose commands are done. That a lane which
is let go leaves a D that another wavelet's `mma` has emptied meanwhile as it is, without a status, is the model's choice (log 20,
DESIGN CHOICE). -/
def Obligations.Seals : Prop :=
  ∀ f y w s e sh r, Ready (.seal f y w) s e f sh r → ∃ t, exec (.seal f y w) s = .next t ∧
    (RunsOn e → (∃ l, l < e.wav.width ∧ (e.lane l).live = true ∧ (r.lanes.has l && exits r l) = false) →
      (∀ skip, r.deferred ≠ some (.retX skip)) →
      ∃ v, t.wav? e.wid = some v ∧ v.run = none ∧ v.pass = (if y then some (r.start, r.lanes) else none) ∧
        (∀ l, r.lanes.has l = false → (v.lane l).pc = (e.lane l).pc ∧ (v.lane l).live = (e.lane l).live) ∧
        ∀ l ∈ bundle e r, (v.lane l).o = [] ∧ (v.lane l).q = [] ∧
          (v.lane l).pc = (match r.deferred with
            | some (.goto ts) => (Assoc.get? ts l).getD ((e.lane l).pc + 12)
            | _ => (e.lane l).pc + 12) ∧
          (v.lane l).live = ((e.lane l).live && !exits r l) ∧
          ((∀ ws, r.deferred ≠ some (.wait ws)) → (v.lane l).live = true → (e.lane l).wait = .none →
            ((v.lane l).wait = .none ↔ if w then ∀ x ∈ (e.lane l).regs, x.2.full = true
              else ∀ n ∈ Name.mains f.d 1 ++ Name.mains f.a 1 ++ Name.mains f.b 1, ((e.lane l).reg n).full = true)) ∧
          ∀ ws, r.deferred = some (.wait ws) → w = false → Name.mains f.d 1 ++ Name.mains f.a 1 ++ Name.mains f.b 1 = [] →
            (e.lane l).live = true → (e.lane l).wait = .none → Waits s e (Assoc.get? ws l) (e.lane l) (v.lane l)) ∧
  ∀ f y s e sh r ws l d t v, Ready (.seal f y false) s e f sh r → RunsOn e → r.deferred = some (.wait ws) →
    Assoc.get? ws l = some (.mwait d) → ((s.matrixOps e.wid.block).any fun o => o.1.wid == e.wid) = false → l ∈ bundle e r →
    (e.lane l).live = true → (e.lane l).wait = .none → exec (.seal f y false) s = .next t → t.wav? e.wid = some v →
    ∀ names, names = Name.mains f.d 1 ++ Name.mains f.a 1 ++ Name.mains f.b 1 →
      (v.lane l).wait = if names.all fun n => ((e.lane l).reg n).full then .none else .regs names

/-- R338, R168, R126, R311, R360: inside a handler, `ret.x` and `ret.x.skip` for every live lane of the trapping bundle leave the
return to the seal, which restores the PCs, the run, `o` and `q`; after a fault or an integrity failure `ret.x` replays the
marked and the held lanes, and `ret.x.skip` abandons the marked ones, whose registers it fills before the seal waits for results, and replays the held. Outside a
handler they raise `E_ILL`, and inside one where not every such lane takes part too; without an acting lane that marks the
whole bundle inside a handler, and outside one they do nothing. Which lanes `E_ILL` marks, that a skipped run keeps no deferred
effect and that the restored `o` and `q` stand after the seal are the model's readings (log 18, DEDUCED). -/
def Obligations.HandlerReturns : Prop :=
  (∀ (i : Instr) (f : Fields) (skip : Bool), (i, skip) ∈ [(Instr.retX f, false), (.retXSkip f, true)] → ∀ s e sh r, Ready i s e f sh r →
    (∀ h, e.wav.handler = some h → (∀ l ∈ e.wav.live, h.lanes.has l = true → l ∈ e.acting f.guard r) →
      ∃ t v, exec i s = .next t ∧ t.wav? e.wid = some v ∧ Defers e r (.retX skip) v ∧ RegisterFrame {} s e f r t) ∧
    (∀ h l, e.wav.handler = some h → l ∈ e.wav.live → h.lanes.has l = true → l ∉ e.acting f.guard r → e.acting f.guard r ≠ [] →
      exec i s = .next (s.takeTrap e.wid eIll (noAddr (e.acting f.guard r)))) ∧
    (∀ h l, e.wav.handler = some h → l ∈ e.wav.live → h.lanes.has l = true → e.acting f.guard r = [] →
      exec i s = .next (s.takeTrap e.wid eIll (noAddr (bundle e r)))) ∧
    (e.wav.handler = none → e.acting f.guard r ≠ [] → exec i s = .next (s.takeTrap e.wid eIll (noAddr (e.acting f.guard r)))) ∧
    (e.wav.handler = none → e.acting f.guard r = [] → ∃ t v, exec i s = .next t ∧ t.wav? e.wid = some v ∧
      v.run = some { r with count := r.count + 1, mustSeal := true, deferred := none } ∧ RegisterFrame {} s e f r t)) ∧
  ∀ f y w s e sh r skip h, Ready (.seal f y w) s e f sh r → r.deferred = some (.retX skip) → e.wav.handler = some h →
    RunsOn e → e.wav.live ≠ [] →
    ∀ left, left = (match h.marked with | some m => if skip then h.held else m ||| h.held | none => 0) →
    ∀ fin, fin = (skip && left == 0) →
    ∃ t v, exec (.seal f y w) s = .next t ∧ t.wav? e.wid = some v ∧ v.handler = none ∧
      v.replay = (if left = 0 then none else some left) ∧
      v.run = some { h.run with lanes := h.run.lanes &&& Mask.ofLanes e.wav.live, count := h.run.count + (if fin then 1 else 0),
                                mustSeal := if fin then false else h.run.mustSeal, deferred := if fin then none else h.run.deferred } ∧
      ∀ l ∈ e.wav.live, h.lanes.has l = true → (v.lane l).pc = (if fin then e.wav.epc + 12 else e.wav.epc) ∧
        (v.lane l).o = (Assoc.get? h.o l).getD [] ∧ (v.lane l).q = (Assoc.get? h.q l).getD [] ∧
        (skip = true → (h.marked.getD 0).has l = true → ∀ n ∈ (Assoc.get? h.abandon l).getD [], ((v.lane l).reg n).full = true) ∧
        (r.lanes.has l = true → (e.lane l).wait = .none → ((v.lane l).wait = .none ↔ if w then ∀ x ∈ (v.lane l).regs, x.2.full = true
          else ∀ n ∈ Name.mains f.d 1 ++ Name.mains f.a 1 ++ Name.mains f.b 1, ((v.lane l).reg n).full = true))

/-- R356: `trap` raises `E_TRAP` in its acting lanes, with the code as each one's address; without one it does nothing. -/
def Obligations.TrapInstruction : Prop :=
  ∀ f s e sh r, Ready (.trap f) s e f sh r →
    (e.acting f.guard r ≠ [] → exec (.trap f) s =
      .next (s.takeTrap e.wid eTrap ((e.acting f.guard r).map fun l => (l, f.imm.setWidth 64)))) ∧
    (e.acting f.guard r = [] → ∃ t v, exec (.trap f) s = .next t ∧ t.wav? e.wid = some v ∧ Moved e r v ∧ RegisterFrame {} s e f r t)

/-- R278, R251, R168: `brk` raises `E_BRK` in its acting lanes, at address 0; where a debugger is attached and the wavelet is in no
handler, Pewter has it: that the context is set and the wavelet stops with it is the model's reading (log 18, DEDUCED). Without
an acting lane `brk` does nothing. -/
def Obligations.BreakInstruction : Prop :=
  ∀ f s e sh r, Ready (.brk f) s e f sh r →
    (e.acting f.guard r ≠ [] → e.job.debug = false ∨ e.wav.handler ≠ none →
      exec (.brk f) s = .next (s.takeTrap e.wid eBrk (noAddr (e.acting f.guard r)))) ∧
    (e.acting f.guard r ≠ [] → e.job.debug = true → e.wav.handler = none → ∃ t v, exec (.brk f) s = .next t ∧ t.wav? e.wid = some v ∧
      v.stopped = true ∧ v.cause = eBrk ∧ v.epc = (ctx e f r).pc ∧ v.fmask = Mask.ofLanes (e.acting f.guard r) ∧
      (∀ l, (v.lane l).faddr = if l < e.wav.width then 0 else (e.lane l).faddr) ∧ (∀ l, (v.lane l).pc = (e.lane l).pc)) ∧
    (e.acting f.guard r = [] → ∃ t v, exec (.brk f) s = .next t ∧ t.wav? e.wid = some v ∧ Moved e r v ∧ RegisterFrame {} s e f r t)

/-! Barriers. -/

/-- R32, R34, R35, R36, R274: arrivals take their tickets, in the lanes' order; an object they complete has one phase more;
`bar` arrives so, and leaves its lanes to block at the seal on the object and the ticket, those whose phase is complete already
to go on there with status 0, those of an invalid object with 1; `barwait` leaves its lanes to block; `barinit` writes the reset
values and `barinv` invalidates. A phase that completes lets go the lanes blocked on the object whose tickets it releases, with
status 0, and `barinv` all of them, with 1 (R32, R36); each release is one for the waves in which they wake (R256).
R30, R146: an address outside the block's scratchpads raises `E_SPACE` or `E_SPFOREIGN`, else a misaligned one `E_ALIGN`.
R31, R32, R34, R35: an object that is malformed or has no room raises `E_BAR`, and so does, before its addresses are tested, a
`barinit` with a count out of range; nothing changes. A `barinit` whose steps fail in some lanes, a lane waiting on the object or its counts not clear, raises
`E_BAR` in those, and the others' objects are initialised. That every arriving lane of a refusing object is marked, with the
object's address, and a count out of range with address 0, is the model's reading (log 20, DEDUCED). R59 keeps no status from a
lane that is let go; that one whose D another wavelet's `mma` has emptied meanwhile leaves that D as it is, without a status, is the
model's choice (log 20, DESIGN CHOICE). -/
def Obligations.Barriers : Prop :=
  ((∀ f s e sh r obj, Ready (.bararr f) s e f sh r → OnObjects e f (e.acting f.guard r) obj → Admits s (e.acting f.guard r) obj →
     ∃ t val, exec (.bararr f) s = .next t ∧ Wrote e f false r val t ∧
       ∀ b, (∀ l ∈ e.acting f.guard r, obj l = b) → (s.blk? b.1).isSome = true → Canonical s → ∀ o, o = s.obj b.1 b.2 →
         (∀ l ∈ e.acting f.guard r, val l =
           ⟨(ticket o ((e.acting f.guard r).filter (· < l)).length).setWidth 64, Ty.n32.tag, []⟩) ∧
         ∀ n, n = (e.acting f.guard r).length → 0 < n → o.inv = false → o.arr + n ≤ o.exp → o.hld < o.exp →
           (t.obj b.1 b.2 = if o.arr + n = o.exp ∧ o.cnt = 0 then { o with ph := (o.ph + 1) % 2 ^ 32, arr := o.hld, hld := 0 }
             else { o with arr := o.arr + n }) ∧
           (o.arr + n = o.exp → o.cnt = 0 → LetGo s t b (freed o) 0 fun w l => w == e.wid && r.lanes.has l)) ∧
   (∀ f s e sh r obj, Ready (.bar f) s e f sh r → OnObjects e f (e.acting f.guard r) obj → Admits s (e.acting f.guard r) obj →
     ∃ t v ws, exec (.bar f) s = .next t ∧ t.wav? e.wid = some v ∧ Defers e r (.wait ws) v ∧ ws.map (·.1) = e.acting f.guard r ∧
       ∀ b, (∀ l ∈ e.acting f.guard r, obj l = b) → (s.blk? b.1).isSome = true → Canonical s → ∀ o, o = s.obj b.1 b.2 →
         (o.inv = true → t.obj b.1 b.2 = o ∧ ∀ l ∈ e.acting f.guard r, Assoc.get? ws l = some (.known f.d 1)) ∧
         (o.inv = false → ∀ l ∈ e.acting f.guard r, Assoc.get? ws l = some (.known f.d 0) ∨
           Assoc.get? ws l = some (.bar b.1 b.2 (ticket o ((e.acting f.guard r).filter (· < l)).length) f.d)) ∧
         ∀ n full, n = (e.acting f.guard r).length → 0 < n → o.inv = false → o.arr + n ≤ o.exp → o.hld < o.exp →
           full = decide (o.arr + n = o.exp ∧ o.cnt = 0) →
           (t.obj b.1 b.2 = if full then { o with ph := (o.ph + 1) % 2 ^ 32, arr := o.hld, hld := 0 } else { o with arr := o.arr + n }) ∧
           (full = true → LetGo s t b (freed o) 0 fun w l => w == e.wid && r.lanes.has l) ∧
           ∀ l ∈ e.acting f.guard r, Assoc.get? ws l = some (if full then .known f.d 0
             else .bar b.1 b.2 (ticket o ((e.acting f.guard r).filter (· < l)).length) f.d)) ∧
   (∀ f s e sh r obj, Ready (.barwait f) s e f sh r → OnObjects e f (e.acting f.guard r) obj →
     (∀ l ∈ e.acting f.guard r, (s.obj (obj l).1 (obj l).2).ok = true) →
     ∃ t v, exec (.barwait f) s = .next t ∧ t.wav? e.wid = some v ∧ RegisterFrame { flags := stCnvSat } s e f r t ∧
       Defers e r (.wait ((e.acting f.guard r).map fun l =>
         (l, match (s.obj (obj l).1 (obj l).2).passes ((src e f.b .n32 l).bits.setWidth 32) with
           | some st => Wait.known f.d st
           | none => .barwait (obj l).1 (obj l).2 ((src e f.b .n32 l).bits.setWidth 32) f.d))) v) ∧
   (∀ f s e sh r obj, Ready (.barinit f) s e f sh r → OnObjects e f (e.acting f.guard r) obj →
     (∀ l ∈ e.acting f.guard r, 1 ≤ srcN e f.b .n32 l ∧ srcN e f.b .n32 l ≤ 8192) →
     (∀ l ∈ e.acting f.guard r, ∀ o, o = s.obj (obj l).1 (obj l).2 → o.cnt = 0 ∧ o.hld = 0 ∧
       s.wt (obj l).1 ((obj l).2 / 16) = false ∧ (s.blk? (obj l).1).isSome = true) → Canonical s →
     (∀ l ∈ e.acting f.guard r, ∀ k ∈ e.acting f.guard r, l ≠ k → obj l ≠ obj k) →
     ∃ t v, exec (.barinit f) s = .next t ∧ t.wav? e.wid = some v ∧ Moved e r v ∧
       ∀ l ∈ e.acting f.guard r, t.obj (obj l).1 (obj l).2 = ⟨0, 0, 0, 0, srcN e f.b .n32 l, false⟩) ∧
   ∀ f s e sh r obj, Ready (.barinv f) s e f sh r → OnObjects e f (e.acting f.guard r) obj → Canonical s →
     (∀ l ∈ e.acting f.guard r, (s.blk? (obj l).1).isSome = true) →
     ∃ t v, exec (.barinv f) s = .next t ∧ t.wav? e.wid = some v ∧ Moved e r v ∧ (∀ l ∈ e.acting f.guard r, ∀ o,
       o = s.obj (obj l).1 (obj l).2 → t.obj (obj l).1 (obj l).2 = { o with inv := true, arr := 0, hld := 0, cnt := 0 }) ∧
       ∀ b, e.acting f.guard r ≠ [] → (∀ l ∈ e.acting f.guard r, obj l = b) →
         LetGo s t b (fun _ => true) 1 fun w l => w == e.wid && r.lanes.has l) ∧
  ((∀ i f s e sh r obj, i ∈ [Instr.bararr f, .bar f] → Ready i s e f sh r → OnObjects e f (e.acting f.guard r) obj →
     ∀ bad, bad = (e.acting f.guard r).filter (fun l =>
       !(s.obj (obj l).1 (obj l).2).ok || (!(s.obj (obj l).1 (obj l).2).inv &&
         decide ((s.obj (obj l).1 (obj l).2).exp - (s.obj (obj l).1 (obj l).2).arr + ((s.obj (obj l).1 (obj l).2).exp - (s.obj (obj l).1 (obj l).2).hld) <
           ((e.acting f.guard r).filter fun k => obj k == obj l).length))) → bad ≠ [] →
       exec i s = .next (s.takeTrap e.wid eBar (bad.map fun l => (l, addr e f l)))) ∧
   (∀ f s e sh r obj, Ready (.barwait f) s e f sh r → OnObjects e f (e.acting f.guard r) obj →
     ∀ bad, bad = (e.acting f.guard r).filter (fun l => !(s.obj (obj l).1 (obj l).2).ok) → bad ≠ [] →
       exec (.barwait f) s = .next (s.takeTrap e.wid eBar (bad.map fun l => (l, addr e f l)))) ∧
   (∀ f s e sh r, Ready (.barinit f) s e f sh r →
     ∀ bad, bad = (e.acting f.guard r).filter (fun l => decide (srcN e f.b .n32 l = 0) || decide (8192 < srcN e f.b .n32 l)) → bad ≠ [] →
       exec (.barinit f) s = .next (s.takeTrap e.wid eBar (noAddr bad))) ∧
   (∀ i f s e sh r, i ∈ [Instr.bar f, .bararr f, .barwait f, .barinv f, .barinit f] → Ready i s e f sh r →
     (i = .barinit f → ∀ l ∈ e.acting f.guard r, 1 ≤ srcN e f.b .n32 l ∧ srcN e f.b .n32 l ≤ 8192) →
     ∀ cause : Nat → Option Nat, (cause = fun l => match e.scr (addr e f l) with | .error c => some c | .ok _ => none) →
     (∀ hits, hits = (e.acting f.guard r).filter (fun l => cause l == some eSpace) → hits ≠ [] →
       exec i s = .next (s.takeTrap e.wid eSpace (hits.map fun l => (l, addr e f l)))) ∧
     ((∀ l ∈ e.acting f.guard r, cause l ≠ some eSpace) →
       ∀ hits, hits = (e.acting f.guard r).filter (fun l => cause l == some eSpforeign) → hits ≠ [] →
       exec i s = .next (s.takeTrap e.wid eSpforeign (hits.map fun l => (l, addr e f l)))) ∧
     ((∀ l ∈ e.acting f.guard r, cause l = none) →
       ∀ hits, hits = (e.acting f.guard r).filter (fun l => (addr e f l).toNat % 16 != 0) → hits ≠ [] →
       exec i s = .next (s.takeTrap e.wid eAlign (hits.map fun l => (l, addr e f l))))) ∧
   ∀ f s e sh r obj, Ready (.barinit f) s e f sh r → OnObjects e f (e.acting f.guard r) obj → Canonical s →
     (∀ l ∈ e.acting f.guard r, 1 ≤ srcN e f.b .n32 l ∧ srcN e f.b .n32 l ≤ 8192 ∧ (s.blk? (obj l).1).isSome = true) →
     (∀ l ∈ e.acting f.guard r, ∀ k ∈ e.acting f.guard r, l ≠ k → obj l ≠ obj k) →
     ∀ fails : Nat → Bool, (fails = fun l => s.wt (obj l).1 ((obj l).2 / 16) || (s.obj (obj l).1 (obj l).2).cnt != 0 ||
       (s.obj (obj l).1 (obj l).2).hld != 0) →
     ∀ bad, bad = (e.acting f.guard r).filter fails → bad ≠ [] → ∃ (u : State) (c : MemTrap),
       exec (.barinit f) s = .next (u.takeTrap e.wid eBar (bad.map fun l => (l, addr e f l)) c) ∧
       c.marked = some (Mask.ofLanes bad) ∧ c.held = 0 ∧ ∀ l ∈ e.acting f.guard r, u.obj (obj l).1 (obj l).2 =
         if fails l then s.obj (obj l).1 (obj l).2 else ⟨0, 0, 0, 0, srcN e f.b .n32 l, false⟩)

/-! System registers and services. -/

/-- R344, R68, R69: `setsr` writes its register with the value of the lowest acting lane and changes nothing else; of a
register that a kernel may not write it raises `E_PERM`; without an acting lane it changes nothing.
R68, R307: what `getsr` reads of the registers of the lane and of the wavelet, and of those of its block, span, grid, kernel, job
and cluster (R45, R72, R180, R179, R256, R257, R259, R260); it changes nothing but D, and of `sys.cyc` the cluster's sampled count.
R260: `tstamp` writes the device's count, which never decreases, as `n64` into every acting lane, and changes nothing else. -/
def Obligations.SystemRegisters : Prop :=
  ((∀ (i : Instr) (f : Fields) (t : Ty) (g : W32 → Wavelet → Wavelet), (i, t, g) ∈
       [(Instr.setsrSeed f, Ty.n32, fun x v => { v with seed := x }), (.setsrMode f, .b32, fun x v => { v with mode := x.setWidth 3 }),
        (.setsrSplAlpha f, .f32, fun x v => { v with alpha := x }), (.setsrPwrRatio f, .b32, fun x v => { v with req := x.setWidth 2 })] →
     ∀ s e sh r, Ready i s e f sh r → (i = .setsrSeed f → f.sysReg = 0x0F) →
       ∃ u v, exec i s = .next u ∧ u.wav? e.wid = some v ∧ Moved e r v ∧ u = { s with wavs := u.wavs } ∧
         (∀ w, w ≠ e.wid → u.wav? w = s.wav? w) ∧
         ∀ k, (k = match e.acting f.guard r with | l :: _ => g ((src e f.a t l).bits.setWidth 32) e.wav | [] => e.wav) →
           v.seed = k.seed ∧ v.mode = k.mode ∧ v.alpha = k.alpha ∧ v.req = k.req ∧
           WaveKept { flags := stCnvSat } f e r { v with seed := e.wav.seed, mode := e.wav.mode, alpha := e.wav.alpha, req := e.wav.req }) ∧
   ∀ f s e sh r, Ready (.setsrSeed f) s e f sh r → f.sysReg ≠ 0x0F → e.acting f.guard r ≠ [] →
     exec (.setsrSeed f) s = .next (s.takeTrap e.wid ePerm (noAddr (e.acting f.guard r)))) ∧
  (∀ f s e sh r, Ready (.getsr f) s e f sh r → ∃ t val, exec (.getsr f) s = .next t ∧ Wrote e f (pairD sh.d) r val t ∧
     ∀ l ∈ e.acting f.guard r, (f.sysReg = 0x13 → val l = ⟨BitVec.ofNat 64 s.slope, Ty.n32.tag, []⟩) ∧
       (f.sysReg = 0x14 → val l = ⟨BitVec.ofNat 64 s.droop, Ty.n32.tag, []⟩) ∧
       (f.sysReg = 0x15 → val l = ⟨BitVec.ofNat 64 (e.wav.req.toNat + 16 * ((s.cluster e.blk.at').eff.getD e.wav.slice 0).toNat), Ty.b32.tag, []⟩) ∧
       (f.sysReg = 0x08 → ∃ n, (s.cluster e.blk.at').cyc ≤ n ∧ (t.cluster e.blk.at').cyc = n ∧ val l = ⟨BitVec.ofNat 64 n, Ty.n64.tag, []⟩)) ∧
  (∀ f s e sh r, Ready (.getsr f) s e f sh r → ∃ t, exec (.getsr f) s = .next t ∧
     (f.sysReg ≠ 0x08 → RegisterFrame (Writes.result (.getsr f) f.d (pairD sh.d)) s e f r t) ∧
     (f.sysReg = 0x08 → OthersKept (Writes.result (.getsr f) f.d (pairD sh.d)) s e f r t ∧
       t = { s with wavs := t.wavs, clusters := t.clusters } ∧ (∀ w l a, t.readLoc w l a 1 = s.readLoc w l a 1) ∧
       ∀ c, t.cluster c = if c = e.blk.at' then { s.cluster c with cyc := (t.cluster c).cyc, sampled := (t.cluster c).sampled }
         else s.cluster c)) ∧
  (∀ f s e sh r, Ready (.tstamp f) s e f sh r → ∃ t val n, exec (.tstamp f) s = .next t ∧ Wrote e f (pairD sh.d) r val t ∧
     s.now ≤ n ∧ t = { s with wavs := t.wavs, now := n } ∧ OthersKept (Writes.result (.tstamp f) f.d (pairD sh.d)) s e f r t ∧
     (∀ w l a, t.readLoc w l a 1 = s.readLoc w l a 1) ∧ ∀ l ∈ e.acting f.guard r, val l = ⟨BitVec.ofNat 64 n, Ty.n64.tag, []⟩) ∧
  (∀ f, Yields (.getsr f) fun e _ _ v _ =>
     (f.sysReg = 0x02 → v = ⟨BitVec.ofNat 64 e.wid.wid, Ty.n32.tag, []⟩) ∧ (f.sysReg = 0x03 → v = ⟨BitVec.ofNat 64 e.blk.idx, Ty.n32.tag, []⟩) ∧
     (f.sysReg = 0x04 → v = ⟨BitVec.ofNat 64 e.blk.home, Ty.n32.tag, []⟩) ∧ (f.sysReg = 0x05 → v = ⟨BitVec.ofNat 64 e.wid.blk, Ty.n32.tag, []⟩) ∧
     (f.sysReg = 0x06 → v = ⟨BitVec.ofNat 64 e.task.grid, Ty.n32.tag, []⟩) ∧ (f.sysReg = 0x0B → v = ⟨BitVec.ofNat 64 e.wav.cause, Ty.n32.tag, []⟩) ∧
     (f.sysReg = 0x10 → v = ⟨BitVec.ofNat 64 e.K, Ty.n32.tag, []⟩) ∧
     (f.sysReg = 0x11 → v.tag = Ty.b32.tag ∧ v.tan = [] ∧ ∀ k, v.bits.getLsbD k = (decide (k < 4 * e.K) && (Kern.kinds e.kern).getLsbD k)) ∧
     (f.sysReg = 0x16 → v = ⟨BitVec.ofNat 64 e.task.ctx, Ty.n32.tag, []⟩) ∧
     (∀ k, k < 4 → f.sysReg = 0x18 + k → v = ⟨e.blk.wptr.getD k 0, Ty.n64.tag, []⟩) ∧
     ∀ k, k < 4 → f.sysReg = 0x1C + k → v = ⟨(e.blk.amax.getD k 0).setWidth 64, Ty.f32.tag, []⟩) ∧
  (∀ f, Yields (.getsr f) fun e _ l v _ =>
     (f.sysReg = 0x00 → v = ⟨BitVec.ofNat 64 l, Ty.n32.tag, []⟩) ∧ (f.sysReg = 0x01 → v = ⟨BitVec.ofNat 64 e.wav.width, Ty.n32.tag, []⟩) ∧
     (f.sysReg = 0x07 → v = ⟨(e.lane l).pc, Ty.n64.tag, []⟩) ∧ (f.sysReg = 0x09 → v = ⟨(e.lane l).status.setWidth 64, Ty.b32.tag, []⟩) ∧
     (f.sysReg = 0x0A → v = ⟨e.wav.mode.setWidth 64, Ty.b32.tag, []⟩) ∧ (f.sysReg = 0x0C → v = ⟨e.wav.epc, Ty.n64.tag, []⟩) ∧
     (f.sysReg = 0x0D → v = ⟨(e.lane l).faddr, Tag.ptr, []⟩) ∧ (f.sysReg = 0x0E → v = ⟨e.wav.fmask, Ty.n64.tag, []⟩) ∧
     (f.sysReg = 0x0F → v = ⟨e.wav.seed.setWidth 64, Ty.n32.tag, []⟩) ∧ (f.sysReg = 0x12 → v = ⟨e.wav.alpha.setWidth 64, Ty.f32.tag, []⟩))

/-- R352: PAGEIN and VERSION stall the bundle until the answer, which they write, of a PAGEIN whether the page is there once
Pewter has mapped what it maps; ABORT ends the grid with `E_SYSC`; another service raises `E_SYSC`; without an acting lane nothing
is asked.
A D that another wavelet's `mma` has emptied meanwhile raises `E_PENDWRITE` (R59).
R246, R242, R243, R245: `task` whose records can be read submits them one after the other and writes each lane's status: of 0 the
lane's task stands in its queue, with its header, kernel record and regions, under the next grid number; of another the lane has
submitted nothing; a record outside the windows raises
`E_SPACE`, and where none is, one of another block's scratchpad `E_SPFOREIGN`, else a misaligned one `E_ALIGN` (R146). That a
record must lie within the scratchpad allocation with all its 192 bytes is the model's reading (log 19, DEDUCED). -/
def Obligations.ServicesAndTasks : Prop :=
  ((∀ (i : Instr) (f : Fields) (ver : Bool), (i, ver) ∈ [(Instr.syscPagein f, false), (.syscVersion f, true)] → ∀ s e sh r, Ready i s e f sh r →
     (e.acting f.guard r ≠ [] → (ver = true → f.imm = 3) → ∃ t v, exec i s = .next t ∧ t.wav? e.wid = some v ∧
       v.stall = .sysc ver f ∧ v.run = e.wav.run ∧ ∀ l, (v.lane l).pc = (e.lane l).pc) ∧
     (e.acting f.guard r = [] → ∃ t val, exec i s = .next t ∧ Wrote e f true r val t)) ∧
   (∀ f s e sh r, Ready (.syscVersion f) s e f sh r → f.imm ≠ 3 → e.acting f.guard r ≠ [] →
     exec (.syscVersion f) s = .next (s.takeTrap e.wid eSysc (noAddr (e.acting f.guard r)))) ∧
   (∀ f s e sh r l ls, Ready (.syscAbort f) s e f sh r → e.acting f.guard r = l :: ls → e.task.cause = 0 →
     ∃ t k, exec (.syscAbort f) s = .next t ∧ t.task? e.span.task = some k ∧ k.cause = eSysc ∧
       k.kept = some ⟨eSysc, (ctx e f r).pc, Mask.ofLanes (l :: ls), (src e f.a .n64 l).bits,
         (l :: ls).map fun j => (j, (src e f.a .n64 j).bits)⟩) ∧
   (∀ f s e sh r, Ready (.syscAbort f) s e f sh r → e.acting f.guard r = [] →
     ∃ t val, exec (.syscAbort f) s = .next t ∧ Wrote e f true r val t ∧ RegisterFrame { shifts := true } s e f r t) ∧
   (∀ w s e r f ver maps, s.env? w = some e → e.wav.run = some r → e.wav.stall = .sysc ver f →
     ∀ bad, bad = (e.acting f.guard r).filter (fun l => (Name.mains f.d 2).any fun k => !((e.lane l).reg k).full) → bad ≠ [] →
     exec (.syscAnswer w maps) s = .next (s.takeTrap w ePendwrite (noAddr bad))) ∧
   ∀ w s e r f ver maps u, s.env? w = some e → Tidy e.wav → e.wav.run = some r → e.wav.stall = .sysc ver f →
     s.mapPages e.task.ctx (if ver then [] else maps) = some u →
     (∀ l ∈ e.acting f.guard r, ∀ k ∈ Name.mains f.d 2, ((e.lane l).reg k).full = true) →
     ∃ t val, exec (.syscAnswer w maps) s = .next t ∧ Wrote e f true r val t ∧
       OthersKept (Writes.result (.syscPagein f) f.d true) u e f r t ∧ t = { u with wavs := t.wavs } ∧
       ∀ l ∈ e.acting f.guard r, val l = ⟨if ver then 0x10001 else match window (src e f.a .n64 l).bits with
         | .glob va => if ((u.job e.task.ctx).page va).isSome then 0 else 1
         | _ => 2, Ty.n64.tag, []⟩) ∧
  (∀ f s e sh r, Ready (.task f) s e f sh r →
     (∀ sp : Nat → List (Spot × Nat), (∀ l ∈ e.acting f.guard r, e.recCause (e.readPtr l f.a) = none ∧ (e.readPtr l f.a).toNat % 64 = 0 ∧
         s.recSpots e l (e.readPtr l f.a) = some (sp l) ∧ ∀ p ∈ sp l, s.fails e .load false p.2 p.1 l = false) →
       ∃ t u val st, exec (.task f) s = .next t ∧ Wrote e f false r val t ∧
         SubmitsAll e.task.ctx (fun l => joinBits 512 ((sp l).map fun p => s.readLoc e.wid l p.1.loc p.2)) st (e.acting f.guard r) s u ∧
         t = { s with wavs := t.wavs, tasks := u.tasks, jobs := u.jobs, nextOp := u.nextOp, llc := t.llc, charges := t.charges,
                      clusters := t.clusters } ∧
         OthersKept (Writes.result (.task f) f.d false) s e f r t ∧
         ∀ l ∈ e.acting f.guard r, val l = ⟨BitVec.ofNat 64 (st l), Ty.n32.tag, []⟩) ∧
     (∀ bad, bad = (e.acting f.guard r).filter (fun l => e.recCause (e.readPtr l f.a) == some eSpace) → bad ≠ [] →
       exec (.task f) s = .next (s.takeTrap e.wid eSpace (bad.map fun l => (l, e.readPtr l f.a)))) ∧
     ((∀ l ∈ e.acting f.guard r, e.recCause (e.readPtr l f.a) ≠ some eSpace) →
       ∀ bad, bad = (e.acting f.guard r).filter (fun l => e.recCause (e.readPtr l f.a) == some eSpforeign) → bad ≠ [] →
       exec (.task f) s = .next (s.takeTrap e.wid eSpforeign (bad.map fun l => (l, e.readPtr l f.a)))) ∧
     ((∀ l ∈ e.acting f.guard r, e.recCause (e.readPtr l f.a) = none) →
       ∀ bad, bad = (e.acting f.guard r).filter (fun l => (e.readPtr l f.a).toNat % 64 != 0) → bad ≠ [] →
       exec (.task f) s = .next (s.takeTrap e.wid eAlign (bad.map fun l => (l, e.readPtr l f.a)))))

/-! Engines. -/

/-- R317, R197, R198, R323, R319, R320, R321, R322, R43: the operand-memory and matrix instructions that meet no cause claim and
release slots and hand their commands over, in the lowest acting lane; the first of their tests that is met traps in that lane, and
nothing changes. An `mclaim` that must wait joins the claims of its cluster, or stops where its span is to stop (R43), and one that
was granted its slots meanwhile takes them. Without an acting lane all of them pass. In which order the tests of one instruction
beyond R146's and R320's are made is the model's reading (log 19, DEDUCED). -/
def Obligations.MatrixInstructions : Prop :=
  (∀ f s e sh r l ls n, Ready (.mclaim f) s e f sh r → e.acting f.guard r = l :: ls → e.wav.granted = none → n = srcN e f.a .n32 l →
    1 ≤ n → n ≤ 16 → n + e.blk.slots.length ≤ e.kern.opm → (∀ c ∈ s.claims, c.1 ≠ e.blk.at') → n ≤ (s.freeSlots e.blk.at').length →
    ∃ t val, exec (.mclaim f) s = .next t ∧ Wrote e f false r val t ∧
      t.blk? e.wid.block = some { e.blk with slots := e.blk.slots ++ ((s.freeSlots e.blk.at').take n).map fun k => (k, none) } ∧
      ∀ k ∈ l :: ls, (val k).tag = Ty.n32.tag ∧ (val k).bits.toNat = (((s.freeSlots e.blk.at').take n).map fun j => 2 ^ j).sum) ∧
  (∀ f s e sh r l ls n, Ready (.mclaim f) s e f sh r → e.acting f.guard r = l :: ls → e.wav.granted = none → n = srcN e f.a .n32 l →
    1 ≤ n → n ≤ 16 → n + e.blk.slots.length ≤ e.kern.opm →
    (∃ c ∈ s.claims, c.1 = e.blk.at') ∨ (s.freeSlots e.blk.at').length < n → e.task.cause = 0 →
    ∃ t v, exec (.mclaim f) s = .next t ∧ t.wav? e.wid = some v ∧ v.stall = .claim ∧ v.run = e.wav.run ∧
      (e.span.stage = .running → t.claims = s.claims ++ [(e.blk.at', e.wid, n)]) ∧
      (e.span.stage = .stopping → t.claims = s.claims ∧ v.stopped = true)) ∧
  (∀ f s e sh r l ls, Ready (.mrel f) s e f sh r → e.acting f.guard r = l :: ls →
    (∀ n, n < 32 → (srcN e f.a .n32 l).testBit n = true → n < 16 ∧ e.blk.holds n = true) →
    ∃ t v k, exec (.mrel f) s = .next t ∧ t.wav? e.wid = some v ∧ Moved e r v ∧ t.blk? e.wid.block = some k ∧
      k.slots = e.blk.slots.filter fun p => !((srcN e f.a .n32 l).testBit p.1 && decide (p.1 < 32))) ∧
  (∀ (i : Instr) (f : Fields) (trans : Bool), (i, trans) ∈ [(Instr.mld f, false), (.mldT f, true)] → ∀ s e sh r l ls, Ready i s e f sh r →
    e.acting f.guard r = l :: ls → firstOf (matrixTests s e l i) = none → ∀ w, w = srcN e f.b .n32 l →
    ∃ t v, exec i s = .next t ∧ t.wav? e.wid = some v ∧ Moved e r v ∧ OthersKept { flags := stCnvSat } s e f r t ∧
      HandsOver e l (.mld (natBits w 3 0) (natBits w 5 4) (natBits w 7 6) f.ty trans (addr e f l) (srcN e f.c .n32 l) l) s t) ∧
  (∀ (i : Instr) (f : Fields) (kind : Nat), (i, kind) ∈ [(Instr.mconstIdent f, 0), (.mconstExch f, 1), (.mconstPerm f, 2),
      (.mconstOnesrow f, 3), (.mconstOnescol f, 4), (.mconstShift f, 5)] → ∀ s e sh r l ls, Ready i s e f sh r →
    e.acting f.guard r = l :: ls → ∀ w, w = srcN e f.a .n32 l → firstOf (matrixTests s e l i) = none →
    ∃ t v, exec i s = .next t ∧ t.wav? e.wid = some v ∧ Moved e r v ∧ OthersKept { flags := stCnvSat } s e f r t ∧
      HandsOver e l (.mconst (natBits w 3 0) (natBits w 4 4) kind f.ty (if kind = 2 then ((e.readPtr l f.b).toNat % 2 ^ 24 : Nat)
        else if kind = 5 then srcI e f.b .s32 l 0 else 0)) s t) ∧
  (∀ (i : Instr) (f : Fields) (dual : Bool), (i, dual) ∈ [(Instr.mma f, false), (.mdual f, true)] → ∀ s e sh r l ls p places, Ready i s e f sh r →
    e.acting f.guard r = l :: ls → firstOf (matrixTests s e l i) = none → p = parOf s e f l → placesOf s e p dual = some places →
    ∃ t v, exec i s = .next t ∧ t.wav? e.wid = some v ∧ Moved e r v ∧ HandsOver e l (.mma dual p) s t ∧
      ∀ x ∈ places, ∀ j ∈ x.wvs, ∃ u, t.wav? (wavOf e.wid.block j) = some u ∧ ∀ y ∈ u.lanes, ∀ n ∈ x.mains, (y.reg n).full = false) ∧
  (∀ f s e sh r, Ready (.mfence f) s e f sh r → ∃ t v, exec (.mfence f) s = .next t ∧ t.wav? e.wid = some v ∧ Moved e r v ∧
    RegisterFrame {} s e f r t) ∧
  (∀ f s e sh r l ls m, Ready (.mclaim f) s e f sh r → e.acting f.guard r = l :: ls → e.wav.granted = some m →
    ∃ t v, exec (.mclaim f) s = .next t ∧ t.wav? e.wid = some v ∧ v.granted = none ∧
      Wrote e f false r (fun _ => ⟨BitVec.ofNat 64 m, Ty.n32.tag, []⟩) t ∧ t = { s with wavs := t.wavs }) ∧
  (∀ i f s e sh r l ls c a, Ready i s e f sh r → e.acting f.guard r = l :: ls → firstOf (matrixTests s e l i) = some (c, a) →
    exec i s = .next (s.takeTrap e.wid c [(l, a)])) ∧
  (∀ f s e sh r, Ready (.mclaim f) s e f sh r → e.acting f.guard r = [] →
    ∃ t val, exec (.mclaim f) s = .next t ∧ Wrote e f false r val t ∧ RegisterFrame { shifts := true } s e f r t) ∧
  ∀ i f s e sh r, i ∈ [Instr.mrel f, .mld f, .mldT f, .mconstIdent f, .mconstExch f, .mconstPerm f, .mconstOnesrow f, .mconstOnescol f,
      .mconstShift f, .mma f, .mdual f] → Ready i s e f sh r → e.acting f.guard r = [] →
    ∃ t v, exec i s = .next t ∧ t.wav? e.wid = some v ∧ Moved e r v ∧ RegisterFrame {} s e f r t

/-- R191, R286, R347, R354, R283: the instructions that hand work to an engine mark their status registers empty and put the
work, lane by lane, at the end of what is outstanding. A texture read takes what it returns in the step of issue (log 3), the
lanes of one `texd` in a free order (log 4). The records that `cpt` and `cpkick` submit are those of their lanes, however many act,
in ascending lane order, each after all that its lane has done (R173), and their bytes stand in the CNT of their objects (R33); each
lane's start count is what the block had submitted on its first record's channel before it. `cpkick` moves its ring's HEAD (R195),
behind which the lanes after it read theirs, and lanes that ask for more than their ring holds, or of a malformed ring, raise
`E_ILL`, for n = 0 too (log 19, DESIGN CHOICE).
R146, R190: the addresses meet `E_SPACE`, `E_SPFOREIGN` and `E_ALIGN` in that order, in the lanes that meet the first one, each with
the first of its addresses that does; that the addresses of a record are tested with it, in the same order, is log 19 (DEDUCED). R33,
R195: a submission that its object refuses raises `E_BAR` in its lane, of which nothing is submitted, and in which alone the
instruction is executed again (log 20, DEDUCED). -/
def Obligations.EngineInstructions : Prop :=
  (∀ (i : Instr) (f : Fields) (s : State) (e : Env) (sh : Shape) (r : Run) (regs : List Nat) (work : Nat → Work) (ls : List Nat), 
    (∃ n : Fin 3, i = .cpl f n ∧ regs = Name.mains f.d 1 ∧ ls = e.acting f.guard r ∧
        (∀ l ∈ ls, e.winCause (addr e f l) = none ∧ e.winCause (e.readPtr l f.b) = none ∧
          (addr e f l).toNat % (4 * 2 ^ n.val) = 0 ∧ (e.readPtr l f.b).toNat % (4 * 2 ^ n.val) = 0) ∧
        work = fun l => .cpl l (addr e f l) (e.readPtr l f.b) (4 * 2 ^ n.val) f.d) ∨
    (i = .splsub f ∧ regs = Name.mains f.d 1 ∧ ls = e.acting f.guard r ∧
        (∀ l ∈ ls, e.descCause (e.readPtr l f.a) = none ∧ (e.readPtr l f.a).toNat % 64 = 0) ∧
        work = fun l => .splat l (e.readPtr l f.a) e.wav.alpha f.d) ∨
    (i = .coll f ∧ regs = Name.mains f.d 1 ∧ ls = (e.acting f.guard r).take 1 ∧
        (∀ l ∈ ls, e.descCause (e.readPtr l f.a) = none ∧ (e.readPtr l f.a).toNat % 64 = 0) ∧
        work = fun l => .coll l (e.readPtr l f.a) f.d) →
    Ready i s e f sh r → ∃ t v, exec i s = .next t ∧ t.wav? e.wid = some v ∧ Moved e r v ∧
      t.ops = s.ops ++ ls.zipIdx.map (fun p => ⟨s.nextOp + p.2, e.wid, work p.1, s.steps⟩) ∧
      (∀ l ∈ ls, ∀ n ∈ regs, ((v.lane l).reg n).full = false) ∧
      OthersKept { regs := fun n => regs.contains n, flags := stCnvSat } s e f r t ∧
      t = { s with wavs := t.wavs, ops := t.ops, nextOp := t.nextOp }) ∧
  (∀ (i : Instr) (f : Fields) (deferred lod : Bool), (i, deferred, lod) ∈ [(Instr.tex f, false, false), (.texLod f, false, true), (.texd f, true, false)] →
    ∀ s e sh r ls, Ready i s e f sh r → ls = e.acting f.guard r → (∀ d n a, s.badIn e d n a = []) → e.wav.failing = [] →
    (∀ l ∈ ls, e.descCause (e.readPtr l f.b) = none ∧ (e.readPtr l f.b).toNat % 64 = 0) →
    ∃ t v, exec i s = .next t ∧ t.wav? e.wid = some v ∧ Moved e r v ∧
      (∀ l ∈ ls, ∀ n ∈ texRegs f.ty f.d, ((v.lane l).reg n).full = false) ∧
      (ls ≠ [] → ∃ fs, t.ops = s.ops ++ [⟨s.nextOp, e.wid, .tex fs, s.steps⟩] ∧ ∀ l ∈ ls, ∃ cs st,
        (∀ z ∈ texFills f.ty f.d l cs st, z ∈ fs) ∧ ((deferred = true → ls = [l]) → ∀ x : TexLane,
          x = ⟨l, (ctx e f r).val f.a .f32 l, (ctx e f r).val f.a.next .f32 l, e.readPtr l f.b,
            if deferred then ((ctx e f r).val f.c .n32 l).bits.setWidth 32 else 0⟩ →
          Textured s e deferred lod (f.imm.setWidth 16 : BitVec 16).toInt x cs st)) ∧
      OthersKept { regs := fun n => (texRegs f.ty f.d).contains n, flags := stCnvSat } s e f r t ∧
      t = { s with wavs := t.wavs, ops := t.ops, nextOp := t.nextOp, llc := t.llc, charges := t.charges, clusters := t.clusters,
                   free := t.free, mem := if deferred then t.mem else s.mem, checks := if deferred then t.checks else s.checks,
                   reports := if deferred then t.reports else s.reports }) ∧
  (∀ f s e sh r ls recs, Ready (.cpt f) s e f sh r → ls = e.acting f.guard r →
    (∀ l ∈ ls, e.ownCause (e.readPtr l f.a) = none ∧ (e.readPtr l f.a).toNat % 64 = 0) →
    recs = ls.map (fun l => (l, BitVec.ofNat 512 (s.scrRead e.wid.block ((e.readPtr l f.a).toNat % 2 ^ 24) 64))) →
    (∀ d ∈ recs, ∀ p ∈ e.reqCauses d.2, p.2 = []) →
    ((submitted e s (bare recs)).isSome = true →
      ∃ t val xs u, exec (.cpt f) s = .next t ∧ Wrote e f true r val t ∧ Submitted s e recs xs ∧ submitted e s xs = some u ∧
        t = { u with wavs := t.wavs } ∧ Charged s t e (recs.map (·.2)) ∧ OthersKept (Writes.result (.cpt f) f.d true) s e f r t ∧
        ∀ pre l d post, recs = pre ++ (l, d) :: post → ∀ w, submitted e s (bare pre) = some w → val l = sentOf w e (Req.ch d)) ∧
    ∀ bad, bad = (submitEach e s (bare recs)).2 → bad ≠ [] → ∃ (u : State) (c : MemTrap) (xs : List (Nat × Req × Clock)),
      exec (.cpt f) s = .next (u.takeTrap e.wid eBar bad c) ∧ c.marked = some (Mask.ofLanes (bad.map (·.1))) ∧ c.held = 0 ∧
      Submitted s e recs xs ∧ u = { (submitEach e s xs).1 with wavs := u.wavs }) ∧
  (∀ f s e sh r ls, Ready (.cpkick f) s e f sh r → ls = e.acting f.guard r → (∀ l ∈ ls, headOk e f l = true) →
    (∀ p ∈ kickPlan e f s ls, ∀ os, p.2 = some os → ∀ o ∈ os,
      o < e.alloc ∧ ∀ q ∈ e.reqCauses (BitVec.ofNat 512 (s.scrRead e.wid.block o 64)), q.2 = []) →
    (∀ bad, bad = (kickPlan e f s ls).filterMap (fun p => if p.2 = none then some p.1 else none) → bad ≠ [] →
      exec (.cpkick f) s = .next (s.takeTrap e.wid eIll (noAddr bad))) ∧
    ((∀ p ∈ kickPlan e f s ls, p.2 ≠ none) → ∀ k, k = kicked e f (fun _ => []) s ls →
      (k.2.2 = [] → ∃ t v seen, exec (.cpkick f) s = .next t ∧ t.wav? e.wid = some v ∧ Moved e r v ∧
        (∀ l ∈ ls, Assoc.get? (seen l) (e.wid, l) = some s.steps) ∧ t = { (kicked e f seen s ls).1 with wavs := t.wavs } ∧
        OthersKept (Writes.result (.cpkick f) f.d true) s e f r t ∧
        ((∀ l ∈ ls, srcN e f.b .n32 l = 0) → t.blocks = s.blocks ∧ t.ops = s.ops) ∧
        (∀ l, ls = [l] → Canonical s → srcN e f.b .n32 l ≠ 0 → ∀ head rsize rbase,
          ringOf (s.scrRead e.wid.block (headAt e f l) 16) = some (head, rsize, rbase) →
          t.scrRead e.wid.block (headAt e f l + 8) 4 = (head + srcN e f.b .n32 l) % 2 ^ 32) ∧
        ∀ val, val = (fun l => (ctx e f r).tm ((Assoc.get? k.2.1 l).getD (sentOf s e 0))) →
          k.2.1.map (·.1) = ls.filter (fun l => srcN e f.b .n32 l != 0) → Holds e f.d true (k.2.1.map (·.1)) val v ∧
            ∀ l ∈ bundle e r, (l ∈ ls → srcN e f.b .n32 l ≠ 0) →
              (v.lane l).q = ((if l ∈ ls then some (val l) else none) :: (e.lane l).q).take 4) ∧
      (k.2.2 ≠ [] → ∃ (u : State) (c : MemTrap) (hits : List (Nat × W64)) (seen : Nat → Clock),
        exec (.cpkick f) s = .next (u.takeTrap e.wid eBar hits c) ∧ c.marked = some (Mask.ofLanes (hits.map (·.1))) ∧ c.held = 0 ∧
        hits.map (·.1) = k.2.2.map (·.1) ∧ (∀ p ∈ hits.zip k.2.2, ∃ d ∈ p.2.2, p.1.2 = Req.bar d) ∧
        (∀ l ∈ ls, Assoc.get? (seen l) (e.wid, l) = some s.steps) ∧ u = { (kicked e f seen s ls).1 with wavs := u.wavs }))) ∧
  (∀ i f s e sh r ls, ((∃ n, i = .cpl f n) ∨ i ∈ [Instr.splsub f, .coll f, .tex f, .texLod f, .texd f, .cpt f, .cpkick f]) →
    Ready i s e f sh r → ls = (if i = .coll f then (e.acting f.guard r).take 1 else e.acting f.guard r) →
    ∀ before c after, [eSpace, eSpforeign, eAlign] = before ++ c :: after →
    (∀ b ∈ before, ∀ l ∈ ls, meets (engAddrs s e f ls l i) b = none) →
    ∀ hits, hits = ls.filterMap (fun l => (meets (engAddrs s e f ls l i) c).map fun a => (l, a)) → hits ≠ [] →
      exec i s = .next (s.takeTrap e.wid c hits))

/-! Device events: the choices they take are the model's (log 1, log 14). -/

/-- R57, R191, R354, R347, R283, R189: the events that end outstanding work write its registers, and the work is gone: a load's,
an atomic's and a texture read's take what was read; `cpl` copies its bytes, then, like a splat batch and a collective, writes
its status word. What a collective needs of its peers is in the event (log 15). -/
def Obligations.FillEvents : Prop :=
  (∀ i n s o fs, s.op? n = some o → (i = .loadFill n ∧ o.work = .load fs ∨ i = .atomicReturn n ∧ o.work = .atomic fs ∨
      i = .texComplete n ∧ o.work = .tex fs) →
    ∃ t, exec i s = .next t ∧ t.op? n = none ∧ ∀ v, Alive s o.wid v → (fs.map fun z => (z.lane, z.reg)).Nodup →
      (∀ z ∈ fs, z.lane < v.width) → ∃ y, t.wav? o.wid = some y ∧ (∀ z ∈ fs, (y.lane z.lane).reg z.reg = z.val) ∧
        (∀ l k, (∀ z ∈ fs, ¬ (z.lane = l ∧ z.reg = k)) → (y.lane l).reg k = (v.lane l).reg k) ∧
        ∀ l, (y.lane l).pc = (v.lane l).pc) ∧
  (∀ n s o e l src dst k d, s.op? n = some o → s.env? o.wid = some e → o.work = .cpl l src dst k d → l < e.wav.width →
    ∃ t, exec (.cplComplete n) s = .next t ∧ t.op? n = none ∧ (Alive s o.wid e.wav → StatusIn t o.wid l d) ∧
      (e.spot .load false (fun _ => k) src l = none → ∀ w m a, Alive s o.wid e.wav → w = o.wid → t.readLoc w m a 1 = s.readLoc w m a 1) ∧
      (Alive s o.wid e.wav → Canonical s → ∀ x y, e.spot .load false (fun _ => k) src l = some x → e.spot .store false (fun _ => k) dst l = some y →
        s.fails e .load false k x l = false → s.fails e .store false k y l = false →
        (∀ b off, y.loc = .scr b off → ∃ z, s.blk? b = some z ∧ ∀ u ∈ z.objs, off + k ≤ 16 * u ∨ 16 * u + 16 ≤ off) →
        t.readLoc o.wid l y.loc k = s.readLoc o.wid l x.loc k)) ∧
  (∀ n s o e l desc alpha d, s.op? n = some o → s.env? o.wid = some e → o.work = .splat l desc alpha d → l < e.wav.width →
    ∃ t, exec (.splatBatchComplete n) s = .next t ∧ t.op? n = none ∧ (Alive s o.wid e.wav → StatusIn t o.wid l d)) ∧
  ∀ n s o e l a d peers, s.op? n = some o → s.env? o.wid = some e → o.work = .coll l a d → l < e.wav.width →
    (∀ x g own old, s.record e a = .ok x → Assoc.get? s.groups (Coll.grp x) = some g → s.collSrc e x = .ok own →
      old = (if Coll.res x then (Assoc.get? g.kept (x &&& ~~~BitVec.twoPow 512 12)).getD [] else []) →
      ∀ c ∈ g.contributions n (Coll.chunks x g.size) old own peers, c.elems.length = Coll.count x ∧ (c.rank = g.rank ∨ s.floeb ≠ [])) →
    ∃ t, exec (.collComplete n peers) s = .next t ∧ t.op? n = none ∧ (Alive s o.wid e.wav → StatusIn t o.wid l d)

/-- R178, R199, R200, R203, R205, R318, R193, R196, R217, R14: the events of the matrix engine, the copy channels and the
collectives: a fill puts the tile that its command reads into the slot, a drain the chunk by chunk sums of R109 into the
accumulators, an event of a raw bulk copy moves its bytes (where one event ends is log 19); a rank that drops out is fenced, and
its part in a chunk of a collective is what it had reached of it or what the records keep, of one submitted later nothing; a spare takes part in the collectives that begin after it
joined (log 15). Which old values an unfenced command may read is log 13. -/
def Obligations.EngineEvents : Prop :=
  (∀ n s o m fence x e, s.matrixDue n = some (o, m, fence, x, e) →
    ((∀ dual p, m ≠ .mma dual p) → ∃ t, exec (.mldFill n) s = .next t ∧ t.op? n = none ∧
      (∀ slot z u v, x = false → s.tileOf e m fence = (.ok (slot, z), u) → Alive s o.wid v → e.blk.holds slot = true →
        ∃ k, t.blk? o.wid.block = some k ∧ k.tile? slot = some z ∧
          ∀ role sp ty a pitch lane, m = .mld slot role sp ty false a pitch lane → role ≤ 1 → ty ≠ .i4o →
            z.ty = ty ∧ z.role = role ∧ z.sp = 0 ∧ (z.rows, z.cols) = tileSize ty role ∧
            ∀ i j c, i < z.rows → j < z.cols → isGlob (a + BitVec.ofNat 64 (i * pitch)) = true →
              s.codeAt e ty (a + BitVec.ofNat 64 (i * pitch)) j = .ok c → z.elems.getD (i * z.cols + j) none = some c) ∧
      ∀ slot role ty b v, m = .mconst slot role 0 ty b → x = false → Alive s o.wid v → e.blk.holds slot = true →
        ∃ k z, t.blk? o.wid.block = some k ∧ k.tile? slot = some z ∧ z.ty = ty ∧ z.role = role ∧
          ∀ i j, i < z.rows → j < z.cols → z.elems.getD (i * z.cols + j) none =
            some (if i = j then (if ty = .i4o then 0x38 else Lit.one.elem ty 0) else 0)) ∧
    (∀ dual p, m = .mma dual p → ∃ t, exec (.matrixDrain n) s = .next t ∧ t.op? n = none ∧
      ∀ place rest, x = false → dual = false → Par.places p dual e.blk.width (s.wavsOf e.wid.block).length = some (place :: rest) →
        (∀ w ∈ place.wvs, ∃ v, Alive s (wavOf o.wid.block w) v ∧ v.width = e.blk.width) →
        (∀ u y, s.wav? u = some y → ∀ z ∈ y.lanes, ∀ d, z.wait ≠ .mwait d) →
        ∀ i w l k, i < place.size → place.pos i = (w, l, k) → ∃ v y acc, s.wav? (wavOf o.wid.block w) = some v ∧
          t.wav? (wavOf o.wid.block w) = some y ∧ (Par.zero p = true → acc = 0) ∧
          (Par.zero p = false → (∀ q ∈ (v.lane l).past, k ≤ q.1 → q.1 < k + place.regs → False) →
            acc = ((v.lane l).reg k).bits.toNat + if place.regs = 2 then ((v.lane l).reg (k + 1)).bits.toNat * 2 ^ 32 else 0) ∧
          ∀ rows cols depth val : Nat, matShape (Par.afmt p) = some (rows, cols, depth) →
            val = accumulate (Par.afmt p == .f64) depth
              (fun q => (((s.blk? o.wid.block).bind (·.tile? (Par.aslot p))).elim #[] Tile.values).getD (i / cols * depth + q) none)
              (fun q => (((s.blk? o.wid.block).bind (·.tile? (Par.bslot p))).elim #[] Tile.values).getD (q * cols + i % cols) none) acc →
            (y.lane l).reg k = { bits := BitVec.ofNat 32 val, tag := if place.regs = 2 then Ty.f64.tag else Ty.f32.tag } ∧
            (place.regs = 2 → (y.lane l).reg (k + 1) = { bits := BitVec.ofNat 32 (val / 2 ^ 32), tag := Ty.f64.tag })) ∧
    (∀ dual p, m = .mma dual p → x = false → ∃ t, exec (.matrixCommandFail n eIntegrity) s = .next t ∧ t.op? n = none ∧
      ∀ v, Alive s o.wid v → (∀ u y, s.wav? u = some y → ∀ z ∈ y.lanes, ∀ d, z.wait ≠ .mwait d) → ∃ k c, t.blk? o.wid.block = some k ∧
        k.fail = some c ∧ (e.blk.fail = none → c.1 = eIntegrity)) ∧
    ∀ cause u, (∀ dual p, m ≠ .mma dual p) → x = false → s.tileOf e m fence = (.error cause, u) →
      ∃ t, exec (.matrixCommandFail n cause) s = .next t ∧ t.op? n = none) ∧
  (∀ w s e cl n, s.env? w = some e → e.wav.stall = .claim → e.span.stage = .running →
    s.claims.find? (fun c => c.2.1 == w) = some (cl, w, n) →
    (s.claims.find? fun c => c.1 == cl).map (·.2.1) = some w → n ≤ (s.freeSlots cl).length →
    ∃ t v m, exec (.mclaimGrant w) s = .next t ∧ t.wav? w = some v ∧ v.stall = .none ∧ v.granted = some m ∧
      (∀ c ∈ t.claims, c.2.1 ≠ w) ∧ t.blk? w.block = some { e.blk with slots := e.blk.slots ++ ((s.freeSlots cl).take n).map fun k => (k, none) }) ∧
  (∀ n s o c e, s.copyDue n = some (o, c, e) →
    (∃ t, exec (.bulkCopyRow n) s = .next t) ∧
    (∀ cause, s.moveRow e c = .error cause → ∃ t, exec (.bulkCopyFail n cause) s = .next t ∧ t.op? n = none) ∧
    ∀ u, s.moveRow e c = .ok u → Req.stat c.desc = 0 → ∃ t, exec (.bulkCopyRow n) s = .next t ∧ t.mem = u.mem ∧
      (Canonical s → Req.cvt c.desc = false → Req.xp c.desc = false → ∀ x y, x = e.side (Req.src c.desc) (natBits c.desc.toNat 359 356) →
        y = e.side (Req.dst c.desc) (natBits c.desc.toNat 363 360) → ∀ p, c.runs e x y = [p] → ∀ va : Nat,
        window (Req.drow c.desc p.row + BitVec.ofNat 64 p.col) = .glob va →
        (∀ i j q, i < p.n → j < p.n → e.job.phys .store (va + i) = some q → e.job.phys .store (va + j) = some q → i = j) →
        ∀ j b q, j < p.n → s.engByte e (Req.srow c.desc p.row + BitVec.ofNat 64 (p.col + j)) = .ok b →
          e.job.phys .store (va + j) = some q → (Sparse.get 0 t.mem q).toNat = b)) ∧
  (∀ s g x rank reached, Assoc.get? s.groups g = some x → rank < x.size → rank ≠ x.rank → x.fenced.contains rank = false →
    ∃ y : Group, y = { x with gone := y.gone, joined := x.joined.filter (fun q => q != rank), fenced := x.fenced ++ [rank] } ∧
      exec (.rankDropout g rank reached) s = .next { s with groups := Assoc.put s.groups g y } ∧
      ∀ n recs c, x.absence n rank = none → (rank ∈ y.present n recs c ↔
        (∃ o ∈ s.ops, o.id = n ∧ o.work.isColl = true) ∧ c ∈ (Assoc.get? reached n).getD [] ∨ (keptFor recs rank c).isSome = true)) ∧
  ∀ s g x rank, Assoc.get? s.groups g = some x → x.fenced.contains rank = true → ∃ t y, exec (.spareJoining g rank) s = .next t ∧
    t = { s with groups := Assoc.put s.groups g y } ∧
    y = { x with gone := y.gone, joined := x.joined ++ [rank], fenced := x.fenced.filter (fun q => q != rank) } ∧
    ∀ n recs c, (n < s.nextOp → y.present n recs c = x.present n recs c) ∧
      (s.nextOp ≤ n → rank < x.size → (∀ z ∈ x.gone, z.rank = rank → ∀ m, z.upTo = some m → m ≤ s.nextOp) → rank ∈ y.present n recs c)

/-- R151, R66, R165, R360, R252, R253, R254, R13: Pewter resolves a fault and the lanes go on, or declines it and they trap, the
lanes not yet performed held; a refetched copy that passes its check replaces its unit, and no other does; a word that cannot be
fetched waits, and one whose unit no refetch mends raises `E_INTEGRITY` (log 18); an error that nothing mends ends the grid. -/
def Obligations.FaultEvents : Prop :=
  (∀ w s e whole maps u, s.env? w = some e → e.wav.stall = .fault whole → e.wav.faults ≠ [] → s.mapPages e.task.ctx maps = some u →
    ∃ t v, exec (.faultResolve w maps) s = .next t ∧ t.wav? w = some v ∧ v.faults = [] ∧ v.replay = e.wav.replay ∧
      (e.wav.integ = [] → v.stall = .none) ∧ t.job e.task.ctx = u.job e.task.ctx ∧
      ∀ x ∈ e.wav.faults, ∀ off, window x.2 = .priv off → ∀ p ∈ (v.lane x.1).absent, ¬ (p.1 ≤ off ∧ off < p.1 + p.2)) ∧
  (∀ w s v whole, s.wav? w = some v → v.stall = .fault whole → v.faults ≠ [] → ∃ m : MemTrap,
    exec (.faultDecline w) s = .next (s.takeTrap w ePage v.faults m) ∧ (whole = false →
      m.marked = some (Mask.ofLanes (v.faults.map (·.1))) ∧ m.held = v.heldBack)) ∧
  (∀ w s v whole copies, s.wav? w = some v → v.stall = .fault whole → v.integ ≠ [] → ∃ t y,
    exec (.integrityRefetch w copies) s = .next t ∧ t.wav? w = some y ∧ y.integ = [] ∧ y.tried = v.tried ∧
      (v.faults = [] → y.stall = .none) ∧ t.mem = (s.mend copies).mem ∧ t.checks = (s.mend copies).checks) ∧
  (∀ w s v copies, s.wav? w = some v → v.stall = .check → ∃ t y, exec (.integrityRefetch w copies) s = .next t ∧
    t.wav? w = some y ∧ y.stall = .none ∧ y.retried = true ∧ t.mem = (s.mend copies).mem) ∧
  (∀ s x, s.badKey x.unit = true → Canonical s →
    if s.mayServe x = true ∧ s.checkOf x.unit = some (crc32c x.bytes) then
      (s.mend [x]).refetched = s.refetched + 1 ∧ ∀ n, x.unit = .phys n → (s.mend [x]).badUnit n = false ∧
        ∀ i, i < 64 → Sparse.get 0 (s.mend [x]).mem (64 * n + i) = x.bytes.getD i 0
    else s.mend [x] = s) ∧
  (∀ w s e v, s.env? w = some e → Wavelet.begin e.wav = some v → s.fetch e (Wavelet.pc v) = none →
    s.wordFails e (Wavelet.pc v) = false ∨ v.retried = false → ∃ t,
    exec (.fetchFault w) s = .next t ∧ (RunsOn e → ∃ y, t.wav? w = some y ∧
      y.stall = (if s.wordFails e (Wavelet.pc v) then .check else .fetch) ∧ y.run = v.run ∧ y.lanes = v.lanes)) ∧
  (∀ w s e v r, s.env? w = some e → Wavelet.begin e.wav = some v → v.run = some r → s.wordFails e (Wavelet.pc v) = true →
    v.retried = true → exec (.fetchFault w) s =
      .next ((s.setWav w v).takeTrap w eIntegrity ((r.lanes.lanes v.width).map fun l => (l, Wavelet.pc v)))) ∧
  (∀ w s e r m u, s.env? w = some e → e.wav.stall = .fetch → e.wav.run = some r → s.mapPages e.task.ctx [m] = some u →
    ∃ t v, exec (.fetchFaultResolved w (some m)) s = .next t ∧ t.wav? w = some v ∧ v.stall = .none) ∧
  (∀ w s e r, s.env? w = some e → e.wav.stall = .fetch → e.wav.run = some r → e.task.cause = 0 →
    ∃ t k, exec (.fetchFaultResolved w none) s = .next t ∧ t.task? e.span.task = some k ∧ k.cause = eFetch ∧
      ∃ c, k.kept = some c ∧ c.cause = eFetch ∧ c.epc = Wavelet.pc e.wav ∧ c.fmask = Mask.ofLanes (bundle e r) ∧
        c.addrs = (bundle e r).map fun l => (l, Wavelet.pc e.wav)) ∧
  (∀ w s e, s.env? w = some e → e.task.cause = 0 → ∃ t k, exec (.uncorrectableStateError w) s = .next t ∧
    t.task? e.span.task = some k ∧ k.cause = eIntegrity) ∧
  (∀ n s o, s.op? n = some o → exec (.uncorrectableErrorInFlight n) s = .next s) ∧
  ∀ n s, exec (.correctedError n) s =
    .next { s with corrected := s.corrected + 1, reports := s.reports ++ [.corrected n] }

/-- R242, R243, R245, R262, R263, R13: what Pewter's calls do and return; a refused call changes nothing but its result (a record
in a unit that fails its check after the refetch is reported too, log 16). A wait whose count is reached, whatever raised it,
returns 0. The bytes of an object are read as ELF-64 (log 9); where the loader puts it is the event's, and which objects it finds
valid is log 9 and log 16; the queue handle and the bytes of the report are free (log 4). -/
def Obligations.PewterCalls : Prop :=
  ∀ answers : State → Nat → Int → State, (answers = fun s ctx r => s.setJob ctx { s.job ctx with a0 := r }) →
  (∀ ctx prio cap s, (7 < prio ∨ cap < 16 ∨ 65536 < cap ∨ cap ≠ 2 ^ Nat.log2 cap) →
    exec (.nxQueueCreate ctx prio cap) s = .next (answers s ctx (-1))) ∧
  (∀ ctx prio cap s, prio ≤ 7 → 16 ≤ cap → cap ≤ 65536 → cap = 2 ^ Nat.log2 cap → Config.maxQueues ≤ (s.job ctx).queues.length →
    exec (.nxQueueCreate ctx prio cap) s = .next (answers s ctx (-2))) ∧
  (∀ ctx prio cap s, prio ≤ 7 → 16 ≤ cap → cap ≤ 65536 → cap = 2 ^ Nat.log2 cap → (s.job ctx).queues.length < Config.maxQueues →
    ∃ t q, exec (.nxQueueCreate ctx prio cap) s = .next t ∧ (∀ x ∈ (s.job ctx).queues, x.qid ≠ q) ∧ 1 ≤ q ∧ q ≤ 65535 ∧
      (t.job ctx).queues = (s.job ctx).queues ++ [⟨q, prio, cap⟩] ∧ (t.job ctx).a0 = q) ∧
  (∀ ctx q s, (∀ x ∈ (s.job ctx).queues, x.qid ≠ q) → exec (.nxQueueDestroy ctx q) s = .next (answers s ctx (-1))) ∧
  (∀ ctx q s, (∃ x ∈ (s.job ctx).queues, x.qid = q) → ∃ t, exec (.nxQueueDestroy ctx q) s = .next t ∧
    ((∀ t ∈ s.tasks, t.2.ctx = ctx → t.2.qid = q → t.2.stage = .done) →
      (t.job ctx).queues = (s.job ctx).queues.filter (fun x => x.qid != q) ∧ (t.job ctx).a0 = 0) ∧
    ((∃ t ∈ s.tasks, t.2.ctx = ctx ∧ t.2.qid = q ∧ t.2.stage ≠ .done) →
      (t.job ctx).queues = (s.job ctx).queues ∧ (t.job ctx).a0 = (s.job ctx).a0 ∧ q ∈ (t.job ctx).closing)) ∧
  (∀ ctx a s u, u = s.mend a.copies → u.recordOf ctx a.at' = .absent →
    exec (.nxLaunch ctx a) s = .next (answers (u.recordReach ctx a.at') ctx (-1))) ∧
  (∀ ctx a s u p, u = s.mend a.copies → u.recordOf ctx a.at' = .broken p →
    exec (.nxLaunch ctx a) s = .next (answers ((u.recordReach ctx a.at').report (.notPassed p)) ctx (-1))) ∧
  (∀ (s : State) ctx a, ∃ llc charges, s.recordReach ctx a = { s with llc := llc, charges := charges }) ∧
  (∀ ctx a s u n h rs, (s.mend a.copies).recordOf ctx a.at' = .ok n → splitRecord n = (h, rs) →
    u = (s.mend a.copies).touchJob ctx a.at'.toNat (64 + regionBytes h) none false →
    (Hdr.ok h rs = false → exec (.nxLaunch ctx a) s = .next (answers u ctx (-1))) ∧
    (Hdr.ok h rs = true → (∀ x ∈ (s.job ctx).queues, x.qid ≠ Hdr.qid h) → exec (.nxLaunch ctx a) s = .next (answers u ctx (-3))) ∧
    ∀ q, Hdr.ok h rs = true → (s.job ctx).queues.find? (fun x => x.qid == Hdr.qid h) = some q →
      (Assoc.get? (s.job ctx).kernels (Hdr.krec h).toNat = none → exec (.nxLaunch ctx a) s = .next (answers u ctx (-4))) ∧
      ∀ k, Assoc.get? (s.job ctx).kernels (Hdr.krec h).toNat = some k →
        (Kern.fits k (Hdr.bsz h) = false ∨ (s.job ctx).sigMapped h = false → exec (.nxLaunch ctx a) s = .next (answers u ctx (-1))) ∧
        (Kern.fits k (Hdr.bsz h) = true → (s.job ctx).sigMapped h = true →
          (q.cap ≤ (s.queued ctx (Hdr.qid h)).length → exec (.nxLaunch ctx a) s = .next (answers u ctx (-2))) ∧
          ((s.queued ctx (Hdr.qid h)).length < q.cap → ∃ t x, exec (.nxLaunch ctx a) s = .next t ∧ (t.job ctx).a0 = 0 ∧
            (t.job ctx).accepted = (s.job ctx).accepted + 1 ∧ t.task? s.nextOp = some x ∧ x.ctx = ctx ∧ x.hdr = h ∧ x.kern = k ∧ x.origin = (s.job ctx).origin (Hdr.krec h) ∧
            x.regions = rs.take (Hdr.nreg h) ∧ x.stage = .queued ∧ x.grid = (s.job ctx).accepted % 2 ^ 32 ∧
            (s.idle ≠ .active → t.exiting = true)))) ∧
  (∀ ctx (sig : CallRead) count timeout s n, (s.mend sig.copies).sigCount ctx sig.at' = some n →
    ∃ t, exec (.nxSignalWait ctx sig count timeout) s = .next t ∧
    (count ≤ n → (t.job ctx).a0 = 0) ∧ (n < count → ⟨sig.at', count, timeout⟩ ∈ (t.job ctx).waits)) ∧
  (∀ ctx (sig : CallRead) count timeout s p, (s.job ctx).phys .load sig.at'.toNat = some p → (s.mend sig.copies).badAt p 8 = true →
    ∃ t, exec (.nxSignalWait ctx sig count timeout) s = .next t ∧ t.reports = s.reports ++ [.notPassed p] ∧
      ⟨sig.at', count, timeout⟩ ∈ (t.job ctx).waits) ∧
  (∀ ctx (sig : CallRead) s w, (s.job ctx).waits.find? (fun w => w.sig == sig.at' && w.timeout != 0) = some w →
    ∃ t, exec (.signalWaitTimeout ctx sig) s = .next t ∧ (t.job ctx).waits = (s.job ctx).waits.erase w ∧
      (t.job ctx).a0 = if (s.mend sig.copies).reached ctx w = true then 0 else -5) ∧
  (∀ (s : State) ctx w, w ∈ (s.job ctx).waits → s.reached ctx w = true → (s.tick.job ctx).a0 = 0 ∧ w ∉ (s.tick.job ctx).waits) ∧
  (∀ ctx buf s, Sparse.wf 0 (s.job ctx).ctl = true → ∃ t, exec (.nxVfReport ctx buf) s = .next t ∧ t.mem = s.mem ∧
    (t.job ctx).a0 = (Config.vfReport s.vfUse).length ∧ ∀ i, i < (Config.vfReport s.vfUse).length →
      Sparse.get 0 (t.job ctx).ctl (buf.toNat + i) = (Config.vfReport s.vfUse).getD i 0) ∧
  (∀ ctx bs pages places s, readElf bs pages = none → exec (.nxObjectLoad ctx ⟨bs, pages, places⟩) s = .next (answers s ctx (-13))) ∧
  (∀ ctx bs pages obj places s r, readElf bs pages = some obj → codeRefusal (s.job ctx) obj = some r →
    exec (.nxObjectLoad ctx ⟨bs, pages, places⟩) s = .next (answers s ctx r) ∧ r ∈ [(-10 : Int), -12, -13]) ∧
  (∀ ctx bs pages obj places s, readElf bs pages = some obj → codeRefusal (s.job ctx) obj = none → s.placesOk ctx obj places = true →
    ∃ t, exec (.nxObjectLoad ctx ⟨bs, pages, places⟩) s = .next t ∧
      (∀ x p, ((obj.sections.zip places).filter (·.1.mapped)).find? (fun y => y.1.kind == .kernels) = some (x, p) →
        (t.job ctx).a0 = p.va.toNat ∧ ∀ i, i < x.bytes.length / 32 → (Assoc.get? (t.job ctx).kernels (p.va.toNat + 32 * i)).isSome = true ∧
          ∃ o, (t.job ctx).origin (p.va + BitVec.ofNat 64 (32 * i)) = o ∧ t.objects[o.obj]? = some obj) ∧
      (Canonical s → obj.relocs = [] → ∀ x p, (x, p) ∈ obj.sections.zip places → x.mapped = true →
        ∀ i, i < x.bytes.length → Sparse.get 0 t.mem (p.pa + i) = x.bytes.getD i 0)) ∧
  (∀ ctx buf s, exec (.nxTaskFault ctx 0 buf) s = .next (answers s ctx (-1))) ∧
  (∀ ctx sig buf s n t, sig ≠ 0 → (s.tasks.filter fun t => t.2.ctx == ctx && Hdr.sig t.2.hdr == sig).getLast? = some (n, t) →
    ∃ u, exec (.nxTaskFault ctx sig buf) s = .next u ∧
      (t.stage ≠ .done → (u.job ctx).a0 = -6) ∧ (t.stage = .done → t.kept = none → (u.job ctx).a0 = -1) ∧
      ∀ k, t.stage = .done → t.kept = some k → (u.job ctx).a0 = 0 ∧ (Sparse.wf 0 (s.job ctx).ctl = true →
        Sparse.readN (u.job ctx).ctl buf.toNat 32 = Kept.record k % 2 ^ 256))

/-- R247, R248, R249, R244, R256, R43, R46: the events of the arbiter, the region dependence unit, the dispatcher, completion,
release waves and pre-emption. A virtual function without ready work gives up its slice; at the end of a slice no more blocks of it
are placed, and at the end of its grace period its running spans are stopped; what counts as ready work, and which grace period ends
first, is log 22. A process that Pewter has assigned to no function belongs to function 0, which has turns also where it is not set (R40, log
22). A signal whose unit fails its check after the refetch is not written (R166, R13, log 16). -/
def Obligations.SchedulingEvents : Prop :=
  (∀ s v, (s.jobs.map (·.1)).Nodup → (s.tasks.map (·.1)).Nodup → (∀ t ∈ s.tasks, t.2.stage ≠ .selected) →
    s.vfOrder.find? (fun v => s.hasWork v || !(s.readyJobs v).isEmpty) = some v → s.readyJobs v ≠ [] → ∃ t n x, exec .arbiterSelect s = .next t ∧ s.task? n = some x ∧ x.stage = .queued ∧
      t.task? n = some { x with stage := .selected } ∧ (s.job x.ctx).vf = v ∧ t.turn = v) ∧
  (∀ (s : State) v, s.vfs ≠ [] → s.hasWork s.turn = false → s.vfOrder.find? (fun u => s.hasWork u) = some v → s.tick.turn = v) ∧
  (∀ s v, s.vfs.find? (fun x => x.id == s.turn) = some v → ∃ t, exec .vfSliceExpiry s = .next t ∧ t.tasks = s.tasks ∧
    (∃ x ∈ t.vfs, x.id = v.id ∧ x.time = v.time + v.slice) ∧
    ∀ a b rest, s.vfOrder = a :: b :: rest → t.turn = b ∧ (b ≠ s.turn → ∃ d, (s.turn, d) ∈ t.grace)) ∧
  (∀ s : State, 0 ∈ s.vfOrder ∧ ∀ v ∈ s.vfs, v.id ∈ s.vfOrder) ∧
  (∀ s a b rest, s.vfs ≠ [] → (∀ v ∈ s.vfs, v.id ≠ 0) → s.turn = 0 → s.vfOrder = a :: b :: rest →
    ∃ t, exec .vfSliceExpiry s = .next t ∧ t.turn = b ∧ t.vfs = s.vfs ∧ t.tasks = s.tasks) ∧
  (∀ s n cls t, s.vfs ≠ [] → s.task? n = some t → (s.job t.ctx).vf ≠ s.turn → exec (.dispatchSpan n cls) s = .refused .notDue) ∧
  (∀ s v d, (s.grace.map (·.1)).Nodup → (s.spans.map (·.1)).Nodup → (v, d) ∈ s.grace → v ≠ s.turn → s.spansOf v ≠ [] →
    (∃ u ∈ s.vfOrder, u ≠ v ∧ s.hasWork u = true) → (∀ g ∈ s.grace, g.1 ≠ v → d < g.2) →
    ∃ t, exec .gracePeriodExpiry s = .next t ∧ t.turn = s.turn ∧ t.mem = s.mem ∧
      (∀ n p, s.span? n = some p → p.stage = .running → (s.job p.ctx).vf = v →
        ∃ q, t.span? n = some q ∧ (q.stage = .stopping ∨ q.stage = .saved)) ∧
      ∀ n p, s.span? n = some p → (s.job p.ctx).vf ≠ v → t.span? n = some p) ∧
  (∀ s n t, s.task? n = some t → t.stage = .selected → s.inUnit.length < Config.rduTasks → ∃ u x, exec (.rduEnter n) s = .next u ∧
    u.task? n = some x ∧ (x.stage = .held ↔ ∃ y ∈ s.inUnit, y.2.entry < s.nextOp ∧ ∃ a ∈ t.regions, ∃ b ∈ y.2.regions, Region.conflicts a b = true) ∧
    (x.stage = .held ∨ x.stage = .released)) ∧
  (∀ s n t cls, s.task? n = some t → t.stage = .released → t.cause = 0 → t.next < Hdr.nblk t.hdr → cls.length = Hdr.span t.hdr →
    oneDie cls = true → (s.vfs = [] ∨ (s.job t.ctx).vf = s.turn) → s.boot.held = false → s.idle = .active →
    (∀ c ∈ cls, (s.room t.kern c (s.widthOf t.origin t.kern)
      ((Hdr.bsz t.hdr + s.widthOf t.origin t.kern - 1) / s.widthOf t.origin t.kern)).isSome = true) →
    ∃ u, exec (.dispatchSpan n cls) s = .next u ∧ u.span? s.nextOp = some { task := n, ctx := t.ctx, blocks := Hdr.span t.hdr } ∧
      u.task? n = some { t with next := t.next + Hdr.span t.hdr } ∧ ∀ i, i < cls.length → ∃ b, u.blk? ⟨s.nextOp, i⟩ = some b ∧
        b.idx = t.next + i ∧ b.home = cls.getD i 0 ∧ b.at' = cls.getD i 0 ∧ b.width = s.widthOf t.origin t.kern ∧ b.scratch = []) ∧
  (∀ s n t, s.task? n = some t → s.taskOver n t = true → ∀ cs, ∃ u x, exec (.taskComplete ⟨n, cs⟩) s = .next u ∧ u.task? n = some x ∧
    x.stage = .done ∧ x.cause = t.cause ∧ ∀ a, Canonical s → Hdr.sig t.hdr ≠ 0 → (s.job t.ctx).phys .atomic (Hdr.sig t.hdr).toNat = some a →
      ((s.mend cs).badAt a 16 = false → Sparse.readN u.mem a 8 = (Sparse.readN (s.mend cs).mem a 8 + 1) % 2 ^ 64 ∧
        Sparse.readN u.mem (a + 8) 4 = statusWord t.cause t.ended) ∧
      ((s.mend cs).badAt a 16 = true → u.mem = (s.mend cs).mem ∧ u.reports = s.reports ++ [.notPassed a])) ∧
  (∀ s c ph, s.wave c ph ≠ [] → ∃ t, exec (.barrierWakeWave ⟨c, ph⟩) s = .next t ∧
    ∀ w ∈ s.wave c ph, ∃ v, t.wav? w = some v ∧ ∀ x ∈ v.lanes, x.wait ≠ .wake ph) ∧
  (∀ s n p, s.span? n = some p → p.stage = .running → ∃ t q, exec (.preemptRequest n) s = .next t ∧ t.span? n = some q ∧
    (q.stage = .stopping ∨ q.stage = .saved) ∧ t.mem = s.mem) ∧
  (∀ s n p cls, s.span? n = some p → p.stage = .saved → cls.length = p.blocks → oneDie cls = true → s.idle = .active →
    (∀ i, i < p.blocks → ∃ k t, s.blk? ⟨n, i⟩ = some k ∧ s.task? p.task = some t ∧
      (∀ x ∈ k.slots, x.1 ∈ s.freeSlots (cls.getD i 0)) ∧
      (s.room t.kern (cls.getD i 0) k.width (s.wavsOf ⟨n, i⟩).length).isSome = true) →
    ∃ t q, exec (.spanRestore n cls) s = .next t ∧ t.span? n = some q ∧ q.stage = .running ∧
      (∀ w v, w.span = n → t.wav? w = some v → v.stopped = false) ∧
      ∀ i, i < p.blocks → ∃ k, t.blk? ⟨n, i⟩ = some k ∧ k.at' = cls.getD i 0)

/-- R256, R257, R250, R259, R261, R247, R258, R4: the events of clocks and power: an idle device takes the state of lowest power
that the tolerance allows, a device with work stays active, and an empty slice is gated. What work an idle device is without is
log 22 (DEDUCED); that an event which is not due is refused is log 1; when the events come is log 8 and log 14. -/
def Obligations.PowerEvents : Prop :=
  (∀ s c sl v vs, s.resident c sl = v :: vs → ∃ t r, exec (.pwrRatioEffect c sl) s = .next t ∧
    t = s.modCluster c (fun k => { k with eff := listSet k.eff sl r }) ∧ (∃ x ∈ v :: vs, x.req = r) ∧ ∀ x ∈ v :: vs, r.toNat ≤ x.req.toNat) ∧
  (∀ s c sl, s.resident c sl = [] → c < Config.clusters → sl < Config.slices → (s.cluster c).gated.contains sl = false →
    exec (.pwrRatioEffect c sl) s = .next (s.modCluster c fun k => { k with gated := k.gated ++ [sl] })) ∧
  (∀ s c, c < Config.clusters → exec (.lostLocalityWindow c) s = .next (s.modCluster c fun k =>
    { k with score := k.lost, lost := 0,
             limit := if k.lost < 64 then none else if k.lost < 256 then some 8 else if k.lost < 1024 then some 4 else some 2 })) ∧
  (∀ s c fall, s.droop < fall → exec (.droopDetect c fall) s = .next (s.modCluster c fun k => { k with stretch := 6, halve := 64 })) ∧
  (∀ s c, (s.cluster c).stretch ≠ 0 → exec (.droopStretchEnd c) s = .next (s.modCluster c fun k => { k with stretch := 0 })) ∧
  (∀ s c, (s.cluster c).halve ≠ 0 → exec (.droopHalveEnd c) s = .next (s.modCluster c fun k => { k with halve := 0 })) ∧
  (∀ s, s.idle = .active → s.spans = [] → s.busy = false → ∀ ns, ns = s.ltr.getD 10000 → 100 ≤ ns →
    exec .idleEnter s = .next { s with idle := if 500000 ≤ ns then .i3 else if 20000 ≤ ns then .i2 else if 2000 ≤ ns then .i1 else .i0,
                                       exiting := false }) ∧
  (∀ s, s.busy = true → exec .idleEnter s = .refused .notDue) ∧
  (∀ s, s.idle ≠ .active → s.exiting = true → exec .idleExit s = .next { s with idle := .active, exiting := false }) ∧
  (∀ s ns, s.host.up = true → s.idle = .active → exec (.latencyToleranceReport ns) s = .next { s with ltr := some ns }) ∧
  (∀ s ns, s.host.up = true → s.idle ≠ .active → exec (.latencyToleranceReport ns) s = .next (if ns < 100 then { s with ltr := some ns, exiting := true }
    else { s with ltr := some ns, idle := if 500000 ≤ ns then .i3 else if 20000 ≤ ns then .i2 else if 2000 ≤ ns then .i1 else .i0 })) ∧
  (∀ s a b, 64 ≤ a → a ≤ 1536 → 10 ≤ b → b ≤ 200 → ∃ t, exec (.pwrLimitsSet a b) s = .next t ∧
    t = { s with slope := a, droop := b, exiting := t.exiting } ∧ (s.idle ≠ .active → t.exiting = true)) ∧
  (∀ s vf sl g ws bs, vf < 16 → 1 ≤ sl → sl ≤ 65535 → g ≤ 1000 → (∀ w ∈ ws, 1 ≤ w.2 ∧ w.2 ≤ 255) →
    ∃ t v, exec (.arbiterParametersSet vf sl g ws bs) s = .next t ∧ v ∈ t.vfs ∧ v.id = vf ∧ v.slice = sl ∧ v.grace = g)

/-- R163, R150, R66, R164, R165, R166, R184, R171, R160: the events of the memory system: a page that moves takes its bytes with
it, and its leaf gives the new base; bytes that fail their check after the refetch leave at no exit, and no store merges into
them. The certificate is presented on request (R10). Where HBM and the second tier lie is log 7, the exits are log 14; that an
access where the device has no memory stops the model is log 26, and that no byte leaves through a port that is down is log 14. -/
def Obligations.MemoryEvents : Prop :=
  (∀ s ctx va base p l, (s.job ctx).page va.toNat = some (p, l) → base % Leaf.size l = 0 → s.has base (Leaf.size l) = true → Canonical s →
    (∀ j ∈ s.jobs, ∀ q ∈ j.2.pages, Leaf.valid q.2 = true → Leaf.pbase q.2 + Leaf.size q.2 ≤ base ∨ base + Leaf.size l ≤ Leaf.pbase q.2) →
    (∀ j ∈ s.jobs, ∀ q ∈ j.2.pages, Leaf.valid q.2 = true → Leaf.pbase q.2 + Leaf.size q.2 ≤ Leaf.pbase l ∨
      Leaf.pbase l + Leaf.size l ≤ Leaf.pbase q.2 ∨
      Leaf.pbase l ≤ Leaf.pbase q.2 ∧ Leaf.pbase q.2 + Leaf.size q.2 ≤ Leaf.pbase l + Leaf.size l) →
    ∃ t, exec (.pageMigrate ctx va base) s = .next t ∧
      (∃ m, (t.job ctx).page va.toNat = some (p, m) ∧ Leaf.pbase m = base ∧ Leaf.size m = Leaf.size l) ∧
      (∀ i, i < Leaf.size l → Sparse.get 0 t.mem (base + i) = Sparse.get 0 s.mem (Leaf.pbase l + i))) ∧
  (∀ s ctx m u a, window m.va = .glob a → s.mapPages ctx [m] = some u → exec (.pageTableChange ctx ⟨m, none⟩) s = .next u) ∧
  (∀ s ctx (m : Mapping) w l e off, s.env? w = some e → e.task.ctx = ctx → Tidy e.wav → l < e.wav.width → window m.va = .priv off →
    off % Leaf.size m.leaf = 0 → ∃ t v, exec (.pageTableChange ctx ⟨m, some (w, l)⟩) s = .next t ∧ t.wav? w = some v ∧
      ∀ n o, off ≤ o → o < off + Leaf.size m.leaf → o < n → (v.lane l).privOk n o = Leaf.valid m.leaf) ∧
  (∀ s u bs, bs.length = 64 → s.has (64 * u) 64 = true → (s.host.up = true ∨ s.floeb ≠ []) → Canonical s → ∃ t, exec (.dataEntryCrc u bs) s = .next t ∧ t.badUnit u = false ∧
    (∀ i, i < 64 → Sparse.get 0 t.mem (64 * u + i) = bs.getD i 0) ∧
    ∀ a, (a < 64 * u ∨ 64 * u + 64 ≤ a) → Sparse.get 0 t.mem a = Sparse.get 0 s.mem a) ∧
  (∀ s a n cs via u, s.has a n = true → u = s.rouse.mend cs → via ≠ .identity →
    (via = .host → s.host.up = true) → (via = .fabric ∨ via = .storage → s.floeb ≠ []) → (via = .otherHost → s.tier.shared = true ∧ Config.tierBase ≤ a) →
    (n = 0 ∨ u.badAt a n = false → exec (.hostRead a ⟨n, cs, via⟩) s = .next u) ∧
    (0 < n → u.badAt a n = true → exec (.hostRead a ⟨n, cs, via⟩) s = .next { u with reports := u.reports ++ [.exitStopped via a] })) ∧
  (∀ s a n cs, s.boot.held = false → ∃ t, exec (.hostRead a ⟨n, cs, .identity⟩) s = .next t ∧
    t = { s with reports := s.reports ++ [.certificate s.otp.cert], exiting := t.exiting }) ∧
  (∀ s a bs cs, s.has a bs.length = true → (∀ u, s.badUnit u = false) → Canonical s → ∃ t, exec (.controlCoreAccess a ⟨bs, cs⟩) s = .next t ∧
    (∀ i, i < bs.length → Sparse.get 0 t.mem (a + i) = bs.getD i 0) ∧
    ∀ x, (x < a ∨ a + bs.length ≤ x) → Sparse.get 0 t.mem x = Sparse.get 0 s.mem x) ∧
  (∀ s c line, (s.cluster c).leases.contains line = true →
    exec (.leaseExpiry c line) s = .next (s.modCluster c fun k => { k with leases := k.leases.filter (· != line) })) ∧
  (∀ s on, ∃ t, exec (.lineModeSwitch on) s = .next t ∧ t = { s with lineMode := on, exiting := t.exiting }) ∧
  (∀ s a bs cs u, s.has a bs.length = true → bs ≠ [] → (a < 64 * u + 64 ∧ 64 * u < a + bs.length) → 64 * u < a ∨ a + bs.length < 64 * u + 64 →
    (s.mend cs).badUnit u = true → exec (.controlCoreAccess a ⟨bs, cs⟩) s = .next ((s.mend cs).report (.notPassed a))) ∧
  ∀ s a bs n cs, (s.has a bs.length = false → exec (.controlCoreAccess a ⟨bs, cs⟩) s = .fault .noMemory) ∧
    (s.host.up = true → s.has a n = false → exec (.hostRead a ⟨n, cs, .host⟩) s = .fault .noMemory) ∧
    (s.host.up = false → exec (.hostRead a ⟨n, cs, .host⟩) s = .refused .notDue) ∧
    (s.floeb = [] → exec (.hostRead a ⟨n, cs, .fabric⟩) s = .refused .notDue ∧ exec (.hostRead a ⟨n, cs, .storage⟩) s = .refused .notDue)

/-- R6, R7, R8: the links train to the highest common generation and the widest common width that works, the host port at x1 where
no width that both offer works and one lane does; it stays down, and that is reported, only where no lane does. The CXL root
port attaches the second tier, which only a CXL 3.x device lets another host share. A host without CXL 2.0, a root port narrower
than x16 and its generation 7 are the model's choices (log 14). -/
def Obligations.LinkEvents : Prop :=
  (∀ s g c ws good, 5 ≤ g → (∃ w ∈ ws, w ∈ [16, 8, 4, 2, 1] ∧ w ≤ good) → ∃ w, exec (.hostLinkTrain g c ws good) s =
      .next { s with host := { up := true, gen := min 7 g, width := w, cxl := if c < 2 then 0 else min 3 c } } ∧
      w ∈ ws ∧ w ∈ [16, 8, 4, 2, 1] ∧ w ≤ good ∧ ∀ x ∈ ws, x ∈ [16, 8, 4, 2, 1] → x ≤ good → x ≤ w) ∧
  (∀ s g c ws good, 5 ≤ g → (∀ w ∈ ws, w ∈ [16, 8, 4, 2, 1] → good < w) → 1 ≤ good → exec (.hostLinkTrain g c ws good) s =
      .next { s with host := { up := true, gen := min 7 g, width := 1, cxl := if c < 2 then 0 else min 3 c } }) ∧
  (∀ s g c ws, 5 ≤ g → exec (.hostLinkTrain g c ws 0) s = .next { s with host := {}, reports := s.reports ++ [.hostDown] }) ∧
  (∀ s p g, p < 18 → (g = 1 ∨ g = 2) → ∃ t, exec (.floebNegotiate p g) s = .next t ∧
    t = { s with floeb := Assoc.put s.floeb p g, exiting := t.exiting }) ∧
  (∀ s p g, Assoc.get? s.floeb p = some g → ∃ t, exec (.flitResend p) s = .next t ∧
    t = { s with resent := s.resent + 1, exiting := t.exiting }) ∧
  (∀ s g w n t, s.otp.isModule = false → (g = 2 ∨ g = 3) → w ∈ [16, 8, 4, 2, 1] →
    t = { s with cxl := { up := true, gen := 7, width := w, cxl := g }, tier := { bytes := n, shared := decide (g = 3) } } →
    (∀ j ∈ s.jobs, ∀ p ∈ j.2.pages, t.backs p.2 = true) → exec (.cxlRootPortTrain ⟨g, n⟩ w) s = .next t)

/-- R10, R8: the boot ROM takes an image that verifies, one of the fabric's only through a Floeb port that has negotiated, else goes on with the other source, and waits after a round in which every
source failed, 1 s and then doubling to 60 s; a fabric source without a target fails at once. Which reason is reported of an
image that fails several tests is log 14. -/
def Obligations.BootEvents : Prop :=
  (∀ s, exec .bootReset s = .next { State.reset with steps := s.steps, agenda := s.agenda, free := s.free, otp := s.otp,
                                                     tier := if s.otp.isModule then State.reset.tier else {} }) ∧
  (∀ s img, s.boot.image = none → s.boot.waiting = false → (s.boot.src = .fabric → s.floeb ≠ []) → img.sigOk = true → s.otp.minVer ≤ img.version → img.forModule = s.otp.isModule →
    exec (.imageFetchComplete img) s = .next { s with
      boot := { s.boot with image := some (img.version, img.bytes), held := false }, reports := s.reports ++ [.boot s.boot.src none] }) ∧
  (∀ i why s, s.boot.image = none → s.boot.waiting = false → (∀ img, i = .imageFetchComplete img → s.boot.src = .fabric → s.floeb ≠ []) →
    ((∃ img, i = .imageFetchComplete img ∧ img.sigOk = false ∧ why = .signature) ∨
     (∃ img, i = .imageFetchComplete img ∧ img.sigOk = true ∧ img.version < s.otp.minVer ∧ why = .version) ∨
     (∃ img, i = .imageFetchComplete img ∧ img.sigOk = true ∧ s.otp.minVer ≤ img.version ∧ img.forModule ≠ s.otp.isModule ∧ why = .form) ∨
     (i = .dhcpTimeout ∧ s.boot.src = .port ∧ why = .noOffer) ∨ (i = .sourceTimeout ∧ why = .noAnswer) ∨ (i = .transferBreak ∧ why = .broken)) →
    ∃ t, exec i s = .next t ∧ t.boot.held = s.boot.held ∧ t.boot.image = none ∧
      (s.otp.fabric = true → t.reports = s.reports ++ [.boot s.boot.src (some why)] ∧
        t.boot.src = (match s.boot.src with | .port => .fabric | .fabric => .port) ∧
        (∀ all, all = (∀ x, x = s.boot.src ∨ x ∈ s.boot.failed) →
          (all → t.boot.waiting = true ∧ t.boot.wait = if s.boot.wait = 0 then 1 else min (2 * s.boot.wait) 60) ∧
          (¬ all → t.boot.waiting = false ∧ t.boot.wait = s.boot.wait))) ∧
      (s.otp.fabric = false → s.boot.src = .port → .fabric ∉ s.boot.failed →
        t.reports = s.reports ++ [.boot .port (some why), .boot .fabric (some .noTarget)] ∧ t.boot.src = .port ∧
        t.boot.waiting = true ∧ t.boot.wait = if s.boot.wait = 0 then 1 else min (2 * s.boot.wait) 60)) ∧
  ∀ s, s.boot.waiting = true → exec .bootRetryWaitExpiry s = .next { s with boot := { s.boot with waiting := false, failed := [] } }

/-! The encoding, the step, and what stops an instruction word. -/

/-- R10, R256, R259, R260: after reset the compute dies are held in reset, nothing is loaded or runs, memory lists nothing,
every clock count is 0, `pwr.slope` is 256 and `pwr.droop` 40; the invariant holds. -/
def Obligations.ResetState : Prop :=
  Canonical State.reset ∧ State.reset.boot.held = true ∧ State.reset.boot.image = none ∧ State.reset.mem = [] ∧
  State.reset.jobs = [] ∧ State.reset.tasks = [] ∧ State.reset.spans = [] ∧ State.reset.blocks = [] ∧ State.reset.wavs = [] ∧
  State.reset.ops = [] ∧ State.reset.slope = 256 ∧ State.reset.droop = 40 ∧ State.reset.now = 0 ∧
  ∀ c, (State.reset.cluster c).cyc = 0

/-- The worked words of the spec decode to the instructions they stand for. -/
def Obligations.DecodesSampleWords : Prop :=
  decodeTableWord 96 0x0600280A05F0A840E4000000 = some (.fma { blank with
    d := .v 20, a := .v 10, b := .v 11, c := .o 2, guard := ⟨true, 2⟩, fe := 2, ty := .f32, md := 9 }) ∧
  decodeTableWord 96 0x48000A08F87C1C00C0000040 = some (.ld { blank with d := .v 5, a := .v 8, ty := .f32, imm := 0x40 }) ∧
  decodeTableWord 96 0x16000FF00FF01C00C0000000 = some (.movi { blank with d := .v 7, ty := .f32, imm32 := 0x3FC00000 }) ∧
  decodeTableWord 96 0x9003E1F03FFFC4000000FFFE = some (.bra { blank with guard := ⟨false, 1⟩, imm32 := 0xFFFFFFFE }) ∧
  decodeTableWord 96 0x200BE005F87C1C00C0000003 = some (.cmp { blank with a := .v 5, ty := .f32, imm := 3 } 2) ∧
  decodeTableWord 96 0x1C0005F8F97C1C0000000000 = some (.shl { blank with d := .v 2, a := .lit .lane, b := .lit .two }) ∧
  decodeTableWord 96 0x28000E05F87C1C0064000003 = some (.cvt { blank with d := .v 7, a := .v 5, ty := .s32, md := 9, imm := 3 }) ∧
  decodeTableWord 96 0x38000803F47C1C00C0000000 = some (.tev { blank with d := .v 4, a := .v 3, b := .w 8, ty := .f32 }) ∧
  decodeTableWord 96 0x42281208F87C1C0080000000 = some (.lscan { blank with d := .v 9, a := .v 8, ty := .n32 } 2 true) ∧
  decodeTableWord 96 0x520FE1F0F87C1C0000000000 = some (.fence blank 3) ∧
  decodeTableWord 96 0x6507E024150A1C0180000000 = some (.mldT { blank with a := .v 36, b := .v 42, c := .v 40, ty := .bf16 }) ∧
  decodeTableWord 96 0x7804805001FC1C0000000002 = some (.daddSub { blank with d := .v 64, a := .v 80, b := .v 3, imm := 2 }) ∧
  decodeTableWord 96 0x82045004047C1C0140000200 = some (.texLod { blank with d := .v 40, a := .v 4, b := .v 8, ty := .f16, imm := 0x200 }) ∧
  decodeTableWord 96 0x97081828F8001C0000000000 = some (.seal { blank with d := .v 12, a := .v 40 } false true) ∧
  decodeTableWord 96 0xA203E02002FC1C0000000000 = some (.barinit { blank with a := .v 32, b := .v 5 }) ∧
  decodeTableWord 96 0xA903E003F87C1C000000000A = some (.setsrMode { blank with a := .v 3, imm := 10 })

/-- R116-R119, R127: decoding the bytes of a well-formed instruction gives it back, whatever follows; and the decoder answers
only well-formed instructions, each from the one word that encodes it. -/
def Obligations.DecodeEncode : Prop :=
  (∀ i bs rest, i.wellFormed = true → encode i = some bs → decode (bs ++ rest) = .ok (i, rest)) ∧
  ∀ i bs rest, decode bs = .ok (i, rest) → i.wellFormed = true ∧ ∃ w, encode i = some w ∧ w ++ rest = bs

/-- From every state that has the canonical form, a step leaves one that has it. -/
def Obligations.StepKeepsCanonical : Prop :=
  ∀ s t, Canonical s → step s = .next t → Canonical t

/-- A step takes the turn that the agenda, or else the default order, names (log 2): a device event is executed, and a
wavelet that may issue executes the instruction that the 12 bytes at its PC decode to, its run begun; where they cannot be
fetched it takes the fetch fault of R252; with no turn due only time passes. In each step the waits whose counts are reached
return (R242), a virtual function without ready work gives up its slice (R247, log 22), and the word's fetch reaches the LLC (R162, log 23). -/
def Obligations.StepRunsDecoded : Prop :=
  (∀ (s a : State) w ts e v bs i rest, s.agenda = .run w :: ts → a = { s.tick with agenda := ts } → a.env? w = some e →
    Wavelet.begin e.wav = some v → a.fetch e (Wavelet.pc v) = some bs → decode bs = .ok (i, rest) →
    step s = exec i (State.fetched { a.setWav w { v with retried := false } with cur := some w } e w (Wavelet.pc v))) ∧
  (∀ (s a : State) w ts e v, s.agenda = .run w :: ts → a = { s.tick with agenda := ts } → a.env? w = some e →
    Wavelet.begin e.wav = some v → a.fetch e (Wavelet.pc v) = none → step s = exec (.fetchFault w)
      (if a.wordFails e (Wavelet.pc v) then State.fetched { a.setWav w v with cur := some w } e w (Wavelet.pc v)
        else { a.setWav w v with cur := some w })) ∧
  (∀ (s : State) i ts, s.agenda = .event i :: ts → step s = exec i { s.tick with agenda := ts, cur := none }) ∧
  (∀ (s : State) t, s.agenda = [] → s.tick.defaultTurn = some t → step s = step { s.waitFor t with agenda := [t] }) ∧
  (∀ s : State, s.agenda = [] → s.tick.defaultTurn = none → step s = .next s.tick) ∧
  (∀ s : State, s.tick = { s with steps := s.steps + 1, jobs := s.tick.jobs, free := s.tick.free, turn := s.tick.turn, vfs := s.tick.vfs,
                                  grace := s.tick.grace } ∧
    (s.vfs = [] ∨ s.hasWork s.turn = true → s.tick = { s with steps := s.steps + 1, jobs := s.tick.jobs })) ∧
  ∀ (s : State) e w pc, ∃ llc charges clusters, s.fetched e w pc = { s with llc := llc, charges := charges, clusters := clusters }

/-- R125, R24, R25, R126: a word that fails a check traps with the whole bundle marked and no address: `E_ILL` for a reserved
form, a component beyond K, a 25th instruction or one after a control or waiting instruction; then `E_HINT` for HC. A word
that decodes to no instruction does the same in the step. -/
def Obligations.WordTraps : Prop :=
  (∀ i s e f sh r, Issues i s e f sh r →
    ∀ ill, ill = (i.legal = false ∨ i.kOk e.K = false ∨ i.isSeal = false ∧ (24 ≤ r.count ∨ r.mustSeal = true)) →
    (ill → exec i s = .next (s.takeTrap e.wid eIll (noAddr (r.lanes.lanes 64)))) ∧
    (¬ ill → f.hc ≠ 0 → exec i s = .next (s.takeTrap e.wid eHint (noAddr (r.lanes.lanes 64))))) ∧
  ∀ (s a : State) e w ts v r bs x, s.agenda = .run w :: ts → a = { s.tick with agenda := ts } → a.env? w = some e →
    Wavelet.begin e.wav = some v → v.run = some r → a.fetch e (Wavelet.pc v) = some bs → decode bs = .error x →
    step s = .next ((State.fetched { a.setWav w { v with retried := false } with cur := some w } e w (Wavelet.pc v)).takeTrap w eIll
      (noAddr (r.lanes.lanes 64)))

/-- R168, R26, R253: a trap sets the context of the wavelet. Where the kernel names a handler and the wavelet is not inside it,
the bundle begins a new run at its entry with `o` and `q` empty, and a memory instruction that was being executed again is left to
be performed in the same lanes (R151, R360; that a trap of any cause leaves it so is log 19, DEDUCED); otherwise the grid ends with
the cause. Slots that an `mclaim` was granted and has not taken are the block's no more. -/
def Obligations.TrapEntry : Prop :=
  ∀ (s : State) (e : Env) (r : Run) (cause : Nat) (hits : List (Nat × W64)), s.env? e.wid = some e → e.wav.run = some r → Tidy e.wav →
    (e.kern.trap ≠ 0 → e.wav.handler = none → ∃ v,
      s.takeTrap e.wid cause hits = (match e.wav.granted with
        | some m => s.modBlk e.wid.block fun k => { k with slots := k.slots.filter fun p => !m.testBit p.1 }
        | none => s).setWav e.wid v ∧ v.granted = none ∧ v.cause = cause ∧ v.epc = Wavelet.pc e.wav ∧ v.fmask = Mask.ofLanes (hits.map (·.1)) ∧
      v.run = some { start := e.kern.trap, count := 0, lanes := r.lanes } ∧ v.stall = .none ∧ v.w = e.wav.w ∧
      (∃ h, v.handler = some h ∧ h.lanes = r.lanes ∧ h.run = r ∧
        h.o = (bundle e r).map (fun l => (l, (e.lane l).o)) ∧ (h.q = (bundle e r).map fun l => (l, (e.lane l).q)) ∧
        match e.wav.replay with
        | some m => ∃ k, h.marked = some k ∧ k ||| h.held = m ||| Mask.ofLanes (e.wav.failing.map (·.1))
        | none => h.marked = none) ∧
      v.lanes.length = e.wav.lanes.length ∧ ∀ l, l < e.wav.width →
        (v.lane l).faddr = (Assoc.get? hits l).getD 0 ∧ (v.lane l).regs = (e.lane l).regs ∧ (v.lane l).preds = (e.lane l).preds ∧
        (v.lane l).stack = (e.lane l).stack ∧ (v.lane l).priv = (e.lane l).priv ∧ (v.lane l).live = (e.lane l).live ∧
        if r.lanes.has l then (v.lane l).pc = e.kern.trap ∧ (v.lane l).o = [] ∧ (v.lane l).q = []
        else (v.lane l).pc = (e.lane l).pc ∧ (v.lane l).o = (e.lane l).o ∧ (v.lane l).q = (e.lane l).q) ∧
    (e.kern.trap = 0 ∨ e.wav.handler ≠ none → e.task.cause = 0 →
      ∃ k c, (s.takeTrap e.wid cause hits).task? e.span.task = some k ∧ k.cause = cause ∧ k.kept = some c ∧ c.cause = cause ∧
        c.epc = Wavelet.pc e.wav ∧ c.fmask = Mask.ofLanes (hits.map (·.1)))

/-- R60, steps 2 to 5 (R51, R58, R56, R61, R59): the first check that lanes fail raises its cause in those lanes and changes
nothing else; an empty source of policy 0 makes the bundle wait. A `lane` tests the FE policy of A in every member lane that is
in the bundle (R240), and the validity of the A that it reads (R309); the lanes marked are those that act (R361). -/
def Obligations.OperandChecks : Prop :=
  ∀ i s e f sh r, Issues i s e f sh r → WordOk i e f r → e.wav.replay = none → ∀ ls, ls = e.acting f.guard r →
    ((readers sh ls ++ laneReads i f sh e ls).any (lacks i f sh e ls) = true →
      exec i s = .next (s.takeTrap e.wid eTmp (noAddr ((readers sh ls).filter (lacks i f sh e ls))))) ∧
    (Valid i f sh e ls → (readers sh ls ++ laneMembers i f sh e r ls).any (hollow i f sh e ls) = true →
      exec i s = .next (s.takeTrap e.wid eEmpty (noAddr ((readers sh ls).filter (hollow i f sh e ls))))) ∧
    (Valid i f sh e ls → Full true i f sh e r ls → ¬ Full false i f sh e r ls → exec i s = .next (s.stallWith e.wid .empty)) ∧
    (Valid i f sh e ls → Full true i f sh e r ls → Full false i f sh e r ls →
      ∀ xs, xs = (readers sh ls).filter (unfit i f sh e ls) → xs ≠ [] → exec i s = .next (s.takeTrap e.wid eFmt (noAddr xs))) ∧
    (Valid i f sh e ls → Full true i f sh e r ls → Full false i f sh e r ls → Fits i f sh e ls →
      ∀ xs, xs = (writeLanes i f e ls).filter (pends f sh e) → xs ≠ [] →
      exec i s = .next (s.takeTrap e.wid ePendwrite (noAddr xs)))

/-! Values of special functions, packed forms, pointers and distributions. -/

/-- The values of `cos`, `sin`, `ex2`, `lg2`, `rsq`, `dot2`, `dot4`, `pack4`, `unpk4` and `cvtblk`. A special function gives its
exact value rounded once (R284) as far as log 10 says, with the edges of R285, R302, R312, R340 and R346 and the tangents of its
row of R78; a dot product is one exact sum rounded once (R297); packed elements and blocks are converted as R332, R357, R290
and R291 say, each stochastic rounding by the draw of R107; which d an outlier's neighbours give it is log 24. -/
def Obligations.SpecialAndPackedValues : Prop :=
  (∀ f, Yields (.cos f) fun e _ l v _ => SpecialResult e f l Special.cos (fun ta a _ => F32.mul (F32.neg (F32.sin a)) ta) v ∧
    ∀ fm j x y, f.ty.fmt? = some fm → j < f.ty.perReg → x = srcX e f.a f.ty l j → y = elem f.ty v j →
      (x.isZero = true → y = fm.rn (.ofNat 1)) ∧ (x.isFin = false → y = fm.qnan)) ∧
  (∀ f, Yields (.sin f) fun e _ l v _ => SpecialResult e f l Special.sin (fun ta a _ => F32.mul (F32.cos a) ta) v ∧
    ∀ fm j x y, f.ty.fmt? = some fm → j < f.ty.perReg → x = srcX e f.a f.ty l j → y = elem f.ty v j →
      (x.isZero = true → y = fm.signed x.sign 0) ∧ (x.isFin = false → y = fm.qnan)) ∧
  (∀ f, Yields (.ex2 f) fun e _ l v _ => SpecialResult e f l Special.ex2 (fun ta _ y => F32.mul F32.ln2 (F32.mul y ta)) v ∧
    ∀ fm j x y, f.ty.fmt? = some fm → j < f.ty.perReg → x = srcX e f.a f.ty l j → y = elem f.ty v j →
      (x = .nan → y = fm.qnan) ∧ (x = .inf false → y = fm.infMag) ∧ (x = .inf true → y = 0) ∧
      ∀ n m k q, x = .fin n m k false → q < 1024 → m * 2 ^ k.toNat = q * 2 ^ (-k).toNat →
        y = fm.rn (.fin false 1 (if n then -(q : Int) else q) false)) ∧
  (∀ f, Yields (.lg2 f) fun e _ l v _ => SpecialResult e f l Special.lg2 (fun ta a _ => F32.div ta (F32.mul a F32.ln2)) v ∧
    ∀ fm j x y, f.ty.fmt? = some fm → j < f.ty.perReg → x = srcX e f.a f.ty l j → y = elem f.ty v j →
      (x.isZero = true → y = fm.signed true fm.infMag) ∧ (x.lt .zero = true ∨ x = .nan → y = fm.qnan) ∧
      (x = .inf false → y = fm.infMag) ∧ ∀ (n : Nat) k, x = .fin false (2 ^ n) k false → y = fm.rn (.ofInt (k + n))) ∧
  (∀ f, Yields (.rsq f) fun e _ l v _ => SpecialResult e f l (fun fm x => fm.rn x.rsq)
      (fun ta _ y => F32.mul 0xBF000000 (F32.mul y (F32.mul y (F32.mul y ta)))) v ∧
    ∀ fm j x y, f.ty.fmt? = some fm → j < f.ty.perReg → x = srcX e f.a f.ty l j → y = elem f.ty v j →
      (x.isZero = true → y = fm.signed x.sign fm.infMag) ∧ (x.lt .zero = true ∨ x = .nan → y = fm.qnan) ∧
      (x = .inf false → y = 0)) ∧
  (∀ i f, i = Instr.dot2 f ∨ i = .dot4 f → f.ty.isFloat = true → Yields i fun e r l v _ => RoundedOnce e f r .f32
    (fun m _ => Num.sum (f.rm == 3) (srcX e f.c .f32 m 0 ::
      (List.range f.ty.perReg).map fun j => (srcX e f.a f.ty m j).mul (srcX e f.b f.ty m j)))
    (fun k _ _ => if f.ty.hasTan then F32.ofNum (Num.sum false (((List.range f.ty.perReg).map fun j =>
        [(F32.num (srcT e f.a f.ty l k j)).mul (F32.num (srcP e f.b f.ty l j)),
         (F32.num (srcP e f.a f.ty l j)).mul (F32.num (srcT e f.b f.ty l k j))]).flatten ++ [F32.num (srcT e f.c .f32 l k 0)]))
      else srcT e f.c .f32 l k 0) l v) ∧
  (∀ i f, i = Instr.dot2 f ∨ i = .dot4 f → f.ty.isFloat = false → Yields i fun e _ l v _ =>
    ∀ t x, t = (if f.ty.isSigned then Ty.s32 else .n32) → x = srcI e f.c t l 0 +
        ((List.range f.ty.perReg).map fun j => srcI e f.a f.ty l j * srcI e f.b f.ty l j).sum →
      Plain t 32 v ∧ if f.sat then t.intOf v.bits.toNat = max t.lo (min t.hi x) else (v.bits.toNat : Int) = x % 2 ^ 32) ∧
  (∀ f, Yields (.pack4 f) fun e r l v _ => Plain f.ty 32 v ∧
    (∀ fm x, f.ty.fmt? = some fm → (x = fun m j => F32.num (((ctx e f r).grp f.a .f32 m j).bits.setWidth 32)) → ∀ j, j < 4 →
      elem f.ty v j = (fm.round f.rm f.sat (srBits e f r 4 (fun m k => fm.dOf (x m k)) l j) (x l j)).bits) ∧
    (f.ty = .s8x4 ∨ f.ty = .n8x4 → ∀ j x, j < 4 →
      (∀ t, t = (if f.ty = .s8x4 then Ty.s32 else .n32) → x = t.intOf ((ctx e f r).grp f.a t l j).bits.toNat) →
      if f.sat then f.ty.intOf (elem f.ty v j) = max f.ty.lo (min f.ty.hi x) else (elem f.ty v j : Int) = x % 2 ^ 8) ∧
    (f.ty = .i4o → ∀ j, j < 8 → if j / 4 = natBits f.imm.toNat 0 0 then
        ∀ x, x = Ty.s32.intOf ((ctx e f r).grp f.a .s32 l (j % 4)).bits.toNat →
          (elem f.ty v j : Int) = (if f.sat then max (-7) (min 7 x) else x) % 16
      else elem f.ty v j = elem f.ty (src e f.b f.ty l) j)) ∧
  (∀ f n, f.d = .v n → Leaves (.unpk4 f) fun e _ l y => ∀ j x z, j < 4 →
    x = elem f.ty (src e f.a f.ty l) (if f.ty = .i4o then 4 * natBits f.imm.toNat 0 0 + j else j) → z = (y.reg (n.val + j)).bits →
    (f.ty = .s8x4 → z.toInt = f.ty.intOf x) ∧ (f.ty = .n8x4 → z.toNat = x) ∧
    (f.ty = .i4o → z.toInt = if x < 8 then (x : Int) else (x : Int) - 16) ∧
    (f.ty.isFloat = true → z = F32.ofNum (f.ty.num false x))) ∧
  (∀ f n, f.d = .v n → Leaves (.cvtblkDec f) fun e r l y => ∀ sc code, sc = srcN e f.b .n32 l % 256 →
    (code = fun j => elem f.ty ((ctx e f r).grp f.a f.ty l (j / f.ty.perReg)) (j % f.ty.perReg)) →
    (∀ j, j < 32 → (y.reg (n.val + j)).bits = if 127 ≤ sc then F32.qnan
      else if sc = 0 then (if blockSign f.ty code j then 0x80000000 else 0)
      else F32.ofNum ((blockElem f.ty code j).mul (Fmt.e4m3.decode sc))) ∧
    (127 ≤ sc → y.status.getLsbD 1 = true ∧ ((∃ j, j < 32 ∧ (blockElem f.ty code j).isFin = true) → y.status.getLsbD 2 = true))) ∧
  (∀ f n, f.d = .v n → Leaves (.cvtblkEnc f) fun e r l y => ∀ x code sc, (x = fun j => F32.num (((ctx e f r).grp f.a .f32 l j).bits.setWidth 32)) →
    (code = fun j => (f.ty.elems (y.reg (n.val + j / f.ty.perReg)).bits.toNat).getD (j % f.ty.perReg) 0) →
    sc = (y.reg (n.val + if f.ty = .i4o then 4 else 8)).bits.toNat → BlockScale f.ty x sc ∧ ∀ z,
    (z = fun j => if sc = 0 then x j else (x j).div (Fmt.e4m3.decode sc)) →
    (∀ fm, f.ty.fmt? = some fm → ∀ j, j < 32 →
      code j = (fm.round f.rm false (if f.rm = 4 then drawn e.wav.seed (fun q => fm.dOf (z q)) j else 0) (z j)).bits) ∧
    (f.ty = .i4o → ∀ q, q < 8 → ∀ d : (Nat → Nat) → Nat → Nat, (d = fun g j => if f.rm = 4 then drawn e.wav.seed g j else 0) →
      ∀ k : Nat → Int, (∀ j, k j = nearest f.rm (d (fun p => (z p).dInt) (4 * q + j)) (z (4 * q + j))) →
      code (4 * q) = int4 (k 0) ∧
      if 7 < (k 1).natAbs then code (4 * q + 1) = 8 ∧ code (4 * q + 2) * 16 + code (4 * q + 3) =
          (Fmt.e4m3.round f.rm false (d (fun p => if p = 4 * q + 1 then Fmt.e4m3.dOf (z p) else (z p).dInt) (4 * q + 1))
            (z (4 * q + 1))).bits ∧ code (4 * q + 3) < 16
      else ∀ j, 1 ≤ j → j < 4 → code (4 * q + j) = int4 (k j)))

/-- The values of `spc`, `dmom` and `dqtl`: the window and the stamp or rank of an address (R147); the moments of R235 over the
points of A as R229 gives them, each exact sum rounded once; and the first point whose cumulative weight reaches q (R236). -/
def Obligations.PointerAndDistributionReads : Prop :=
  (∀ f, Yields (.spc f) fun e _ l v _ => Plain .n32 32 v ∧ v.bits.toNat = match window (e.readPtr l f.a) with
    | .none => 0
    | .glob _ => 1
    | .priv _ => 2
    | .sp st _ => if 191 < st then 0 else if st = e.blk.home then 256 * st + 3 else 256 * st + 4
    | .span rank _ => 256 * rank + 5) ∧
  (∀ f, Yields (.dmomMean f) fun e _ l v _ => Plain .f32 32 v ∧ ∀ ps, ps = (Dist.ofWords (imgIn (e.lane l) f.a)).pts →
    ((∃ p ∈ ps, F32.isNan p.1 = true) → v.bits = F32.qnan.setWidth 64) ∧
    ((∀ p ∈ ps, F32.isNan p.1 = false) → v.bits = (mean ps).setWidth 64)) ∧
  (∀ i f k, (i, k) ∈ [(Instr.dmomVar f, 2), (.dmomM3 f, 3)] → Yields i fun e _ l v _ => Plain .f32 32 v ∧
    ∀ ps, ps = (Dist.ofWords (imgIn (e.lane l) f.a)).pts →
    ((∃ p ∈ ps, F32.isNan p.1 = true) → v.bits = F32.qnan.setWidth 64) ∧
    ((∀ p ∈ ps, F32.isNan p.1 = false) → v.bits = (F32.ofNum (Num.sum false (ps.map fun p =>
      (F32.num p.2).mul (power (F32.num (F32.sub p.1 (mean ps))) k)))).setWidth 64)) ∧
  (∀ f, Yields (.dqtl f) fun e _ l v _ => Plain .f32 32 v ∧
    ∀ ps q x cum, ps = (Dist.ofWords (imgIn (e.lane l) f.a)).pts → q = (src e f.b .f32 l).bits.setWidth 32 →
    (x = fun i => ((ps.getD i (0, 0)).1 : W32)) → (cum = fun i => Num.sum false ((ps.take (i + 1)).map fun p => F32.num p.2)) →
    (F32.isNan q = true → v.bits = F32.qnan.setWidth 64) ∧ ((F32.num q).le .zero = true → v.bits = (x 0).setWidth 64) ∧
    (F32.isNan q = false → (F32.num q).le .zero = false →
      (∀ i, i < ps.length → (F32.num q).le (cum i) = true → (∀ j, j < i → (F32.num q).le (cum j) = false) → v.bits = (x i).setWidth 64) ∧
      ((∀ i, i < ps.length → (F32.num q).le (cum i) = false) → v.bits = (x (ps.length - 1)).setWidth 64)))

end
end

