-- ==== Sys2Proof/Laws/Sparse.lean ====
section
/-! SUPPORT. The laws of the list maps: a read after a write, and the canonical form that every write keeps. -/

namespace Sys2Proof

namespace Sparse

variable {β : Type} [DecidableEq β] {d : β}

/-- A map in canonical form whose keys all exceed `k` holds nothing at `k`. -/
theorem get_of_lt {m : List (Nat × β)} {k : Nat} (h : wf d m = true) (hk : ∀ p ∈ m.head?, k < p.1) : get d m k = d := by
  induction m with
  | nil => rfl
  | cons p xs ih =>
    have hp : k < p.1 := hk p rfl
    simp only [wf, Bool.and_eq_true] at h
    have hne : (p.1 == k) = false := by simp; omega
    simp only [get, hne, Bool.false_eq_true, if_false]
    refine ih h.2 fun q hq => ?_
    cases xs with
    | nil => simp at hq
    | cons y ys =>
      simp only [List.head?_cons, Option.mem_def, Option.some.injEq] at hq
      have := of_decide_eq_true h.1.2
      subst hq; omega

/-- The first key of a map after a write: the key written or the first before, unless it was removed. -/
theorem head_put {m : List (Nat × β)} {k k₀ : Nat} {v : β} (h : wf d m = true) (hm : ∀ p ∈ m.head?, k₀ < p.1) (hk : k₀ < k) :
    ∀ p ∈ (put d m k v).head?, k₀ < p.1 := by
  cases m with
  | nil =>
    intro p hp
    simp only [put] at hp
    split at hp
    · simp at hp
    · simp at hp; subst hp; exact hk
  | cons x xs =>
    have hx := hm x rfl
    simp only [wf, Bool.and_eq_true] at h
    intro p hp
    simp only [put] at hp
    split at hp
    · split at hp <;> simp at hp <;> subst hp <;> simp_all
    · split at hp
      · split at hp
        · cases xs with
          | nil => simp at hp
          | cons y ys =>
            have := of_decide_eq_true h.1.2
            simp at hp; subst hp; omega
        · simp at hp; subst hp; simp_all
      · simp at hp; subst hp; exact hx

/-- A map is canonical when its first entry is listed rightly and the rest is canonical. -/
theorem wf_cons {k : Nat} {v : β} {xs : List (Nat × β)} :
    wf d ((k, v) :: xs) = true ↔ v ≠ d ∧ (∀ p ∈ xs.head?, k < p.1) ∧ wf d xs = true := by
  cases xs <;> simp [wf, and_assoc]

/-- A write keeps the canonical form. -/
theorem wf_put {m : List (Nat × β)} (k : Nat) (v : β) (h : wf d m = true) : wf d (put d m k v) = true := by
  induction m with
  | nil => simp only [put]; split <;> simp [wf, *]
  | cons x xs ih =>
    obtain ⟨k', v'⟩ := x
    have h' := wf_cons.1 h
    simp only [put]
    split
    · split
      · exact h
      · exact wf_cons.2 ⟨‹_›, by simpa using ‹k < k'›, h⟩
    · split
      · split
        · exact h'.2.2
        · exact wf_cons.2 ⟨‹_›, by subst k; exact h'.2.1, h'.2.2⟩
      · exact wf_cons.2 ⟨h'.1, head_put h'.2.2 h'.2.1 (by omega), ih h'.2.2⟩

/-- A read after a write. -/
theorem get_put {m : List (Nat × β)} (k : Nat) (v : β) (j : Nat) (h : wf d m = true) :
    get d (put d m k v) j = if k = j then v else get d m j := by
  induction m with
  | nil =>
    simp only [put]
    by_cases hv : v = d <;> by_cases hj : k = j <;> simp [get, hv, hj]
  | cons x xs ih =>
    obtain ⟨k', v'⟩ := x
    have h' := wf_cons.1 h
    simp only [put]
    split
    · rename_i hk
      by_cases hv : v = d
      · simp only [hv, if_true]
        split
        · subst j
          exact get_of_lt h (by simpa using hk)
        · rfl
      · by_cases hj : k = j <;> simp [get, hv, hj]
    · split
      · rename_i hk
        subst k'
        by_cases hv : v = d
        · simp only [hv, if_true]
          split
          · subst j
            exact get_of_lt h'.2.2 h'.2.1
          · simp [get, ‹k ≠ j›]
        · by_cases hj : k = j <;> simp [get, hv, hj]
      · rename_i hk hne
        simp only [get, ih h'.2.2]
        by_cases hj : k' = j
        · have : ¬ k = j := by omega
          simp [hj, this]
        · simp [hj]

/-- A write of bytes keeps the canonical form. -/
theorem wf_writeN {m : List (Nat × Byte)} (a n v : Nat) (h : wf 0 m = true) : wf 0 (writeN m a n v) = true := by
  induction n generalizing m a v with
  | zero => exact h
  | succ n ih => exact ih _ _ (wf_put _ _ h)

/-- A write of bytes leaves every other byte. -/
theorem get_writeN_of_not {m : List (Nat × Byte)} {a n v j : Nat} (h : wf 0 m = true) (hj : j < a ∨ a + n ≤ j) :
    get 0 (writeN m a n v) j = get 0 m j := by
  induction n generalizing m a v with
  | zero => rfl
  | succ n ih =>
    rw [writeN, ih (wf_put _ _ h) (by omega), get_put _ _ _ h, if_neg (by omega)]

/-- The byte that a write leaves inside its range. -/
theorem get_writeN {m : List (Nat × Byte)} {a n v i : Nat} (h : wf 0 m = true) (hi : i < n) :
    get 0 (writeN m a n v) (a + i) = BitVec.ofNat 8 (v / 256 ^ i) := by
  induction n generalizing m a v i with
  | zero => omega
  | succ n ih =>
    cases i with
    | zero => rw [writeN, get_writeN_of_not (wf_put _ _ h) (by omega), get_put _ _ _ h]; simp
    | succ i =>
      have := ih (m := put 0 m a (BitVec.ofNat 8 v)) (a := a + 1) (v := v / 256) (i := i) (wf_put _ _ h) (by omega)
      rw [writeN, show a + (i + 1) = a + 1 + i by omega, this, Nat.div_div_eq_div_mul, Nat.pow_succ, Nat.mul_comm]

/-- Reading bytes depends on those bytes alone. -/
theorem readN_congr {m m' : List (Nat × Byte)} {a n : Nat} (h : ∀ i < n, get 0 m (a + i) = get 0 m' (a + i)) :
    readN m a n = readN m' a n := by
  induction n generalizing a with
  | zero => rfl
  | succ n ih =>
    have h0 := h 0 (by omega)
    simp only [Nat.add_zero] at h0
    rw [readN, readN, h0, ih fun i hi => by have := h (i + 1) (by omega); rwa [show a + (i + 1) = a + 1 + i by omega] at this]

/-- A read of the bytes just written gives the number written, cut to their width. -/
theorem readN_writeN {m : List (Nat × Byte)} (a n v : Nat) (h : wf 0 m = true) :
    readN (writeN m a n v) a n = v % 256 ^ n := by
  induction n generalizing m a v with
  | zero => simp [readN, Nat.mod_one]
  | succ n ih =>
    have h0 := get_writeN (m := m) (a := a) (n := n + 1) (v := v) (i := 0) h (by omega)
    simp only [Nat.add_zero, Nat.pow_zero, Nat.div_one] at h0
    rw [readN, h0, writeN, ih (m := put 0 m a (BitVec.ofNat 8 v)) (a + 1) (v / 256) (wf_put _ _ h)]
    rw [show (BitVec.ofNat 8 v).toNat = v % 256 by simp, Nat.pow_succ, Nat.mul_comm (256 ^ n), Nat.mod_mul]

/-- A read elsewhere is what it was. -/
theorem readN_writeN_of_not {m : List (Nat × Byte)} {a n v b k : Nat} (h : wf 0 m = true) (hd : b + k ≤ a ∨ a + n ≤ b) :
    readN (writeN m a n v) b k = readN m b k :=
  readN_congr fun i hi => get_writeN_of_not h (by omega)

end Sparse

namespace Assoc

variable {α β : Type} [DecidableEq α]

/-- A lookup after an update. -/
@[simp] theorem get?_put (xs : List (α × β)) (k j : α) (v : β) :
    get? (put xs k v) j = if k = j then some v else get? xs j := by
  induction xs with
  | nil => by_cases h : k = j <;> simp [put, get?, h]
  | cons x xs ih =>
    obtain ⟨k', v'⟩ := x
    simp only [put]
    split
    · rename_i hk; subst k'; by_cases h : k = j <;> simp [get?, h]
    · rename_i hk
      simp only [get?, ih]
      by_cases h : k' = j
      · have : ¬ k = j := fun e => hk (h.trans e.symm)
        simp [h, this]
      · simp [h]

/-- Two updates of one key are the last. -/
@[simp] theorem put_put (xs : List (α × β)) (k : α) (v w : β) : put (put xs k v) k w = put xs k w := by
  induction xs with
  | nil => simp [put]
  | cons x xs ih =>
    simp only [put]
    split
    · simp [put]
    · simp [put, *]

/-- What is found is listed. -/
theorem mem_of_get? {xs : List (α × β)} {k : α} {v : β} (h : get? xs k = some v) : (k, v) ∈ xs := by
  induction xs with
  | nil => simp [get?] at h
  | cons x xs ih =>
    simp only [get?] at h
    split at h
    · rename_i hk
      obtain ⟨k', v'⟩ := x
      simp only [Option.some.injEq] at h hk
      simp [← h, ← hk]
    · exact List.mem_cons_of_mem _ (ih h)

/-- What an updated map lists was listed before or is the update. -/
theorem mem_put {xs : List (α × β)} {k : α} {v : β} {p : α × β} (h : p ∈ put xs k v) : p ∈ xs ∨ p = (k, v) := by
  induction xs with
  | nil => simp_all [put]
  | cons x xs ih =>
    simp only [put] at h
    split at h
    · simp only [List.mem_cons] at h ⊢; tauto
    · simp only [List.mem_cons] at h ⊢
      rcases h with h | h
      · tauto
      · rcases ih h with h | h <;> tauto

end Assoc

/-- The length of a list after one change. -/
@[simp] theorem length_listModify {α : Type} (f : α → α) (xs : List α) (n : Nat) : (listModify f xs n).length = xs.length := by
  induction xs generalizing n with
  | nil => rfl
  | cons x xs ih => cases n <;> simp [listModify, ih]

@[simp] theorem length_listSet {α : Type} (xs : List α) (n : Nat) (y : α) : (listSet xs n y).length = xs.length := by
  induction xs generalizing n with
  | nil => rfl
  | cons x xs ih => cases n <;> simp [listSet, ih]

/-- An element of a list after one change. -/
theorem getD_listModify {α : Type} (f : α → α) (xs : List α) (n i : Nat) (d : α) :
    (listModify f xs n).getD i d = if i = n ∧ i < xs.length then f (xs.getD i d) else xs.getD i d := by
  induction xs generalizing n i with
  | nil => simp [listModify]
  | cons x xs ih =>
    cases n with
    | zero => cases i <;> simp [listModify]
    | succ n =>
      cases i with
      | zero => simp [listModify]
      | succ i => simpa [listModify] using ih n i

/-- Every element of a changed list is one of the list or a changed one. -/
theorem mem_listModify {α : Type} {f : α → α} {xs : List α} {n : Nat} {y : α} (h : y ∈ listModify f xs n) :
    y ∈ xs ∨ ∃ x ∈ xs, y = f x := by
  induction xs generalizing n with
  | nil => simp [listModify] at h
  | cons x xs ih =>
    cases n with
    | zero => simp only [listModify, List.mem_cons] at h ⊢; rcases h with h | h <;> simp_all
    | succ n =>
      simp only [listModify, List.mem_cons] at h ⊢
      rcases h with h | h
      · tauto
      · rcases ih h with h | ⟨z, hz, h⟩
        · tauto
        · exact .inr ⟨z, .inr hz, h⟩

end Sys2Proof
end

