-- ==== Sys2Proof/Laws/State.lean ====
section
/-! SUPPORT. What each named update of a state, a wavelet, a strand or a block does to each field: one lemma per field
and update, true by unfolding the update. -/

namespace Sys2Proof.Machine

/-! Wavelets of a state. -/

@[simp] theorem State.setWav_steps (s : State) (w : WavId) (v : Wavelet) : (s.setWav w v).steps = s.steps := rfl
@[simp] theorem State.setWav_agenda (s : State) (w : WavId) (v : Wavelet) : (s.setWav w v).agenda = s.agenda := rfl
@[simp] theorem State.setWav_free (s : State) (w : WavId) (v : Wavelet) : (s.setWav w v).free = s.free := rfl
@[simp] theorem State.setWav_cur (s : State) (w : WavId) (v : Wavelet) : (s.setWav w v).cur = s.cur := rfl
@[simp] theorem State.setWav_now (s : State) (w : WavId) (v : Wavelet) : (s.setWav w v).now = s.now := rfl
@[simp] theorem State.setWav_mem (s : State) (w : WavId) (v : Wavelet) : (s.setWav w v).mem = s.mem := rfl
@[simp] theorem State.setWav_checks (s : State) (w : WavId) (v : Wavelet) : (s.setWav w v).checks = s.checks := rfl
@[simp] theorem State.setWav_boot (s : State) (w : WavId) (v : Wavelet) : (s.setWav w v).boot = s.boot := rfl
@[simp] theorem State.setWav_otp (s : State) (w : WavId) (v : Wavelet) : (s.setWav w v).otp = s.otp := rfl
@[simp] theorem State.setWav_host (s : State) (w : WavId) (v : Wavelet) : (s.setWav w v).host = s.host := rfl
@[simp] theorem State.setWav_cxl (s : State) (w : WavId) (v : Wavelet) : (s.setWav w v).cxl = s.cxl := rfl
@[simp] theorem State.setWav_tier (s : State) (w : WavId) (v : Wavelet) : (s.setWav w v).tier = s.tier := rfl
@[simp] theorem State.setWav_floeb (s : State) (w : WavId) (v : Wavelet) : (s.setWav w v).floeb = s.floeb := rfl
@[simp] theorem State.setWav_resent (s : State) (w : WavId) (v : Wavelet) : (s.setWav w v).resent = s.resent := rfl
@[simp] theorem State.setWav_slope (s : State) (w : WavId) (v : Wavelet) : (s.setWav w v).slope = s.slope := rfl
@[simp] theorem State.setWav_droop (s : State) (w : WavId) (v : Wavelet) : (s.setWav w v).droop = s.droop := rfl
@[simp] theorem State.setWav_idle (s : State) (w : WavId) (v : Wavelet) : (s.setWav w v).idle = s.idle := rfl
@[simp] theorem State.setWav_exiting (s : State) (w : WavId) (v : Wavelet) : (s.setWav w v).exiting = s.exiting := rfl
@[simp] theorem State.setWav_ltr (s : State) (w : WavId) (v : Wavelet) : (s.setWav w v).ltr = s.ltr := rfl
@[simp] theorem State.setWav_lineMode (s : State) (w : WavId) (v : Wavelet) : (s.setWav w v).lineMode = s.lineMode := rfl
@[simp] theorem State.setWav_llc (s : State) (w : WavId) (v : Wavelet) : (s.setWav w v).llc = s.llc := rfl
@[simp] theorem State.setWav_charges (s : State) (w : WavId) (v : Wavelet) : (s.setWav w v).charges = s.charges := rfl
@[simp] theorem State.setWav_corrected (s : State) (w : WavId) (v : Wavelet) : (s.setWav w v).corrected = s.corrected := rfl
@[simp] theorem State.setWav_refetched (s : State) (w : WavId) (v : Wavelet) : (s.setWav w v).refetched = s.refetched := rfl
@[simp] theorem State.setWav_reports (s : State) (w : WavId) (v : Wavelet) : (s.setWav w v).reports = s.reports := rfl
@[simp] theorem State.setWav_div (s : State) (w : WavId) (v : Wavelet) : (s.setWav w v).div = s.div := rfl
@[simp] theorem State.setWav_objects (s : State) (w : WavId) (v : Wavelet) : (s.setWav w v).objects = s.objects := rfl
@[simp] theorem State.setWav_vfs (s : State) (w : WavId) (v : Wavelet) : (s.setWav w v).vfs = s.vfs := rfl
@[simp] theorem State.setWav_turn (s : State) (w : WavId) (v : Wavelet) : (s.setWav w v).turn = s.turn := rfl
@[simp] theorem State.setWav_served (s : State) (w : WavId) (v : Wavelet) : (s.setWav w v).served = s.served := rfl
@[simp] theorem State.setWav_lastJob (s : State) (w : WavId) (v : Wavelet) : (s.setWav w v).lastJob = s.lastJob := rfl
@[simp] theorem State.setWav_grace (s : State) (w : WavId) (v : Wavelet) : (s.setWav w v).grace = s.grace := rfl
@[simp] theorem State.setWav_jobs (s : State) (w : WavId) (v : Wavelet) : (s.setWav w v).jobs = s.jobs := rfl
@[simp] theorem State.setWav_tasks (s : State) (w : WavId) (v : Wavelet) : (s.setWav w v).tasks = s.tasks := rfl
@[simp] theorem State.setWav_spans (s : State) (w : WavId) (v : Wavelet) : (s.setWav w v).spans = s.spans := rfl
@[simp] theorem State.setWav_blocks (s : State) (w : WavId) (v : Wavelet) : (s.setWav w v).blocks = s.blocks := rfl
@[simp] theorem State.setWav_ops (s : State) (w : WavId) (v : Wavelet) : (s.setWav w v).ops = s.ops := rfl
@[simp] theorem State.setWav_nextOp (s : State) (w : WavId) (v : Wavelet) : (s.setWav w v).nextOp = s.nextOp := rfl
@[simp] theorem State.setWav_claims (s : State) (w : WavId) (v : Wavelet) : (s.setWav w v).claims = s.claims := rfl
@[simp] theorem State.setWav_clusters (s : State) (w : WavId) (v : Wavelet) : (s.setWav w v).clusters = s.clusters := rfl
@[simp] theorem State.setWav_groups (s : State) (w : WavId) (v : Wavelet) : (s.setWav w v).groups = s.groups := rfl
@[simp] theorem State.modWav_steps (s : State) (w : WavId) (f : Wavelet → Wavelet) : (s.modWav w f).steps = s.steps := by unfold State.modWav; split <;> rfl
@[simp] theorem State.modWav_agenda (s : State) (w : WavId) (f : Wavelet → Wavelet) : (s.modWav w f).agenda = s.agenda := by unfold State.modWav; split <;> rfl
@[simp] theorem State.modWav_free (s : State) (w : WavId) (f : Wavelet → Wavelet) : (s.modWav w f).free = s.free := by unfold State.modWav; split <;> rfl
@[simp] theorem State.modWav_cur (s : State) (w : WavId) (f : Wavelet → Wavelet) : (s.modWav w f).cur = s.cur := by unfold State.modWav; split <;> rfl
@[simp] theorem State.modWav_now (s : State) (w : WavId) (f : Wavelet → Wavelet) : (s.modWav w f).now = s.now := by unfold State.modWav; split <;> rfl
@[simp] theorem State.modWav_mem (s : State) (w : WavId) (f : Wavelet → Wavelet) : (s.modWav w f).mem = s.mem := by unfold State.modWav; split <;> rfl
@[simp] theorem State.modWav_checks (s : State) (w : WavId) (f : Wavelet → Wavelet) : (s.modWav w f).checks = s.checks := by unfold State.modWav; split <;> rfl
@[simp] theorem State.modWav_boot (s : State) (w : WavId) (f : Wavelet → Wavelet) : (s.modWav w f).boot = s.boot := by unfold State.modWav; split <;> rfl
@[simp] theorem State.modWav_otp (s : State) (w : WavId) (f : Wavelet → Wavelet) : (s.modWav w f).otp = s.otp := by unfold State.modWav; split <;> rfl
@[simp] theorem State.modWav_host (s : State) (w : WavId) (f : Wavelet → Wavelet) : (s.modWav w f).host = s.host := by unfold State.modWav; split <;> rfl
@[simp] theorem State.modWav_cxl (s : State) (w : WavId) (f : Wavelet → Wavelet) : (s.modWav w f).cxl = s.cxl := by unfold State.modWav; split <;> rfl
@[simp] theorem State.modWav_tier (s : State) (w : WavId) (f : Wavelet → Wavelet) : (s.modWav w f).tier = s.tier := by unfold State.modWav; split <;> rfl
@[simp] theorem State.modWav_floeb (s : State) (w : WavId) (f : Wavelet → Wavelet) : (s.modWav w f).floeb = s.floeb := by unfold State.modWav; split <;> rfl
@[simp] theorem State.modWav_resent (s : State) (w : WavId) (f : Wavelet → Wavelet) : (s.modWav w f).resent = s.resent := by unfold State.modWav; split <;> rfl
@[simp] theorem State.modWav_slope (s : State) (w : WavId) (f : Wavelet → Wavelet) : (s.modWav w f).slope = s.slope := by unfold State.modWav; split <;> rfl
@[simp] theorem State.modWav_droop (s : State) (w : WavId) (f : Wavelet → Wavelet) : (s.modWav w f).droop = s.droop := by unfold State.modWav; split <;> rfl
@[simp] theorem State.modWav_idle (s : State) (w : WavId) (f : Wavelet → Wavelet) : (s.modWav w f).idle = s.idle := by unfold State.modWav; split <;> rfl
@[simp] theorem State.modWav_exiting (s : State) (w : WavId) (f : Wavelet → Wavelet) : (s.modWav w f).exiting = s.exiting := by unfold State.modWav; split <;> rfl
@[simp] theorem State.modWav_ltr (s : State) (w : WavId) (f : Wavelet → Wavelet) : (s.modWav w f).ltr = s.ltr := by unfold State.modWav; split <;> rfl
@[simp] theorem State.modWav_lineMode (s : State) (w : WavId) (f : Wavelet → Wavelet) : (s.modWav w f).lineMode = s.lineMode := by unfold State.modWav; split <;> rfl
@[simp] theorem State.modWav_llc (s : State) (w : WavId) (f : Wavelet → Wavelet) : (s.modWav w f).llc = s.llc := by unfold State.modWav; split <;> rfl
@[simp] theorem State.modWav_charges (s : State) (w : WavId) (f : Wavelet → Wavelet) : (s.modWav w f).charges = s.charges := by unfold State.modWav; split <;> rfl
@[simp] theorem State.modWav_corrected (s : State) (w : WavId) (f : Wavelet → Wavelet) : (s.modWav w f).corrected = s.corrected := by unfold State.modWav; split <;> rfl
@[simp] theorem State.modWav_refetched (s : State) (w : WavId) (f : Wavelet → Wavelet) : (s.modWav w f).refetched = s.refetched := by unfold State.modWav; split <;> rfl
@[simp] theorem State.modWav_reports (s : State) (w : WavId) (f : Wavelet → Wavelet) : (s.modWav w f).reports = s.reports := by unfold State.modWav; split <;> rfl
@[simp] theorem State.modWav_div (s : State) (w : WavId) (f : Wavelet → Wavelet) : (s.modWav w f).div = s.div := by unfold State.modWav; split <;> rfl
@[simp] theorem State.modWav_objects (s : State) (w : WavId) (f : Wavelet → Wavelet) : (s.modWav w f).objects = s.objects := by unfold State.modWav; split <;> rfl
@[simp] theorem State.modWav_vfs (s : State) (w : WavId) (f : Wavelet → Wavelet) : (s.modWav w f).vfs = s.vfs := by unfold State.modWav; split <;> rfl
@[simp] theorem State.modWav_turn (s : State) (w : WavId) (f : Wavelet → Wavelet) : (s.modWav w f).turn = s.turn := by unfold State.modWav; split <;> rfl
@[simp] theorem State.modWav_served (s : State) (w : WavId) (f : Wavelet → Wavelet) : (s.modWav w f).served = s.served := by unfold State.modWav; split <;> rfl
@[simp] theorem State.modWav_lastJob (s : State) (w : WavId) (f : Wavelet → Wavelet) : (s.modWav w f).lastJob = s.lastJob := by unfold State.modWav; split <;> rfl
@[simp] theorem State.modWav_grace (s : State) (w : WavId) (f : Wavelet → Wavelet) : (s.modWav w f).grace = s.grace := by unfold State.modWav; split <;> rfl
@[simp] theorem State.modWav_jobs (s : State) (w : WavId) (f : Wavelet → Wavelet) : (s.modWav w f).jobs = s.jobs := by unfold State.modWav; split <;> rfl
@[simp] theorem State.modWav_tasks (s : State) (w : WavId) (f : Wavelet → Wavelet) : (s.modWav w f).tasks = s.tasks := by unfold State.modWav; split <;> rfl
@[simp] theorem State.modWav_spans (s : State) (w : WavId) (f : Wavelet → Wavelet) : (s.modWav w f).spans = s.spans := by unfold State.modWav; split <;> rfl
@[simp] theorem State.modWav_blocks (s : State) (w : WavId) (f : Wavelet → Wavelet) : (s.modWav w f).blocks = s.blocks := by unfold State.modWav; split <;> rfl
@[simp] theorem State.modWav_ops (s : State) (w : WavId) (f : Wavelet → Wavelet) : (s.modWav w f).ops = s.ops := by unfold State.modWav; split <;> rfl
@[simp] theorem State.modWav_nextOp (s : State) (w : WavId) (f : Wavelet → Wavelet) : (s.modWav w f).nextOp = s.nextOp := by unfold State.modWav; split <;> rfl
@[simp] theorem State.modWav_claims (s : State) (w : WavId) (f : Wavelet → Wavelet) : (s.modWav w f).claims = s.claims := by unfold State.modWav; split <;> rfl
@[simp] theorem State.modWav_clusters (s : State) (w : WavId) (f : Wavelet → Wavelet) : (s.modWav w f).clusters = s.clusters := by unfold State.modWav; split <;> rfl
@[simp] theorem State.modWav_groups (s : State) (w : WavId) (f : Wavelet → Wavelet) : (s.modWav w f).groups = s.groups := by unfold State.modWav; split <;> rfl
@[simp] theorem State.modLane_steps (s : State) (w : WavId) (l : Nat) (f : Strand → Strand) : (s.modLane w l f).steps = s.steps := State.modWav_steps ..
@[simp] theorem State.modLane_agenda (s : State) (w : WavId) (l : Nat) (f : Strand → Strand) : (s.modLane w l f).agenda = s.agenda := State.modWav_agenda ..
@[simp] theorem State.modLane_free (s : State) (w : WavId) (l : Nat) (f : Strand → Strand) : (s.modLane w l f).free = s.free := State.modWav_free ..
@[simp] theorem State.modLane_cur (s : State) (w : WavId) (l : Nat) (f : Strand → Strand) : (s.modLane w l f).cur = s.cur := State.modWav_cur ..
@[simp] theorem State.modLane_now (s : State) (w : WavId) (l : Nat) (f : Strand → Strand) : (s.modLane w l f).now = s.now := State.modWav_now ..
@[simp] theorem State.modLane_mem (s : State) (w : WavId) (l : Nat) (f : Strand → Strand) : (s.modLane w l f).mem = s.mem := State.modWav_mem ..
@[simp] theorem State.modLane_checks (s : State) (w : WavId) (l : Nat) (f : Strand → Strand) : (s.modLane w l f).checks = s.checks := State.modWav_checks ..
@[simp] theorem State.modLane_boot (s : State) (w : WavId) (l : Nat) (f : Strand → Strand) : (s.modLane w l f).boot = s.boot := State.modWav_boot ..
@[simp] theorem State.modLane_otp (s : State) (w : WavId) (l : Nat) (f : Strand → Strand) : (s.modLane w l f).otp = s.otp := State.modWav_otp ..
@[simp] theorem State.modLane_host (s : State) (w : WavId) (l : Nat) (f : Strand → Strand) : (s.modLane w l f).host = s.host := State.modWav_host ..
@[simp] theorem State.modLane_cxl (s : State) (w : WavId) (l : Nat) (f : Strand → Strand) : (s.modLane w l f).cxl = s.cxl := State.modWav_cxl ..
@[simp] theorem State.modLane_tier (s : State) (w : WavId) (l : Nat) (f : Strand → Strand) : (s.modLane w l f).tier = s.tier := State.modWav_tier ..
@[simp] theorem State.modLane_floeb (s : State) (w : WavId) (l : Nat) (f : Strand → Strand) : (s.modLane w l f).floeb = s.floeb := State.modWav_floeb ..
@[simp] theorem State.modLane_resent (s : State) (w : WavId) (l : Nat) (f : Strand → Strand) : (s.modLane w l f).resent = s.resent := State.modWav_resent ..
@[simp] theorem State.modLane_slope (s : State) (w : WavId) (l : Nat) (f : Strand → Strand) : (s.modLane w l f).slope = s.slope := State.modWav_slope ..
@[simp] theorem State.modLane_droop (s : State) (w : WavId) (l : Nat) (f : Strand → Strand) : (s.modLane w l f).droop = s.droop := State.modWav_droop ..
@[simp] theorem State.modLane_idle (s : State) (w : WavId) (l : Nat) (f : Strand → Strand) : (s.modLane w l f).idle = s.idle := State.modWav_idle ..
@[simp] theorem State.modLane_exiting (s : State) (w : WavId) (l : Nat) (f : Strand → Strand) : (s.modLane w l f).exiting = s.exiting := State.modWav_exiting ..
@[simp] theorem State.modLane_ltr (s : State) (w : WavId) (l : Nat) (f : Strand → Strand) : (s.modLane w l f).ltr = s.ltr := State.modWav_ltr ..
@[simp] theorem State.modLane_lineMode (s : State) (w : WavId) (l : Nat) (f : Strand → Strand) : (s.modLane w l f).lineMode = s.lineMode := State.modWav_lineMode ..
@[simp] theorem State.modLane_llc (s : State) (w : WavId) (l : Nat) (f : Strand → Strand) : (s.modLane w l f).llc = s.llc := State.modWav_llc ..
@[simp] theorem State.modLane_charges (s : State) (w : WavId) (l : Nat) (f : Strand → Strand) : (s.modLane w l f).charges = s.charges := State.modWav_charges ..
@[simp] theorem State.modLane_corrected (s : State) (w : WavId) (l : Nat) (f : Strand → Strand) : (s.modLane w l f).corrected = s.corrected := State.modWav_corrected ..
@[simp] theorem State.modLane_refetched (s : State) (w : WavId) (l : Nat) (f : Strand → Strand) : (s.modLane w l f).refetched = s.refetched := State.modWav_refetched ..
@[simp] theorem State.modLane_reports (s : State) (w : WavId) (l : Nat) (f : Strand → Strand) : (s.modLane w l f).reports = s.reports := State.modWav_reports ..
@[simp] theorem State.modLane_div (s : State) (w : WavId) (l : Nat) (f : Strand → Strand) : (s.modLane w l f).div = s.div := State.modWav_div ..
@[simp] theorem State.modLane_objects (s : State) (w : WavId) (l : Nat) (f : Strand → Strand) : (s.modLane w l f).objects = s.objects := State.modWav_objects ..
@[simp] theorem State.modLane_vfs (s : State) (w : WavId) (l : Nat) (f : Strand → Strand) : (s.modLane w l f).vfs = s.vfs := State.modWav_vfs ..
@[simp] theorem State.modLane_turn (s : State) (w : WavId) (l : Nat) (f : Strand → Strand) : (s.modLane w l f).turn = s.turn := State.modWav_turn ..
@[simp] theorem State.modLane_served (s : State) (w : WavId) (l : Nat) (f : Strand → Strand) : (s.modLane w l f).served = s.served := State.modWav_served ..
@[simp] theorem State.modLane_lastJob (s : State) (w : WavId) (l : Nat) (f : Strand → Strand) : (s.modLane w l f).lastJob = s.lastJob := State.modWav_lastJob ..
@[simp] theorem State.modLane_grace (s : State) (w : WavId) (l : Nat) (f : Strand → Strand) : (s.modLane w l f).grace = s.grace := State.modWav_grace ..
@[simp] theorem State.modLane_jobs (s : State) (w : WavId) (l : Nat) (f : Strand → Strand) : (s.modLane w l f).jobs = s.jobs := State.modWav_jobs ..
@[simp] theorem State.modLane_tasks (s : State) (w : WavId) (l : Nat) (f : Strand → Strand) : (s.modLane w l f).tasks = s.tasks := State.modWav_tasks ..
@[simp] theorem State.modLane_spans (s : State) (w : WavId) (l : Nat) (f : Strand → Strand) : (s.modLane w l f).spans = s.spans := State.modWav_spans ..
@[simp] theorem State.modLane_blocks (s : State) (w : WavId) (l : Nat) (f : Strand → Strand) : (s.modLane w l f).blocks = s.blocks := State.modWav_blocks ..
@[simp] theorem State.modLane_ops (s : State) (w : WavId) (l : Nat) (f : Strand → Strand) : (s.modLane w l f).ops = s.ops := State.modWav_ops ..
@[simp] theorem State.modLane_nextOp (s : State) (w : WavId) (l : Nat) (f : Strand → Strand) : (s.modLane w l f).nextOp = s.nextOp := State.modWav_nextOp ..
@[simp] theorem State.modLane_claims (s : State) (w : WavId) (l : Nat) (f : Strand → Strand) : (s.modLane w l f).claims = s.claims := State.modWav_claims ..
@[simp] theorem State.modLane_clusters (s : State) (w : WavId) (l : Nat) (f : Strand → Strand) : (s.modLane w l f).clusters = s.clusters := State.modWav_clusters ..
@[simp] theorem State.modLane_groups (s : State) (w : WavId) (l : Nat) (f : Strand → Strand) : (s.modLane w l f).groups = s.groups := State.modWav_groups ..

/-! Blocks of a state. -/

@[simp] theorem State.setBlk_steps (s : State) (b : BlkId) (k : Block) : (s.setBlk b k).steps = s.steps := rfl
@[simp] theorem State.setBlk_agenda (s : State) (b : BlkId) (k : Block) : (s.setBlk b k).agenda = s.agenda := rfl
@[simp] theorem State.setBlk_free (s : State) (b : BlkId) (k : Block) : (s.setBlk b k).free = s.free := rfl
@[simp] theorem State.setBlk_cur (s : State) (b : BlkId) (k : Block) : (s.setBlk b k).cur = s.cur := rfl
@[simp] theorem State.setBlk_now (s : State) (b : BlkId) (k : Block) : (s.setBlk b k).now = s.now := rfl
@[simp] theorem State.setBlk_mem (s : State) (b : BlkId) (k : Block) : (s.setBlk b k).mem = s.mem := rfl
@[simp] theorem State.setBlk_checks (s : State) (b : BlkId) (k : Block) : (s.setBlk b k).checks = s.checks := rfl
@[simp] theorem State.setBlk_boot (s : State) (b : BlkId) (k : Block) : (s.setBlk b k).boot = s.boot := rfl
@[simp] theorem State.setBlk_otp (s : State) (b : BlkId) (k : Block) : (s.setBlk b k).otp = s.otp := rfl
@[simp] theorem State.setBlk_host (s : State) (b : BlkId) (k : Block) : (s.setBlk b k).host = s.host := rfl
@[simp] theorem State.setBlk_cxl (s : State) (b : BlkId) (k : Block) : (s.setBlk b k).cxl = s.cxl := rfl
@[simp] theorem State.setBlk_tier (s : State) (b : BlkId) (k : Block) : (s.setBlk b k).tier = s.tier := rfl
@[simp] theorem State.setBlk_floeb (s : State) (b : BlkId) (k : Block) : (s.setBlk b k).floeb = s.floeb := rfl
@[simp] theorem State.setBlk_resent (s : State) (b : BlkId) (k : Block) : (s.setBlk b k).resent = s.resent := rfl
@[simp] theorem State.setBlk_slope (s : State) (b : BlkId) (k : Block) : (s.setBlk b k).slope = s.slope := rfl
@[simp] theorem State.setBlk_droop (s : State) (b : BlkId) (k : Block) : (s.setBlk b k).droop = s.droop := rfl
@[simp] theorem State.setBlk_idle (s : State) (b : BlkId) (k : Block) : (s.setBlk b k).idle = s.idle := rfl
@[simp] theorem State.setBlk_exiting (s : State) (b : BlkId) (k : Block) : (s.setBlk b k).exiting = s.exiting := rfl
@[simp] theorem State.setBlk_ltr (s : State) (b : BlkId) (k : Block) : (s.setBlk b k).ltr = s.ltr := rfl
@[simp] theorem State.setBlk_lineMode (s : State) (b : BlkId) (k : Block) : (s.setBlk b k).lineMode = s.lineMode := rfl
@[simp] theorem State.setBlk_llc (s : State) (b : BlkId) (k : Block) : (s.setBlk b k).llc = s.llc := rfl
@[simp] theorem State.setBlk_charges (s : State) (b : BlkId) (k : Block) : (s.setBlk b k).charges = s.charges := rfl
@[simp] theorem State.setBlk_corrected (s : State) (b : BlkId) (k : Block) : (s.setBlk b k).corrected = s.corrected := rfl
@[simp] theorem State.setBlk_refetched (s : State) (b : BlkId) (k : Block) : (s.setBlk b k).refetched = s.refetched := rfl
@[simp] theorem State.setBlk_reports (s : State) (b : BlkId) (k : Block) : (s.setBlk b k).reports = s.reports := rfl
@[simp] theorem State.setBlk_div (s : State) (b : BlkId) (k : Block) : (s.setBlk b k).div = s.div := rfl
@[simp] theorem State.setBlk_objects (s : State) (b : BlkId) (k : Block) : (s.setBlk b k).objects = s.objects := rfl
@[simp] theorem State.setBlk_vfs (s : State) (b : BlkId) (k : Block) : (s.setBlk b k).vfs = s.vfs := rfl
@[simp] theorem State.setBlk_turn (s : State) (b : BlkId) (k : Block) : (s.setBlk b k).turn = s.turn := rfl
@[simp] theorem State.setBlk_served (s : State) (b : BlkId) (k : Block) : (s.setBlk b k).served = s.served := rfl
@[simp] theorem State.setBlk_lastJob (s : State) (b : BlkId) (k : Block) : (s.setBlk b k).lastJob = s.lastJob := rfl
@[simp] theorem State.setBlk_grace (s : State) (b : BlkId) (k : Block) : (s.setBlk b k).grace = s.grace := rfl
@[simp] theorem State.setBlk_jobs (s : State) (b : BlkId) (k : Block) : (s.setBlk b k).jobs = s.jobs := rfl
@[simp] theorem State.setBlk_tasks (s : State) (b : BlkId) (k : Block) : (s.setBlk b k).tasks = s.tasks := rfl
@[simp] theorem State.setBlk_spans (s : State) (b : BlkId) (k : Block) : (s.setBlk b k).spans = s.spans := rfl
@[simp] theorem State.setBlk_wavs (s : State) (b : BlkId) (k : Block) : (s.setBlk b k).wavs = s.wavs := rfl
@[simp] theorem State.setBlk_ops (s : State) (b : BlkId) (k : Block) : (s.setBlk b k).ops = s.ops := rfl
@[simp] theorem State.setBlk_nextOp (s : State) (b : BlkId) (k : Block) : (s.setBlk b k).nextOp = s.nextOp := rfl
@[simp] theorem State.setBlk_claims (s : State) (b : BlkId) (k : Block) : (s.setBlk b k).claims = s.claims := rfl
@[simp] theorem State.setBlk_clusters (s : State) (b : BlkId) (k : Block) : (s.setBlk b k).clusters = s.clusters := rfl
@[simp] theorem State.setBlk_groups (s : State) (b : BlkId) (k : Block) : (s.setBlk b k).groups = s.groups := rfl
@[simp] theorem State.modBlk_steps (s : State) (b : BlkId) (f : Block → Block) : (s.modBlk b f).steps = s.steps := by unfold State.modBlk; split <;> rfl
@[simp] theorem State.modBlk_agenda (s : State) (b : BlkId) (f : Block → Block) : (s.modBlk b f).agenda = s.agenda := by unfold State.modBlk; split <;> rfl
@[simp] theorem State.modBlk_free (s : State) (b : BlkId) (f : Block → Block) : (s.modBlk b f).free = s.free := by unfold State.modBlk; split <;> rfl
@[simp] theorem State.modBlk_cur (s : State) (b : BlkId) (f : Block → Block) : (s.modBlk b f).cur = s.cur := by unfold State.modBlk; split <;> rfl
@[simp] theorem State.modBlk_now (s : State) (b : BlkId) (f : Block → Block) : (s.modBlk b f).now = s.now := by unfold State.modBlk; split <;> rfl
@[simp] theorem State.modBlk_mem (s : State) (b : BlkId) (f : Block → Block) : (s.modBlk b f).mem = s.mem := by unfold State.modBlk; split <;> rfl
@[simp] theorem State.modBlk_checks (s : State) (b : BlkId) (f : Block → Block) : (s.modBlk b f).checks = s.checks := by unfold State.modBlk; split <;> rfl
@[simp] theorem State.modBlk_boot (s : State) (b : BlkId) (f : Block → Block) : (s.modBlk b f).boot = s.boot := by unfold State.modBlk; split <;> rfl
@[simp] theorem State.modBlk_otp (s : State) (b : BlkId) (f : Block → Block) : (s.modBlk b f).otp = s.otp := by unfold State.modBlk; split <;> rfl
@[simp] theorem State.modBlk_host (s : State) (b : BlkId) (f : Block → Block) : (s.modBlk b f).host = s.host := by unfold State.modBlk; split <;> rfl
@[simp] theorem State.modBlk_cxl (s : State) (b : BlkId) (f : Block → Block) : (s.modBlk b f).cxl = s.cxl := by unfold State.modBlk; split <;> rfl
@[simp] theorem State.modBlk_tier (s : State) (b : BlkId) (f : Block → Block) : (s.modBlk b f).tier = s.tier := by unfold State.modBlk; split <;> rfl
@[simp] theorem State.modBlk_floeb (s : State) (b : BlkId) (f : Block → Block) : (s.modBlk b f).floeb = s.floeb := by unfold State.modBlk; split <;> rfl
@[simp] theorem State.modBlk_resent (s : State) (b : BlkId) (f : Block → Block) : (s.modBlk b f).resent = s.resent := by unfold State.modBlk; split <;> rfl
@[simp] theorem State.modBlk_slope (s : State) (b : BlkId) (f : Block → Block) : (s.modBlk b f).slope = s.slope := by unfold State.modBlk; split <;> rfl
@[simp] theorem State.modBlk_droop (s : State) (b : BlkId) (f : Block → Block) : (s.modBlk b f).droop = s.droop := by unfold State.modBlk; split <;> rfl
@[simp] theorem State.modBlk_idle (s : State) (b : BlkId) (f : Block → Block) : (s.modBlk b f).idle = s.idle := by unfold State.modBlk; split <;> rfl
@[simp] theorem State.modBlk_exiting (s : State) (b : BlkId) (f : Block → Block) : (s.modBlk b f).exiting = s.exiting := by unfold State.modBlk; split <;> rfl
@[simp] theorem State.modBlk_ltr (s : State) (b : BlkId) (f : Block → Block) : (s.modBlk b f).ltr = s.ltr := by unfold State.modBlk; split <;> rfl
@[simp] theorem State.modBlk_lineMode (s : State) (b : BlkId) (f : Block → Block) : (s.modBlk b f).lineMode = s.lineMode := by unfold State.modBlk; split <;> rfl
@[simp] theorem State.modBlk_llc (s : State) (b : BlkId) (f : Block → Block) : (s.modBlk b f).llc = s.llc := by unfold State.modBlk; split <;> rfl
@[simp] theorem State.modBlk_charges (s : State) (b : BlkId) (f : Block → Block) : (s.modBlk b f).charges = s.charges := by unfold State.modBlk; split <;> rfl
@[simp] theorem State.modBlk_corrected (s : State) (b : BlkId) (f : Block → Block) : (s.modBlk b f).corrected = s.corrected := by unfold State.modBlk; split <;> rfl
@[simp] theorem State.modBlk_refetched (s : State) (b : BlkId) (f : Block → Block) : (s.modBlk b f).refetched = s.refetched := by unfold State.modBlk; split <;> rfl
@[simp] theorem State.modBlk_reports (s : State) (b : BlkId) (f : Block → Block) : (s.modBlk b f).reports = s.reports := by unfold State.modBlk; split <;> rfl
@[simp] theorem State.modBlk_div (s : State) (b : BlkId) (f : Block → Block) : (s.modBlk b f).div = s.div := by unfold State.modBlk; split <;> rfl
@[simp] theorem State.modBlk_objects (s : State) (b : BlkId) (f : Block → Block) : (s.modBlk b f).objects = s.objects := by unfold State.modBlk; split <;> rfl
@[simp] theorem State.modBlk_vfs (s : State) (b : BlkId) (f : Block → Block) : (s.modBlk b f).vfs = s.vfs := by unfold State.modBlk; split <;> rfl
@[simp] theorem State.modBlk_turn (s : State) (b : BlkId) (f : Block → Block) : (s.modBlk b f).turn = s.turn := by unfold State.modBlk; split <;> rfl
@[simp] theorem State.modBlk_served (s : State) (b : BlkId) (f : Block → Block) : (s.modBlk b f).served = s.served := by unfold State.modBlk; split <;> rfl
@[simp] theorem State.modBlk_lastJob (s : State) (b : BlkId) (f : Block → Block) : (s.modBlk b f).lastJob = s.lastJob := by unfold State.modBlk; split <;> rfl
@[simp] theorem State.modBlk_grace (s : State) (b : BlkId) (f : Block → Block) : (s.modBlk b f).grace = s.grace := by unfold State.modBlk; split <;> rfl
@[simp] theorem State.modBlk_jobs (s : State) (b : BlkId) (f : Block → Block) : (s.modBlk b f).jobs = s.jobs := by unfold State.modBlk; split <;> rfl
@[simp] theorem State.modBlk_tasks (s : State) (b : BlkId) (f : Block → Block) : (s.modBlk b f).tasks = s.tasks := by unfold State.modBlk; split <;> rfl
@[simp] theorem State.modBlk_spans (s : State) (b : BlkId) (f : Block → Block) : (s.modBlk b f).spans = s.spans := by unfold State.modBlk; split <;> rfl
@[simp] theorem State.modBlk_wavs (s : State) (b : BlkId) (f : Block → Block) : (s.modBlk b f).wavs = s.wavs := by unfold State.modBlk; split <;> rfl
@[simp] theorem State.modBlk_ops (s : State) (b : BlkId) (f : Block → Block) : (s.modBlk b f).ops = s.ops := by unfold State.modBlk; split <;> rfl
@[simp] theorem State.modBlk_nextOp (s : State) (b : BlkId) (f : Block → Block) : (s.modBlk b f).nextOp = s.nextOp := by unfold State.modBlk; split <;> rfl
@[simp] theorem State.modBlk_claims (s : State) (b : BlkId) (f : Block → Block) : (s.modBlk b f).claims = s.claims := by unfold State.modBlk; split <;> rfl
@[simp] theorem State.modBlk_clusters (s : State) (b : BlkId) (f : Block → Block) : (s.modBlk b f).clusters = s.clusters := by unfold State.modBlk; split <;> rfl
@[simp] theorem State.modBlk_groups (s : State) (b : BlkId) (f : Block → Block) : (s.modBlk b f).groups = s.groups := by unfold State.modBlk; split <;> rfl

/-! Memory, outstanding work, clusters, jobs and tasks. -/

@[simp] theorem State.memWrite_steps (s : State) (pa n v : Nat) : (s.memWrite pa n v).steps = s.steps := rfl
@[simp] theorem State.memWrite_agenda (s : State) (pa n v : Nat) : (s.memWrite pa n v).agenda = s.agenda := rfl
@[simp] theorem State.memWrite_free (s : State) (pa n v : Nat) : (s.memWrite pa n v).free = s.free := rfl
@[simp] theorem State.memWrite_cur (s : State) (pa n v : Nat) : (s.memWrite pa n v).cur = s.cur := rfl
@[simp] theorem State.memWrite_now (s : State) (pa n v : Nat) : (s.memWrite pa n v).now = s.now := rfl
@[simp] theorem State.memWrite_boot (s : State) (pa n v : Nat) : (s.memWrite pa n v).boot = s.boot := rfl
@[simp] theorem State.memWrite_otp (s : State) (pa n v : Nat) : (s.memWrite pa n v).otp = s.otp := rfl
@[simp] theorem State.memWrite_host (s : State) (pa n v : Nat) : (s.memWrite pa n v).host = s.host := rfl
@[simp] theorem State.memWrite_cxl (s : State) (pa n v : Nat) : (s.memWrite pa n v).cxl = s.cxl := rfl
@[simp] theorem State.memWrite_tier (s : State) (pa n v : Nat) : (s.memWrite pa n v).tier = s.tier := rfl
@[simp] theorem State.memWrite_floeb (s : State) (pa n v : Nat) : (s.memWrite pa n v).floeb = s.floeb := rfl
@[simp] theorem State.memWrite_resent (s : State) (pa n v : Nat) : (s.memWrite pa n v).resent = s.resent := rfl
@[simp] theorem State.memWrite_slope (s : State) (pa n v : Nat) : (s.memWrite pa n v).slope = s.slope := rfl
@[simp] theorem State.memWrite_droop (s : State) (pa n v : Nat) : (s.memWrite pa n v).droop = s.droop := rfl
@[simp] theorem State.memWrite_idle (s : State) (pa n v : Nat) : (s.memWrite pa n v).idle = s.idle := rfl
@[simp] theorem State.memWrite_exiting (s : State) (pa n v : Nat) : (s.memWrite pa n v).exiting = s.exiting := rfl
@[simp] theorem State.memWrite_ltr (s : State) (pa n v : Nat) : (s.memWrite pa n v).ltr = s.ltr := rfl
@[simp] theorem State.memWrite_lineMode (s : State) (pa n v : Nat) : (s.memWrite pa n v).lineMode = s.lineMode := rfl
@[simp] theorem State.memWrite_llc (s : State) (pa n v : Nat) : (s.memWrite pa n v).llc = s.llc := rfl
@[simp] theorem State.memWrite_charges (s : State) (pa n v : Nat) : (s.memWrite pa n v).charges = s.charges := rfl
@[simp] theorem State.memWrite_corrected (s : State) (pa n v : Nat) : (s.memWrite pa n v).corrected = s.corrected := rfl
@[simp] theorem State.memWrite_refetched (s : State) (pa n v : Nat) : (s.memWrite pa n v).refetched = s.refetched := rfl
@[simp] theorem State.memWrite_reports (s : State) (pa n v : Nat) : (s.memWrite pa n v).reports = s.reports := rfl
@[simp] theorem State.memWrite_div (s : State) (pa n v : Nat) : (s.memWrite pa n v).div = s.div := rfl
@[simp] theorem State.memWrite_objects (s : State) (pa n v : Nat) : (s.memWrite pa n v).objects = s.objects := rfl
@[simp] theorem State.memWrite_vfs (s : State) (pa n v : Nat) : (s.memWrite pa n v).vfs = s.vfs := rfl
@[simp] theorem State.memWrite_turn (s : State) (pa n v : Nat) : (s.memWrite pa n v).turn = s.turn := rfl
@[simp] theorem State.memWrite_served (s : State) (pa n v : Nat) : (s.memWrite pa n v).served = s.served := rfl
@[simp] theorem State.memWrite_lastJob (s : State) (pa n v : Nat) : (s.memWrite pa n v).lastJob = s.lastJob := rfl
@[simp] theorem State.memWrite_grace (s : State) (pa n v : Nat) : (s.memWrite pa n v).grace = s.grace := rfl
@[simp] theorem State.memWrite_jobs (s : State) (pa n v : Nat) : (s.memWrite pa n v).jobs = s.jobs := rfl
@[simp] theorem State.memWrite_tasks (s : State) (pa n v : Nat) : (s.memWrite pa n v).tasks = s.tasks := rfl
@[simp] theorem State.memWrite_spans (s : State) (pa n v : Nat) : (s.memWrite pa n v).spans = s.spans := rfl
@[simp] theorem State.memWrite_blocks (s : State) (pa n v : Nat) : (s.memWrite pa n v).blocks = s.blocks := rfl
@[simp] theorem State.memWrite_wavs (s : State) (pa n v : Nat) : (s.memWrite pa n v).wavs = s.wavs := rfl
@[simp] theorem State.memWrite_ops (s : State) (pa n v : Nat) : (s.memWrite pa n v).ops = s.ops := rfl
@[simp] theorem State.memWrite_nextOp (s : State) (pa n v : Nat) : (s.memWrite pa n v).nextOp = s.nextOp := rfl
@[simp] theorem State.memWrite_claims (s : State) (pa n v : Nat) : (s.memWrite pa n v).claims = s.claims := rfl
@[simp] theorem State.memWrite_clusters (s : State) (pa n v : Nat) : (s.memWrite pa n v).clusters = s.clusters := rfl
@[simp] theorem State.memWrite_groups (s : State) (pa n v : Nat) : (s.memWrite pa n v).groups = s.groups := rfl
@[simp] theorem State.addOp_steps (s : State) (w : WavId) (k : Work) : (s.addOp w k).steps = s.steps := rfl
@[simp] theorem State.addOp_agenda (s : State) (w : WavId) (k : Work) : (s.addOp w k).agenda = s.agenda := rfl
@[simp] theorem State.addOp_free (s : State) (w : WavId) (k : Work) : (s.addOp w k).free = s.free := rfl
@[simp] theorem State.addOp_cur (s : State) (w : WavId) (k : Work) : (s.addOp w k).cur = s.cur := rfl
@[simp] theorem State.addOp_now (s : State) (w : WavId) (k : Work) : (s.addOp w k).now = s.now := rfl
@[simp] theorem State.addOp_mem (s : State) (w : WavId) (k : Work) : (s.addOp w k).mem = s.mem := rfl
@[simp] theorem State.addOp_checks (s : State) (w : WavId) (k : Work) : (s.addOp w k).checks = s.checks := rfl
@[simp] theorem State.addOp_boot (s : State) (w : WavId) (k : Work) : (s.addOp w k).boot = s.boot := rfl
@[simp] theorem State.addOp_otp (s : State) (w : WavId) (k : Work) : (s.addOp w k).otp = s.otp := rfl
@[simp] theorem State.addOp_host (s : State) (w : WavId) (k : Work) : (s.addOp w k).host = s.host := rfl
@[simp] theorem State.addOp_cxl (s : State) (w : WavId) (k : Work) : (s.addOp w k).cxl = s.cxl := rfl
@[simp] theorem State.addOp_tier (s : State) (w : WavId) (k : Work) : (s.addOp w k).tier = s.tier := rfl
@[simp] theorem State.addOp_floeb (s : State) (w : WavId) (k : Work) : (s.addOp w k).floeb = s.floeb := rfl
@[simp] theorem State.addOp_resent (s : State) (w : WavId) (k : Work) : (s.addOp w k).resent = s.resent := rfl
@[simp] theorem State.addOp_slope (s : State) (w : WavId) (k : Work) : (s.addOp w k).slope = s.slope := rfl
@[simp] theorem State.addOp_droop (s : State) (w : WavId) (k : Work) : (s.addOp w k).droop = s.droop := rfl
@[simp] theorem State.addOp_idle (s : State) (w : WavId) (k : Work) : (s.addOp w k).idle = s.idle := rfl
@[simp] theorem State.addOp_exiting (s : State) (w : WavId) (k : Work) : (s.addOp w k).exiting = s.exiting := rfl
@[simp] theorem State.addOp_ltr (s : State) (w : WavId) (k : Work) : (s.addOp w k).ltr = s.ltr := rfl
@[simp] theorem State.addOp_lineMode (s : State) (w : WavId) (k : Work) : (s.addOp w k).lineMode = s.lineMode := rfl
@[simp] theorem State.addOp_llc (s : State) (w : WavId) (k : Work) : (s.addOp w k).llc = s.llc := rfl
@[simp] theorem State.addOp_charges (s : State) (w : WavId) (k : Work) : (s.addOp w k).charges = s.charges := rfl
@[simp] theorem State.addOp_corrected (s : State) (w : WavId) (k : Work) : (s.addOp w k).corrected = s.corrected := rfl
@[simp] theorem State.addOp_refetched (s : State) (w : WavId) (k : Work) : (s.addOp w k).refetched = s.refetched := rfl
@[simp] theorem State.addOp_reports (s : State) (w : WavId) (k : Work) : (s.addOp w k).reports = s.reports := rfl
@[simp] theorem State.addOp_div (s : State) (w : WavId) (k : Work) : (s.addOp w k).div = s.div := rfl
@[simp] theorem State.addOp_objects (s : State) (w : WavId) (k : Work) : (s.addOp w k).objects = s.objects := rfl
@[simp] theorem State.addOp_vfs (s : State) (w : WavId) (k : Work) : (s.addOp w k).vfs = s.vfs := rfl
@[simp] theorem State.addOp_turn (s : State) (w : WavId) (k : Work) : (s.addOp w k).turn = s.turn := rfl
@[simp] theorem State.addOp_served (s : State) (w : WavId) (k : Work) : (s.addOp w k).served = s.served := rfl
@[simp] theorem State.addOp_lastJob (s : State) (w : WavId) (k : Work) : (s.addOp w k).lastJob = s.lastJob := rfl
@[simp] theorem State.addOp_grace (s : State) (w : WavId) (k : Work) : (s.addOp w k).grace = s.grace := rfl
@[simp] theorem State.addOp_jobs (s : State) (w : WavId) (k : Work) : (s.addOp w k).jobs = s.jobs := rfl
@[simp] theorem State.addOp_tasks (s : State) (w : WavId) (k : Work) : (s.addOp w k).tasks = s.tasks := rfl
@[simp] theorem State.addOp_spans (s : State) (w : WavId) (k : Work) : (s.addOp w k).spans = s.spans := rfl
@[simp] theorem State.addOp_blocks (s : State) (w : WavId) (k : Work) : (s.addOp w k).blocks = s.blocks := rfl
@[simp] theorem State.addOp_wavs (s : State) (w : WavId) (k : Work) : (s.addOp w k).wavs = s.wavs := rfl
@[simp] theorem State.addOp_claims (s : State) (w : WavId) (k : Work) : (s.addOp w k).claims = s.claims := rfl
@[simp] theorem State.addOp_clusters (s : State) (w : WavId) (k : Work) : (s.addOp w k).clusters = s.clusters := rfl
@[simp] theorem State.addOp_groups (s : State) (w : WavId) (k : Work) : (s.addOp w k).groups = s.groups := rfl
@[simp] theorem State.dropOp_steps (s : State) (n : Nat) : (s.dropOp n).steps = s.steps := rfl
@[simp] theorem State.dropOp_agenda (s : State) (n : Nat) : (s.dropOp n).agenda = s.agenda := rfl
@[simp] theorem State.dropOp_free (s : State) (n : Nat) : (s.dropOp n).free = s.free := rfl
@[simp] theorem State.dropOp_cur (s : State) (n : Nat) : (s.dropOp n).cur = s.cur := rfl
@[simp] theorem State.dropOp_now (s : State) (n : Nat) : (s.dropOp n).now = s.now := rfl
@[simp] theorem State.dropOp_mem (s : State) (n : Nat) : (s.dropOp n).mem = s.mem := rfl
@[simp] theorem State.dropOp_checks (s : State) (n : Nat) : (s.dropOp n).checks = s.checks := rfl
@[simp] theorem State.dropOp_boot (s : State) (n : Nat) : (s.dropOp n).boot = s.boot := rfl
@[simp] theorem State.dropOp_otp (s : State) (n : Nat) : (s.dropOp n).otp = s.otp := rfl
@[simp] theorem State.dropOp_host (s : State) (n : Nat) : (s.dropOp n).host = s.host := rfl
@[simp] theorem State.dropOp_cxl (s : State) (n : Nat) : (s.dropOp n).cxl = s.cxl := rfl
@[simp] theorem State.dropOp_tier (s : State) (n : Nat) : (s.dropOp n).tier = s.tier := rfl
@[simp] theorem State.dropOp_floeb (s : State) (n : Nat) : (s.dropOp n).floeb = s.floeb := rfl
@[simp] theorem State.dropOp_resent (s : State) (n : Nat) : (s.dropOp n).resent = s.resent := rfl
@[simp] theorem State.dropOp_slope (s : State) (n : Nat) : (s.dropOp n).slope = s.slope := rfl
@[simp] theorem State.dropOp_droop (s : State) (n : Nat) : (s.dropOp n).droop = s.droop := rfl
@[simp] theorem State.dropOp_idle (s : State) (n : Nat) : (s.dropOp n).idle = s.idle := rfl
@[simp] theorem State.dropOp_exiting (s : State) (n : Nat) : (s.dropOp n).exiting = s.exiting := rfl
@[simp] theorem State.dropOp_ltr (s : State) (n : Nat) : (s.dropOp n).ltr = s.ltr := rfl
@[simp] theorem State.dropOp_lineMode (s : State) (n : Nat) : (s.dropOp n).lineMode = s.lineMode := rfl
@[simp] theorem State.dropOp_llc (s : State) (n : Nat) : (s.dropOp n).llc = s.llc := rfl
@[simp] theorem State.dropOp_charges (s : State) (n : Nat) : (s.dropOp n).charges = s.charges := rfl
@[simp] theorem State.dropOp_corrected (s : State) (n : Nat) : (s.dropOp n).corrected = s.corrected := rfl
@[simp] theorem State.dropOp_refetched (s : State) (n : Nat) : (s.dropOp n).refetched = s.refetched := rfl
@[simp] theorem State.dropOp_reports (s : State) (n : Nat) : (s.dropOp n).reports = s.reports := rfl
@[simp] theorem State.dropOp_div (s : State) (n : Nat) : (s.dropOp n).div = s.div := rfl
@[simp] theorem State.dropOp_objects (s : State) (n : Nat) : (s.dropOp n).objects = s.objects := rfl
@[simp] theorem State.dropOp_vfs (s : State) (n : Nat) : (s.dropOp n).vfs = s.vfs := rfl
@[simp] theorem State.dropOp_turn (s : State) (n : Nat) : (s.dropOp n).turn = s.turn := rfl
@[simp] theorem State.dropOp_served (s : State) (n : Nat) : (s.dropOp n).served = s.served := rfl
@[simp] theorem State.dropOp_lastJob (s : State) (n : Nat) : (s.dropOp n).lastJob = s.lastJob := rfl
@[simp] theorem State.dropOp_grace (s : State) (n : Nat) : (s.dropOp n).grace = s.grace := rfl
@[simp] theorem State.dropOp_jobs (s : State) (n : Nat) : (s.dropOp n).jobs = s.jobs := rfl
@[simp] theorem State.dropOp_tasks (s : State) (n : Nat) : (s.dropOp n).tasks = s.tasks := rfl
@[simp] theorem State.dropOp_spans (s : State) (n : Nat) : (s.dropOp n).spans = s.spans := rfl
@[simp] theorem State.dropOp_blocks (s : State) (n : Nat) : (s.dropOp n).blocks = s.blocks := rfl
@[simp] theorem State.dropOp_wavs (s : State) (n : Nat) : (s.dropOp n).wavs = s.wavs := rfl
@[simp] theorem State.dropOp_nextOp (s : State) (n : Nat) : (s.dropOp n).nextOp = s.nextOp := rfl
@[simp] theorem State.dropOp_claims (s : State) (n : Nat) : (s.dropOp n).claims = s.claims := rfl
@[simp] theorem State.dropOp_clusters (s : State) (n : Nat) : (s.dropOp n).clusters = s.clusters := rfl
@[simp] theorem State.dropOp_groups (s : State) (n : Nat) : (s.dropOp n).groups = s.groups := rfl
@[simp] theorem State.modCluster_steps (s : State) (n : Nat) (f : Cluster → Cluster) : (s.modCluster n f).steps = s.steps := rfl
@[simp] theorem State.modCluster_agenda (s : State) (n : Nat) (f : Cluster → Cluster) : (s.modCluster n f).agenda = s.agenda := rfl
@[simp] theorem State.modCluster_free (s : State) (n : Nat) (f : Cluster → Cluster) : (s.modCluster n f).free = s.free := rfl
@[simp] theorem State.modCluster_cur (s : State) (n : Nat) (f : Cluster → Cluster) : (s.modCluster n f).cur = s.cur := rfl
@[simp] theorem State.modCluster_now (s : State) (n : Nat) (f : Cluster → Cluster) : (s.modCluster n f).now = s.now := rfl
@[simp] theorem State.modCluster_mem (s : State) (n : Nat) (f : Cluster → Cluster) : (s.modCluster n f).mem = s.mem := rfl
@[simp] theorem State.modCluster_checks (s : State) (n : Nat) (f : Cluster → Cluster) : (s.modCluster n f).checks = s.checks := rfl
@[simp] theorem State.modCluster_boot (s : State) (n : Nat) (f : Cluster → Cluster) : (s.modCluster n f).boot = s.boot := rfl
@[simp] theorem State.modCluster_otp (s : State) (n : Nat) (f : Cluster → Cluster) : (s.modCluster n f).otp = s.otp := rfl
@[simp] theorem State.modCluster_host (s : State) (n : Nat) (f : Cluster → Cluster) : (s.modCluster n f).host = s.host := rfl
@[simp] theorem State.modCluster_cxl (s : State) (n : Nat) (f : Cluster → Cluster) : (s.modCluster n f).cxl = s.cxl := rfl
@[simp] theorem State.modCluster_tier (s : State) (n : Nat) (f : Cluster → Cluster) : (s.modCluster n f).tier = s.tier := rfl
@[simp] theorem State.modCluster_floeb (s : State) (n : Nat) (f : Cluster → Cluster) : (s.modCluster n f).floeb = s.floeb := rfl
@[simp] theorem State.modCluster_resent (s : State) (n : Nat) (f : Cluster → Cluster) : (s.modCluster n f).resent = s.resent := rfl
@[simp] theorem State.modCluster_slope (s : State) (n : Nat) (f : Cluster → Cluster) : (s.modCluster n f).slope = s.slope := rfl
@[simp] theorem State.modCluster_droop (s : State) (n : Nat) (f : Cluster → Cluster) : (s.modCluster n f).droop = s.droop := rfl
@[simp] theorem State.modCluster_idle (s : State) (n : Nat) (f : Cluster → Cluster) : (s.modCluster n f).idle = s.idle := rfl
@[simp] theorem State.modCluster_exiting (s : State) (n : Nat) (f : Cluster → Cluster) : (s.modCluster n f).exiting = s.exiting := rfl
@[simp] theorem State.modCluster_ltr (s : State) (n : Nat) (f : Cluster → Cluster) : (s.modCluster n f).ltr = s.ltr := rfl
@[simp] theorem State.modCluster_lineMode (s : State) (n : Nat) (f : Cluster → Cluster) : (s.modCluster n f).lineMode = s.lineMode := rfl
@[simp] theorem State.modCluster_llc (s : State) (n : Nat) (f : Cluster → Cluster) : (s.modCluster n f).llc = s.llc := rfl
@[simp] theorem State.modCluster_charges (s : State) (n : Nat) (f : Cluster → Cluster) : (s.modCluster n f).charges = s.charges := rfl
@[simp] theorem State.modCluster_corrected (s : State) (n : Nat) (f : Cluster → Cluster) : (s.modCluster n f).corrected = s.corrected := rfl
@[simp] theorem State.modCluster_refetched (s : State) (n : Nat) (f : Cluster → Cluster) : (s.modCluster n f).refetched = s.refetched := rfl
@[simp] theorem State.modCluster_reports (s : State) (n : Nat) (f : Cluster → Cluster) : (s.modCluster n f).reports = s.reports := rfl
@[simp] theorem State.modCluster_div (s : State) (n : Nat) (f : Cluster → Cluster) : (s.modCluster n f).div = s.div := rfl
@[simp] theorem State.modCluster_objects (s : State) (n : Nat) (f : Cluster → Cluster) : (s.modCluster n f).objects = s.objects := rfl
@[simp] theorem State.modCluster_vfs (s : State) (n : Nat) (f : Cluster → Cluster) : (s.modCluster n f).vfs = s.vfs := rfl
@[simp] theorem State.modCluster_turn (s : State) (n : Nat) (f : Cluster → Cluster) : (s.modCluster n f).turn = s.turn := rfl
@[simp] theorem State.modCluster_served (s : State) (n : Nat) (f : Cluster → Cluster) : (s.modCluster n f).served = s.served := rfl
@[simp] theorem State.modCluster_lastJob (s : State) (n : Nat) (f : Cluster → Cluster) : (s.modCluster n f).lastJob = s.lastJob := rfl
@[simp] theorem State.modCluster_grace (s : State) (n : Nat) (f : Cluster → Cluster) : (s.modCluster n f).grace = s.grace := rfl
@[simp] theorem State.modCluster_jobs (s : State) (n : Nat) (f : Cluster → Cluster) : (s.modCluster n f).jobs = s.jobs := rfl
@[simp] theorem State.modCluster_tasks (s : State) (n : Nat) (f : Cluster → Cluster) : (s.modCluster n f).tasks = s.tasks := rfl
@[simp] theorem State.modCluster_spans (s : State) (n : Nat) (f : Cluster → Cluster) : (s.modCluster n f).spans = s.spans := rfl
@[simp] theorem State.modCluster_blocks (s : State) (n : Nat) (f : Cluster → Cluster) : (s.modCluster n f).blocks = s.blocks := rfl
@[simp] theorem State.modCluster_wavs (s : State) (n : Nat) (f : Cluster → Cluster) : (s.modCluster n f).wavs = s.wavs := rfl
@[simp] theorem State.modCluster_ops (s : State) (n : Nat) (f : Cluster → Cluster) : (s.modCluster n f).ops = s.ops := rfl
@[simp] theorem State.modCluster_nextOp (s : State) (n : Nat) (f : Cluster → Cluster) : (s.modCluster n f).nextOp = s.nextOp := rfl
@[simp] theorem State.modCluster_claims (s : State) (n : Nat) (f : Cluster → Cluster) : (s.modCluster n f).claims = s.claims := rfl
@[simp] theorem State.modCluster_groups (s : State) (n : Nat) (f : Cluster → Cluster) : (s.modCluster n f).groups = s.groups := rfl
@[simp] theorem State.setJob_steps (s : State) (ctx : Nat) (j : Job) : (s.setJob ctx j).steps = s.steps := rfl
@[simp] theorem State.setJob_agenda (s : State) (ctx : Nat) (j : Job) : (s.setJob ctx j).agenda = s.agenda := rfl
@[simp] theorem State.setJob_free (s : State) (ctx : Nat) (j : Job) : (s.setJob ctx j).free = s.free := rfl
@[simp] theorem State.setJob_cur (s : State) (ctx : Nat) (j : Job) : (s.setJob ctx j).cur = s.cur := rfl
@[simp] theorem State.setJob_now (s : State) (ctx : Nat) (j : Job) : (s.setJob ctx j).now = s.now := rfl
@[simp] theorem State.setJob_mem (s : State) (ctx : Nat) (j : Job) : (s.setJob ctx j).mem = s.mem := rfl
@[simp] theorem State.setJob_checks (s : State) (ctx : Nat) (j : Job) : (s.setJob ctx j).checks = s.checks := rfl
@[simp] theorem State.setJob_boot (s : State) (ctx : Nat) (j : Job) : (s.setJob ctx j).boot = s.boot := rfl
@[simp] theorem State.setJob_otp (s : State) (ctx : Nat) (j : Job) : (s.setJob ctx j).otp = s.otp := rfl
@[simp] theorem State.setJob_host (s : State) (ctx : Nat) (j : Job) : (s.setJob ctx j).host = s.host := rfl
@[simp] theorem State.setJob_cxl (s : State) (ctx : Nat) (j : Job) : (s.setJob ctx j).cxl = s.cxl := rfl
@[simp] theorem State.setJob_tier (s : State) (ctx : Nat) (j : Job) : (s.setJob ctx j).tier = s.tier := rfl
@[simp] theorem State.setJob_floeb (s : State) (ctx : Nat) (j : Job) : (s.setJob ctx j).floeb = s.floeb := rfl
@[simp] theorem State.setJob_resent (s : State) (ctx : Nat) (j : Job) : (s.setJob ctx j).resent = s.resent := rfl
@[simp] theorem State.setJob_slope (s : State) (ctx : Nat) (j : Job) : (s.setJob ctx j).slope = s.slope := rfl
@[simp] theorem State.setJob_droop (s : State) (ctx : Nat) (j : Job) : (s.setJob ctx j).droop = s.droop := rfl
@[simp] theorem State.setJob_idle (s : State) (ctx : Nat) (j : Job) : (s.setJob ctx j).idle = s.idle := rfl
@[simp] theorem State.setJob_exiting (s : State) (ctx : Nat) (j : Job) : (s.setJob ctx j).exiting = s.exiting := rfl
@[simp] theorem State.setJob_ltr (s : State) (ctx : Nat) (j : Job) : (s.setJob ctx j).ltr = s.ltr := rfl
@[simp] theorem State.setJob_lineMode (s : State) (ctx : Nat) (j : Job) : (s.setJob ctx j).lineMode = s.lineMode := rfl
@[simp] theorem State.setJob_llc (s : State) (ctx : Nat) (j : Job) : (s.setJob ctx j).llc = s.llc := rfl
@[simp] theorem State.setJob_charges (s : State) (ctx : Nat) (j : Job) : (s.setJob ctx j).charges = s.charges := rfl
@[simp] theorem State.setJob_corrected (s : State) (ctx : Nat) (j : Job) : (s.setJob ctx j).corrected = s.corrected := rfl
@[simp] theorem State.setJob_refetched (s : State) (ctx : Nat) (j : Job) : (s.setJob ctx j).refetched = s.refetched := rfl
@[simp] theorem State.setJob_reports (s : State) (ctx : Nat) (j : Job) : (s.setJob ctx j).reports = s.reports := rfl
@[simp] theorem State.setJob_div (s : State) (ctx : Nat) (j : Job) : (s.setJob ctx j).div = s.div := rfl
@[simp] theorem State.setJob_objects (s : State) (ctx : Nat) (j : Job) : (s.setJob ctx j).objects = s.objects := rfl
@[simp] theorem State.setJob_vfs (s : State) (ctx : Nat) (j : Job) : (s.setJob ctx j).vfs = s.vfs := rfl
@[simp] theorem State.setJob_turn (s : State) (ctx : Nat) (j : Job) : (s.setJob ctx j).turn = s.turn := rfl
@[simp] theorem State.setJob_served (s : State) (ctx : Nat) (j : Job) : (s.setJob ctx j).served = s.served := rfl
@[simp] theorem State.setJob_lastJob (s : State) (ctx : Nat) (j : Job) : (s.setJob ctx j).lastJob = s.lastJob := rfl
@[simp] theorem State.setJob_grace (s : State) (ctx : Nat) (j : Job) : (s.setJob ctx j).grace = s.grace := rfl
@[simp] theorem State.setJob_tasks (s : State) (ctx : Nat) (j : Job) : (s.setJob ctx j).tasks = s.tasks := rfl
@[simp] theorem State.setJob_spans (s : State) (ctx : Nat) (j : Job) : (s.setJob ctx j).spans = s.spans := rfl
@[simp] theorem State.setJob_blocks (s : State) (ctx : Nat) (j : Job) : (s.setJob ctx j).blocks = s.blocks := rfl
@[simp] theorem State.setJob_wavs (s : State) (ctx : Nat) (j : Job) : (s.setJob ctx j).wavs = s.wavs := rfl
@[simp] theorem State.setJob_ops (s : State) (ctx : Nat) (j : Job) : (s.setJob ctx j).ops = s.ops := rfl
@[simp] theorem State.setJob_nextOp (s : State) (ctx : Nat) (j : Job) : (s.setJob ctx j).nextOp = s.nextOp := rfl
@[simp] theorem State.setJob_claims (s : State) (ctx : Nat) (j : Job) : (s.setJob ctx j).claims = s.claims := rfl
@[simp] theorem State.setJob_clusters (s : State) (ctx : Nat) (j : Job) : (s.setJob ctx j).clusters = s.clusters := rfl
@[simp] theorem State.setJob_groups (s : State) (ctx : Nat) (j : Job) : (s.setJob ctx j).groups = s.groups := rfl
@[simp] theorem State.setTask_steps (s : State) (n : Nat) (t : Task) : (s.setTask n t).steps = s.steps := rfl
@[simp] theorem State.setTask_agenda (s : State) (n : Nat) (t : Task) : (s.setTask n t).agenda = s.agenda := rfl
@[simp] theorem State.setTask_free (s : State) (n : Nat) (t : Task) : (s.setTask n t).free = s.free := rfl
@[simp] theorem State.setTask_cur (s : State) (n : Nat) (t : Task) : (s.setTask n t).cur = s.cur := rfl
@[simp] theorem State.setTask_now (s : State) (n : Nat) (t : Task) : (s.setTask n t).now = s.now := rfl
@[simp] theorem State.setTask_mem (s : State) (n : Nat) (t : Task) : (s.setTask n t).mem = s.mem := rfl
@[simp] theorem State.setTask_checks (s : State) (n : Nat) (t : Task) : (s.setTask n t).checks = s.checks := rfl
@[simp] theorem State.setTask_boot (s : State) (n : Nat) (t : Task) : (s.setTask n t).boot = s.boot := rfl
@[simp] theorem State.setTask_otp (s : State) (n : Nat) (t : Task) : (s.setTask n t).otp = s.otp := rfl
@[simp] theorem State.setTask_host (s : State) (n : Nat) (t : Task) : (s.setTask n t).host = s.host := rfl
@[simp] theorem State.setTask_cxl (s : State) (n : Nat) (t : Task) : (s.setTask n t).cxl = s.cxl := rfl
@[simp] theorem State.setTask_tier (s : State) (n : Nat) (t : Task) : (s.setTask n t).tier = s.tier := rfl
@[simp] theorem State.setTask_floeb (s : State) (n : Nat) (t : Task) : (s.setTask n t).floeb = s.floeb := rfl
@[simp] theorem State.setTask_resent (s : State) (n : Nat) (t : Task) : (s.setTask n t).resent = s.resent := rfl
@[simp] theorem State.setTask_slope (s : State) (n : Nat) (t : Task) : (s.setTask n t).slope = s.slope := rfl
@[simp] theorem State.setTask_droop (s : State) (n : Nat) (t : Task) : (s.setTask n t).droop = s.droop := rfl
@[simp] theorem State.setTask_idle (s : State) (n : Nat) (t : Task) : (s.setTask n t).idle = s.idle := rfl
@[simp] theorem State.setTask_exiting (s : State) (n : Nat) (t : Task) : (s.setTask n t).exiting = s.exiting := rfl
@[simp] theorem State.setTask_ltr (s : State) (n : Nat) (t : Task) : (s.setTask n t).ltr = s.ltr := rfl
@[simp] theorem State.setTask_lineMode (s : State) (n : Nat) (t : Task) : (s.setTask n t).lineMode = s.lineMode := rfl
@[simp] theorem State.setTask_llc (s : State) (n : Nat) (t : Task) : (s.setTask n t).llc = s.llc := rfl
@[simp] theorem State.setTask_charges (s : State) (n : Nat) (t : Task) : (s.setTask n t).charges = s.charges := rfl
@[simp] theorem State.setTask_corrected (s : State) (n : Nat) (t : Task) : (s.setTask n t).corrected = s.corrected := rfl
@[simp] theorem State.setTask_refetched (s : State) (n : Nat) (t : Task) : (s.setTask n t).refetched = s.refetched := rfl
@[simp] theorem State.setTask_reports (s : State) (n : Nat) (t : Task) : (s.setTask n t).reports = s.reports := rfl
@[simp] theorem State.setTask_div (s : State) (n : Nat) (t : Task) : (s.setTask n t).div = s.div := rfl
@[simp] theorem State.setTask_objects (s : State) (n : Nat) (t : Task) : (s.setTask n t).objects = s.objects := rfl
@[simp] theorem State.setTask_vfs (s : State) (n : Nat) (t : Task) : (s.setTask n t).vfs = s.vfs := rfl
@[simp] theorem State.setTask_turn (s : State) (n : Nat) (t : Task) : (s.setTask n t).turn = s.turn := rfl
@[simp] theorem State.setTask_served (s : State) (n : Nat) (t : Task) : (s.setTask n t).served = s.served := rfl
@[simp] theorem State.setTask_lastJob (s : State) (n : Nat) (t : Task) : (s.setTask n t).lastJob = s.lastJob := rfl
@[simp] theorem State.setTask_grace (s : State) (n : Nat) (t : Task) : (s.setTask n t).grace = s.grace := rfl
@[simp] theorem State.setTask_jobs (s : State) (n : Nat) (t : Task) : (s.setTask n t).jobs = s.jobs := rfl
@[simp] theorem State.setTask_spans (s : State) (n : Nat) (t : Task) : (s.setTask n t).spans = s.spans := rfl
@[simp] theorem State.setTask_blocks (s : State) (n : Nat) (t : Task) : (s.setTask n t).blocks = s.blocks := rfl
@[simp] theorem State.setTask_wavs (s : State) (n : Nat) (t : Task) : (s.setTask n t).wavs = s.wavs := rfl
@[simp] theorem State.setTask_ops (s : State) (n : Nat) (t : Task) : (s.setTask n t).ops = s.ops := rfl
@[simp] theorem State.setTask_nextOp (s : State) (n : Nat) (t : Task) : (s.setTask n t).nextOp = s.nextOp := rfl
@[simp] theorem State.setTask_claims (s : State) (n : Nat) (t : Task) : (s.setTask n t).claims = s.claims := rfl
@[simp] theorem State.setTask_clusters (s : State) (n : Nat) (t : Task) : (s.setTask n t).clusters = s.clusters := rfl
@[simp] theorem State.setTask_groups (s : State) (n : Nat) (t : Task) : (s.setTask n t).groups = s.groups := rfl

/-! Strands. -/

@[simp] theorem Strand.setReg_pc (x : Strand) (step n : Nat) (r : Reg) : (x.setReg step n r).pc = x.pc := rfl
@[simp] theorem Strand.setReg_live (x : Strand) (step n : Nat) (r : Reg) : (x.setReg step n r).live = x.live := rfl
@[simp] theorem Strand.setReg_wait (x : Strand) (step n : Nat) (r : Reg) : (x.setReg step n r).wait = x.wait := rfl
@[simp] theorem Strand.setReg_o (x : Strand) (step n : Nat) (r : Reg) : (x.setReg step n r).o = x.o := rfl
@[simp] theorem Strand.setReg_q (x : Strand) (step n : Nat) (r : Reg) : (x.setReg step n r).q = x.q := rfl
@[simp] theorem Strand.setReg_preds (x : Strand) (step n : Nat) (r : Reg) : (x.setReg step n r).preds = x.preds := rfl
@[simp] theorem Strand.setReg_stack (x : Strand) (step n : Nat) (r : Reg) : (x.setReg step n r).stack = x.stack := rfl
@[simp] theorem Strand.setReg_lineage (x : Strand) (step n : Nat) (r : Reg) : (x.setReg step n r).lineage = x.lineage := rfl
@[simp] theorem Strand.setReg_status (x : Strand) (step n : Nat) (r : Reg) : (x.setReg step n r).status = x.status := rfl
@[simp] theorem Strand.setReg_faddr (x : Strand) (step n : Nat) (r : Reg) : (x.setReg step n r).faddr = x.faddr := rfl
@[simp] theorem Strand.setReg_priv (x : Strand) (step n : Nat) (r : Reg) : (x.setReg step n r).priv = x.priv := rfl
@[simp] theorem Strand.setReg_planes (x : Strand) (step n : Nat) (r : Reg) : (x.setReg step n r).planes = x.planes := rfl
@[simp] theorem Strand.setReg_absent (x : Strand) (step n : Nat) (r : Reg) : (x.setReg step n r).absent = x.absent := rfl
@[simp] theorem Strand.setReg_fence (x : Strand) (step n : Nat) (r : Reg) : (x.setReg step n r).fence = x.fence := rfl
@[simp] theorem Strand.setReg_seen (x : Strand) (step n : Nat) (r : Reg) : (x.setReg step n r).seen = x.seen := rfl
@[simp] theorem Strand.setReg_fenced (x : Strand) (step n : Nat) (r : Reg) : (x.setReg step n r).fenced = x.fenced := rfl
@[simp] theorem Strand.setReg_arrived (x : Strand) (step n : Nat) (r : Reg) : (x.setReg step n r).arrived = x.arrived := rfl
@[simp] theorem Strand.setFull_pc (x : Strand) (n : Nat) (b : Bool) : (x.setFull n b).pc = x.pc := rfl
@[simp] theorem Strand.setFull_live (x : Strand) (n : Nat) (b : Bool) : (x.setFull n b).live = x.live := rfl
@[simp] theorem Strand.setFull_wait (x : Strand) (n : Nat) (b : Bool) : (x.setFull n b).wait = x.wait := rfl
@[simp] theorem Strand.setFull_o (x : Strand) (n : Nat) (b : Bool) : (x.setFull n b).o = x.o := rfl
@[simp] theorem Strand.setFull_q (x : Strand) (n : Nat) (b : Bool) : (x.setFull n b).q = x.q := rfl
@[simp] theorem Strand.setFull_preds (x : Strand) (n : Nat) (b : Bool) : (x.setFull n b).preds = x.preds := rfl
@[simp] theorem Strand.setFull_stack (x : Strand) (n : Nat) (b : Bool) : (x.setFull n b).stack = x.stack := rfl
@[simp] theorem Strand.setFull_lineage (x : Strand) (n : Nat) (b : Bool) : (x.setFull n b).lineage = x.lineage := rfl
@[simp] theorem Strand.setFull_status (x : Strand) (n : Nat) (b : Bool) : (x.setFull n b).status = x.status := rfl
@[simp] theorem Strand.setFull_faddr (x : Strand) (n : Nat) (b : Bool) : (x.setFull n b).faddr = x.faddr := rfl
@[simp] theorem Strand.setFull_priv (x : Strand) (n : Nat) (b : Bool) : (x.setFull n b).priv = x.priv := rfl
@[simp] theorem Strand.setFull_planes (x : Strand) (n : Nat) (b : Bool) : (x.setFull n b).planes = x.planes := rfl
@[simp] theorem Strand.setFull_absent (x : Strand) (n : Nat) (b : Bool) : (x.setFull n b).absent = x.absent := rfl
@[simp] theorem Strand.setFull_fence (x : Strand) (n : Nat) (b : Bool) : (x.setFull n b).fence = x.fence := rfl
@[simp] theorem Strand.setFull_seen (x : Strand) (n : Nat) (b : Bool) : (x.setFull n b).seen = x.seen := rfl
@[simp] theorem Strand.setFull_fenced (x : Strand) (n : Nat) (b : Bool) : (x.setFull n b).fenced = x.fenced := rfl
@[simp] theorem Strand.setFull_past (x : Strand) (n : Nat) (b : Bool) : (x.setFull n b).past = x.past := rfl
@[simp] theorem Strand.setFull_arrived (x : Strand) (n : Nat) (b : Bool) : (x.setFull n b).arrived = x.arrived := rfl
@[simp] theorem Strand.flag_pc (x : Strand) (b : W32) : (x.flag b).pc = x.pc := rfl
@[simp] theorem Strand.flag_live (x : Strand) (b : W32) : (x.flag b).live = x.live := rfl
@[simp] theorem Strand.flag_wait (x : Strand) (b : W32) : (x.flag b).wait = x.wait := rfl
@[simp] theorem Strand.flag_regs (x : Strand) (b : W32) : (x.flag b).regs = x.regs := rfl
@[simp] theorem Strand.flag_o (x : Strand) (b : W32) : (x.flag b).o = x.o := rfl
@[simp] theorem Strand.flag_q (x : Strand) (b : W32) : (x.flag b).q = x.q := rfl
@[simp] theorem Strand.flag_preds (x : Strand) (b : W32) : (x.flag b).preds = x.preds := rfl
@[simp] theorem Strand.flag_stack (x : Strand) (b : W32) : (x.flag b).stack = x.stack := rfl
@[simp] theorem Strand.flag_lineage (x : Strand) (b : W32) : (x.flag b).lineage = x.lineage := rfl
@[simp] theorem Strand.flag_faddr (x : Strand) (b : W32) : (x.flag b).faddr = x.faddr := rfl
@[simp] theorem Strand.flag_priv (x : Strand) (b : W32) : (x.flag b).priv = x.priv := rfl
@[simp] theorem Strand.flag_planes (x : Strand) (b : W32) : (x.flag b).planes = x.planes := rfl
@[simp] theorem Strand.flag_absent (x : Strand) (b : W32) : (x.flag b).absent = x.absent := rfl
@[simp] theorem Strand.flag_fence (x : Strand) (b : W32) : (x.flag b).fence = x.fence := rfl
@[simp] theorem Strand.flag_seen (x : Strand) (b : W32) : (x.flag b).seen = x.seen := rfl
@[simp] theorem Strand.flag_fenced (x : Strand) (b : W32) : (x.flag b).fenced = x.fenced := rfl
@[simp] theorem Strand.flag_past (x : Strand) (b : W32) : (x.flag b).past = x.past := rfl
@[simp] theorem Strand.flag_arrived (x : Strand) (b : W32) : (x.flag b).arrived = x.arrived := rfl
@[simp] theorem Strand.shiftQ_pc (x : Strand) (v : Option Val) : (x.shiftQ v).pc = x.pc := rfl
@[simp] theorem Strand.shiftQ_live (x : Strand) (v : Option Val) : (x.shiftQ v).live = x.live := rfl
@[simp] theorem Strand.shiftQ_wait (x : Strand) (v : Option Val) : (x.shiftQ v).wait = x.wait := rfl
@[simp] theorem Strand.shiftQ_regs (x : Strand) (v : Option Val) : (x.shiftQ v).regs = x.regs := rfl
@[simp] theorem Strand.shiftQ_o (x : Strand) (v : Option Val) : (x.shiftQ v).o = x.o := rfl
@[simp] theorem Strand.shiftQ_preds (x : Strand) (v : Option Val) : (x.shiftQ v).preds = x.preds := rfl
@[simp] theorem Strand.shiftQ_stack (x : Strand) (v : Option Val) : (x.shiftQ v).stack = x.stack := rfl
@[simp] theorem Strand.shiftQ_lineage (x : Strand) (v : Option Val) : (x.shiftQ v).lineage = x.lineage := rfl
@[simp] theorem Strand.shiftQ_status (x : Strand) (v : Option Val) : (x.shiftQ v).status = x.status := rfl
@[simp] theorem Strand.shiftQ_faddr (x : Strand) (v : Option Val) : (x.shiftQ v).faddr = x.faddr := rfl
@[simp] theorem Strand.shiftQ_priv (x : Strand) (v : Option Val) : (x.shiftQ v).priv = x.priv := rfl
@[simp] theorem Strand.shiftQ_planes (x : Strand) (v : Option Val) : (x.shiftQ v).planes = x.planes := rfl
@[simp] theorem Strand.shiftQ_absent (x : Strand) (v : Option Val) : (x.shiftQ v).absent = x.absent := rfl
@[simp] theorem Strand.shiftQ_fence (x : Strand) (v : Option Val) : (x.shiftQ v).fence = x.fence := rfl
@[simp] theorem Strand.shiftQ_seen (x : Strand) (v : Option Val) : (x.shiftQ v).seen = x.seen := rfl
@[simp] theorem Strand.shiftQ_fenced (x : Strand) (v : Option Val) : (x.shiftQ v).fenced = x.fenced := rfl
@[simp] theorem Strand.shiftQ_past (x : Strand) (v : Option Val) : (x.shiftQ v).past = x.past := rfl
@[simp] theorem Strand.shiftQ_arrived (x : Strand) (v : Option Val) : (x.shiftQ v).arrived = x.arrived := rfl
@[simp] theorem Strand.setPred_pc (x : Strand) (n : Nat) (b : Bool) : (x.setPred n b).pc = x.pc := by unfold Strand.setPred; split <;> rfl
@[simp] theorem Strand.setPred_live (x : Strand) (n : Nat) (b : Bool) : (x.setPred n b).live = x.live := by unfold Strand.setPred; split <;> rfl
@[simp] theorem Strand.setPred_wait (x : Strand) (n : Nat) (b : Bool) : (x.setPred n b).wait = x.wait := by unfold Strand.setPred; split <;> rfl
@[simp] theorem Strand.setPred_regs (x : Strand) (n : Nat) (b : Bool) : (x.setPred n b).regs = x.regs := by unfold Strand.setPred; split <;> rfl
@[simp] theorem Strand.setPred_o (x : Strand) (n : Nat) (b : Bool) : (x.setPred n b).o = x.o := by unfold Strand.setPred; split <;> rfl
@[simp] theorem Strand.setPred_q (x : Strand) (n : Nat) (b : Bool) : (x.setPred n b).q = x.q := by unfold Strand.setPred; split <;> rfl
@[simp] theorem Strand.setPred_stack (x : Strand) (n : Nat) (b : Bool) : (x.setPred n b).stack = x.stack := by unfold Strand.setPred; split <;> rfl
@[simp] theorem Strand.setPred_lineage (x : Strand) (n : Nat) (b : Bool) : (x.setPred n b).lineage = x.lineage := by unfold Strand.setPred; split <;> rfl
@[simp] theorem Strand.setPred_status (x : Strand) (n : Nat) (b : Bool) : (x.setPred n b).status = x.status := by unfold Strand.setPred; split <;> rfl
@[simp] theorem Strand.setPred_faddr (x : Strand) (n : Nat) (b : Bool) : (x.setPred n b).faddr = x.faddr := by unfold Strand.setPred; split <;> rfl
@[simp] theorem Strand.setPred_priv (x : Strand) (n : Nat) (b : Bool) : (x.setPred n b).priv = x.priv := by unfold Strand.setPred; split <;> rfl
@[simp] theorem Strand.setPred_planes (x : Strand) (n : Nat) (b : Bool) : (x.setPred n b).planes = x.planes := by unfold Strand.setPred; split <;> rfl
@[simp] theorem Strand.setPred_absent (x : Strand) (n : Nat) (b : Bool) : (x.setPred n b).absent = x.absent := by unfold Strand.setPred; split <;> rfl
@[simp] theorem Strand.setPred_fence (x : Strand) (n : Nat) (b : Bool) : (x.setPred n b).fence = x.fence := by unfold Strand.setPred; split <;> rfl
@[simp] theorem Strand.setPred_seen (x : Strand) (n : Nat) (b : Bool) : (x.setPred n b).seen = x.seen := by unfold Strand.setPred; split <;> rfl
@[simp] theorem Strand.setPred_fenced (x : Strand) (n : Nat) (b : Bool) : (x.setPred n b).fenced = x.fenced := by unfold Strand.setPred; split <;> rfl
@[simp] theorem Strand.setPred_past (x : Strand) (n : Nat) (b : Bool) : (x.setPred n b).past = x.past := by unfold Strand.setPred; split <;> rfl
@[simp] theorem Strand.setPred_arrived (x : Strand) (n : Nat) (b : Bool) : (x.setPred n b).arrived = x.arrived := by unfold Strand.setPred; split <;> rfl
@[simp] theorem Strand.putVal_pc (x : Strand) (e : Env) (step n : Nat) (wide : Bool) (v : Val) : (x.putVal e step n wide v).pc = x.pc := by unfold Strand.putVal; split <;> rfl
@[simp] theorem Strand.putVal_live (x : Strand) (e : Env) (step n : Nat) (wide : Bool) (v : Val) : (x.putVal e step n wide v).live = x.live := by unfold Strand.putVal; split <;> rfl
@[simp] theorem Strand.putVal_wait (x : Strand) (e : Env) (step n : Nat) (wide : Bool) (v : Val) : (x.putVal e step n wide v).wait = x.wait := by unfold Strand.putVal; split <;> rfl
@[simp] theorem Strand.putVal_o (x : Strand) (e : Env) (step n : Nat) (wide : Bool) (v : Val) : (x.putVal e step n wide v).o = x.o := by unfold Strand.putVal; split <;> rfl
@[simp] theorem Strand.putVal_q (x : Strand) (e : Env) (step n : Nat) (wide : Bool) (v : Val) : (x.putVal e step n wide v).q = x.q := by unfold Strand.putVal; split <;> rfl
@[simp] theorem Strand.putVal_preds (x : Strand) (e : Env) (step n : Nat) (wide : Bool) (v : Val) : (x.putVal e step n wide v).preds = x.preds := by unfold Strand.putVal; split <;> rfl
@[simp] theorem Strand.putVal_stack (x : Strand) (e : Env) (step n : Nat) (wide : Bool) (v : Val) : (x.putVal e step n wide v).stack = x.stack := by unfold Strand.putVal; split <;> rfl
@[simp] theorem Strand.putVal_lineage (x : Strand) (e : Env) (step n : Nat) (wide : Bool) (v : Val) : (x.putVal e step n wide v).lineage = x.lineage := by unfold Strand.putVal; split <;> rfl
@[simp] theorem Strand.putVal_status (x : Strand) (e : Env) (step n : Nat) (wide : Bool) (v : Val) : (x.putVal e step n wide v).status = x.status := by unfold Strand.putVal; split <;> rfl
@[simp] theorem Strand.putVal_faddr (x : Strand) (e : Env) (step n : Nat) (wide : Bool) (v : Val) : (x.putVal e step n wide v).faddr = x.faddr := by unfold Strand.putVal; split <;> rfl
@[simp] theorem Strand.putVal_priv (x : Strand) (e : Env) (step n : Nat) (wide : Bool) (v : Val) : (x.putVal e step n wide v).priv = x.priv := by unfold Strand.putVal; split <;> rfl
@[simp] theorem Strand.putVal_planes (x : Strand) (e : Env) (step n : Nat) (wide : Bool) (v : Val) : (x.putVal e step n wide v).planes = x.planes := by unfold Strand.putVal; split <;> rfl
@[simp] theorem Strand.putVal_absent (x : Strand) (e : Env) (step n : Nat) (wide : Bool) (v : Val) : (x.putVal e step n wide v).absent = x.absent := by unfold Strand.putVal; split <;> rfl
@[simp] theorem Strand.putVal_fence (x : Strand) (e : Env) (step n : Nat) (wide : Bool) (v : Val) : (x.putVal e step n wide v).fence = x.fence := by unfold Strand.putVal; split <;> rfl
@[simp] theorem Strand.putVal_seen (x : Strand) (e : Env) (step n : Nat) (wide : Bool) (v : Val) : (x.putVal e step n wide v).seen = x.seen := by unfold Strand.putVal; split <;> rfl
@[simp] theorem Strand.putVal_fenced (x : Strand) (e : Env) (step n : Nat) (wide : Bool) (v : Val) : (x.putVal e step n wide v).fenced = x.fenced := by unfold Strand.putVal; split <;> rfl
@[simp] theorem Strand.putVal_arrived (x : Strand) (e : Env) (step n : Nat) (wide : Bool) (v : Val) : (x.putVal e step n wide v).arrived = x.arrived := by unfold Strand.putVal; split <;> rfl

/-! What a strand has seen (log 13). -/

@[simp] theorem Strand.see_pc (x : Strand) (c : Clock) : (x.see c).pc = x.pc := rfl
@[simp] theorem Strand.see_live (x : Strand) (c : Clock) : (x.see c).live = x.live := rfl
@[simp] theorem Strand.see_wait (x : Strand) (c : Clock) : (x.see c).wait = x.wait := rfl
@[simp] theorem Strand.see_regs (x : Strand) (c : Clock) : (x.see c).regs = x.regs := rfl
@[simp] theorem Strand.see_o (x : Strand) (c : Clock) : (x.see c).o = x.o := rfl
@[simp] theorem Strand.see_q (x : Strand) (c : Clock) : (x.see c).q = x.q := rfl
@[simp] theorem Strand.see_preds (x : Strand) (c : Clock) : (x.see c).preds = x.preds := rfl
@[simp] theorem Strand.see_stack (x : Strand) (c : Clock) : (x.see c).stack = x.stack := rfl
@[simp] theorem Strand.see_lineage (x : Strand) (c : Clock) : (x.see c).lineage = x.lineage := rfl
@[simp] theorem Strand.see_status (x : Strand) (c : Clock) : (x.see c).status = x.status := rfl
@[simp] theorem Strand.see_faddr (x : Strand) (c : Clock) : (x.see c).faddr = x.faddr := rfl
@[simp] theorem Strand.see_priv (x : Strand) (c : Clock) : (x.see c).priv = x.priv := rfl
@[simp] theorem Strand.see_planes (x : Strand) (c : Clock) : (x.see c).planes = x.planes := rfl
@[simp] theorem Strand.see_absent (x : Strand) (c : Clock) : (x.see c).absent = x.absent := rfl
@[simp] theorem Strand.see_fence (x : Strand) (c : Clock) : (x.see c).fence = x.fence := rfl
@[simp] theorem Strand.see_fenced (x : Strand) (c : Clock) : (x.see c).fenced = x.fenced := rfl
@[simp] theorem Strand.see_past (x : Strand) (c : Clock) : (x.see c).past = x.past := rfl
@[simp] theorem Strand.see_arrived (x : Strand) (c : Clock) : (x.see c).arrived = x.arrived := rfl
@[simp] theorem Strand.arrive_pc (x : Strand) (n : Nat) (c : Clock) : (x.arrive n c).pc = x.pc := rfl
@[simp] theorem Strand.arrive_live (x : Strand) (n : Nat) (c : Clock) : (x.arrive n c).live = x.live := rfl
@[simp] theorem Strand.arrive_wait (x : Strand) (n : Nat) (c : Clock) : (x.arrive n c).wait = x.wait := rfl
@[simp] theorem Strand.arrive_regs (x : Strand) (n : Nat) (c : Clock) : (x.arrive n c).regs = x.regs := rfl
@[simp] theorem Strand.arrive_o (x : Strand) (n : Nat) (c : Clock) : (x.arrive n c).o = x.o := rfl
@[simp] theorem Strand.arrive_q (x : Strand) (n : Nat) (c : Clock) : (x.arrive n c).q = x.q := rfl
@[simp] theorem Strand.arrive_preds (x : Strand) (n : Nat) (c : Clock) : (x.arrive n c).preds = x.preds := rfl
@[simp] theorem Strand.arrive_stack (x : Strand) (n : Nat) (c : Clock) : (x.arrive n c).stack = x.stack := rfl
@[simp] theorem Strand.arrive_lineage (x : Strand) (n : Nat) (c : Clock) : (x.arrive n c).lineage = x.lineage := rfl
@[simp] theorem Strand.arrive_status (x : Strand) (n : Nat) (c : Clock) : (x.arrive n c).status = x.status := rfl
@[simp] theorem Strand.arrive_faddr (x : Strand) (n : Nat) (c : Clock) : (x.arrive n c).faddr = x.faddr := rfl
@[simp] theorem Strand.arrive_priv (x : Strand) (n : Nat) (c : Clock) : (x.arrive n c).priv = x.priv := rfl
@[simp] theorem Strand.arrive_planes (x : Strand) (n : Nat) (c : Clock) : (x.arrive n c).planes = x.planes := rfl
@[simp] theorem Strand.arrive_absent (x : Strand) (n : Nat) (c : Clock) : (x.arrive n c).absent = x.absent := rfl
@[simp] theorem Strand.arrive_fence (x : Strand) (n : Nat) (c : Clock) : (x.arrive n c).fence = x.fence := rfl
@[simp] theorem Strand.arrive_seen (x : Strand) (n : Nat) (c : Clock) : (x.arrive n c).seen = x.seen := rfl
@[simp] theorem Strand.arrive_fenced (x : Strand) (n : Nat) (c : Clock) : (x.arrive n c).fenced = x.fenced := rfl
@[simp] theorem Strand.arrive_past (x : Strand) (n : Nat) (c : Clock) : (x.arrive n c).past = x.past := rfl
@[simp] theorem Strand.find_pc (x : Strand) (step : Nat) (rs : List Nat) : (x.find step rs).pc = x.pc := by unfold Strand.find; split <;> rfl
@[simp] theorem Strand.find_live (x : Strand) (step : Nat) (rs : List Nat) : (x.find step rs).live = x.live := by unfold Strand.find; split <;> rfl
@[simp] theorem Strand.find_wait (x : Strand) (step : Nat) (rs : List Nat) : (x.find step rs).wait = x.wait := by unfold Strand.find; split <;> rfl
@[simp] theorem Strand.find_regs (x : Strand) (step : Nat) (rs : List Nat) : (x.find step rs).regs = x.regs := by unfold Strand.find; split <;> rfl
@[simp] theorem Strand.find_o (x : Strand) (step : Nat) (rs : List Nat) : (x.find step rs).o = x.o := by unfold Strand.find; split <;> rfl
@[simp] theorem Strand.find_q (x : Strand) (step : Nat) (rs : List Nat) : (x.find step rs).q = x.q := by unfold Strand.find; split <;> rfl
@[simp] theorem Strand.find_preds (x : Strand) (step : Nat) (rs : List Nat) : (x.find step rs).preds = x.preds := by unfold Strand.find; split <;> rfl
@[simp] theorem Strand.find_stack (x : Strand) (step : Nat) (rs : List Nat) : (x.find step rs).stack = x.stack := by unfold Strand.find; split <;> rfl
@[simp] theorem Strand.find_lineage (x : Strand) (step : Nat) (rs : List Nat) : (x.find step rs).lineage = x.lineage := by unfold Strand.find; split <;> rfl
@[simp] theorem Strand.find_status (x : Strand) (step : Nat) (rs : List Nat) : (x.find step rs).status = x.status := by unfold Strand.find; split <;> rfl
@[simp] theorem Strand.find_faddr (x : Strand) (step : Nat) (rs : List Nat) : (x.find step rs).faddr = x.faddr := by unfold Strand.find; split <;> rfl
@[simp] theorem Strand.find_priv (x : Strand) (step : Nat) (rs : List Nat) : (x.find step rs).priv = x.priv := by unfold Strand.find; split <;> rfl
@[simp] theorem Strand.find_planes (x : Strand) (step : Nat) (rs : List Nat) : (x.find step rs).planes = x.planes := by unfold Strand.find; split <;> rfl
@[simp] theorem Strand.find_absent (x : Strand) (step : Nat) (rs : List Nat) : (x.find step rs).absent = x.absent := by unfold Strand.find; split <;> rfl
@[simp] theorem Strand.find_fence (x : Strand) (step : Nat) (rs : List Nat) : (x.find step rs).fence = x.fence := by unfold Strand.find; split <;> rfl
@[simp] theorem Strand.find_fenced (x : Strand) (step : Nat) (rs : List Nat) : (x.find step rs).fenced = x.fenced := by unfold Strand.find; split <;> rfl

/-! Wavelets and blocks. -/

@[simp] theorem Wavelet.context_width (x : Wavelet) (c : Nat) (pc : W64) (hits : List (Nat × W64)) : (x.context c pc hits).width = x.width := rfl
@[simp] theorem Wavelet.context_w (x : Wavelet) (c : Nat) (pc : W64) (hits : List (Nat × W64)) : (x.context c pc hits).w = x.w := rfl
@[simp] theorem Wavelet.context_seed (x : Wavelet) (c : Nat) (pc : W64) (hits : List (Nat × W64)) : (x.context c pc hits).seed = x.seed := rfl
@[simp] theorem Wavelet.context_mode (x : Wavelet) (c : Nat) (pc : W64) (hits : List (Nat × W64)) : (x.context c pc hits).mode = x.mode := rfl
@[simp] theorem Wavelet.context_alpha (x : Wavelet) (c : Nat) (pc : W64) (hits : List (Nat × W64)) : (x.context c pc hits).alpha = x.alpha := rfl
@[simp] theorem Wavelet.context_req (x : Wavelet) (c : Nat) (pc : W64) (hits : List (Nat × W64)) : (x.context c pc hits).req = x.req := rfl
@[simp] theorem Wavelet.context_handler (x : Wavelet) (c : Nat) (pc : W64) (hits : List (Nat × W64)) : (x.context c pc hits).handler = x.handler := rfl
@[simp] theorem Wavelet.context_run (x : Wavelet) (c : Nat) (pc : W64) (hits : List (Nat × W64)) : (x.context c pc hits).run = x.run := rfl
@[simp] theorem Wavelet.context_pass (x : Wavelet) (c : Nat) (pc : W64) (hits : List (Nat × W64)) : (x.context c pc hits).pass = x.pass := rfl
@[simp] theorem Wavelet.context_stall (x : Wavelet) (c : Nat) (pc : W64) (hits : List (Nat × W64)) : (x.context c pc hits).stall = x.stall := rfl
@[simp] theorem Wavelet.context_replay (x : Wavelet) (c : Nat) (pc : W64) (hits : List (Nat × W64)) : (x.context c pc hits).replay = x.replay := rfl
@[simp] theorem Wavelet.context_faults (x : Wavelet) (c : Nat) (pc : W64) (hits : List (Nat × W64)) : (x.context c pc hits).faults = x.faults := rfl
@[simp] theorem Wavelet.context_integ (x : Wavelet) (c : Nat) (pc : W64) (hits : List (Nat × W64)) : (x.context c pc hits).integ = x.integ := rfl
@[simp] theorem Wavelet.context_tried (x : Wavelet) (c : Nat) (pc : W64) (hits : List (Nat × W64)) : (x.context c pc hits).tried = x.tried := rfl
@[simp] theorem Wavelet.context_retried (x : Wavelet) (c : Nat) (pc : W64) (hits : List (Nat × W64)) : (x.context c pc hits).retried = x.retried := rfl
@[simp] theorem Wavelet.context_failing (x : Wavelet) (c : Nat) (pc : W64) (hits : List (Nat × W64)) : (x.context c pc hits).failing = x.failing := rfl
@[simp] theorem Wavelet.context_marks (x : Wavelet) (c : Nat) (pc : W64) (hits : List (Nat × W64)) : (x.context c pc hits).marks = x.marks := rfl
@[simp] theorem Wavelet.context_granted (x : Wavelet) (c : Nat) (pc : W64) (hits : List (Nat × W64)) : (x.context c pc hits).granted = x.granted := rfl
@[simp] theorem Wavelet.context_slice (x : Wavelet) (c : Nat) (pc : W64) (hits : List (Nat × W64)) : (x.context c pc hits).slice = x.slice := rfl
@[simp] theorem Wavelet.context_age (x : Wavelet) (c : Nat) (pc : W64) (hits : List (Nat × W64)) : (x.context c pc hits).age = x.age := rfl
@[simp] theorem Wavelet.context_waited (x : Wavelet) (c : Nat) (pc : W64) (hits : List (Nat × W64)) : (x.context c pc hits).waited = x.waited := rfl
@[simp] theorem Wavelet.context_stopped (x : Wavelet) (c : Nat) (pc : W64) (hits : List (Nat × W64)) : (x.context c pc hits).stopped = x.stopped := rfl
@[simp] theorem Wavelet.context_checks (x : Wavelet) (c : Nat) (pc : W64) (hits : List (Nat × W64)) : (x.context c pc hits).checks = x.checks := rfl
@[simp] theorem Wavelet.context_mseen (x : Wavelet) (c : Nat) (pc : W64) (hits : List (Nat × W64)) : (x.context c pc hits).mseen = x.mseen := rfl
@[simp] theorem Wavelet.advance_width (x : Wavelet) (m : Bool) (d : Option Deferred) : (x.advance m d).width = x.width := by unfold Wavelet.advance; split <;> rfl
@[simp] theorem Wavelet.advance_w (x : Wavelet) (m : Bool) (d : Option Deferred) : (x.advance m d).w = x.w := by unfold Wavelet.advance; split <;> rfl
@[simp] theorem Wavelet.advance_seed (x : Wavelet) (m : Bool) (d : Option Deferred) : (x.advance m d).seed = x.seed := by unfold Wavelet.advance; split <;> rfl
@[simp] theorem Wavelet.advance_mode (x : Wavelet) (m : Bool) (d : Option Deferred) : (x.advance m d).mode = x.mode := by unfold Wavelet.advance; split <;> rfl
@[simp] theorem Wavelet.advance_alpha (x : Wavelet) (m : Bool) (d : Option Deferred) : (x.advance m d).alpha = x.alpha := by unfold Wavelet.advance; split <;> rfl
@[simp] theorem Wavelet.advance_req (x : Wavelet) (m : Bool) (d : Option Deferred) : (x.advance m d).req = x.req := by unfold Wavelet.advance; split <;> rfl
@[simp] theorem Wavelet.advance_cause (x : Wavelet) (m : Bool) (d : Option Deferred) : (x.advance m d).cause = x.cause := by unfold Wavelet.advance; split <;> rfl
@[simp] theorem Wavelet.advance_epc (x : Wavelet) (m : Bool) (d : Option Deferred) : (x.advance m d).epc = x.epc := by unfold Wavelet.advance; split <;> rfl
@[simp] theorem Wavelet.advance_fmask (x : Wavelet) (m : Bool) (d : Option Deferred) : (x.advance m d).fmask = x.fmask := by unfold Wavelet.advance; split <;> rfl
@[simp] theorem Wavelet.advance_handler (x : Wavelet) (m : Bool) (d : Option Deferred) : (x.advance m d).handler = x.handler := by unfold Wavelet.advance; split <;> rfl
@[simp] theorem Wavelet.advance_pass (x : Wavelet) (m : Bool) (d : Option Deferred) : (x.advance m d).pass = x.pass := by unfold Wavelet.advance; split <;> rfl
@[simp] theorem Wavelet.advance_faults (x : Wavelet) (m : Bool) (d : Option Deferred) : (x.advance m d).faults = x.faults := by unfold Wavelet.advance; split <;> rfl
@[simp] theorem Wavelet.advance_integ (x : Wavelet) (m : Bool) (d : Option Deferred) : (x.advance m d).integ = x.integ := by unfold Wavelet.advance; split <;> rfl
@[simp] theorem Wavelet.advance_retried (x : Wavelet) (m : Bool) (d : Option Deferred) : (x.advance m d).retried = x.retried := by unfold Wavelet.advance; split <;> rfl
@[simp] theorem Wavelet.advance_granted (x : Wavelet) (m : Bool) (d : Option Deferred) : (x.advance m d).granted = x.granted := by unfold Wavelet.advance; split <;> rfl
@[simp] theorem Wavelet.advance_slice (x : Wavelet) (m : Bool) (d : Option Deferred) : (x.advance m d).slice = x.slice := by unfold Wavelet.advance; split <;> rfl
@[simp] theorem Wavelet.advance_age (x : Wavelet) (m : Bool) (d : Option Deferred) : (x.advance m d).age = x.age := by unfold Wavelet.advance; split <;> rfl
@[simp] theorem Wavelet.advance_waited (x : Wavelet) (m : Bool) (d : Option Deferred) : (x.advance m d).waited = x.waited := by unfold Wavelet.advance; split <;> rfl
@[simp] theorem Wavelet.advance_stopped (x : Wavelet) (m : Bool) (d : Option Deferred) : (x.advance m d).stopped = x.stopped := by unfold Wavelet.advance; split <;> rfl
@[simp] theorem Wavelet.advance_checks (x : Wavelet) (m : Bool) (d : Option Deferred) : (x.advance m d).checks = x.checks := by unfold Wavelet.advance; split <;> rfl
@[simp] theorem Wavelet.advance_mseen (x : Wavelet) (m : Bool) (d : Option Deferred) : (x.advance m d).mseen = x.mseen := by unfold Wavelet.advance; split <;> rfl
@[simp] theorem Block.write_task (x : Block) (wt : Nat → Bool) (step off n v : Nat) : (x.write wt step off n v).task = x.task := rfl
@[simp] theorem Block.write_idx (x : Block) (wt : Nat → Bool) (step off n v : Nat) : (x.write wt step off n v).idx = x.idx := rfl
@[simp] theorem Block.write_home (x : Block) (wt : Nat → Bool) (step off n v : Nat) : (x.write wt step off n v).home = x.home := rfl
@[simp] theorem Block.write_at (x : Block) (wt : Nat → Bool) (step off n v : Nat) : (x.write wt step off n v).at' = x.at' := rfl
@[simp] theorem Block.write_width (x : Block) (wt : Nat → Bool) (step off n v : Nat) : (x.write wt step off n v).width = x.width := rfl
@[simp] theorem Block.write_objs (x : Block) (wt : Nat → Bool) (step off n v : Nat) : (x.write wt step off n v).objs = x.objs := rfl
@[simp] theorem Block.write_slots (x : Block) (wt : Nat → Bool) (step off n v : Nat) : (x.write wt step off n v).slots = x.slots := rfl
@[simp] theorem Block.write_freeing (x : Block) (wt : Nat → Bool) (step off n v : Nat) : (x.write wt step off n v).freeing = x.freeing := rfl
@[simp] theorem Block.write_wptr (x : Block) (wt : Nat → Bool) (step off n v : Nat) : (x.write wt step off n v).wptr = x.wptr := rfl
@[simp] theorem Block.write_sent (x : Block) (wt : Nat → Bool) (step off n v : Nat) : (x.write wt step off n v).sent = x.sent := rfl
@[simp] theorem Block.write_amax (x : Block) (wt : Nat → Bool) (step off n v : Nat) : (x.write wt step off n v).amax = x.amax := rfl
@[simp] theorem Block.write_fail (x : Block) (wt : Nat → Bool) (step off n v : Nat) : (x.write wt step off n v).fail = x.fail := rfl
@[simp] theorem Block.write_sync (x : Block) (wt : Nat → Bool) (step off n v : Nat) : (x.write wt step off n v).sync = x.sync := rfl
@[simp] theorem Block.write_wsync (x : Block) (wt : Nat → Bool) (step off n v : Nat) : (x.write wt step off n v).wsync = x.wsync := rfl
@[simp] theorem Block.write_ended (x : Block) (wt : Nat → Bool) (step off n v : Nat) : (x.write wt step off n v).ended = x.ended := rfl
@[simp] theorem Block.write_held (x : Block) (wt : Nat → Bool) (step off n v : Nat) : (x.write wt step off n v).held = x.held := rfl

end Sys2Proof.Machine
end

