-- ==== Sys2Proof/Laws/Ops.lean ====
section
/-! SUPPORT. What the shared operations on a wavelet do, once: updates of lanes as one update of the wavelet, and the
end of every instruction that writes a result (R50, R52, R62). -/

namespace Sys2Proof

namespace Assoc

/-- Writing back what is there changes nothing. -/
theorem put_get? {α β : Type} [DecidableEq α] {xs : List (α × β)} {k : α} {v : β} (h : get? xs k = some v) : put xs k v = xs := by
  induction xs with
  | nil => simp [get?] at h
  | cons x xs ih =>
    obtain ⟨k', v'⟩ := x
    simp only [get?] at h
    simp only [put]
    split
    · rename_i hk
      simp only [if_pos hk, Option.some.injEq] at h
      rw [← h, ← hk]
    · rename_i hk
      rw [if_neg hk] at h
      rw [ih h]

/-- A key that is not among the listed ones has no entry. -/
theorem get?_none {α β : Type} [DecidableEq α] {xs : List (α × β)} {k : α} (h : k ∉ xs.map (·.1)) : get? xs k = none := by
  induction xs with
  | nil => rfl
  | cons x xs ih =>
    simp only [List.map_cons, List.mem_cons, not_or] at h
    rw [get?, if_neg (fun e => h.1 e.symm), ih h.2]

/-- The entries that a function gives to a list of keys. -/
theorem get?_map {α β : Type} [DecidableEq α] (ks : List α) (g : α → β) (k : α) :
    get? (ks.map fun a => (a, g a)) k = if k ∈ ks then some (g k) else none := by
  induction ks with
  | nil => rfl
  | cons a ks ih =>
    simp only [List.map_cons, get?, ih, List.mem_cons]
    by_cases h : a = k
    · subst h; simp
    · simp [h, eq_comm (a := k)]

end Assoc

namespace Machine

variable {s : State} {w : WavId} {v : Wavelet}

/-- A wavelet with other lanes and uniform registers. -/
def Wavelet.withFiles (v : Wavelet) (ls : List Strand) (w : List (Nat × UReg)) : Wavelet := { v with lanes := ls, w := w }

@[simp] theorem Wavelet.withFiles_lanes (v : Wavelet) (ls : List Strand) (w : List (Nat × UReg)) :
    (v.withFiles ls w).lanes = ls := rfl
@[simp] theorem Wavelet.withFiles_w (v : Wavelet) (ls : List Strand) (w : List (Nat × UReg)) : (v.withFiles ls w).w = w := rfl
@[simp] theorem Wavelet.withFiles_run (v : Wavelet) (ls : List Strand) (w : List (Nat × UReg)) :
    (v.withFiles ls w).run = v.run := rfl
@[simp] theorem Wavelet.withFiles_withFiles (v : Wavelet) (ls ls' : List Strand) (w w' : List (Nat × UReg)) :
    (v.withFiles ls w).withFiles ls' w' = v.withFiles ls' w' := rfl
theorem Wavelet.withFiles_lane (v : Wavelet) (ls : List Strand) (w : List (Nat × UReg)) (l : Nat) :
    (v.withFiles ls w).lane l = ls.getD l {} := rfl

/-! One wavelet of a state. -/

@[simp] theorem State.wav?_setWav (s : State) (w u : WavId) (v : Wavelet) :
    (s.setWav w v).wav? u = if w = u then some v else s.wav? u := Assoc.get?_put ..

@[simp] theorem State.setWav_setWav (s : State) (w : WavId) (v u : Wavelet) : (s.setWav w v).setWav w u = s.setWav w u := by
  simp [State.setWav]

theorem State.setWav_self (h : s.wav? w = some v) : s.setWav w v = s := by
  cases s; simp only [State.setWav, State.wav?] at *; rw [Assoc.put_get? h]

theorem State.modWav_eq (f : Wavelet → Wavelet) (h : s.wav? w = some v) : s.modWav w f = s.setWav w (f v) := by
  simp [State.modWav, h]

theorem State.modLane_eq (l : Nat) (f : Strand → Strand) (h : s.wav? w = some v) :
    s.modLane w l f = s.setWav w (v.withFiles (listModify f v.lanes l) v.w) := State.modWav_eq _ h

/-- Updates of lanes one after the other are one update of the wavelet; each may use the step's number. -/
theorem State.foldl_modLane {α : Type} (xs : List α) (p : α → Nat) (F : Nat → α → Strand → Strand) (h : s.wav? w = some v) :
    xs.foldl (fun s x => s.modLane w (p x) (F s.steps x)) s =
      s.setWav w (v.withFiles (xs.foldl (fun ls x => listModify (F s.steps x) ls (p x)) v.lanes) v.w) := by
  induction xs generalizing s v with
  | nil => exact (State.setWav_self h).symm
  | cons x xs ih =>
    rw [List.foldl_cons, List.foldl_cons, State.modLane_eq _ _ h, ih (v := v.withFiles (listModify (F s.steps x) v.lanes (p x)) v.w) (by simp)]
    simp

@[simp] theorem length_foldl_listModify {α β : Type} (xs : List α) (p : α → Nat) (F : α → β → β) (ls : List β) :
    (xs.foldl (fun ls x => listModify (F x) ls (p x)) ls).length = ls.length := by
  induction xs generalizing ls with
  | nil => rfl
  | cons x xs ih => rw [List.foldl_cons, ih, length_listModify]

/-- An element after updates at the keys of an association. -/
theorem getD_foldl_assoc {α β : Type} (xs : List (Nat × α)) (F : α → β → β) (ls : List β) (l : Nat) (d : β)
    (hn : (xs.map (·.1)).Nodup) (hl : l < ls.length) :
    (xs.foldl (fun ls x => listModify (F x.2) ls x.1) ls).getD l d =
      match Assoc.get? xs l with | some u => F u (ls.getD l d) | none => ls.getD l d := by
  induction xs generalizing ls with
  | nil => rfl
  | cons x xs ih =>
    obtain ⟨k, u⟩ := x
    simp only [List.map_cons, List.nodup_cons] at hn
    rw [List.foldl_cons, ih _ hn.2 (by simpa using hl), getD_listModify]
    simp only [Assoc.get?]
    by_cases h : k = l
    · subst h
      simp [Assoc.get?_none hn.1, hl]
    · simp [h, eq_comm (a := l)]

/-- An element after updates at listed positions. -/
theorem getD_foldl_mem {β : Type} (xs : List Nat) (F : Nat → β → β) (ls : List β) (l : Nat) (d : β)
    (hn : xs.Nodup) (hl : l < ls.length) :
    (xs.foldl (fun ls x => listModify (F x) ls x) ls).getD l d = if l ∈ xs then F l (ls.getD l d) else ls.getD l d := by
  induction xs generalizing ls with
  | nil => rfl
  | cons x xs ih =>
    simp only [List.nodup_cons] at hn
    rw [List.foldl_cons, ih _ hn.2 (by simpa using hl), getD_listModify]
    by_cases h : l = x
    · subst h; simp [hn.1, hl]
    · simp [h]

/-- The lanes of a mask are listed once, in order. -/
theorem Mask.nodup_lanes (m : Mask) (n : Nat) : (m.lanes n).Nodup := List.Nodup.filter _ List.nodup_range

theorem Mask.mem_lanes {m : Mask} {n l : Nat} : l ∈ m.lanes n ↔ l < n ∧ m.has l = true := by
  simp [Mask.lanes, Mask.has]

/-- Acting lanes are lanes of the bundle inside the wavelet. -/
theorem Env.acting_sub {e : Env} {g : Guard} {r : Run} {l : Nat} (h : l ∈ e.acting g r) :
    l < e.wav.width ∧ r.lanes.has l = true := by
  unfold Env.acting at h
  split at h
  · have := Mask.mem_lanes.1 h
    simp only [Mask.has, BitVec.getLsbD_and, Bool.and_eq_true] at this
    exact ⟨this.1, this.2.2⟩
  · exact Mask.mem_lanes.1 (List.mem_filter.1 h).1

theorem Env.acting_nodup (e : Env) (g : Guard) (r : Run) : (e.acting g r).Nodup := by
  unfold Env.acting
  split
  · exact Mask.nodup_lanes ..
  · exact (Mask.nodup_lanes ..).filter _

/-- Everything that setting sticky flags does (R70). -/
theorem State.flagLanes_spec {ls : List Nat} (b : W32) (h : s.wav? w = some v) (hn : ls.Nodup) :
    ∃ xs, s.flagLanes w ls b = s.setWav w (v.withFiles xs v.w) ∧ xs.length = v.lanes.length ∧
      ∀ l < v.lanes.length, xs.getD l {} = if l ∈ ls then (v.lane l).flag b else v.lane l :=
  ⟨_, State.foldl_modLane ls id (fun _ _ x => x.flag b) h,
    length_foldl_listModify _ id (fun _ (x : Strand) => x.flag b) _,
    fun _ hl => getD_foldl_mem _ (fun _ x => x.flag b) _ _ _ hn hl⟩

/-- Everything that writing a predicate does (R53). -/
theorem State.setPreds_spec (n : Nat) (vs : List (Nat × Bool)) (h : s.wav? w = some v) (hn : (vs.map (·.1)).Nodup) :
    ∃ xs, s.setPreds w n vs = s.setWav w (v.withFiles xs v.w) ∧ xs.length = v.lanes.length ∧
      ∀ l < v.lanes.length, xs.getD l {} =
        match Assoc.get? vs l with | some b => (v.lane l).setPred n b | none => v.lane l :=
  ⟨_, State.foldl_modLane vs (·.1) (fun _ u x => x.setPred n u.2) h,
    length_foldl_listModify _ (·.1) (fun (u : Nat × Bool) (x : Strand) => x.setPred n u.2) _,
    fun l hl => by
      rw [getD_foldl_assoc vs (fun b (x : Strand) => x.setPred n b) v.lanes l {} hn hl]
      cases Assoc.get? vs l <;> rfl⟩

/-! Registers of a strand (R55, R63). -/

theorem Strand.reg_setReg {x : Strand} (h : Sparse.wf ({} : Reg) x.regs = true) (step n k : Nat) (r : Reg) :
    (x.setReg step n r).reg k = if n = k then r else x.reg k := Sparse.get_put _ _ _ h

theorem Strand.wf_setReg {x : Strand} (h : Sparse.wf ({} : Reg) x.regs = true) (step n : Nat) (r : Reg) :
    Sparse.wf ({} : Reg) (x.setReg step n r).regs = true := Sparse.wf_put _ _ h

/-- Everything that writing a value does to the registers. -/
theorem Strand.reg_putVal {x : Strand} (h : Sparse.wf ({} : Reg) x.regs = true) (e : Env) (step n k : Nat) (wide : Bool) (u : Val) :
    (x.putVal e step n wide u).reg k =
      if n = k then { bits := u.bits.setWidth 32, tag := u.tag, tan := e.shadow n u.tan }
      else if wide = true ∧ n + 1 = k then { bits := (u.bits >>> 32).setWidth 32, tag := u.tag }
      else x.reg k := by
  unfold Strand.putVal
  cases wide
  · simp [Strand.reg_setReg h]
  · simp only [if_true, Strand.reg_setReg (Strand.wf_setReg h ..), Strand.reg_setReg h, true_and]
    by_cases h1 : n = k
    · subst h1; simp
    · simp [h1]

theorem Strand.wf_putVal {x : Strand} (h : Sparse.wf ({} : Reg) x.regs = true) (e : Env) (step n : Nat) (wide : Bool) (u : Val) :
    Sparse.wf ({} : Reg) (x.putVal e step n wide u).regs = true := by
  unfold Strand.putVal
  split
  · exact Strand.wf_setReg (Strand.wf_setReg h ..) ..
  · exact Strand.wf_setReg h ..

/-! The environment of a wavelet. -/

theorem State.env?_wav {e : Env} (h : s.env? w = some e) : s.wav? w = some e.wav ∧ e.wid = w := by
  unfold State.env? at h
  split at h
  · split at h
    · cases h; exact ⟨‹_›, rfl⟩
    · simp at h
  · simp at h

/-! Results (R50, R52, R62). -/

/-- The destination of a lane after an instruction that writes results `vs`. -/
def Ctx.destAfter (c : Ctx) (step : Nat) (wide : Bool) (vs : List (Nat × Val)) (l : Nat) (x : Strand) : Strand :=
  match c.f.d, Assoc.get? vs l with
  | .v n, some u => x.putVal c.env step n wide (c.tm u)
  | .o n, some u => { x with o := (n.val, c.tm u) :: x.o.filter (·.1 != n.val) }
  | _, _ => x

/-- A lane after an instruction that writes results `vs`: its destination, its last results, its PC. -/
def Ctx.laneAfter (c : Ctx) (step : Nat) (wide : Bool) (vs : List (Nat × Val)) (l : Nat) (x : Strand) : Strand :=
  let x := c.destAfter step wide vs l x
  let x := if l ∈ c.run.lanes.lanes c.env.wav.width then x.shiftQ ((Assoc.get? vs l).map c.tm) else x
  if c.run.lanes.has l then { x with pc := x.pc + 12 } else x

/-- The uniform registers after an instruction that writes results `vs`. -/
def Ctx.ufileAfter (c : Ctx) (wide : Bool) (vs : List (Nat × Val)) (w : List (Nat × UReg)) : List (Nat × UReg) :=
  match c.f.d, vs with
  | .w n, u :: _ =>
    let w' := Sparse.put {} w n ⟨u.2.bits.setWidth 32, u.2.tag⟩
    if wide then Sparse.put {} w' (n + 1) ⟨(u.2.bits >>> 32).setWidth 32, u.2.tag⟩ else w'
  | _, _ => w

/-- Everything that writing D does. -/
theorem State.putD_spec (c : Ctx) (wide : Bool) (vs : List (Nat × Val)) (h : s.wav? c.wid = some v)
    (hn : (vs.map (·.1)).Nodup) :
    ∃ ls, s.putD c wide vs = s.setWav c.wid (v.withFiles ls (c.ufileAfter wide vs v.w)) ∧
      ls.length = v.lanes.length ∧ ∀ l < v.lanes.length, ls.getD l {} = c.destAfter s.steps wide vs l (v.lane l) := by
  have self : s = s.setWav c.wid (v.withFiles v.lanes v.w) := (State.setWav_self h).symm
  unfold State.putD Ctx.ufileAfter Ctx.destAfter
  rcases c.f.d with n | n | n | n | _ | _
  · refine ⟨_, State.foldl_modLane vs (·.1) (fun st u x => x.putVal c.env st n wide (c.tm u.2)) h, by simp, fun l hl => ?_⟩
    rw [getD_foldl_assoc vs (fun u x => x.putVal c.env s.steps n wide (c.tm u)) _ _ _ hn hl]
    cases Assoc.get? vs l <;> rfl
  · refine ⟨_, State.foldl_modLane vs (·.1) (fun _ u x => { x with o := (n.val, c.tm u.2) :: x.o.filter (·.1 != n.val) }) h,
      length_foldl_listModify vs (·.1) (fun u (x : Strand) => { x with o := (n.val, c.tm u.2) :: x.o.filter (·.1 != n.val) }) _,
      fun l hl => ?_⟩
    rw [getD_foldl_assoc vs (fun u x => { x with o := (n.val, c.tm u) :: x.o.filter (·.1 != n.val) }) _ _ _ hn hl]
    cases Assoc.get? vs l <;> rfl
  · exact ⟨v.lanes, self, rfl, fun l _ => rfl⟩
  · cases vs with
    | nil => exact ⟨v.lanes, self, rfl, fun l _ => rfl⟩
    | cons u us => exact ⟨v.lanes, State.modWav_eq _ h, rfl, fun l _ => rfl⟩
  · exact ⟨v.lanes, self, rfl, fun l _ => rfl⟩
  · exact ⟨v.lanes, self, rfl, fun l _ => rfl⟩

/-- Everything that shifting the last results does. -/
theorem State.shiftAll_spec (c : Ctx) (vs : List (Nat × Val)) (h : s.wav? c.wid = some v) :
    ∃ ls, s.shiftAll c vs = s.setWav c.wid (v.withFiles ls v.w) ∧ ls.length = v.lanes.length ∧
      ∀ l < v.lanes.length, ls.getD l {} = if l ∈ c.run.lanes.lanes c.env.wav.width then
        (v.lane l).shiftQ ((Assoc.get? vs l).map c.tm) else v.lane l := by
  refine ⟨_, State.foldl_modLane _ id (fun _ l => (·.shiftQ ((Assoc.get? vs l).map c.tm))) h,
    length_foldl_listModify _ id (fun l (x : Strand) => x.shiftQ ((Assoc.get? vs l).map c.tm)) _, fun l hl => ?_⟩
  exact getD_foldl_mem _ (fun l x => x.shiftQ ((Assoc.get? vs l).map c.tm)) _ _ _ (Mask.nodup_lanes ..) hl

/-- A lane of the wavelet past an instruction. -/
theorem Wavelet.lane_advance (v : Wavelet) (m : Bool) (d : Option Deferred) {r : Run} (hr : v.run = some r) (l : Nat)
    (hl : l < v.lanes.length) :
    (v.advance m d).lane l = if r.lanes.has l then { v.lane l with pc := (v.lane l).pc + 12 } else v.lane l := by
  simp only [Wavelet.advance, hr, Wavelet.lane]
  rw [List.getD_eq_getElem?_getD, List.getElem?_map, List.getElem?_zipIdx]
  simp [List.getD_eq_getElem?_getD, hl]

/-- Everything that the end of a result-producing instruction does: it changes the one wavelet; there the D of each lane
in `vs`, the last results and the PCs of the bundle, the run's count, and what an issued instruction resets. -/
theorem State.finish_spec (c : Ctx) (wide : Bool) (vs : List (Nat × Val)) (h : s.wav? c.wid = some v)
    (hr : v.run = some c.run) (hn : (vs.map (·.1)).Nodup) :
    ∃ v', s.finish c wide vs = s.setWav c.wid v' ∧ v'.lanes.length = v.lanes.length ∧
      (∀ l < v.lanes.length, v'.lane l = c.laneAfter s.steps wide vs l (v.lane l)) ∧
      v' = { v with lanes := v'.lanes, w := c.ufileAfter wide vs v.w, stall := .none, replay := none, marks := [],
                    tried := [], failing := [],
                    run := some { c.run with count := c.run.count + 1, mustSeal := false, deferred := none } } := by
  obtain ⟨l1, h1, n1, g1⟩ := State.putD_spec c wide vs h hn
  obtain ⟨l2, h2, n2, g2⟩ := State.shiftAll_spec (s := s.putD c wide vs) (v := v.withFiles l1 (c.ufileAfter wide vs v.w)) c vs
    (by rw [h1]; simp)
  rw [Wavelet.withFiles_lanes, n1] at n2
  rw [Wavelet.withFiles_lanes, n1] at g2
  have h3 : s.finish c wide vs = s.setWav c.wid ((v.withFiles l2 (c.ufileAfter wide vs v.w)).advance false none) := by
    rw [State.finish, State.pass, h2, State.modWav_eq (v := v.withFiles l2 (c.ufileAfter wide vs v.w)) _ (by simp), h1]
    simp
  refine ⟨_, h3, ?_, fun l hl => ?_, ?_⟩
  · simp [Wavelet.advance, hr, n2]
  · rw [Wavelet.lane_advance _ _ _ (r := c.run) (by simpa using hr) _ (by simpa [n2] using hl), Wavelet.withFiles_lane, g2 l hl,
      Wavelet.withFiles_lane, g1 l hl]
    rfl
  · simp only [Wavelet.advance, Wavelet.withFiles_run, hr]
    rfl

end Machine

end Sys2Proof
end

