-- ==== Sys2Proof/Laws/Issue.lean ====
section
/-! SUPPORT. The issue of a word that nothing stops (R60), and what completes it: its result (`Wrote`) and its frame
(`RegisterFrame`). -/

namespace Sys2Proof.Laws

open Sys2Proof.Machine Sys2Proof.Claim

/-- No lane meets a check that none fails. -/
theorem checkLanes_none {ls more : List Nat} {p : Nat → Bool} (h : ∀ l ∈ ls ++ more, p l = false) : checkLanes ls more p = none := by
  have : (ls ++ more).any p = false := by
    rw [List.any_eq_false]; intro l hl; simp [h l hl]
  simp [checkLanes, this]

/-- A word that passes R125 has no cause of its own. -/
theorem wordCause_none {i e f r} (h : WordOk i e f r) : wordCause i f e.K r = none := by
  obtain ⟨h1, h2, h3, h4⟩ := h
  unfold wordCause
  rcases h3 with h3 | ⟨h3, h3'⟩
  · simp [h1, h2, h3, h4]
  · simp [h1, h2, h3', h4, Nat.not_le.2 h3]

/-- Lanes that meet no check of R60, steps 2 to 5, pass. -/
theorem gate_pass {i f sh e r ls} (hv : Valid i f sh e ls) (h1 : Full true i f sh e r ls) (h0 : Full false i f sh e r ls)
    (hf : Fits i f sh e ls) (hd : Free i f sh e ls) : gate i f sh e r ls false = .pass := by
  unfold gate
  dsimp only
  have of : ∀ l, (if (if sh.once = true then ls.take 1 else ls).contains l = true then sources i f sh e (ls.headD 0) l else [(2, f.a, sh.a)]) = reads i f sh e ls l := fun l => rfl
  have mine : ownsMarks i false = false := rfl
  simp only [mine, Bool.false_eq_true, if_false, List.contains_nil, Bool.or_false]
  rw [checkLanes_none]
  · dsimp only
    rw [checkLanes_none]
    · dsimp only
      rw [if_neg]
      · rw [checkLanes_none]
        · dsimp only
          rw [checkLanes_none]
          intro l hl
          rw [List.append_nil] at hl
          have := hd l hl
          simp only [Bool.not_eq_false', List.all_eq_true]
          intro k hk; simp [this k hk]
        · intro l hl
          rw [List.append_nil] at hl
          obtain ⟨ha, hb⟩ := hf l hl
          simp only [Bool.or_eq_false_iff]
          refine ⟨?_, ?_⟩
          · split
            · dsimp only at hb ⊢
              cases hfl : (Name.mains f.d 8).all fun k => ((e.lane l).reg k).full
              · rfl
              · simp only [Bool.true_and, List.any_eq_false]; intro k hk; simp [hb (by simpa using hfl) k hk]
            · dsimp only at hb ⊢
              cases hfl : (Name.mains f.d 8).all fun k => ((e.lane l).reg k).full
              · rfl
              · simp only [Bool.true_and, List.any_eq_false]; intro k hk; simp [hb (by simpa using hfl) k hk]
            · rfl
          · simp only [List.any_eq_false]; intro p hp; simp [ha p hp]
      · intro hcon
        simp only [List.any_eq_true, of] at hcon
        obtain ⟨l, hl, p, hp, hh⟩ := hcon
        have := h0 l hl p hp
        simp only [Bool.and_eq_true, beq_iff_eq, Bool.not_eq_true'] at hh
        have := this hh.1
        simp [List.all_eq_false] at hh
        obtain ⟨_, k, hk, hk'⟩ := hh
        simp [this k hk] at hk'
    · intro l hl
      simp only [of, List.any_eq_false]
      intro p hp hh
      have := h1 l hl p hp
      simp only [Bool.and_eq_true, beq_iff_eq, Bool.not_eq_true'] at hh
      have := this hh.1
      simp [List.all_eq_false] at hh
      obtain ⟨_, k, hk, hk'⟩ := hh
      simp [this k hk] at hk'
  · intro l hl
    simp only [of, List.any_eq_false]
    intro p hp hh
    rcases hv l hl p hp with h | ⟨h, hc⟩
    · simp [h, Env.validFor] at hh
    · unfold Env.validFor at hh
      by_cases hk : p.2.2 = Read.coords
      · simp [h, hc hk] at hh
      · simp [h, hk] at hh

/-- A word that no check stops begins its own effect (R60, step 6). -/
theorem issue_ready {i s e f sh r} (h : Ready i s e f sh r) :
    issue i s = .ok (ctx e f r, s.readBy i f sh e (e.acting f.guard r)) := by
  obtain ⟨⟨h1, h2, h3, h4, _⟩, hw, hr, hv, hF1, hF0, hf, hd⟩ := h
  unfold issue
  rw [h1, h2]
  dsimp only
  rw [h4]
  dsimp only
  rw [wordCause_none hw, h3]
  dsimp only
  rw [hr]
  simp only [Option.isSome_none]
  rw [gate_pass hv hF1 hF0 hf hd]
  rfl

/-- state after issue & predicate writes: wavelet v0 soft-equal -/
structure Soft (x y : Strand) : Prop where
  pc : y.pc = x.pc
  q : y.q = x.q
  o : y.o = x.o
  regs : y.regs = x.regs

/-- A wavelet that differs in flags and predicates alone. -/
def SoftW (a b : Wavelet) : Prop := b = a.withFiles b.lanes a.w ∧ b.lanes.length = a.lanes.length ∧ ∀ l < a.lanes.length, Soft (a.lane l) (b.lane l)

/-- A lane of a wavelet is one of its lanes. -/
theorem lane_mem {v : Wavelet} {l : Nat} (h : l < v.lanes.length) : v.lane l ∈ v.lanes := by
  simp [Wavelet.lane, h]

theorem get?_of_map {α} {vs : List (Nat × α)} {l : Nat} (h : l ∈ vs.map (·.1)) : ∃ u, Assoc.get? vs l = some u := by
  induction vs with
  | nil => simp at h
  | cons x xs ih =>
    simp only [Assoc.get?]
    by_cases hx : x.1 = l
    · exact ⟨x.2, by simp [hx]⟩
    · simp only [List.map_cons, List.mem_cons] at h
      rcases h with h | h
      · exact absurd h.symm hx
      · simp only [hx, if_false]; exact ih h

/-- What `State.finish` leaves is what `Wrote` says (R50, R52, R62). -/
theorem wrote_finish {s0 : State} {e f r v0 wide} {vs : List (Nat × Val)} (ht : Tidy e.wav) (hr : e.wav.run = some r)
    (hw : s0.wav? e.wid = some v0) (hs : SoftW e.wav v0) (hv : vs.map (·.1) = e.acting f.guard r) :
    ∃ v, (s0.finish (ctx e f r) wide vs) = s0.setWav e.wid v ∧
     Moved e r v ∧ Shifted e f r (fun l => (ctx e f r).tm ((Assoc.get? vs l).getD ⟨0,0,[]⟩)) v ∧
    Holds e f.d wide (e.acting f.guard r) (fun l => (ctx e f r).tm ((Assoc.get? vs l).getD ⟨0,0,[]⟩)) v := by
  obtain ⟨t1, t2, t3, t4⟩ := ht
  obtain ⟨s1, s2, s3⟩ := hs
  have hn : (vs.map (·.1)).Nodup := by rw [hv]; exact Env.acting_nodup ..
  have hr0 : v0.run = some (ctx e f r).run := by rw [s1]; exact hr
  have hw0 : v0.w = e.wav.w := by rw [s1]; rfl
  obtain ⟨v, h1, h2, h3, h4⟩ := State.finish_spec (s := s0) (v := v0) (ctx e f r) wide vs hw hr0 hn
  have len : v0.lanes.length = e.wav.width := by rw [s2, t1]
  refine ⟨v, h1, ⟨?_, ?_, ?_, ?_⟩, ?_, ?_⟩
  · rw [h4]; rfl
  · rw [h4]
  · rw [h4]
  · intro l hl
    obtain ⟨hlw, hlr⟩ := Mask.mem_lanes.1 hl
    rw [h3 l (by omega)]
    simp only [Ctx.laneAfter, show (ctx e f r).run = r from rfl, hlr, if_true]
    have e1 : ∀ x : Strand, ((ctx e f r).destAfter s0.steps wide vs l x).pc = x.pc := by
      intro x; unfold Ctx.destAfter; split <;> simp
    split
    · simp [e1, (s3 l (by omega)).pc, Env.lane]
    · simp [e1, (s3 l (by omega)).pc, Env.lane]
  · intro l hl
    obtain ⟨hlw, hlr⟩ := Mask.mem_lanes.1 hl
    rw [h3 l (by omega)]
    have e1 : ∀ x : Strand, ((ctx e f r).destAfter s0.steps wide vs l x).q = x.q := by
      intro x; unfold Ctx.destAfter; split <;> simp
    have hb : l ∈ (ctx e f r).run.lanes.lanes (ctx e f r).env.wav.width := hl
    simp only [Ctx.laneAfter, show (ctx e f r).run.lanes.has l = true from hlr, if_true, hb]
    simp only [Strand.shiftQ, e1, (s3 l (by omega)).q, Env.lane]
    congr 2
    by_cases ha : l ∈ e.acting f.guard r
    · obtain ⟨u, hu⟩ := get?_of_map (by rw [hv]; exact ha)
      simp [ha, hu]
    · rw [Assoc.get?_none (by rw [hv]; exact ha)]
      simp [ha]
  · have key : ∀ l ∈ e.acting f.guard r, ∃ u, Assoc.get? vs l = some u ∧ l < e.wav.width ∧
        v.lane l = (ctx e f r).laneAfter s0.steps wide vs l (v0.lane l) := by
      intro l hl
      obtain ⟨u, hu⟩ := get?_of_map (vs := vs) (by rw [hv]; exact hl)
      have := Env.acting_sub hl
      exact ⟨u, hu, this.1, h3 l (by omega)⟩
    have e2 : ∀ l (x : Strand), ((ctx e f r).laneAfter s0.steps wide vs l x).regs = ((ctx e f r).destAfter s0.steps wide vs l x).regs := by
      intro l x; unfold Ctx.laneAfter; split <;> split <;> simp [Strand.shiftQ]
    have e3 : ∀ l (x : Strand), ((ctx e f r).laneAfter s0.steps wide vs l x).o = ((ctx e f r).destAfter s0.steps wide vs l x).o := by
      intro l x; unfold Ctx.laneAfter; split <;> split <;> simp [Strand.shiftQ]
    unfold Holds
    rcases hd : f.d with n | n | n | n | _ | _
    · intro l hl
      obtain ⟨u, hu, hlw, hl'⟩ := key l hl
      have wf : Sparse.wf ({} : Reg) (v0.lane l).regs = true := by
        rw [(s3 l (by omega)).regs]; exact t4 _ (lane_mem (by omega))
      have er : ∀ k, (v.lane l).reg k = (((v0.lane l).putVal e s0.steps n wide ((ctx e f r).tm u))).reg k := by
        intro k
        unfold Strand.reg
        rw [hl', e2]
        unfold Ctx.destAfter
        simp only [show (ctx e f r).f.d = Name.v n from hd, hu]
        rfl
      simp only [hu, Option.getD_some]
      refine ⟨?_, ?_⟩
      · rw [er, Strand.reg_putVal wf]; simp
      · intro hwd
        rw [er, Strand.reg_putVal wf]; simp [hwd]
    · intro l hl
      obtain ⟨u, hu, hlw, hl'⟩ := key l hl
      rw [hl', e3]
      unfold Ctx.destAfter
      simp only [show (ctx e f r).f.d = Name.o n from hd, hu]
      rfl
    · trivial
    · intro l hl
      cases vs with
      | nil => rw [← hv] at hl; simp at hl
      | cons p ps =>
        have hp : p.1 = l := by rw [← hv] at hl; simpa using hl
        have hw1 : v.w = (ctx e f r).ufileAfter wide (p :: ps) v0.w := by rw [h4]
        have hg : Assoc.get? (p :: ps) l = some p.2 := by simp [Assoc.get?, hp]
        simp only [hg, Option.getD_some]
        rw [hw1, hw0]
        have tb : ∀ u, ((ctx e f r).tm u).bits = u.bits ∧ ((ctx e f r).tm u).tag = u.tag := by
          intro u; unfold Ctx.tm; split <;> simp
        simp only [tb]
        unfold Ctx.ufileAfter
        simp only [show (ctx e f r).f.d = Name.w n from hd]
        cases wide
        · simp only [Bool.false_eq_true, if_false]
          refine ⟨by rw [Sparse.get_put _ _ _ t3]; simp, fun h => by simp at h⟩
        · simp only [if_true, forall_true_left]
          refine ⟨?_, ?_⟩
          · rw [Sparse.get_put _ _ _ (Sparse.wf_put _ _ t3), Sparse.get_put _ _ _ t3]; simp
          · rw [Sparse.get_put _ _ _ (Sparse.wf_put _ _ t3)]; simp
    · trivial
    · trivial

/-- The meaning of such a word is its own effect on the flagged state. -/
theorem exec_meaning {i s e f sh r} (h : Ready i s e f sh r) (k : Ctx → State → Res) :
    meaning i s k = k (ctx e f r) (s.readBy i f sh e (e.acting f.guard r)) := by
  unfold meaning; rw [issue_ready h]

/-- The issuing wavelet is the one the environment holds. -/
theorem cur_wav {i s e f sh r} (h : Issues i s e f sh r) : s.wav? e.wid = some e.wav ∧ s.cur = some e.wid := by
  have h1 := h.1
  cases hc : s.cur with
  | none => simp [hc] at h1
  | some w =>
    rw [hc] at h1
    have := State.env?_wav (show s.env? w = some e from h1)
    exact ⟨this.2 ▸ this.1, by rw [this.2]⟩

/-- Nothing changed. -/
theorem soft_refl (v : Wavelet) : SoftW v v := ⟨rfl, rfl, fun _ _ => ⟨rfl, rfl, rfl, rfl⟩⟩

/-- Setting flags is such a change. -/
theorem soft_flag {s : State} {w : WavId} {v a : Wavelet} {ls : List Nat} {b : W32} (h : s.wav? w = some v) (hs : SoftW a v) (hn : ls.Nodup) :
    ∃ v', (s.flagLanes w ls b).wav? w = some v' ∧ SoftW a v' ∧ (s.flagLanes w ls b) = s.setWav w v' := by
  obtain ⟨xs, h1, h2, h3⟩ := State.flagLanes_spec b h hn
  refine ⟨v.withFiles xs v.w, by rw [h1]; simp, ⟨?_, ?_, fun l hl => ?_⟩, h1⟩
  · rw [hs.1]; rfl
  · simp [h2, hs.2.1]
  · have e := h3 l (by rw [hs.2.1]; exact hl)
    have k := hs.2.2 l hl
    rw [Wavelet.withFiles_lane, e]
    split
    · exact ⟨k.pc, k.q, k.o, k.regs⟩
    · exact k

/-- So is writing predicates. -/
theorem soft_preds {s : State} {w : WavId} {v a : Wavelet} {n : Nat} {vs : List (Nat × Bool)} (h : s.wav? w = some v) (hs : SoftW a v) (hn : (vs.map (·.1)).Nodup) :
    ∃ v', (s.setPreds w n vs).wav? w = some v' ∧ SoftW a v' ∧ (s.setPreds w n vs) = s.setWav w v' := by
  obtain ⟨xs, h1, h2, h3⟩ := State.setPreds_spec n vs h hn
  refine ⟨v.withFiles xs v.w, by rw [h1]; simp, ⟨?_, ?_, fun l hl => ?_⟩, h1⟩
  · rw [hs.1]; rfl
  · simp [h2, hs.2.1]
  · have e := h3 l (by rw [hs.2.1]; exact hl)
    have k := hs.2.2 l hl
    rw [Wavelet.withFiles_lane, e]
    split
    · exact ⟨by simp [k.pc], by simp [k.q], by simp [k.o], by simp [k.regs]⟩
    · exact k

/-- Finding registers full changes what lanes have seen alone. -/
theorem finds_spec {w : WavId} {rs : Nat → List Nat} (ls : List Nat) : ∀ {s : State} {v : Wavelet}, s.wav? w = some v →
    ∃ v', (s.finds w ls rs).wav? w = some v' ∧ s.finds w ls rs = s.setWav w v' ∧ v' = v.withFiles v'.lanes v.w ∧
      v'.lanes.length = v.lanes.length ∧ ∀ l < v.lanes.length, ∃ sn ar pa,
        v'.lane l = { v.lane l with seen := sn, arrived := ar, past := pa } := by
  induction ls with
  | nil => intro s v h; exact ⟨v, h, (State.setWav_self h).symm, rfl, rfl, fun l _ => ⟨_, _, _, rfl⟩⟩
  | cons k ls ih =>
    intro s v h
    have e1 : s.modLane w k (·.find s.steps (rs k)) = s.setWav w { v with lanes := listModify (·.find s.steps (rs k)) v.lanes k } :=
      State.modWav_eq _ h
    obtain ⟨v', h1, h2, h3, h4, h5⟩ := ih (s := s.modLane w k (·.find s.steps (rs k))) (v := { v with lanes := listModify (·.find s.steps (rs k)) v.lanes k })
      (by rw [e1]; simp)
    refine ⟨v', h1, by rw [show s.finds w (k :: ls) rs = (s.modLane w k (·.find s.steps (rs k))).finds w ls rs from rfl, h2, e1, State.setWav_setWav],
      h3, by rw [h4]; simp, fun l hl => ?_⟩
    obtain ⟨sn, ar, pa, e5⟩ := h5 l (by simpa using hl)
    rw [e5]
    have e6 : ({ v with lanes := listModify (·.find s.steps (rs k)) v.lanes k } : Wavelet).lane l =
        if l = k then (v.lane l).find s.steps (rs k) else v.lane l := by
      show (listModify _ v.lanes k).getD l {} = _
      rw [getD_listModify]
      by_cases hk : l = k
      · rw [if_pos ⟨hk, hl⟩, if_pos hk]; rfl
      · rw [if_neg fun h => hk h.1, if_neg hk]; rfl
    rw [e6]
    split
    · refine ⟨sn, ar, pa, ?_⟩
      unfold Strand.find; split <;> rfl
    · exact ⟨sn, ar, pa, rfl⟩

/-- So is finding registers full. -/
theorem soft_finds {s : State} {w : WavId} {v a : Wavelet} {ls : List Nat} {rs : Nat → List Nat} (h : s.wav? w = some v) (hs : SoftW a v) :
    ∃ v', (s.finds w ls rs).wav? w = some v' ∧ SoftW a v' ∧ s.finds w ls rs = s.setWav w v' := by
  obtain ⟨v', h1, h2, h3, h4, h5⟩ := finds_spec (rs := rs) ls h
  refine ⟨v', h1, ⟨by rw [h3, hs.1]; rfl, by rw [h4, hs.2.1], fun l hl => ?_⟩, h2⟩
  obtain ⟨sn, ar, pa, e⟩ := h5 l (by rw [hs.2.1]; exact hl)
  have k := hs.2.2 l hl
  rw [e]
  exact ⟨k.pc, k.q, k.o, k.regs⟩

/-- A lane is flagged once. -/
theorem convFlags_nodup {i f sh e} {ls : List Nat} (h : ls.Nodup) : (convFlags i f sh e ls).Nodup := by
  unfold convFlags; dsimp only; split
  · exact (h.sublist (List.take_sublist _ _)).filter _
  · exact h.filter _

/-- Issuing changes flags alone. -/
theorem issued_soft {i s e f sh r} (h : Ready i s e f sh r) :
    ∃ v, (s.readBy i f sh e (e.acting f.guard r)).wav? e.wid = some v ∧ SoftW e.wav v := by
  obtain ⟨v, h1, h2, _⟩ := soft_flag (b := stCnvSat) (cur_wav h.1).1 (soft_refl _) (convFlags_nodup (Env.acting_nodup e f.guard r))
  obtain ⟨v', h3, h4, _⟩ := soft_finds h1 h2
  exact ⟨v', h3, h4⟩

/-- Finishing after such changes completes the instruction. -/
theorem fin {i s e f sh r} (h : Ready i s e f sh r) {s0 : State} {v0 : Wavelet} (hw : s0.wav? e.wid = some v0) (hs : SoftW e.wav v0)
    {wide : Bool} {vs : List (Nat × Val)} (hv : vs.map (·.1) = e.acting f.guard r) :
    ∃ t val, (Host.Outcome.next (s0.finish (ctx e f r) wide vs) : Res) = .next t ∧ Wrote e f wide r val t := by
  obtain ⟨v, h1, h2, h3, h4⟩ := wrote_finish (wide := wide) h.1.2.2.2.2 h.1.2.2.2.1 hw hs hv
  exact ⟨_, _, rfl, v, by rw [h1]; simp, h2, h3, h4⟩

/-- A floating type has a format. -/
theorem fmt_some {t : Ty} (h : t.isFloat = true) : ∃ fm, t.fmt? = some fm := by
  cases t <;> simp [Ty.isFloat, Ty.fmt?] at *

/-- Rounding keeps the lanes. -/
theorem round_map {c : Ctx} {t : Ty} {xs} (h : t.isFloat = true) : (c.round t xs).map (·.1) = xs.map (·.1) := by
  obtain ⟨fm, hf⟩ := fmt_some h
  simp [Ctx.round, hf, List.map_map, Function.comp_def]

/-- Each acting lane once. -/
theorem each_map {α} (c : Ctx) (g : Nat → α) : (c.each g).map (·.1) = c.lanes := by
  simp [Ctx.each, List.map_map, Function.comp_def]

/-- Finishing a floating result completes the instruction. -/
theorem finFloat {i s e f sh r} (h : Ready i s e f sh r) {s0 : State} {v0 : Wavelet} (hw : s0.wav? e.wid = some v0) (hs : SoftW e.wav v0)
    {t : Ty} (ht : t.isFloat = true) {xs g} (hx : xs.map (·.1) = e.acting f.guard r) :
    ∃ t' val, (Host.Outcome.next ((ctx e f r).finishFloat s0 t xs g) : Res) = .next t' ∧ Wrote e f t.wide r val t' := by
  unfold Ctx.finishFloat
  dsimp only
  have e1 : ((ctx e f r).round t xs).map (·.1) = e.acting f.guard r := by rw [round_map ht, hx]
  obtain ⟨v1, h1, h2, _⟩ := soft_flag (b := stCnvSat) (ls := ((((ctx e f r).round t xs).filter fun r => r.2.any (·.sat98)).map (·.1))) hw hs (by
    have : ((((ctx e f r).round t xs).filter fun r => r.2.any (·.sat98)).map (·.1)).Sublist (((ctx e f r).round t xs).map (·.1)) := List.Sublist.map _ List.filter_sublist
    rw [e1] at this
    exact (Env.acting_nodup ..).sublist this)
  exact fin h h1 h2 (by simpa [List.map_map, Function.comp_def] using e1)

/-- An instruction has one shape. -/
theorem sh_eq {i : Instr} {sh sh'} (h : i.shape = some sh) (h' : i.shape = some sh') : sh = sh' := by
  rw [h] at h'; simpa using h'

/-- An instruction has one record of fields. -/
theorem f_eq {i : Instr} {f g} (h : i.fields? = some f) (h' : i.fields? = some g) : f = g := by
  rw [h] at h'; simpa using h'

/-- A legal word meets its shape. -/
theorem legal_ty {i : Instr} {f sh} (hl : i.legal = true) (hf : i.fields? = some f) (hs : i.shape = some sh) : sh.ok f = true := by
  simpa [Instr.legal, hf, hs] using hl

/-- A word that meets its shape has one of its types. -/
theorem ok_types {sh : Shape} {f} (h : sh.ok f = true) (ht : sh.types ≠ []) : f.ty ∈ sh.types := by
  unfold Shape.ok at h
  simp only [Bool.and_eq_true] at h
  obtain ⟨⟨⟨⟨⟨⟨⟨⟨⟨⟨-, -⟩, h3⟩, -⟩, -⟩, -⟩, -⟩, -⟩, -⟩, -⟩, -⟩ := h
  have : sh.types.isEmpty = false := by cases hh : sh.types <;> simp_all
  rw [this] at h3
  simpa using h3

/-- A word that meets its shape has its modifiers and immediate. -/
theorem ok_imm {sh : Shape} {f} (h : sh.ok f = true) : sh.imm = true ∧ sh.also = true ∧ sh.md = true := by
  unfold Shape.ok at h
  simp only [Bool.and_eq_true] at h
  exact ⟨h.1.1.1.1.1.1.2, h.1.1.1.1.1.2, h.1.1.1.1.1.1.1.2⟩

/-- The transcendental instructions complete. -/
theorem special_done {i s e f sh r} (h : Ready i s e f sh r) {s0 : State} {v0 : Wavelet} (hw : s0.wav? e.wid = some v0) (hs : SoftW e.wav v0)
    (ht : f.ty.isFloat = true) {fn g} :
    ∃ t' val, (Ctx.special (ctx e f r) s0 fn g) = .next t' ∧ Wrote e f f.ty.wide r val t' := by
  obtain ⟨fm, hf⟩ := fmt_some ht
  unfold Ctx.special
  simp only [show (ctx e f r).f.ty = f.ty from rfl, hf]
  exact fin h hw hs (each_map _ _)

theorem setPred_pred (x : Strand) (n : Nat) (b : Bool) (h : n < 7) : (x.setPred n b).pred n = b := by
  unfold Strand.setPred Strand.pred
  rw [if_pos h]
  have h7 : (n == 7) = false := by simp; omega
  simp only [h7, Bool.false_or]
  cases b <;> simp [h]

/-- preds unchanged by finish -/
theorem finish_pred {s0 : State} {v0 v : Wavelet} {c : Ctx} {wide : Bool} {vs : List (Nat × Val)}
    (hw : s0.wav? c.wid = some v0) (hr : v0.run = some c.run) (hn : (vs.map (·.1)).Nodup) (hv : (s0.finish c wide vs).wav? c.wid = some v) {l : Nat} (hl : l < v0.lanes.length) :
    (v.lane l).preds = (v0.lane l).preds ∧ (v.lane l).status = (v0.lane l).status := by
  obtain ⟨v', h1, h2, h3, h4⟩ := State.finish_spec (s := s0) (v := v0) c wide vs hw hr hn
  rw [h1] at hv
  obtain rfl : v' = v := by simpa using hv
  rw [h3 l hl]
  unfold Ctx.laneAfter
  have e1 : ∀ x : Strand, (c.destAfter s0.steps wide vs l x).preds = x.preds ∧ (c.destAfter s0.steps wide vs l x).status = x.status := by
    intro x; unfold Ctx.destAfter; split <;> simp
  split <;> (try split) <;> simp [e1]

theorem preds_val {s : State} {w : WavId} {v v' : Wavelet} {n : Nat} {vs : List (Nat × Bool)} (h : s.wav? w = some v) (hn : (vs.map (·.1)).Nodup)
    (h' : (s.setPreds w n vs).wav? w = some v') {l : Nat} {b : Bool} (hl : l < v.lanes.length) (hb : Assoc.get? vs l = some b) : v'.lane l = (v.lane l).setPred n b := by
  obtain ⟨xs, h1, h2, h3⟩ := State.setPreds_spec n vs h hn
  rw [h1] at h'
  obtain rfl := by simpa using h'
  rw [Wavelet.withFiles_lane, h3 l hl, hb]

theorem setWav_undo {s : State} {w : WavId} {v v' : Wavelet} (h : s.wav? w = some v) : (s.setWav w v').setWav w v = s := by
  rw [State.setWav_setWav, State.setWav_self h]

theorem flag_status {s : State} {w : WavId} {v v' : Wavelet} {ls : List Nat} {b : W32} (h : s.wav? w = some v) (hn : ls.Nodup)
    (h' : (s.flagLanes w ls b).wav? w = some v') {l : Nat} (hl : l < v.lanes.length) : v'.lane l = if l ∈ ls then (v.lane l).flag b else v.lane l := by
  obtain ⟨xs, h1, h2, h3⟩ := State.flagLanes_spec b h hn
  rw [h1] at h'
  obtain rfl := by simpa using h'
  rw [Wavelet.withFiles_lane, h3 l hl]

/-! Frames. -/

/-- lane after flags & preds -/
def SoftL (k : Writes) (acts : Bool) (x y : Strand) : Prop :=
  (∃ st pr sn ar pa, y = { x with status := st, preds := pr, seen := sn, arrived := ar, past := pa }) ∧ y.status &&& ~~~k.flags = x.status &&& ~~~k.flags ∧ y.status &&& x.status = x.status ∧
  ∀ n, acts = false ∨ k.preds n = false → y.pred n = x.pred n

structure SoftX (k : Writes) (e : Env) (f : Fields) (r : Run) (s s0 : State) (v0 : Wavelet) : Prop where
  soft : SoftW e.wav v0
  st : s0 = s.setWav e.wid v0
  lanes : ∀ l < e.wav.lanes.length, SoftL k ((e.acting f.guard r).contains l) (e.lane l) (v0.lane l)

theorem softL_refl (k a x) : SoftL k a x x := ⟨⟨_, _, _, _, _, rfl⟩, rfl, by simp, fun _ _ => rfl⟩

theorem softX_flag {k e f r s s0 v0} {ls : List Nat} {b : W32} (hw : s0.wav? e.wid = some v0) (h : SoftX k e f r s s0 v0) (hn : ls.Nodup) (hb : b &&& ~~~k.flags = 0) :
    ∃ v1, (s0.flagLanes e.wid ls b).wav? e.wid = some v1 ∧ SoftX k e f r s (s0.flagLanes e.wid ls b) v1 := by
  obtain ⟨v1, h1, h2, h3⟩ := soft_flag (b := b) hw h.soft hn
  refine ⟨v1, h1, ⟨h2, by rw [h3, h.st, State.setWav_setWav], fun l hl => ?_⟩⟩
  have hf := flag_status hw hn h1 (l := l) (by rw [h.soft.2.1]; exact hl)
  have hL := h.lanes l hl
  rw [hf]
  split
  · obtain ⟨⟨st, pr, sn, ar, pa, e1⟩, e2, e3, e4⟩ := hL
    refine ⟨⟨st ||| b, pr, sn, ar, pa, by rw [e1]; rfl⟩, ?_, ?_, fun n hn => ?_⟩
    · simp only [Strand.flag, BitVec.and_or_distrib_right, e2]
      rw [hb]; simp
    · simp only [Strand.flag, BitVec.and_or_distrib_right, e3]
      ext i hi; simp
    · rw [← e4 n hn]; rfl
  · exact hL

theorem softX_preds {k e f r s s0 v0} {n : Nat} {vs : List (Nat × Bool)} (hw : s0.wav? e.wid = some v0) (h : SoftX k e f r s s0 v0) (hn : (vs.map (·.1)).Nodup)
    (hs : vs.map (·.1) = e.acting f.guard r) (hp : k.preds n = true) :
    ∃ v1, (s0.setPreds e.wid n vs).wav? e.wid = some v1 ∧ SoftX k e f r s (s0.setPreds e.wid n vs) v1 := by
  obtain ⟨v1, h1, h2, h3⟩ := soft_preds (n := n) hw h.soft hn
  refine ⟨v1, h1, ⟨h2, by rw [h3, h.st, State.setWav_setWav], fun l hl => ?_⟩⟩
  have hL := h.lanes l hl
  obtain ⟨xs, g1, g2, g3⟩ := State.setPreds_spec n vs hw hn
  rw [g1] at h1
  obtain rfl := by simpa using h1
  rw [Wavelet.withFiles_lane, g3 l (by rw [h.soft.2.1]; exact hl)]
  obtain ⟨⟨st, pr, sn, ar, pa, e1⟩, e2, e3, e4⟩ := hL
  split
  · rename_i b hb
    refine ⟨?_, by simpa using e2, by simpa using e3, fun m hm => ?_⟩
    · unfold Strand.setPred; rw [e1]; split <;> exact ⟨_, _, _, _, _, rfl⟩
    · rw [← e4 m hm]
      have hmn : m ≠ n := by
        rintro rfl
        rcases hm with hm | hm
        · have : l ∈ vs.map (·.1) := by
            by_contra hc; rw [Assoc.get?_none hc] at hb; simp at hb
          rw [hs] at this; simp [this] at hm
        · rw [hp] at hm; simp at hm
      unfold Strand.setPred Strand.pred
      split
      · rename_i h7
        cases b
        · simp only [Bool.false_eq_true, if_false, BitVec.getLsbD_and, BitVec.getLsbD_not, BitVec.getLsbD_twoPow]
          by_cases hm7 : m < 7
          · simp [hm7, Ne.symm hmn]
          · simp [hm7, BitVec.getLsbD_of_ge _ _ (Nat.le_of_not_lt hm7)]
        · simp only [if_true, BitVec.getLsbD_or, BitVec.getLsbD_twoPow]
          simp [Ne.symm hmn]
      · rfl
  · exact ⟨⟨st, pr, sn, ar, pa, e1⟩, e2, e3, e4⟩

theorem softX_finds {k e f r s s0 v0} {ls : List Nat} {rs : Nat → List Nat} (hw : s0.wav? e.wid = some v0) (h : SoftX k e f r s s0 v0) :
    ∃ v1, (s0.finds e.wid ls rs).wav? e.wid = some v1 ∧ SoftX k e f r s (s0.finds e.wid ls rs) v1 := by
  obtain ⟨v1, h1, h2, h3⟩ := soft_finds (ls := ls) (rs := rs) hw h.soft
  refine ⟨v1, h1, ⟨h2, by rw [h3, h.st, State.setWav_setWav], fun l hl => ?_⟩⟩
  obtain ⟨v2, g1, g2, g3, g4, g5⟩ := finds_spec (rs := rs) ls hw
  rw [g1] at h1
  obtain rfl := by simpa using h1
  obtain ⟨sn', ar', pa', e5⟩ := g5 l (by rw [h.soft.2.1]; exact hl)
  obtain ⟨⟨st, pr, sn, ar, pa, e1⟩, e2, e3, e4⟩ := h.lanes l hl
  rw [e5]
  exact ⟨⟨st, pr, sn', ar', pa', by rw [e1]⟩, e2, e3, e4⟩

theorem softX_start {k i s e f sh r} (h : Ready i s e f sh r) (hb : stCnvSat &&& ~~~k.flags = 0) :
    ∃ v0, (s.readBy i f sh e (e.acting f.guard r)).wav? e.wid = some v0 ∧
      SoftX k e f r s (s.readBy i f sh e (e.acting f.guard r)) v0 := by
  have hw := (cur_wav h.1).1
  obtain ⟨v1, h1, h2⟩ := softX_flag hw ⟨soft_refl _, (State.setWav_self hw).symm, fun l _ => softL_refl ..⟩ (convFlags_nodup (Env.acting_nodup ..)) hb
  exact softX_finds h1 h2

def MoreKept (x y : Strand) : Prop := y.live = x.live ∧ y.wait = x.wait ∧ y.stack = x.stack ∧ y.lineage = x.lineage ∧ y.faddr = x.faddr ∧ y.priv = x.priv ∧ y.planes = x.planes ∧ y.absent = x.absent ∧ y.preds = x.preds ∧ y.status = x.status

theorem destAfter_kept (c : Ctx) (step wide vs l x) : MoreKept x (c.destAfter step wide vs l x) := by
  unfold Ctx.destAfter MoreKept; split <;> simp

/-- the part of Writes that SoftX looks at -/
def keeps (i : Instr) (flags : W32 := stCnvSat) : Writes := { preds := writesPred i, flags := flags }

theorem frame_fin {i s e f sh r} (h : Ready i s e f sh r) {s0 : State} {v0 : Wavelet} (hw : s0.wav? e.wid = some v0)
    {wide : Bool} {flags : W32} (hx : SoftX (keeps i flags) e f r s s0 v0)
    {vs : List (Nat × Val)} (hv : vs.map (·.1) = e.acting f.guard r) :
    RegisterFrame (Writes.result i f.d wide flags) s e f r (s0.finish (ctx e f r) wide vs) := by
  have hn : (vs.map (·.1)).Nodup := by rw [hv]; exact Env.acting_nodup ..
  obtain ⟨t1, t2, t3, t4⟩ := h.1.2.2.2.2
  obtain ⟨v, h1, h2, h3, h4⟩ := State.finish_spec (s := s0) (v := v0) (ctx e f r) wide vs hw (by rw [hx.soft.1]; exact h.1.2.2.2.1) hn
  have hws := (cur_wav h.1).1
  have hS : s0.finish (ctx e f r) wide vs = s.setWav e.wid v := by
    rw [h1, hx.st]; exact State.setWav_setWav ..
  rw [hS]
  have len : v.lanes.length = e.wav.lanes.length := by rw [h2, hx.soft.2.1]
  have hw0 : v0.w = e.wav.w := by rw [hx.soft.1]; rfl
  have lane_out : ∀ l, ¬ l < e.wav.lanes.length → v.lane l = e.lane l := by
    intro l hl
    show v.lanes.getD l {} = e.wav.lanes.getD l {}
    simp only [List.getD_eq_getElem?_getD]
    rw [List.getElem?_eq_none (by omega), List.getElem?_eq_none (by omega)]
  have key : ∀ l, LaneKept (Writes.result i f.d wide flags) ((e.acting f.guard r).contains l) (r.lanes.has l) (e.lane l) (v.lane l) := by
    intro l
    by_cases hl : l < e.wav.lanes.length
    · obtain ⟨⟨st, pr, sn, ar, pa, e1⟩, e2, e3, e4⟩ := hx.lanes l hl
      rw [h3 l (by rw [hx.soft.2.1]; exact hl)]
      obtain ⟨k1, k2, k3, kL, k4, k5, k6, k7, k8, k9⟩ := destAfter_kept (ctx e f r) s0.steps wide vs l (v0.lane l)
      have hmem : l ∈ vs.map (·.1) ↔ l ∈ e.acting f.guard r := by rw [hv]
      have hregs : ∀ n, (e.acting f.guard r).contains l = false ∨ from' f.d (if wide then 2 else 1) n = false →
          ((ctx e f r).destAfter s0.steps wide vs l (v0.lane l)).reg n = (e.lane l).reg n := by
        intro n hn
        have e0 : (v0.lane l).reg n = (e.lane l).reg n := by rw [e1]; rfl
        have wf0 : Sparse.wf ({} : Reg) (v0.lane l).regs = true := by
          rw [e1]; exact t4 (e.lane l) (lane_mem hl)
        unfold Ctx.destAfter
        rw [show (ctx e f r).f.d = f.d from rfl]
        split
        · rename_i m u hd hu
          rw [Strand.reg_putVal wf0]
          rcases hn with hn | hn
          · exfalso
            have : l ∈ vs.map (·.1) := by by_contra hc; rw [Assoc.get?_none hc] at hu; simp at hu
            rw [hmem] at this; simp [this] at hn
          · rw [hd] at hn
            cases wide
            · simp [from', Name.mains] at hn
              simp [Ne.symm hn, e0]
            · simp [from', Name.mains, List.range_succ] at hn
              simp [Ne.symm hn.1, Ne.symm hn.2, e0]
        · exact e0
        · exact e0
      have ho : ∀ p : Nat × Val, (e.acting f.guard r).contains l = false ∨ (f.d.code == 448 + p.1) = false →
          (p ∈ ((ctx e f r).destAfter s0.steps wide vs l (v0.lane l)).o ↔ p ∈ (e.lane l).o) := by
        intro p hn
        have e0 : (v0.lane l).o = (e.lane l).o := by rw [e1]
        unfold Ctx.destAfter
        rw [show (ctx e f r).f.d = f.d from rfl]
        split
        · rw [Strand.putVal_o, e0]
        · rename_i m u hd hu
          rcases hn with hn | hn
          · exfalso
            have : l ∈ vs.map (·.1) := by by_contra hc; rw [Assoc.get?_none hc] at hu; simp at hu
            rw [hmem] at this; simp [this] at hn
          · rw [hd] at hn
            have hpm : p.1 ≠ m.val := by
              intro hc; simp [Name.code, hc] at hn
            simp only [List.mem_cons, List.mem_filter, e0]
            constructor
            · rintro (rfl | hh)
              · simp at hpm
              · exact hh.1
            · intro hh; exact .inr ⟨hh, by simpa using hpm⟩
        · rw [e0]
      have hpc : ((ctx e f r).destAfter s0.steps wide vs l (v0.lane l)).pc = (e.lane l).pc := by
        unfold Ctx.destAfter; split <;> simp [e1]
      have hq : ((ctx e f r).destAfter s0.steps wide vs l (v0.lane l)).q = (e.lane l).q := by
        unfold Ctx.destAfter; split <;> simp [e1]
      have hlb : l ∈ (ctx e f r).run.lanes.lanes (ctx e f r).env.wav.width ↔ r.lanes.has l = true := by
        show l ∈ r.lanes.lanes e.wav.width ↔ _
        rw [Mask.mem_lanes]; constructor
        · exact And.right
        · exact fun h => ⟨by omega, h⟩
      have hpred : ∀ n, (e.acting f.guard r).contains l = false ∨ writesPred i n = false →
          ((ctx e f r).destAfter s0.steps wide vs l (v0.lane l)).pred n = (e.lane l).pred n := by
        intro n hn; rw [← e4 n hn]; unfold Strand.pred; rw [k8]
      unfold Ctx.laneAfter
      cases hr : r.lanes.has l
      · simp only [hlb, hr, show (ctx e f r).run.lanes.has l = r.lanes.has l from rfl, Bool.false_eq_true, if_false]
        refine ⟨?_, ?_, ?_, ?_, ?_, ?_, ?_, ?_, fun _ => hpc, fun _ => hq, hpred, hregs, ho, ?_, ?_⟩
        · rw [k1, e1]
        · rw [k2, e1]
        · rw [k3, e1]
        · rw [k4, e1]
        · rw [k5, e1]
        · rw [k6, e1]
        · rw [k7, e1]
        · simp only [Writes.result, Bool.and_false, Bool.false_eq_true, if_false]; rw [kL, e1]
        · rw [k9]; exact e2
        · rw [k9]; exact e3
      · simp only [hlb, hr, show (ctx e f r).run.lanes.has l = r.lanes.has l from rfl, if_true]
        refine ⟨?_, ?_, ?_, ?_, ?_, ?_, ?_, ?_, fun hc => by simp at hc, fun hc => by simp [Writes.result] at hc, hpred, hregs, ho, ?_, ?_⟩
        · exact k1.trans (by rw [e1])
        · exact k2.trans (by rw [e1])
        · exact k3.trans (by rw [e1])
        · exact k4.trans (by rw [e1])
        · exact k5.trans (by rw [e1])
        · exact k6.trans (by rw [e1])
        · exact k7.trans (by rw [e1])
        · simp only [Writes.result, Bool.and_false, Bool.false_eq_true, if_false]; exact kL.trans (by rw [e1])
        · show ((ctx e f r).destAfter s0.steps wide vs l (v0.lane l)).status &&& _ = _
          rw [k9]; exact e2
        · show ((ctx e f r).destAfter s0.steps wide vs l (v0.lane l)).status &&& _ = _
          rw [k9]; exact e3
    · rw [lane_out l hl]
      exact ⟨rfl, rfl, rfl, rfl, rfl, rfl, rfl, by simp [Writes.result], fun _ => rfl, fun _ => rfl, fun _ _ => rfl, fun _ _ => rfl, fun _ _ => Iff.rfl, rfl, by simp⟩
  refine ⟨rfl, ?_, ?_, v, by simp, len, ?_, ?_, key⟩
  · intro w l a
    unfold State.readLoc
    cases a with
    | mem pa => rfl
    | scr b off => rfl
    | priv off =>
      dsimp only
      rw [State.wav?_setWav]
      by_cases hwe : e.wid = w
      · subst hwe; rw [if_pos rfl, hws]; dsimp only; rw [(key l).2.2.2.2.1]; rfl
      · rw [if_neg hwe]
  · intro w hwe; rw [State.wav?_setWav, if_neg (Ne.symm hwe)]
  · rw [h4]
    obtain ⟨g1, g2, g3⟩ := hx.soft
    rw [g1]; rfl
  · intro n hu
    rw [h4]; dsimp only
    unfold Ctx.ufileAfter
    rw [show (ctx e f r).f.d = f.d from rfl, hw0]
    clear hn
    split
    · rename_i m u us hd
      have hn : (match f.d with | .w k => n == k.val || (wide && n == k.val + 1) | _ => false) = false := hu
      rw [hd] at hn; dsimp only at hn
      cases wide
      · have hn' : n ≠ m.val := by simpa using hn
        simp only [Bool.false_eq_true, if_false]
        rw [Sparse.get_put _ _ _ t3, if_neg (Ne.symm hn')]
      · have hn' : n ≠ m.val ∧ n ≠ m.val + 1 := by simpa using hn
        simp only [if_true]
        rw [Sparse.get_put _ _ _ (Sparse.wf_put _ _ t3), Sparse.get_put _ _ _ t3, if_neg (Ne.symm hn'.1), if_neg (Ne.symm hn'.2)]
    · rfl

theorem pass_fin {i s e f sh r} (h : Ready i s e f sh r) {s0 : State} {v0 : Wavelet} (hw : s0.wav? e.wid = some v0)
    {k : Writes} (hx : SoftX k e f r s s0 v0) (hk : k.counts = false := by rfl) :
    ∃ v, (s0.pass (ctx e f r)).wav? e.wid = some v ∧ Moved e r v ∧ RegisterFrame k s e f r (s0.pass (ctx e f r)) ∧ ∀ l < e.wav.lanes.length, (v.lane l).preds = (v0.lane l).preds := by
  obtain ⟨t1, t2, t3, t4⟩ := h.1.2.2.2.2
  have hr0 : v0.run = some r := by rw [hx.soft.1]; exact h.1.2.2.2.1
  have hws := (cur_wav h.1).1
  have hS : s0.pass (ctx e f r) = s.setWav e.wid (v0.advance false none) := by
    unfold State.pass; rw [show (ctx e f r).wid = e.wid from rfl, State.modWav_eq _ hw, hx.st, State.setWav_setWav]
  have h4 : v0.advance false none = { v0 with lanes := (v0.advance false none).lanes, stall := .none, replay := none, marks := [], tried := [], failing := [], run := some { r with count := r.count + 1, mustSeal := false, deferred := none } } := by
    simp only [Wavelet.advance, hr0]
  have len : (v0.advance false none).lanes.length = e.wav.lanes.length := by
    rw [← hx.soft.2.1]; simp [Wavelet.advance, hr0]
  have hlane : ∀ l < e.wav.lanes.length, (v0.advance false none).lane l = if r.lanes.has l then { v0.lane l with pc := (v0.lane l).pc + 12 } else v0.lane l := fun l hl =>
    Wavelet.lane_advance v0 false none hr0 l (by rw [hx.soft.2.1]; exact hl)
  have lane_out : ∀ l, ¬ l < e.wav.lanes.length → (v0.advance false none).lane l = e.lane l := by
    intro l hl
    show (v0.advance false none).lanes.getD l {} = e.wav.lanes.getD l {}
    simp only [List.getD_eq_getElem?_getD]
    rw [List.getElem?_eq_none (by omega), List.getElem?_eq_none (by omega)]
  have key : ∀ l, LaneKept k ((e.acting f.guard r).contains l) (r.lanes.has l) (e.lane l) ((v0.advance false none).lane l) := by
    intro l
    by_cases hl : l < e.wav.lanes.length
    · obtain ⟨⟨st, pr, sn, ar, pa, e1⟩, e2, e3, e4⟩ := hx.lanes l hl
      rw [hlane l hl]
      cases hr : r.lanes.has l
      · simp only [Bool.false_eq_true, if_false]
        refine ⟨?_, ?_, ?_, ?_, ?_, ?_, ?_, ?_, fun _ => ?_, fun _ => ?_, e4, fun n _ => ?_, fun p _ => ?_, e2, e3⟩ <;> rw [e1]
        · simp [hk]
        · rfl
      · simp only [if_true]
        refine ⟨?_, ?_, ?_, ?_, ?_, ?_, ?_, ?_, fun hc => by simp at hc, fun _ => ?_, e4, fun n _ => ?_, fun p _ => ?_, e2, e3⟩ <;> (try rw [e1])
        · simp [hk]
        · rfl
    · rw [lane_out l hl]
      exact ⟨rfl, rfl, rfl, rfl, rfl, rfl, rfl, by simp [hk], fun _ => rfl, fun _ => rfl, fun _ _ => rfl, fun _ _ => rfl, fun _ _ => Iff.rfl, rfl, by simp⟩
  refine ⟨v0.advance false none, by rw [hS]; simp, ⟨by rw [h4], by rw [h4], by rw [h4], fun l hl => ?_⟩, ?_, fun l hl => ?_⟩
  · obtain ⟨a, b⟩ := Mask.mem_lanes.1 hl
    have hl' : l < e.wav.lanes.length := by omega
    obtain ⟨⟨st, pr, sn, ar, pa, e1⟩, -⟩ := hx.lanes l hl'
    rw [hlane l hl', b, if_pos rfl, e1]
  · rw [hS]
    refine ⟨rfl, ?_, ?_, _, State.wav?_setWav .. |>.trans (if_pos rfl), len, ?_, ?_, key⟩
    · intro w l a
      unfold State.readLoc
      cases a with
      | mem pa => rfl
      | scr b off => rfl
      | priv off =>
        dsimp only
        rw [State.wav?_setWav]
        by_cases hwe : e.wid = w
        · subst hwe; rw [if_pos rfl, hws]; dsimp only; rw [(key l).2.2.2.2.1]; rfl
        · rw [if_neg hwe]
    · intro w hwe; rw [State.wav?_setWav, if_neg (Ne.symm hwe)]
    · rw [h4]
      obtain ⟨g1, g2, g3⟩ := hx.soft
      rw [g1]; rfl
    · intro n hn
      rw [h4]; dsimp only; rw [show v0.w = e.wav.w by rw [hx.soft.1]; rfl]
  · rw [hlane l hl]; split <;> rfl

theorem flagLanes_nil (s : State) (w : WavId) (b : W32) : s.flagLanes w [] b = s := rfl

end Sys2Proof.Laws
end

