-- ==== Sys2Proof/Laws/Memory.lean ====
section
/-! SUPPORT. The operations on memory, each once: that they keep the canonical form, and what a read gives after a write;
closure of `Canonical` under updates of the machine; and that every instruction word runs through the issue rule. -/

namespace Sys2Proof.Machine

variable {s : State}

theorem Memory.wf_reset : Memory.wf State.reset.mem = true := rfl

/-- Writing physical bytes keeps the canonical form (log 7). -/
theorem State.wf_memWrite (pa n v : Nat) (h : Memory.wf s.mem = true) : Memory.wf (s.memWrite pa n v).mem = true :=
  Sparse.wf_writeN pa n v h

/-- What was written is read back. -/
theorem State.readLoc_memWrite (w : WavId) (l pa n v : Nat) (h : Memory.wf s.mem = true) :
    (s.memWrite pa n v).readLoc w l (.mem pa) n = v % 256 ^ n := by
  simpa [State.readLoc, State.memWrite] using Sparse.readN_writeN pa n v h

/-- A write leaves every other byte alone. -/
theorem State.readLoc_memWrite_of_not (w : WavId) (l : Nat) {pa n v b k : Nat} (h : Memory.wf s.mem = true)
    (hd : b + k ≤ pa ∨ pa + n ≤ b) : (s.memWrite pa n v).readLoc w l (.mem b) k = s.readLoc w l (.mem b) k :=
  Sparse.readN_writeN_of_not h hd

/-- Writing scratchpad bytes keeps the canonical form. -/
theorem Block.wf_write {k : Block} (wt : Nat → Bool) (step off n v : Nat) (h : Sparse.wf 0 k.scratch = true) :
    Sparse.wf 0 (k.write wt step off n v).scratch = true := by
  have key : ∀ (us : List Nat) (m : List (Nat × Byte)), Sparse.wf 0 m = true →
      Sparse.wf 0 (us.foldl (fun m u => if off ≤ 16 * u
        then Sparse.put 0 m (16 * u) (wtByte k.objs wt u (Sparse.get 0 m (16 * u))) else m) m) = true := by
    intro us
    induction us with
    | nil => intro m hm; exact hm
    | cons u us ih =>
      intro m hm
      rw [List.foldl_cons]
      refine ih _ ?_
      split
      · exact Sparse.wf_put _ _ hm
      · exact hm
  exact key _ _ (Sparse.wf_writeN off n v h)

/-- Every key of a canonical list lies above a bound that its first key lies above. -/
theorem wf_above {m : List (Nat × Byte)} {k : Nat} (h : Sparse.wf 0 m = true) (hk : ∀ p ∈ m.head?, k < p.1) :
    ∀ q ∈ m, k < q.1 := by
  induction m generalizing k with
  | nil => simp
  | cons c m ih =>
    obtain ⟨k', v'⟩ := c
    have h2 : k < k' := hk _ rfl
    rw [Sparse.wf_cons] at h
    intro q hq
    rcases List.mem_cons.1 hq with rfl | hq
    · exact h2
    · exact Nat.lt_trans h2 (ih h.2.2 h.2.1 q hq)

/-- A part of a canonical list is canonical. -/
theorem wf_filter {m : List (Nat × Byte)} (p : Nat × Byte → Bool) (h : Sparse.wf 0 m = true) : Sparse.wf 0 (m.filter p) = true := by
  induction m with
  | nil => exact h
  | cons c m ih =>
    obtain ⟨k, v⟩ := c
    rw [Sparse.wf_cons] at h
    by_cases hc : p (k, v) = true
    · rw [List.filter_cons_of_pos hc, Sparse.wf_cons]
      exact ⟨h.1, fun q hq => wf_above h.2.2 h.2.1 q (List.mem_filter.1 (List.mem_of_mem_head? hq)).1, ih h.2.2⟩
    · rw [List.filter_cons_of_neg hc]; exact ih h.2.2

/-- Moving a range of physical memory keeps the canonical form. -/
theorem State.wf_copyPhys (src dst n : Nat) (h : Memory.wf s.mem = true) : Memory.wf (s.copyPhys src dst n).mem = true := by
  have hp : ∀ (cs m : List (Nat × Byte)), Sparse.wf 0 m = true →
      Sparse.wf 0 (cs.foldl (fun m c => Sparse.put 0 m (c.1 - src + dst) c.2) m) = true := by
    intro cs
    induction cs with
    | nil => intro m h; exact h
    | cons c cs ih => intro m h; exact ih _ (Sparse.wf_put _ _ h)
  exact hp _ _ (wf_filter _ h)

/-- What a sparse list holds after an entry is put. -/
theorem sparse_mem_put {β : Type} [DecidableEq β] {d : β} {m : List (Nat × β)} {k : Nat} {v : β} {p : Nat × β}
    (h : p ∈ Sparse.put d m k v) : p ∈ m ∨ p = (k, v) := by
  induction m with
  | nil => unfold Sparse.put at h; split at h <;> simp_all
  | cons c m ih =>
    unfold Sparse.put at h
    split at h
    · split at h
      · exact .inl h
      · rcases List.mem_cons.1 h with h | h
        · exact .inr h
        · exact .inl h
    · split at h
      · split at h
        · exact .inl (List.mem_cons_of_mem _ h)
        · rcases List.mem_cons.1 h with h | h
          · exact .inr h
          · exact .inl (List.mem_cons_of_mem _ h)
      · rcases List.mem_cons.1 h with h | h
        · exact .inl (h ▸ List.mem_cons_self)
        · rcases ih h with h | h
          · exact .inl (List.mem_cons_of_mem _ h)
          · exact .inr h

/-- Every page of a context after mappings is one that it had or one of theirs (R150). -/
theorem Job.map_pages (j : Job) (ms : List Mapping) (P : Nat × BitVec 128 → Prop) (h : ∀ p ∈ j.pages, P p)
    (hm : ∀ m ∈ ms, P (m.va.toNat, m.leaf)) : ∀ p ∈ (j.map ms).pages, P p := by
  induction ms generalizing j with
  | nil => exact h
  | cons m ms ih =>
    refine ih _ (fun p hp => ?_) fun x hx => hm x (List.mem_cons_of_mem _ hx)
    rcases sparse_mem_put hp with hp | rfl
    · exact h p hp
    · exact hm m List.mem_cons_self

/-- A valid leaf that Pewter accepts lies at a multiple of its size (R149). -/
theorem Job.mapOk_leaf {j : Job} {m : Mapping} (h : j.mapOk m = true) (hv : Leaf.valid m.leaf = true) :
    m.va.toNat % Leaf.size m.leaf = 0 := by
  unfold Job.mapOk at h
  simp only [hv, Bool.not_true, Bool.false_or, Bool.and_eq_true, beq_iff_eq] at h
  exact h.1.1.1.2

end Sys2Proof.Machine

namespace Sys2Proof.Claim

open Sys2Proof.Machine

variable {s t : State}

/-- What `Canonical` asks of a wavelet. -/
def WavOk (v : Wavelet) : Prop := v.lanes.length = v.width ∧ ∀ x ∈ v.lanes,
  Sparse.wf ({} : Reg) x.regs = true ∧ Sparse.wf 0 x.priv = true ∧ Sparse.wf 0 x.planes = true ∧ x.stack.length ≤ 16

/-- Only memory, scratchpads, page tables and wavelets matter. -/
theorem Canonical.congr (h : Canonical s) (hm : t.mem = s.mem) (hb : t.blocks = s.blocks) (hj : t.jobs = s.jobs)
    (hw : t.wavs = s.wavs) : Canonical t := by
  unfold Canonical; rw [hm, hb, hj, hw]; exact h

theorem Canonical.wav {w : WavId} {v : Wavelet} (h : Canonical s) (hv : s.wav? w = some v) : WavOk v :=
  h.2.2.2 _ (Assoc.mem_of_get? hv)

theorem Canonical.setWav {v : Wavelet} (w : WavId) (h : Canonical s) (hv : WavOk v) : Canonical (s.setWav w v) := by
  refine ⟨h.1, h.2.1, h.2.2.1, fun p hp => ?_⟩
  rcases Assoc.mem_put hp with hp | rfl
  · exact h.2.2.2 p hp
  · exact hv

theorem Canonical.modWav {f : Wavelet → Wavelet} (w : WavId) (h : Canonical s) (hf : ∀ v, WavOk v → WavOk (f v)) :
    Canonical (s.modWav w f) := by
  unfold State.modWav
  split
  · exact h.setWav w (hf _ (h.wav ‹_›))
  · exact h

theorem Canonical.modLane {f : Strand → Strand} (w : WavId) (l : Nat) (h : Canonical s)
    (hf : ∀ x, Sparse.wf ({} : Reg) x.regs = true ∧ Sparse.wf 0 x.priv = true ∧ Sparse.wf 0 x.planes = true ∧ x.stack.length ≤ 16 →
      Sparse.wf ({} : Reg) (f x).regs = true ∧ Sparse.wf 0 (f x).priv = true ∧ Sparse.wf 0 (f x).planes = true ∧
        (f x).stack.length ≤ 16) :
    Canonical (s.modLane w l f) := by
  refine h.modWav w fun v hv => ⟨?_, fun y hy => ?_⟩
  · simpa using hv.1
  · rcases mem_listModify hy with hy | ⟨x, hx, rfl⟩
    · exact hv.2 y hy
    · exact hf x (hv.2 x hx)

/-- Installing mappings that Pewter accepts keeps the page tables' form (R149). -/
theorem Canonical.mapPages {ctx : Nat} {ms : List Mapping} (h : Canonical s) (hu : s.mapPages ctx ms = some t) : Canonical t := by
  unfold State.mapPages at hu
  dsimp only at hu
  split at hu
  · rename_i hok
    obtain rfl := by simpa using hu
    refine ⟨h.1, h.2.1, fun p hp => ?_, h.2.2.2⟩
    rcases Assoc.mem_put hp with hp | rfl
    · exact h.2.2.1 p hp
    · have base : ∀ q ∈ (s.job ctx).pages, Leaf.valid q.2 = true → q.1 % Leaf.size q.2 = 0 := by
        unfold State.job
        cases hg : Assoc.get? s.jobs ctx with
        | none => intro q hq; simp at hq
        | some j => exact h.2.2.1 _ (Assoc.mem_of_get? hg)
      exact Job.map_pages _ ms _ base fun m hm => Job.mapOk_leaf (Bool.and_eq_true_iff.1 (List.all_eq_true.1 hok m hm)).1
  · simp at hu

theorem Canonical.modBlk {f : Block → Block} (b : BlkId) (h : Canonical s)
    (hf : ∀ k, Sparse.wf 0 k.scratch = true → Sparse.wf 0 (f k).scratch = true) : Canonical (s.modBlk b f) := by
  unfold State.modBlk
  split
  · rename_i k hk
    refine ⟨h.1, fun p hp => ?_, h.2.2.1, h.2.2.2⟩
    rcases Assoc.mem_put hp with hp | rfl
    · exact h.2.1 p hp
    · exact hf k (h.2.1 _ (Assoc.mem_of_get? hk))
  · exact h

/-- Units that take new check values leave a wavelet's form alone (R164). -/
theorem WavOk.recheck {v : Wavelet} (plane : Nat) (us : List Nat) (h : WavOk v) : WavOk (v.recheck plane us) := by
  unfold Wavelet.recheck
  split
  · exact h
  · exact ⟨h.1, h.2⟩

/-- A unit of private memory that a good copy replaces keeps a wavelet's form (R66, R165). -/
theorem WavOk.putUnit {v : Wavelet} (plane n : Nat) (bs : List Byte) (h : WavOk v) : WavOk (v.putUnit plane n bs) := by
  unfold Wavelet.putUnit
  refine WavOk.recheck _ _ ?_
  generalize List.range 16 = js
  induction js generalizing v with
  | nil => exact h
  | cons j js ih =>
    refine ih ⟨by simpa using h.1, fun y hy => ?_⟩
    rcases mem_listModify hy with hy | ⟨x, hx, rfl⟩
    · exact h.2 y hy
    · have hx := h.2 x hx
      cases plane with
      | zero => exact ⟨hx.1, Sparse.wf_writeN _ _ _ hx.2.1, hx.2.2⟩
      | succ p => exact ⟨hx.1, hx.2.1, Sparse.wf_put _ _ hx.2.2.1, hx.2.2.2⟩

/-- Refetching units keeps the invariant (R165). -/
theorem Canonical.memWrite (pa n v : Nat) (h : Canonical s) : Canonical (s.memWrite pa n v) :=
  ⟨s.wf_memWrite pa n v h.1, h.2.1, h.2.2⟩
theorem Canonical.putUnit (bs : List Byte) (u : UnitKey) (h : Canonical s) : Canonical (s.putUnit bs u) := by
  cases u with
  | phys n => rw [State.putUnit]; exact h.memWrite _ _ _
  | priv w p n => exact h.modWav w fun v hv => WavOk.putUnit p n bs hv
theorem Canonical.mendUnit (copies : List GoodCopy) (u : UnitKey) (h : Canonical s) : Canonical (s.mendUnit copies u) := by
  unfold State.mendUnit
  split
  · exact h
  · dsimp only
    split
    · rename_i c _
      have hp := h.putUnit c.bytes u
      generalize s.putUnit c.bytes u = t at hp
      exact hp.congr rfl rfl rfl rfl
    · exact h
theorem Canonical.mend (copies : List GoodCopy) (h : Canonical s) : Canonical (s.mend copies) := by
  unfold State.mend
  generalize (copies.map (·.unit)).eraseDups = us
  induction us generalizing s with
  | nil => exact h
  | cons u us ih => exact ih (h.mendUnit copies u)

/-- The LLC on an access of Pewter or of an instruction's fetch keeps the invariant (R162). -/
theorem Canonical.touchJob (ctx va n : Nat) (w : Option WavId) (isStore : Bool) (h : Canonical s) :
    Canonical (s.touchJob ctx va n w isStore) := h.congr rfl rfl rfl rfl

/-- Writing at any location keeps the invariant. -/
theorem Canonical.writeLoc (w : WavId) (l : Nat) (a : Loc) (n v : Nat) (h : Canonical s) : Canonical (s.writeLoc w l a n v) := by
  cases a with
  | mem pa => exact h.memWrite pa n v
  | priv off =>
    refine (h.modLane (f := fun x => { x with priv := Sparse.writeN x.priv off n v }) w l
      fun x hx => ⟨hx.1, Sparse.wf_writeN _ _ _ hx.2.1, hx.2.2⟩).modWav w fun v hv => ?_
    have e : ∀ us, (v.recheck 0 us).lanes = v.lanes ∧ (v.recheck 0 us).width = v.width := by
      intro us; unfold Wavelet.recheck; split <;> exact ⟨rfl, rfl⟩
    unfold WavOk
    rw [(e _).1, (e _).2]; exact hv
  | scr b off => exact h.modBlk b fun k hk => Block.wf_write _ _ _ _ _ hk

/-- What an access does to the caches: it may change what the LLC and the clusters hold and the charges, and nothing else (R154, R161,
R162). -/
def Caches (s t : State) : Prop := t = { s with llc := t.llc, charges := t.charges, clusters := t.clusters }

theorem Caches.refl (s : State) : Caches s s := rfl
theorem Caches.trans {t u : State} (h : Caches s t) (k : Caches t u) : Caches s u := by
  unfold Caches at *
  rw [k, h]
theorem Canonical.caches {t : State} (h : Canonical s) (k : Caches s t) : Canonical t := by
  unfold Caches at k
  rw [k]; exact h.congr rfl rfl rfl rfl

/-- The caches on an access of lanes, engines and Pewter, on a prefetch (R124) and on a write that is refused (R162). -/
theorem State.pastL1_caches (e : Env) (d : Dir) (wrote : Bool) (h : Hints) (sp : Spot) (ks : List (LlcKey × Nat)) :
    Caches s (s.pastL1 e d wrote h sp ks) := rfl
theorem State.through_caches (e : Env) (d : Dir) (wrote : Bool) (h : Hints) (sp : Spot) (ks : List (LlcKey × Nat)) :
    Caches s (s.through e d wrote h sp ks) := by
  unfold State.through
  split <;> exact rfl
theorem State.prefetch_caches (e : Env) (h : Hints) (n l : Nat) (sp : Spot) : Caches s (s.prefetch e h n l sp) := by
  unfold State.prefetch
  generalize (List.range h.ahead).filterMap _ = xs
  induction xs generalizing s with
  | nil => rfl
  | cons x xs ih =>
    refine Caches.trans ?_ ih
    dsimp only
    split
    · exact State.pastL1_caches ..
    · exact State.through_caches ..
theorem State.refusedIn_caches (t : State) (e : Env) (ps : List Piece) : Caches s (s.refusedIn t e ps) := by
  unfold State.refusedIn
  split <;> exact rfl
theorem State.recordReach_caches (ctx : Nat) (a : W64) : Caches s (s.recordReach ctx a) := by
  unfold State.recordReach
  dsimp only
  split
  · rfl
  · split
    · rfl
    · rfl
    · split <;> exact rfl

/-- Entering a code object adds it to those loaded where it is new, and its number then finds it (R19). -/
theorem State.enterObject_spec (o : CodeObject) : s.enterObject o = { s with objects := (s.enterObject o).objects } ∧
    (s.enterObject o).objects[(s.enterObject o).objectNo o]? = some o := by
  have hm : o ∈ (s.enterObject o).objects := by
    unfold State.enterObject
    split
    · rename_i h; simpa using h
    · simp
  refine ⟨by unfold State.enterObject; split <;> rfl, ?_⟩
  unfold State.objectNo
  have hl : (s.enterObject o).objects.findIdx (· == o) < (s.enterObject o).objects.length :=
    List.findIdx_lt_length_of_exists ⟨o, hm, by simp⟩
  rw [List.getElem?_eq_getElem hl]
  simpa using List.findIdx_getElem (p := (· == o)) (w := hl)

/-- Function 0 and every function that Pewter has set have turns (R40, R247). -/
theorem State.mem_vfIds {v : Nat} : v ∈ s.vfIds ↔ v = 0 ∨ ∃ x ∈ s.vfs, x.id = v := by
  unfold State.vfIds
  dsimp only
  split <;> rename_i h <;> simp only [List.contains_eq_mem, decide_eq_true_eq, List.mem_map] at h
  · simp only [List.mem_map]
    constructor
    · exact Or.inr
    · rintro (rfl | h')
      · exact h
      · exact h'
  · simp only [List.mem_append, List.mem_map, List.mem_singleton]
    exact Or.comm

/-- Beside the counts of its waits a tick may change whose turn it is, and what goes with that (R242, R247). -/
theorem State.endSlice_spec (vf : Nat) (time : Vf → Nat) :
    s.endSlice vf time = { s with turn := vf, vfs := (s.endSlice vf time).vfs, grace := (s.endSlice vf time).grace } := rfl

theorem State.passTurn_spec (vf : Nat) : (s.passTurn vf).turn = vf ∧
    s.passTurn vf = { s with free := (s.passTurn vf).free, turn := vf, vfs := (s.passTurn vf).vfs, grace := (s.passTurn vf).grace } := by
  unfold State.passTurn
  split
  · rename_i h; simp only [beq_iff_eq] at h; subst h; exact ⟨rfl, rfl⟩
  · exact ⟨rfl, rfl⟩

/-- Without virtual functions, or with work for the one in turn, none gives up its slice. -/
theorem State.yieldTurn_self (h : s.vfs = [] ∨ s.hasWork s.turn = true) : s.yieldTurn = s := by
  unfold State.yieldTurn
  rcases h with h | h <;> simp [h]

theorem State.yieldTurn_spec : s.yieldTurn =
    { s with free := s.yieldTurn.free, turn := s.yieldTurn.turn, vfs := s.yieldTurn.vfs, grace := s.yieldTurn.grace } := by
  unfold State.yieldTurn
  split
  · rfl
  · split
    · rename_i v _
      have h := State.passTurn_spec (s := s) v
      rw [h.2]
    · rfl

/-- The waits that return change no page. -/
theorem Canonical.pollWaits (h : Canonical s) : Canonical s.pollWaits :=
  ⟨h.1, h.2.1, fun j hj => by
    obtain ⟨k, hk, rfl⟩ := List.mem_map.1 hj
    have := h.2.2.1 k hk
    split <;> exact this, h.2.2.2⟩

theorem Canonical.tick (h : Canonical s) : Canonical s.tick := by
  have hp : Canonical (State.pollWaits { s with steps := s.steps + 1 }) := Canonical.pollWaits h
  unfold State.tick
  rw [State.yieldTurn_spec]
  exact hp

/-- Taking a trap's context keeps a wavelet's form. -/
theorem wavOk_context {v : Wavelet} (c : Nat) (pc : W64) (hits : List (Nat × W64)) (h : WavOk v) : WavOk (v.context c pc hits) := by
  refine ⟨by simpa [Wavelet.context] using h.1, fun x hx => ?_⟩
  simp only [Wavelet.context, List.mem_map] at hx
  obtain ⟨⟨y, l⟩, hy, rfl⟩ := hx
  exact h.2 y ((List.mem_zipIdx' hy).2 ▸ List.getElem_mem _)

/-- Every instruction that has a word runs through the issue rule (R125, R60). -/
theorem exec_issue {i : Instr} {f : Fields} (h : i.fields? = some f) (s : State) : ∃ k, exec i s = meaning i s k := by
  cases i <;> first | exact ⟨_, rfl⟩ | simp [Instr.fields?] at h

/-- A word that the issue rule stops ends as the rule says. -/
theorem exec_stopped {i : Instr} {f : Fields} {r : Res} (h : i.fields? = some f) (hr : issue i s = .error r) : exec i s = r := by
  obtain ⟨k, hk⟩ := exec_issue h s
  rw [hk]; unfold meaning; rw [hr]

end Sys2Proof.Claim
end

