-- ==== Sys2Proof/Laws/Values.lean ====
section
/-! SUPPORT. Values: elements of registers (R95, R100), bit reversal, rotation, copies, wrapping and clamping (R106),
rounding and tangents (R75), division (R113). -/

namespace Sys2Proof.Laws

open Sys2Proof.Machine Sys2Proof.Claim

theorem joinBits_lt (w : Nat) (xs : List Nat) : joinBits w xs < 2 ^ (w * xs.length) := by
  induction xs with
  | nil => simp [joinBits]
  | cons x xs ih =>
    simp only [joinBits, List.length_cons, Nat.mul_add, Nat.mul_one]
    have h1 : x % 2 ^ w < 2 ^ w := Nat.mod_lt _ (by positivity)
    have : joinBits w xs + 1 ≤ 2 ^ (w * xs.length) := ih
    rw [pow_add]
    nlinarith [Nat.mul_le_mul_right (2 ^ w) this]

theorem join_get (w : Nat) (xs : List Nat) : ∀ j, joinBits w xs / 2 ^ (j * w) % 2 ^ w = xs.getD j 0 % 2 ^ w := by
  induction xs with
  | nil => intro j; simp [joinBits]
  | cons x xs ih =>
    intro j
    have h1 : x % 2 ^ w < 2 ^ w := Nat.mod_lt _ (by positivity)
    have hp : 0 < 2 ^ w := by positivity
    cases j with
    | zero => simp [joinBits]
    | succ j =>
      simp only [joinBits, List.getD_cons_succ, ← ih j, Nat.add_mul, Nat.one_mul]
      rw [show j * w + w = w + j * w by omega, pow_add, ← Nat.div_div_eq_div_mul, Nat.add_mul_div_right _ _ hp, Nat.div_eq_of_lt h1, Nat.zero_add]

theorem tyWidth (t : Ty) : t.elemBits * t.perReg = bitsOf t := by cases t <;> rfl

theorem tyPos (t : Ty) : 0 < t.elemBits := by cases t <;> decide

theorem bitsOf_le (t : Ty) : bitsOf t ≤ 64 := by cases t <;> decide

theorem elem_get {t : Ty} {n j : Nat} (h : j < t.perReg) : (t.elems n).getD j 0 = n / 2 ^ (j * t.elemBits) % 2 ^ t.elemBits := by
  simp [Ty.elems, splitBits, List.getD_eq_getElem?_getD, h, Nat.shiftRight_eq_div_pow]

theorem elems_len (t : Ty) (n : Nat) : (t.elems n).length = t.perReg := by simp [Ty.elems, splitBits]

/-- joined elements -/
theorem elem_join {t : Ty} {xs : List Nat} {tag tan} (hl : xs.length = t.perReg) {j : Nat} (h : j < t.perReg) :
    elem t (Val.of (joinBits t.elemBits xs) tag tan) j = xs.getD j 0 % 2 ^ t.elemBits := by
  unfold elem Val.of
  have h1 : joinBits t.elemBits xs < 2 ^ 64 := by
    refine lt_of_lt_of_le (joinBits_lt _ _) (Nat.pow_le_pow_right (by omega) ?_)
    rw [hl, tyWidth]; exact bitsOf_le t
  rw [elem_get h]
  simp only [BitVec.toNat_ofNat, Nat.mod_eq_of_lt h1, join_get]

theorem join_bits_lt {t : Ty} {xs : List Nat} (hl : xs.length = t.perReg) : joinBits t.elemBits xs < 2 ^ bitsOf t := by
  have := joinBits_lt t.elemBits xs
  rwa [hl, tyWidth] at this

theorem pow_bits_le (t : Ty) : 2 ^ bitsOf t ≤ 2 ^ 64 := Nat.pow_le_pow_right (by omega) (bitsOf_le t)

theorem ofBits_toNat {n : Nat} {t : Ty} (h : n < 2 ^ bitsOf t) {tag tan} : (Val.of n tag tan).bits.toNat = n := by
  simp only [Val.of, BitVec.toNat_ofNat]; exact Nat.mod_eq_of_lt (lt_of_lt_of_le h (pow_bits_le t))

theorem literal_lt (k : Lit) (t : Ty) (l : Nat) : k.bits t l < 2 ^ bitsOf t := by
  unfold Lit.bits
  exact join_bits_lt (by simp)

theorem cut_lt (v : Val) (t : Ty) (tan) : (v.cut t tan).bits.toNat < 2 ^ bitsOf t := by
  unfold Val.cut bitsOf
  cases h : t.wide
  · simp only [Bool.false_eq_true, if_false]
    rw [BitVec.toNat_and]
    exact lt_of_le_of_lt Nat.and_le_right (by decide)
  · simp only [if_true]; exact BitVec.isLt _

theorem convert_lt (v : Val) (st dt : Ty) (ftz K) (hp : st.perReg = dt.perReg) : (v.convert st dt ftz K).1.bits.toNat < 2 ^ bitsOf dt := by
  unfold Val.convert
  dsimp only
  rw [ofBits_toNat (t := dt) (join_bits_lt ?_)]
  · exact join_bits_lt (by simp [elems_len, hp])
  · simp [elems_len, hp]

theorem srcN_lt (e : Env) (x : Name) (t : Ty) (l : Nat) : srcN e x t l < 2 ^ bitsOf t := by
  unfold srcN src Env.readTy Val.readAs
  have z : ((⟨0, t.tag, []⟩ : Val)).bits.toNat < 2 ^ bitsOf t := by simp
  split
  · exact cut_lt ..
  · split
    · exact z
    · split
      · split
        · exact cut_lt ..
        · exact z
      · split
        · exact cut_lt ..
        · rename_i st _
          split
          · exact cut_lt ..
          · split
            · exact z
            · split
              · exact z
              · split
                · exact z
                · rename_i h _ ; simp only [Bool.or_eq_true, bne_iff_ne, ne_eq, not_or, not_not] at h
                  exact convert_lt _ _ _ _ _ h.1

theorem get?_each {α : Type} {c : Ctx} {g : Nat → α} {l : Nat} (h : l ∈ c.lanes) : Assoc.get? (c.each g) l = some (g l) := by
  unfold Ctx.each
  generalize c.lanes = ls at h
  induction ls with
  | nil => simp at h
  | cons x xs ih =>
    simp only [List.map_cons, Assoc.get?]
    by_cases hx : x = l
    · simp [hx]
    · simp only [hx, if_false]
      exact ih (by simpa [Ne.symm hx] using h)

theorem yfin {i s e f sh r} (h : Ready i s e f sh r) {s0 : State} {v0 : Wavelet} (hw : s0.wav? e.wid = some v0) (hs : SoftW e.wav v0)
    {wide : Bool} {g : Nat → Val} (hx : exec i s = .next (s0.finish (ctx e f r) wide ((ctx e f r).each g))) (hd : wide = pairD sh.d) :
    ∃ t val v, exec i s = .next t ∧ t.wav? e.wid = some v ∧ Wrote e f (pairD sh.d) r val t ∧ ∀ l ∈ e.acting f.guard r, val l = g l := by
  obtain ⟨v, h1, h2, h3, h4⟩ := wrote_finish (wide := wide) (vs := (ctx e f r).each g) h.1.2.2.2.2 h.1.2.2.2.1 hw hs (each_map _ _)
  subst hd
  refine ⟨_, fun l => (Assoc.get? ((ctx e f r).each g) l).getD ⟨0,0,[]⟩, v, hx, by rw [h1]; simp, ⟨v, by rw [h1]; simp, h2, h3, h4⟩, fun l hl => ?_⟩
  dsimp only
  rw [get?_each (c := ctx e f r) hl]
  rfl

/-- value-only yields -/
theorem yval {i : Instr} {f : Fields} (hfl : i.fields? = some f) {P : Env → Run → Nat → Val → Strand → Prop} {wide : Bool} (g : Env → Run → Nat → Val)
    (hx : ∀ s e sh r, Ready i s e f sh r → exec i s = .next ((s.readBy i f sh e (e.acting f.guard r)).finish (ctx e f r) wide ((ctx e f r).each (g e r))))
    (hsh : ∀ sh, i.legal = true → i.shape = some sh → wide = pairD sh.d)
    (hP : i.legal = true → ∀ e r l y, l ∈ e.acting f.guard r → P e r l (g e r l) y) : Yields i P := by
  intro s e f' sh r h
  obtain rfl : f = f' := f_eq hfl h.1.2.1
  obtain ⟨v0, hw, hS⟩ := issued_soft h
  obtain ⟨t, val, v, h1, h2, h3, h4⟩ := yfin h hw hS (hx _ _ _ _ h) (hsh _ h.2.1.1 h.1.2.2.1)
  exact ⟨t, val, v, h1, h2, h3, fun l hl => by rw [h4 l hl]; exact hP h.2.1.1 _ _ _ _ hl⟩

theorem rev_fold (n a : Nat) : ∀ m, m ≤ n → ∀ r, r = (List.range m).foldl (fun r i => if a.testBit i then r + 2 ^ (n - 1 - i) else r) 0 →
    ∀ k, r.testBit k = (decide (k < n) && decide (n - 1 - k < m) && a.testBit (n - 1 - k)) := by
  intro m
  induction m with
  | zero => intro _ r hr k; subst hr; simp
  | succ m ih =>
    intro hm r hr k
    rw [List.range_succ, List.foldl_append] at hr
    simp only [List.foldl_cons, List.foldl_nil] at hr
    have IH := ih (by omega) _ rfl
    generalize (List.range m).foldl (fun r i => if a.testBit i then r + 2 ^ (n - 1 - i) else r) 0 = q at hr IH
    by_cases ha : a.testBit m
    · simp only [ha, if_true] at hr
      have hq : q = (q >>> (n - m)) <<< (n - m) := by
        apply Nat.eq_of_testBit_eq; intro i
        simp only [Nat.testBit_shiftLeft, Nat.testBit_shiftRight]
        by_cases hi : n - m ≤ i
        · simp [hi, show n - m + (i - (n - m)) = i by omega]
        · rw [IH]; simp [hi]; omega
      have h2 : q + 2 ^ (n - 1 - m) = q ||| 2 ^ (n - 1 - m) := by
        conv_lhs => rw [hq]
        rw [Nat.shiftLeft_add_eq_or_of_lt (Nat.pow_lt_pow_right (by omega) (by omega)), ← hq]
      rw [hr, h2, Nat.testBit_or, IH, Nat.testBit_two_pow]
      by_cases hk : n - 1 - m = k
      · subst hk
        simp [show n - 1 - (n - 1 - m) = m by omega, ha]; omega
      · have : (decide (k < n) && decide (n - 1 - k < m + 1)) = (decide (k < n) && decide (n - 1 - k < m)) := by
          rw [Bool.eq_iff_iff]; simp; omega
        simp only [hk, decide_false, Bool.or_false]; rw [this]
    · simp only [ha, if_false, Bool.false_eq_true] at hr
      rw [hr, IH]
      by_cases hk : n - 1 - k = m
      · rw [hk]; simp [ha]
      · have : (decide (n - 1 - k < m + 1)) = (decide (n - 1 - k < m)) := by
          rw [Bool.eq_iff_iff]; simp; omega
        rw [this]

theorem revBits_bit (n a k : Nat) : (revBits n a).testBit k = (decide (k < n) && a.testBit (n - 1 - k)) := by
  rw [rev_fold n a n (Nat.le_refl _) (revBits n a) rfl k]
  by_cases hk : k < n
  · simp [hk, show n - 1 - k < n by omega]
  · simp [hk]

theorem lt_of_bits {x n : Nat} (h : ∀ k, n ≤ k → x.testBit k = false) : x < 2 ^ n := by
  exact Nat.lt_pow_two_of_testBit x (fun i hi => h i hi)

theorem plainOf {t : Ty} {x : Nat} (h : x < 2 ^ bitsOf t) : Plain t (bitsOf t) (Val.ofTy t x) := by
  refine ⟨rfl, by simp [Val.ofTy, Val.of, trimTan], ?_⟩
  rw [Val.ofTy, ofBits_toNat h]; exact h

theorem bitOf {t : Ty} {x k : Nat} (h : x < 2 ^ bitsOf t) : (Val.ofTy t x).bits.getLsbD k = x.testBit k := by
  rw [← BitVec.testBit_toNat, Val.ofTy, ofBits_toNat h]

theorem srcBit (e : Env) (x : Name) (t : Ty) (l k : Nat) : (src e x t l).bits.getLsbD k = (srcN e x t l).testBit k := by
  rw [← BitVec.testBit_toNat]; rfl

theorem src_high (e : Env) (x : Name) (t : Ty) (l k : Nat) (h : bitsOf t ≤ k) : (srcN e x t l).testBit k = false :=
  Nat.testBit_lt_two_pow (lt_of_lt_of_le (srcN_lt ..) (Nat.pow_le_pow_right (by omega) h))

theorem log2_bit {x : Nat} (h : x ≠ 0) : x.testBit x.log2 = true := by
  exact Nat.testBit_log2 h

theorem rotl_bit {n k a : Nat} (hn : 0 < n) (ha : a < 2 ^ n) {i : Nat} (hi : i < n) : (rotl n k a).testBit ((i + k) % n) = a.testBit i := by
  have hm := Nat.mod_lt k hn
  have hj := Nat.mod_lt (i + k) hn
  have e : (i + k) % n = if i + k % n < n then i + k % n else i + k % n - n := by
    rw [Nat.add_mod, Nat.mod_eq_of_lt hi]
    split
    · rename_i h; exact Nat.mod_eq_of_lt h
    · rw [Nat.mod_eq_sub_mod (by omega), Nat.mod_eq_of_lt (by omega)]
  unfold rotl
  simp only [Nat.testBit_mod_two_pow, hj, decide_true, Bool.true_and, Nat.testBit_or, Nat.testBit_shiftLeft, Nat.testBit_shiftRight]
  generalize k % n = c at *
  have hh : ∀ j, n ≤ j → a.testBit j = false := fun j hj => Nat.testBit_lt_two_pow (lt_of_lt_of_le ha (Nat.pow_le_pow_right (by omega) hj))
  rw [e]
  by_cases h0 : c = 0
  · subst h0; simp [hi]
  · have e2 : (n - c) % n = n - c := Nat.mod_eq_of_lt (by omega)
    rw [e2]
    split
    · rename_i h
      rw [hh (n - c + (i + c)) (by omega)]
      simp
    · rename_i h
      rw [show n - c + (i + c - n) = i by omega]
      simp; omega

theorem getD_map_elems {t : Ty} {n : Nat} {g : Nat → Nat} {j : Nat} (h : j < t.perReg) : ((t.elems n).map g).getD j 0 = g ((t.elems n).getD j 0) := by
  simp [List.getD_eq_getElem?_getD, elems_len, h, show j < (t.elems n).length by rw [elems_len]; exact h]

theorem elem_lt {t : Ty} {v : Val} {j : Nat} (h : j < t.perReg) : elem t v j < 2 ^ t.elemBits := by
  unfold elem; rw [elem_get h]; exact Nat.mod_lt _ (by positivity)

/-- a value whose elements are images of A's elements -/
theorem yelem {t : Ty} {tag : Tag} {n : Nat} {g : Nat → Nat} {tan} {j : Nat} (h : j < t.perReg) :
    elem t (Val.of (joinBits t.elemBits ((t.elems n).map g)) tag tan) j = g ((t.elems n).getD j 0) % 2 ^ t.elemBits := by
  rw [elem_join (by simp [elems_len]) h, getD_map_elems h]

theorem yplain {t : Ty} {n : Nat} {g : Nat → Nat} : Plain t (bitsOf t) (Val.ofTy t (joinBits t.elemBits ((t.elems n).map g))) :=
  plainOf (join_bits_lt (by simp [elems_len]))

theorem trim_getD (ts : List W32) (k : Nat) : (trimTan ts).getD k 0 = ts.getD k 0 := by
  unfold trimTan
  have h : ∀ us : List W32, ∃ n, us = List.replicate n 0 ++ us.dropWhile (· == 0) := by
    intro us
    induction us with
    | nil => exact ⟨0, rfl⟩
    | cons u us ih =>
      by_cases hu : u = 0
      · obtain ⟨n, hn⟩ := ih
        exact ⟨n + 1, by simp [hu, List.replicate_succ]; exact hn⟩
      · refine ⟨0, ?_⟩
        rw [List.dropWhile_cons_of_neg (by simpa using hu)]; rfl
  obtain ⟨n, hn⟩ := h ts.reverse
  have h2 : ts = (ts.reverse.dropWhile (· == 0)).reverse ++ List.replicate n 0 := by
    have := congrArg List.reverse hn
    simpa using this
  generalize (ts.reverse.dropWhile (· == 0)).reverse = u at *
  rw [h2]
  by_cases hk : k < u.length
  · simp [List.getD_eq_getElem?_getD, List.getElem?_append, hk]
  · simp only [List.getD_eq_getElem?_getD, List.getElem?_append, hk, if_false, List.getElem?_replicate]
    rw [List.getElem?_eq_none (by omega)]
    split <;> rfl

theorem of_word (n : Nat) (tag : Tag) (tan : List W32) (k : Nat) : (Val.of n tag tan).word k = if tag.hasTan then tan.getD k 0 else 0 := by
  unfold Val.of Val.word
  dsimp only
  split
  · exact trim_getD ..
  · simp

theorem copied (e : Env) (l : Nat) (x : Name) (t : Ty) : Copied e l x t (e.copy l x t) := by
  unfold Env.copy
  dsimp only
  refine ⟨fun k => ?_, ?_, fun k => ?_⟩
  · have : (if t.wide then 64 else 32) = bitsOf t := rfl
    rw [this]
    have hb := bitsOf_le t
    simp only [Val.of, BitVec.getLsbD_ofNat, Nat.testBit_mod_two_pow, BitVec.testBit_toNat]
    by_cases hk : k < bitsOf t
    · simp [hk, show k < 64 by omega]
    · simp [hk]
  · simp [Val.of]
  · rw [of_word]; rfl

theorem intOf_wrap_mod (t : Ty) (i : Int) : (t.wrap i : Int) = i % 2 ^ t.elemBits := by
  unfold Ty.wrap
  rw [Int.toNat_of_nonneg (Int.emod_nonneg _ (by positivity))]; push_cast; rfl

theorem wrap_lt (t : Ty) (i : Int) : t.wrap i < 2 ^ t.elemBits := by
  have h := intOf_wrap_mod t i
  have := Int.emod_lt_of_pos i (b := 2 ^ t.elemBits) (by positivity)
  rw [← h] at this; exact_mod_cast this

theorem intOf_wrap (t : Ty) (i : Int) (h1 : t.lo ≤ i) (h2 : i ≤ t.hi) : t.intOf (t.wrap i) = i := by
  have hw := intOf_wrap_mod t i
  have hl := wrap_lt t i
  have hp := tyPos t
  have e2 : (2 : Int) ^ t.elemBits = 2 * 2 ^ (t.elemBits - 1) := by
    rw [← pow_succ']; congr 1; omega
  have e3 : (2 : Nat) ^ t.elemBits = 2 * 2 ^ (t.elemBits - 1) := by
    rw [← pow_succ']; congr 1; omega
  have tb : (t.wrap i).testBit (t.elemBits - 1) = decide (2 ^ (t.elemBits - 1) ≤ t.wrap i) := by
    rw [Nat.testBit_eq_decide_div_mod_eq]
    congr 1
    rw [e3] at hl
    by_cases hh : 2 ^ (t.elemBits - 1) ≤ t.wrap i
    · simp only [hh, eq_iff_iff, iff_true]
      rw [show t.wrap i / 2 ^ (t.elemBits - 1) = 1 by
        apply Nat.div_eq_of_lt_le <;> omega]
    · simp only [hh, eq_iff_iff, iff_false]
      rw [Nat.div_eq_of_lt (by omega)]; simp
  unfold Ty.intOf
  unfold Ty.lo Ty.hi at *
  cases hs : t.isSigned
  · simp only [hs, Bool.false_and, Bool.false_eq_true, if_false] at *
    push_cast at h2
    rw [hw, Int.emod_eq_of_lt h1 (by omega)]
  · simp only [hs, Bool.true_and, if_true] at *
    push_cast at h1 h2
    rw [tb]
    by_cases hi : 0 ≤ i
    · rw [Int.emod_eq_of_lt hi (by omega)] at hw
      rw [if_neg]
      · exact hw
      · simp only [decide_eq_true_eq]; intro hc
        have : ((2 ^ (t.elemBits - 1) : Nat) : Int) ≤ (t.wrap i : Int) := by exact_mod_cast hc
        push_cast at this; omega
    · have : i % 2 ^ t.elemBits = i + 2 ^ t.elemBits := by
        rw [← Int.add_emod_right, Int.emod_eq_of_lt] <;> omega
      rw [this] at hw
      rw [if_pos]
      · omega
      · simp only [decide_eq_true_eq]
        have : ((2 ^ (t.elemBits - 1) : Nat) : Int) ≤ (t.wrap i : Int) := by push_cast; omega
        exact_mod_cast this

theorem lo_le_hi (t : Ty) : t.lo ≤ t.hi := by cases t <;> decide

theorem clamp_eq (t : Ty) (i : Int) : t.clamp i = max t.lo (min t.hi i) := by
  unfold Ty.clamp; have := lo_le_hi t; split
  · omega
  · split <;> omega

theorem getD_zip_map {t : Ty} {m n : Nat} {g : Nat × Nat → Nat} {j : Nat} (h : j < t.perReg) :
    (((t.elems m).zip (t.elems n)).map g).getD j 0 = g ((t.elems m).getD j 0, (t.elems n).getD j 0) := by
  simp [List.getD_eq_getElem?_getD, List.getElem?_zip_eq_some, elems_len, h, List.zip, List.getElem?_zipWith]

theorem intResult {f : Fields} {op : Int → Int → Int} {e : Env} {l : Nat} {tag : Tag} (ht : f.ty.isFloat = false) (htag : tag = Tag.ptr ∨ tag = f.ty.tag) :
    IntResult f op e l (Val.of (joinBits f.ty.elemBits (((f.ty.elems (srcN e f.a f.ty l)).zip (f.ty.elems (srcN e f.b f.ty l))).map fun p =>
      Fields.int f (op (f.ty.intOf p.1) (f.ty.intOf p.2)))) tag) := by
  refine ⟨by simp [Val.of, trimTan], fun j hj => ?_⟩
  rw [elem_join (by simp [elems_len]) hj, getD_zip_map hj]
  change if f.sat then f.ty.intOf (Fields.int f (op (srcI e f.a f.ty l j) (srcI e f.b f.ty l j)) % _) = _ else ((Fields.int f (op (srcI e f.a f.ty l j) (srcI e f.b f.ty l j)) % _ : Nat) : Int) = _
  generalize op (srcI e f.a f.ty l j) (srcI e f.b f.ty l j) = i
  unfold Fields.int
  by_cases hs : f.sat
  · simp only [hs, if_true]
    rw [Nat.mod_eq_of_lt (wrap_lt ..), intOf_wrap, clamp_eq]
    · rw [clamp_eq]; exact le_max_left ..
    · rw [clamp_eq]; have := lo_le_hi f.ty; omega
  · simp only [hs, if_false, Bool.false_eq_true]
    rw [Nat.mod_eq_of_lt (wrap_lt ..), intOf_wrap_mod]

theorem ptrA_eq (c : Ctx) (x : Name) (l : Nat) : c.ptrA x l = isPtr c.env x l := by
  unfold Ctx.ptrA isPtr Strand.value
  cases x <;> try rfl
  rename_i n
  simp only [if_true]
  show ((if ((c.env.lane l).reg n).tag == ((c.env.lane l).reg (n + 1)).tag then ((c.env.lane l).reg n).tag else Tag.none) == Tag.ptr) = _
  generalize ((c.env.lane l).reg n).tag = a
  generalize ((c.env.lane l).reg (n + 1)).tag = b
  by_cases h : a = b
  · subst h; simp
  · simp only [beq_iff_eq, h, if_false]
    rw [show (Tag.none == Tag.ptr) = false from rfl, eq_comm, Bool.and_eq_false_iff]
    simp only [beq_eq_false_iff_ne, ne_eq]
    by_cases ha : a = Tag.ptr
    · right; rintro rfl; exact h ha
    · left; exact ha

theorem perReg1 {t : Ty} (h : t.perReg = 1) : t.elemBits = bitsOf t := by have := tyWidth t; rw [h] at this; omega

theorem elem0 {t : Ty} {v : Val} (h : t.perReg = 1) (hv : v.bits.toNat < 2 ^ bitsOf t) : elem t v 0 = v.bits.toNat := by
  unfold elem; rw [elem_get (by omega), perReg1 h]; simp [Nat.mod_eq_of_lt hv]

theorem srcI0 {e x l} {t : Ty} (h : t.perReg = 1) : srcI e x t l 0 = t.intOf (srcN e x t l) := by
  unfold srcI; rw [elem0 h (srcN_lt e x t l)]; rfl

theorem xor_sign {n x : Nat} (hn : 0 < n) (hx : x < 2 ^ n) (b : Bool) (k : Nat) (hk : k < n) :
    (x % 2 ^ (n - 1) + (if b then 2 ^ (n - 1) else 0)).testBit k = if k = n - 1 then b else x.testBit k := by
  have hlt : x % 2 ^ (n - 1) < 2 ^ (n - 1) := Nat.mod_lt _ (by positivity)
  have e : x % 2 ^ (n - 1) + (if b then 2 ^ (n - 1) else 0) = (if b then 1 else 0) <<< (n - 1) ||| x % 2 ^ (n - 1) := by
    rw [← Nat.shiftLeft_add_eq_or_of_lt hlt]; cases b <;> simp [Nat.shiftLeft_eq, Nat.add_comm]
  rw [e, Nat.testBit_or, Nat.testBit_shiftLeft, Nat.testBit_mod_two_pow]
  by_cases h : k = n - 1
  · subst h; cases b <;> simp
  · have : k < n - 1 := by omega
    simp [h, this, show ¬ n - 1 ≤ k by omega]

theorem sign_lt {n x : Nat} (hn : 0 < n) (b : Bool) : x % 2 ^ (n - 1) + (if b then 2 ^ (n - 1) else 0) < 2 ^ n := by
  have hlt : x % 2 ^ (n - 1) < 2 ^ (n - 1) := Nat.mod_lt _ (by positivity)
  have : 2 ^ n = 2 ^ (n - 1) + 2 ^ (n - 1) := by rw [← Nat.two_mul, ← pow_succ']; congr 1; omega
  split <;> omega

theorem fmt_none {t : Ty} (h : t.isFloat = false) : t.fmt? = none := by cases t <;> simp [Ty.isFloat, Ty.fmt?] at *

theorem fmt_sign {t : Ty} {fm} (h : t.fmt? = some fm) : fm.signBit + 1 = t.elemBits := by
  cases t <;> simp [Ty.fmt?] at h <;> subst h <;> rfl

theorem qnan_lt {t : Ty} {fm} (h : t.fmt? = some fm) : fm.qnan < 2 ^ t.elemBits := by
  cases t <;> simp [Ty.fmt?] at h <;> subst h <;> decide

theorem picked {t : Ty} (ht : t ∈ Ty.clsF ++ Ty.clsE ++ Ty.clsI ++ Ty.clsP) (ftz isMax : Bool) {a b : Nat} (ha : a < 2 ^ t.elemBits) (hb : b < 2 ^ t.elemBits) :
    Picked t ftz (fun x y => if isMax then x.lt y else y.lt x) (fun x y => if isMax then decide (x < y) else decide (y < x)) a b (pickElem t ftz isMax a b) ∧ pickElem t ftz isMax a b < 2 ^ t.elemBits := by
  unfold Picked pickElem pickB
  cases hf : t.isFloat
  · rw [fmt_none hf]
    simp only [Bool.false_eq_true, if_false]
    unfold asRead
    rw [fmt_none hf]
    cases isMax <;> simp only [Bool.false_eq_true, if_false, if_true]
    · by_cases h : t.intOf b < t.intOf a <;> simp [h, ha, hb]
    · by_cases h : t.intOf a < t.intOf b <;> simp [h, ha, hb]
  · obtain ⟨fm, hfm⟩ := fmt_some hf
    have hq := qnan_lt hfm
    have hsb := fmt_sign hfm
    have hper : (t == .f16 || t == .bf16) = (t.perReg == 2) := by
      revert ht hf; cases t <;> decide
    have hread : ∀ x, x < 2 ^ t.elemBits → asRead t ftz x = (if ftz && t.perReg == 2 && (t.num ftz x).isZero then (if x.testBit fm.signBit then 2 ^ fm.signBit else 0) else x) ∧ asRead t ftz x < 2 ^ t.elemBits := by
      intro x hx
      unfold asRead
      rw [hfm]; dsimp only
      rw [← hper]
      split
      · have h2 : x / 2 ^ fm.signBit < 2 := by
          rw [Nat.div_lt_iff_lt_mul (by positivity), ← pow_succ', hsb]; exact hx
        have h3 : x / 2 ^ fm.signBit * 2 ^ fm.signBit = if x.testBit fm.signBit then 2 ^ fm.signBit else 0 := by
          rw [Nat.testBit_eq_decide_div_mod_eq, Nat.mod_eq_of_lt h2]
          generalize x / 2 ^ fm.signBit = q at *
          obtain rfl | rfl : q = 0 ∨ q = 1 := by omega
          · simp
          · simp
        refine ⟨h3, ?_⟩
        rw [h3, ← hsb]
        have : 2 ^ fm.signBit < 2 ^ (fm.signBit + 1) := Nat.pow_lt_pow_right (by omega) (by omega)
        split <;> omega
      · exact ⟨rfl, hx⟩
    have hfl : ∀ x, flushed t ftz x = (if ftz && t.perReg == 2 && (t.num ftz x).isZero then (if x.testBit fm.signBit then 2 ^ fm.signBit else 0) else x) := by
      intro x; unfold flushed; rw [hfm]
    simp only [hfl]
    rw [hfm]
    dsimp only
    simp only [if_true]
    cases hna : (t.num ftz a).isNan <;> cases hnb : (t.num ftz b).isNan <;> simp only [Bool.false_and, Bool.true_and, Bool.and_false, Bool.and_true, if_true, if_false, Bool.false_eq_true, false_and, and_false, and_self, false_or, true_or, Bool.not_true, Bool.not_false, or_false, or_true]
    · cases isMax <;> simp only [Bool.false_eq_true, if_false, if_true]
      · cases h : (t.num ftz b).lt (t.num ftz a) <;> simp only [Bool.false_eq_true, if_false, if_true]
        · exact hread a ha
        · exact hread b hb
      · cases h : (t.num ftz a).lt (t.num ftz b) <;> simp only [Bool.false_eq_true, if_false, if_true]
        · exact hread a ha
        · exact hread b hb
    · exact hread a ha
    · exact hread b hb
    · exact ⟨trivial, hq⟩

theorem fmt_mem {t : Ty} {fm} (h : t.fmt? = some fm) : fm ∈ [Fmt.f64, .f32, .f16, .bf16, .e4m3, .e5m2] := by
  cases t <;> simp [Ty.fmt?] at h <;> subst h <;> decide

theorem round_lt {t : Ty} {fm} (h : t.fmt? = some fm) (rm : Nat) (sat : Bool) (r : Nat) (x : Sys2Proof.Num) : (fm.round rm sat r x).bits < 2 ^ t.elemBits := by
  have hs := fmt_sign h
  have hmax : fm.maxMag < 2 ^ fm.signBit ∧ fm.infMag < 2 ^ fm.signBit ∧ fm.qnan < 2 ^ fm.signBit := by
    have := fmt_mem h
    revert this; generalize fm = q; simp only [List.mem_cons, List.not_mem_nil, or_false]
    rintro (rfl | rfl | rfl | rfl | rfl | rfl) <;> decide
  have hp : 2 ^ t.elemBits = 2 ^ fm.signBit + 2 ^ fm.signBit := by rw [← hs, pow_succ]; omega
  have sg : ∀ n m, m < 2 ^ fm.signBit → fm.signed n m < 2 ^ t.elemBits := by
    intro n m hm; unfold Fmt.signed; split <;> omega
  have h0 : 0 < 2 ^ fm.signBit := by positivity
  cases x with
  | nan => simp only [Fmt.round]; omega
  | inf n =>
    simp only [Fmt.round]
    split
    · exact sg _ _ hmax.1
    · split <;> [exact sg _ _ hmax.2.1; exact sg _ _ hmax.2.2]
  | fin n m e s =>
    simp only [Fmt.round]
    repeat' split
    all_goals first | exact sg _ _ h0 | exact sg _ _ hmax.1 | exact sg _ _ hmax.2.1 | exact sg _ _ (lt_of_le_of_lt (by assumption) hmax.1)

theorem toBf_lt (a : W32) : F32.toBf a < 2 ^ 16 := by
  unfold F32.toBf
  split
  · have := a.isLt; omega
  · exact round_lt (t := .bf16) rfl ..

theorem ofBf_mod (x : Nat) : F32.ofBf (x % 2 ^ 16) = F32.ofBf x := by unfold F32.ofBf; rw [Nat.mod_mod]

/-- tangent of a value built by tanOf -/
theorem tan_build {t : Ty} {n K : Nat} {F : Nat → Nat → W32} {k j : Nat} (ht : t.hasTan = true) (hk : k < K) (hj : j < t.perReg) :
    (Val.of n t.tag (tanOf t K F)).tanEl t k j = kept t (F k j) := by
  have htag : t.tag.hasTan = true := by cases t <;> simp_all [Ty.hasTan] <;> rfl
  unfold Val.tanEl kept
  rw [of_word]
  simp only [ht, Bool.not_true, Bool.false_eq_true, if_false, htag, if_true]
  have hg : (tanOf t K F).getD k 0 = if t.perReg = 2 then BitVec.ofNat 32 (F32.toBf (F k 0) + F32.toBf (F k 1) * 2 ^ 16) else F k 0 := by
    unfold tanOf
    simp only [ht, Bool.not_true, Bool.false_eq_true, if_false]
    rw [trim_getD]
    simp [List.getD_eq_getElem?_getD, hk]
  rw [hg]
  by_cases h2 : t.perReg = 2
  · simp only [h2, if_true, beq_self_eq_true]
    have a0 := toBf_lt (F k 0); have a1 := toBf_lt (F k 1)
    simp only [BitVec.toNat_ofNat]
    rw [Nat.mod_eq_of_lt (show F32.toBf (F k 0) + F32.toBf (F k 1) * 2 ^ 16 < 2 ^ 32 by omega)]
    have : j = 0 ∨ j = 1 := by omega
    rcases this with rfl | rfl
    · simp only [Nat.mul_zero, Nat.shiftRight_zero, Nat.add_mul_mod_self_right, Nat.mod_eq_of_lt a0]
    · rw [Nat.shiftRight_eq_div_pow, Nat.mul_one, Nat.add_mul_div_right _ _ (show 0 < 2 ^ 16 by decide), Nat.div_eq_of_lt a0, Nat.zero_add, Nat.mod_eq_of_lt a1]
  · have : t.perReg = 1 := by revert ht h2; cases t <;> decide
    obtain rfl : j = 0 := by omega
    simp [h2]

/-- A component beyond K is +0. -/
theorem tan_beyond {t : Ty} {n K : Nat} {F : Nat → Nat → W32} {k j : Nat} (hk : K ≤ k) : (Val.of n t.tag (tanOf t K F)).tanEl t k j = 0 := by
  have hw : (Val.of n t.tag (tanOf t K F)).word k = 0 := by
    rw [of_word]
    split
    · unfold tanOf
      split
      · rfl
      · rw [trim_getD]; simp [List.getD_eq_getElem?_getD, hk]
    · rfl
  unfold Val.tanEl
  rw [hw]
  split
  · rfl
  · split
    · rw [show (0 : W32).toNat = 0 from rfl, Nat.zero_shiftRight]; rfl
    · rfl

/-- The draw of R107 as `drawn` says it. -/
theorem srDraw_drawn (seed : W32) {d d' : Nat → Nat} (h : ∀ x, d x = d' x) (x : Nat) : srDraw seed d x = drawn seed d' x := by
  obtain rfl : d = d' := funext h
  unfold srDraw drawn
  have e : x - x % 32 = x / 32 * 32 := by have := Nat.div_add_mod x 32; omega
  simp only [e]

theorem dOf_zero (fm : Fmt) : fm.dOf Sys2Proof.Num.zero = 0 := by rfl

/-- A rounding in the acting lanes draws as R107 says. -/
theorem round_draws {e : Env} {f : Fields} {r : Run} {fm : Fmt} (hfm : f.ty.fmt? = some fm) (X : Nat → Nat → Sys2Proof.Num) :
    (ctx e f r).round f.ty ((ctx e f r).each fun l => (Ty.idx f.ty).map fun j => X l j) =
      (ctx e f r).each fun l => (Ty.idx f.ty).map fun j =>
        fm.round f.rm f.sat (srBits e f r f.ty.perReg (fun m k => fm.dOf (X m k)) l j) (X l j) := by
  have hp : 0 < f.ty.perReg := by cases f.ty <;> decide
  unfold Ctx.round
  rw [hfm]; dsimp only
  have hdraw : ∀ x, fm.dOf (((Assoc.get? ((ctx e f r).each fun l => (Ty.idx f.ty).map fun j => X l j) (x / f.ty.perReg)).getD []).getD
      (x % f.ty.perReg) Sys2Proof.Num.zero) =
      if x / f.ty.perReg ∈ e.acting f.guard r then fm.dOf (X (x / f.ty.perReg) (x % f.ty.perReg)) else 0 := by
    intro x
    by_cases hl : x / f.ty.perReg ∈ e.acting f.guard r
    · rw [if_pos hl, get?_each (c := ctx e f r) hl]
      simp [Ty.idx, List.getD_eq_getElem?_getD, Nat.mod_lt _ hp]
    · rw [if_neg hl, Assoc.get?_none (by rw [each_map]; exact hl)]
      exact dOf_zero fm
  conv_rhs => unfold Ctx.each
  conv_lhs => rw [show (ctx e f r).each (fun l => (Ty.idx f.ty).map fun j => X l j) =
    ((ctx e f r).lanes.map fun l => (l, (Ty.idx f.ty).map fun j => X l j)) from rfl, List.map_map]
  apply List.map_congr_left
  intro l _
  simp only [Function.comp_apply, Prod.mk.injEq, true_and, Ty.idx]
  rw [List.zipIdx_map, List.map_map]
  apply List.ext_getElem
  · simp
  · intro n h1 h2
    simp only [List.getElem_map, List.getElem_zipIdx, List.getElem_range, Function.comp_apply, Prod.map, id]
    congr 1
    unfold srBits
    by_cases h4 : f.rm = 4
    · simp only [h4, if_true, show (ctx e f r).f.rm = f.rm from rfl, beq_self_eq_true]
      rw [Nat.zero_add]
      exact srDraw_drawn _ hdraw _
    · simp [h4, show (ctx e f r).f.rm = f.rm from rfl]

theorem yfloat {i : Instr} {f : Fields} (hfl : i.fields? = some f) {X : Env → Nat → Nat → Sys2Proof.Num} {G : Env → Run → Nat → Nat → Nat → W32 → W32}
    {row : Env → Nat → Nat → Nat → W32 → W32}
    (hf : i.legal = true → f.ty.isFloat = true)
    (hx : ∀ s e sh r, Ready i s e f sh r → exec i s = .next ((ctx e f r).finishFloat (s.readBy i f sh e (e.acting f.guard r)) f.ty
      ((ctx e f r).each fun l => (Ty.idx f.ty).map fun j => X e l j) (G e r)))
    (hsh : ∀ sh, i.legal = true → i.shape = some sh → f.ty.wide = pairD sh.d)
    (hG : ∀ e r l k j y, G e r l k j y = row e l k j y) :
    Yields i fun e r l v _ => RoundedOnce e f r f.ty (X e) (row e l) l v := by
  intro s e f' sh r h
  obtain rfl : f = f' := f_eq hfl h.1.2.1
  obtain ⟨v0, hw, hS⟩ := issued_soft h
  obtain ⟨fm, hfm⟩ := fmt_some (hf h.2.1.1)
  have hx := hx _ _ _ _ h
  unfold Ctx.finishFloat at hx
  dsimp only at hx
  set xs := (ctx e f r).each fun l => (Ty.idx f.ty).map fun j => X e l j with hxs
  obtain ⟨v1, h1, h2, _⟩ := soft_flag (b := stCnvSat) (ls := ((((ctx e f r).round f.ty xs).filter fun r => r.2.any (·.sat98)).map (·.1))) hw hS (by
    have : ((((ctx e f r).round f.ty xs).filter fun r => r.2.any (·.sat98)).map (·.1)).Sublist (((ctx e f r).round f.ty xs).map (·.1)) := List.Sublist.map _ List.filter_sublist
    rw [round_map (hf h.2.1.1), hxs, each_map] at this
    exact (Env.acting_nodup ..).sublist this)
  set D : Nat → Nat → Nat := srBits e f r f.ty.perReg (fun m k => fm.dOf (X e m k)) with hDd
  have hD : (ctx e f r).round f.ty xs = (ctx e f r).each fun l => (Ty.idx f.ty).map fun j => fm.round f.rm f.sat (D l j) (X e l j) :=
    round_draws hfm (X e)
  rw [hD] at hx h1
  have hvs : ((ctx e f r).each fun l => (Ty.idx f.ty).map fun j => fm.round f.rm f.sat (D l j) (X e l j)).map (fun (p : Nat × List Rounded) =>
      (p.1, Val.of (joinBits f.ty.elemBits (p.2.map (·.bits))) f.ty.tag (tanOf f.ty (ctx e f r).env.K fun k j =>
      if (p.2.getD j ⟨0, false, false⟩).clamp then 0 else G e r p.1 k j (f.ty.primal false (p.2.getD j ⟨0, false, false⟩).bits)))) =
      (ctx e f r).each fun l => Val.of (joinBits f.ty.elemBits (((Ty.idx f.ty).map fun j => fm.round f.rm f.sat (D l j) (X e l j)).map (·.bits))) f.ty.tag (tanOf f.ty e.K fun k j =>
      if (((Ty.idx f.ty).map fun j => fm.round f.rm f.sat (D l j) (X e l j)).getD j ⟨0, false, false⟩).clamp then 0 else G e r l k j (f.ty.primal false (((Ty.idx f.ty).map fun j => fm.round f.rm f.sat (D l j) (X e l j)).getD j ⟨0, false, false⟩).bits)) := by
    unfold Ctx.each; rw [List.map_map]; rfl
  have hx' := hx
  erw [hvs] at hx'
  obtain ⟨t, val, v, g1, g2, g3, g4⟩ := yfin h h1 h2 hx' (hsh _ h.2.1.1 h.1.2.2.1)
  refine ⟨t, val, v, g1, g2, g3, fun l hl => ?_⟩
  rw [g4 l hl]
  refine ⟨rfl, fun fm' hfm' j hj y hy => ?_⟩
  obtain rfl : fm = fm' := by rw [hfm] at hfm'; exact Option.some.inj hfm'
  obtain rfl : y = fm.round f.rm f.sat (D l j) (X e l j) := hy
  have hget : ((Ty.idx f.ty).map fun j => fm.round f.rm f.sat (D l j) (X e l j)).getD j ⟨0, false, false⟩ = fm.round f.rm f.sat (D l j) (X e l j) := by
    simp [Ty.idx, List.getD_eq_getElem?_getD, hj]
  have he : ∀ tan, elem f.ty (Val.of (joinBits f.ty.elemBits (((Ty.idx f.ty).map fun j => fm.round f.rm f.sat (D l j) (X e l j)).map (·.bits))) f.ty.tag tan) j = (fm.round f.rm f.sat (D l j) (X e l j)).bits := by
    intro tan
    rw [elem_join (by simp [Ty.idx]) hj]
    have : (((Ty.idx f.ty).map fun j => fm.round f.rm f.sat (D l j) (X e l j)).map (·.bits)).getD j 0 = (fm.round f.rm f.sat (D l j) (X e l j)).bits := by
      simp [Ty.idx, List.getD_eq_getElem?_getD, hj]
    rw [this, Nat.mod_eq_of_lt (round_lt hfm ..)]
  refine ⟨he _, fun ht k => ?_⟩
  by_cases hk : k < e.K
  · rw [tan_build ht hk hj, he, hget]
    cases hc : (fm.round f.rm f.sat (D l j) (X e l j)).clamp
    · rw [if_neg (by simp), if_pos ⟨hk, rfl⟩, hG]
    · rw [if_pos rfl, if_neg (by simp)]; unfold kept; split <;> rfl
  · rw [tan_beyond (Nat.le_of_not_lt hk), if_neg fun h => hk h.1]

theorem intRange (t : Ty) (x : Nat) (hx : x < 2 ^ t.elemBits) : t.lo ≤ t.intOf x ∧ t.intOf x ≤ t.hi := by
  have hp := tyPos t
  have e2 : (2 : Int) ^ t.elemBits = 2 * 2 ^ (t.elemBits - 1) := by rw [← pow_succ']; congr 1; omega
  have e3 : (2 : Nat) ^ t.elemBits = 2 * 2 ^ (t.elemBits - 1) := by rw [← pow_succ']; congr 1; omega
  unfold Ty.intOf Ty.lo Ty.hi
  have hx' : (x : Int) < 2 ^ t.elemBits := by exact_mod_cast hx
  cases hs : t.isSigned
  · simp only [Bool.false_and, Bool.false_eq_true, if_false]; push_cast; omega
  · simp only [Bool.true_and, if_true]
    have tb : x.testBit (t.elemBits - 1) = decide (2 ^ (t.elemBits - 1) ≤ x) := by
      rw [Nat.testBit_eq_decide_div_mod_eq]
      congr 1
      rw [e3] at hx
      by_cases hh : 2 ^ (t.elemBits - 1) ≤ x
      · simp only [hh, eq_iff_iff, iff_true]
        rw [show x / 2 ^ (t.elemBits - 1) = 1 by apply Nat.div_eq_of_lt_le <;> omega]
      · simp only [hh, eq_iff_iff, iff_false]
        rw [Nat.div_eq_of_lt (by omega)]; simp
    rw [tb]
    by_cases hh : 2 ^ (t.elemBits - 1) ≤ x
    · simp only [hh, decide_true, if_true]
      have : (2 : Int) ^ (t.elemBits - 1) ≤ x := by exact_mod_cast hh
      push_cast; omega
    · simp only [hh, decide_false, if_false, Bool.false_eq_true]
      have : (x : Int) < 2 ^ (t.elemBits - 1) := by exact_mod_cast Nat.lt_of_not_le hh
      push_cast; omega

theorem divResult (t : Ty) (isDiv : Bool) (x y : Int) (hx : t.lo ≤ x ∧ x ≤ t.hi) (hy : t.lo ≤ y ∧ y ≤ t.hi) :
    DivResult t isDiv x y (t.wrap ((if isDiv then intDiv else intRem) t x y)) := by
  unfold DivResult
  cases isDiv
  · simp only [Bool.false_eq_true, if_false]
    unfold intRem
    by_cases h0 : y = 0
    · simp only [h0, if_true, beq_self_eq_true]
      exact intOf_wrap t x hx.1 hx.2
    · have h0' : (y == 0) = false := by simpa using h0
      simp only [h0, h0', if_false, Bool.false_eq_true]
      have hr1 : (x.tmod y).natAbs < y.natAbs := by
        rw [Int.natAbs_tmod]; exact Nat.mod_lt _ (Int.natAbs_pos.2 h0)
      have hr2 : (x.tmod y).natAbs ≤ x.natAbs := by rw [Int.natAbs_tmod]; exact Nat.mod_le ..
      have hr3 : x.tmod y = 0 ∨ (x.tmod y < 0 ↔ x < 0) := by
        by_cases hz : x.tmod y = 0
        · exact .inl hz
        · right
          constructor
          · intro h; by_contra hc; have := Int.tmod_nonneg y (show 0 ≤ x by omega); omega
          · intro h
            have : (-x).tmod y ≥ 0 := Int.tmod_nonneg y (by omega)
            rw [Int.neg_tmod] at this; omega
      have hlo : t.lo ≤ x.tmod y ∧ x.tmod y ≤ t.hi := by
        have hlo0 : t.lo ≤ 0 := by cases t <;> decide
        have hhi0 : 0 ≤ t.hi := by cases t <;> decide
        rcases hr3 with h | h
        · omega
        · by_cases hx0 : x < 0
          · have := h.2 hx0; omega
          · have : ¬ x.tmod y < 0 := fun hc => hx0 (h.1 hc); omega
      rw [intOf_wrap t _ hlo.1 hlo.2]
      refine ⟨x.tdiv y, ?_, hr1, hr3⟩
      have := Int.mul_tdiv_add_tmod x y; omega
  · simp only [if_true]
    unfold intDiv
    by_cases h0 : y = 0
    · simp only [h0, if_true, beq_self_eq_true]
      rw [intOf_wrap_mod]
      cases t.isSigned <;> simp
    · have h0' : (y == 0) = false := by simpa using h0
      simp only [h0, h0', if_false, Bool.false_eq_true]
      split
      · rw [intOf_wrap_mod]
      · rename_i h
        have hq : (x.tdiv y).natAbs ≤ x.natAbs := by rw [Int.natAbs_tdiv]; exact Nat.div_le_self ..
        have hneg : ∀ (_ : y < 0), x.tdiv y = -(x.tdiv (-y)) := by intro _; simp [Int.tdiv_neg]
        have hlo0 : t.lo ≤ 0 := by cases t <;> decide
        have hhi0 : 0 ≤ t.hi := by cases t <;> decide
        have hsym : t.isSigned = true → t.hi = -t.lo - 1 := by cases t <;> decide
        have hun : t.isSigned = false → t.lo = 0 := by cases t <;> decide
        apply intOf_wrap
        · -- lower
          by_cases hs : t.isSigned
          · have := hsym hs
            omega
          · have := hun (by simpa using hs)
            have : 0 ≤ x.tdiv y := Int.tdiv_nonneg (by omega) (by omega)
            omega
        · by_cases hs : t.isSigned
          · have hh := hsym hs
            by_cases hxl : x = t.lo
            · have hy1 : y ≠ -1 := by intro hc; apply h; simp [hs, hxl, hc]
              by_cases hy2 : y = 1
              · rw [hy2, Int.tdiv_one]; omega
              · have hab : 2 ≤ y.natAbs := by omega
                have : (x.tdiv y).natAbs ≤ x.natAbs / 2 := by
                  rw [Int.natAbs_tdiv]; exact Nat.div_le_div_left hab (by decide)
                omega
            · omega
          · have := hun (by simpa using hs)
            have h1 : 0 ≤ x.tdiv y := Int.tdiv_nonneg (by omega) (by omega)
            omega

end Sys2Proof.Laws
end

