-- ==== Sys2Proof/Tests/Slice0.lean ====
section
/-! SUPPORT. Tests: words of the spec's encoding tables and worked examples, ill-formed terms that the check refuses, and for
the hypotheses of each obligation a state and operands that meet them. -/

set_option Elab.async false

namespace Sys2Proof.Tests

open Sys2Proof.Machine Sys2Proof.Claim

/-! A small machine in which a word issues: one wavelet of two lanes with equal registers. -/

/-- Registers `v64` to `v111` hold distributions of the one point 0, `v200` to `v215` reservoirs, `o2` a number. -/
def lane0 : Strand :=
  { regs := ((List.range 48).map fun k => (64 + k, { bits := if k % 16 = 0 then 0x10001 else 0, tag := Tag.dis })) ++
      (List.range 16).map fun k => (200 + k, { bits := 0, tag := Tag.rsv }),
    o := [(2, ⟨0, Ty.f32.tag, []⟩)] }

/-- Its parts. -/
structure Bench where
  lane : Strand := lane0
  /-- Lanes of the bundle. -/
  mask : Mask := 3
  run  : Run := { start := 0x10000, count := 0, lanes := 3 }
  wav  : Wavelet := { width := 2, lanes := [{ lane with pc := 0x10000, live := true }, { lane with pc := 0x10000, live := true }],
                      run := some { run with lanes := mask } }
  blk  : Block := { task := 1, idx := 0, home := 0, at' := 0, width := 2 }
  kern : Kern := placeKern
  job  : Job := {}
  stage : SpanStage := .running

def Bench.span (b : Bench) : Span := { task := 1, ctx := 1, blocks := 1, stage := b.stage }
def Bench.task (b : Bench) : Task :=
  { ctx := 1, qid := 1, hdr := placeHdr, regions := [], kern := b.kern, grid := 0, stage := .released, next := 1 }
def Bench.st (b : Bench) : State :=
  { State.reset with jobs := [(1, b.job)], tasks := [(1, b.task)], spans := [(1, b.span)],
                     blocks := [(⟨1, 0⟩, b.blk)], wavs := [(placeWav, b.wav)], cur := some placeWav, nextOp := 2 }
def Bench.env (b : Bench) : Env := ⟨placeWav, b.wav, b.blk, b.span, b.task, b.job⟩

/-- The conditions of `Ready` that a run can decide. -/
def readyB (i : Instr) (f : Fields) (sh : Shape) (e : Env) (r : Run) : Bool :=
  let ls := e.acting f.guard r
  let full := fun (l : Nat) => (reads i f sh e ls l).all fun p => (p.2.2.mains p.2.1).all fun k => ((e.lane l).reg k).full
  e.wav.lanes.length == e.wav.width && decide (e.wav.width ≤ 64) && Sparse.wf ({} : UReg) e.wav.w &&
  (e.wav.lanes.all fun x => Sparse.wf ({} : Reg) x.regs) &&
  i.legal && i.kOk e.K && (i.isSeal || decide (r.count < 24) && !r.mustSeal) && f.hc == 0 && e.wav.replay.isNone &&
  ((readers sh ls ++ laneReads i f sh e ls).all fun l => !lacks i f sh e ls l) &&
  ((readers sh ls ++ laneMembers i f sh e r ls).all full) &&
  ((readers sh ls).all fun l => !unfit i f sh e ls l) && ((writeLanes i f e ls).all fun l => !pends f sh e l)

theorem ready_of {i : Instr} {s : State} {e : Env} {f : Fields} {sh : Shape} {r : Run} (he : s.cur.bind s.env? = some e)
    (hf : i.fields? = some f) (hs : i.shape = some sh) (hr : e.wav.run = some r) (h : readyB i f sh e r = true) :
    Ready i s e f sh r := by
  simp only [readyB, Bool.and_eq_true, List.all_eq_true, beq_iff_eq, decide_eq_true_eq, Bool.not_eq_true', Option.isNone_iff_eq_none,
    Bool.or_eq_true] at h
  obtain ⟨⟨⟨⟨⟨⟨⟨⟨⟨⟨⟨⟨h1, h2⟩, h3⟩, h4⟩, h5⟩, h6⟩, h7⟩, h8⟩, h9⟩, h10⟩, h11⟩, h12⟩, h13⟩ := h
  refine ⟨⟨he, hf, hs, hr, h1, h2, h3, h4⟩, ⟨h5, h6, ?_, h8⟩, h9, ?_, ?_, ?_, ?_, ?_⟩
  · exact h7.imp id fun h => ⟨h.1, h.2⟩
  · intro l hl p hp
    have := h10 l hl
    simp only [lacks, List.any_eq_false] at this
    have := this p hp
    by_cases hn : p.2.2 = .none
    · exact .inl hn
    · right; simpa [hn] using this
  · intro l hl p hp _ k hk; exact h11 l hl p hp k hk
  · intro l hl p hp _ k hk; exact h11 l hl p hp k hk
  · intro l hl
    have := h12 l hl
    simp only [unfit, Bool.or_eq_false_iff, List.any_eq_false, Bool.not_eq_true] at this
    refine ⟨this.1, ?_⟩
    have h2 := this.2
    split
    case h_3 => trivial
    all_goals
      intro hf k hk
      rw [Bool.and_eq_false_iff] at h2
      have h2 := h2.resolve_left (by simpa using hf)
      simp only [List.any_eq_false, bne_iff_ne, ne_eq, Decidable.not_not] at h2
      exact h2 k hk
  · intro l hl k hk
    have := h13 l hl
    simp only [pends, List.any_eq_false, Bool.not_eq_true', Bool.not_eq_false] at this
    exact this k hk

/-- The word is ready on a bench. -/
def Bench.ready (b : Bench) (i : Instr) : Bool :=
  match i.fields?, i.shape with
  | some f, some sh => readyB i f sh b.env { b.run with lanes := b.mask } && (b.wav.run == some { b.run with lanes := b.mask })
  | _, _ => false

theorem Bench.ready_of {b : Bench} {i : Instr} (h : b.ready i = true) :
    ∃ s e f sh r, Ready i s e f sh r ∧ s = b.st ∧ e = b.env := by
  unfold Bench.ready at h
  split at h
  · rename_i f sh hf hs
    simp only [Bool.and_eq_true, beq_iff_eq] at h
    exact ⟨b.st, b.env, f, sh, _, Tests.ready_of rfl hf hs h.2 h.1, rfl, rfl⟩
  · cases h

/-! Words of the encoding tables of spec/02, 04, 06 to 18 and of the reference entries (spec/19 to 21); the forms for which
no word is printed have the FN, IMM16 or TY of their entry in the printed word of their family. -/

def arith : List (Nat × Instr) :=
  [(0x0600280A05F0A840E4000000, .fma { blank with guard := ⟨true, 2⟩, ty := .f32, d := .v 20, a := .v 10, fe := 2, b := .v 11, c := .o 2, md := 9 }),
   (0x00000803F87C1C00C0000000, .abs { blank with ty := .f32, d := .v 4, a := .v 3 }),
   (0x01000601017C1C00CC000000, .add { blank with ty := .f32, d := .v 3, a := .v 1, b := .v 2, md := 3 }),
   (0x02000004047C1C02C0000001, .addc { blank with ty := .n64, d := .v 0, a := .v 4, b := .v 8, imm := 1 }),
   (0x02000406057C1C02C000004F, .addc { blank with ty := .n64, d := .v 2, a := .v 6, b := .v 10, imm := 0x4f }),
   (0x03000E05037C1C00C0000000, .div { blank with ty := .f32, d := .v 7, a := .v 5, b := .v 6 }),
   (0x03000E05037C1C0040000000, .div { blank with ty := .s32, d := .v 7, a := .v 5, b := .v 6 }),
   (0x04000E0503021C0180000000, .dot2 { blank with ty := .bf16, d := .v 7, a := .v 5, b := .v 6, c := .v 8 }),
   (0x05000E0503021C01C0000000, .dot4 { blank with ty := .e4m3, d := .v 7, a := .v 5, b := .v 6, c := .v 8 }),
   (0x06000C0506035C00C0000000, .fma { blank with ty := .f32, d := .v 6, a := .v 5, b := .v 12, c := .v 13 }),
   (0x07000E05F87C1C00CC000000, .frnd { blank with ty := .f32, d := .v 7, a := .v 5, md := 3 }),
   (0x08000E05037C1C0300000000, .max { blank with ty := .s16x2, d := .v 7, a := .v 5, b := .v 6 }),
   (0x09000A04F87C1C00C0000000, .min { blank with ty := .f32, d := .v 5, a := .v 4 }),
   (0x0A00060100FC1C00C0000000, .mul { blank with ty := .f32, d := .v 3, a := .v 1, b := .v 1 }),
   (0x0A0035F80C7C1C02C0000000, .mul { blank with ty := .n64, d := .v 26, a := .lit .lane, b := .v 24 }),
   (0x0B000E05037C1C0040000000, .mul24 { blank with ty := .s32, d := .v 7, a := .v 5, b := .v 6 }),
   (0x0C000E05037C1C0080000000, .mulhi { blank with ty := .n32, d := .v 7, a := .v 5, b := .v 6 }),
   (0x0D000E05F87C1C00C0000000, .neg { blank with ty := .f32, d := .v 7, a := .v 5 }),
   (0x0E000C04047C1C02C0000000, .rem { blank with ty := .n64, d := .v 6, a := .v 4, b := .v 8 }),
   (0x0E000E05037C1C0040000000, .rem { blank with ty := .s32, d := .v 7, a := .v 5, b := .v 6 }),
   (0x0F0027F1017C1C0080000000, .sub { blank with ty := .n32, d := .v 19, a := .lit .one, b := .v 2 })]

def logic : List (Nat × Instr) :=
  [(0x10000E05037C1C0000000000, .and { blank with ty := .b32, d := .v 7, a := .v 5, b := .v 6 }),
   (0x11000E05037C1C0080000000, .bfe { blank with ty := .n32, d := .v 7, a := .v 5, b := .v 6 }),
   (0x12000E0503021C0000000000, .bfi { blank with ty := .b32, d := .v 7, a := .v 5, b := .v 6, c := .v 8 }),
   (0x13000E05F87C1C0000000000, .brev { blank with ty := .b32, d := .v 7, a := .v 5 }),
   (0x14000E05F87C1C0080000000, .clz { blank with ty := .n32, d := .v 7, a := .v 5 }),
   (0x150019F9F87C1C0000000000, .mov { blank with ty := .b32, d := .v 12, a := .lit .allones }),
   (0x15001404F87C1C0100000000, .mov { blank with ty := .f64, d := .v 10, a := .v 4 }),
   (0x16000FF00FF01C00C0000000, .movi { blank with ty := .f32, d := .v 7, imm32 := 0x3fc00000 }),
   (0x16003DF03FFFDC008000FFFF, .movi { blank with ty := .n32, d := .v 30, imm32 := 0xffffffff }),
   (0x17000E05F87C1C0000000000, .not { blank with ty := .b32, d := .v 7, a := .v 5 }),
   (0x18001008057C1C0000000000, .or { blank with ty := .b32, d := .v 8, a := .v 8, b := .v 10 }),
   (0x19000E04F87C1C02C0000000, .popc { blank with ty := .n64, d := .v 7, a := .v 4 }),
   (0x1A000E05037C1C0000000000, .rotL { blank with ty := .b32, d := .v 7, a := .v 5, b := .v 6 }),
   (0x1A040E05037C1C0000000000, .rotR { blank with ty := .b32, d := .v 7, a := .v 5, b := .v 6 }),
   (0x1B000E05037C1C00C0000003, .sel { blank with ty := .f32, d := .v 7, imm := 3, a := .v 5, b := .v 6 }),
   (0x1C0005F8F97C1C0000000000, .shl { blank with ty := .b32, d := .v 2, a := .lit .lane, b := .lit .two }),
   (0x1D000C04047C1C02C0000000, .shr { blank with ty := .n64, d := .v 6, a := .v 4, b := .v 8 }),
   (0x1E000E05037C1C0040000000, .sra { blank with ty := .s32, d := .v 7, a := .v 5, b := .v 6 }),
   (0x1F000E05037C1C0000000000, .xor { blank with ty := .b32, d := .v 7, a := .v 5, b := .v 6 })]

def convert : List (Nat × Instr) :=
  [(0x2003E002F8FC1C0080000001, .cmp { blank with ty := .n32, imm := 1, a := .v 2, b := .lit .one } 0),
   (0x200BE005F87C1C00C0000003, .cmp { blank with ty := .f32, imm := 3, a := .v 5 } 2),
   (0x28000E04F87C1C0140000003, .cvt { blank with ty := .f16, imm := 3, d := .v 7, a := .v 4 }),
   (0x28000E05F87C1C0064000003, .cvt { blank with ty := .s32, imm := 3, d := .v 7, a := .v 5, md := 9 }),
   (0x29041028167C1C0240000000, .cvtblkDec { blank with ty := .i4o, d := .v 8, a := .v 40, b := .v 44 }),
   (0x29005008F87C1C01C0000000, .cvtblkEnc { blank with ty := .e4m3, d := .v 40, a := .v 8 }),
   (0x21001404F87C1C00C0000002, .matchKey { blank with ty := .f32, d := .v 10, imm := 2, a := .v 4 }),
   (0x21001404F87C1C0080000002, .matchKey { blank with ty := .n32, d := .v 10, imm := 2, a := .v 4 }),
   (0x2A001204F87C1C01C0000000, .pack4 { blank with ty := .e4m3, d := .v 9, a := .v 4 }),
   (0x2A00120C04FC1C0240000001, .pack4 { blank with ty := .i4o, d := .v 9, a := .v 12, b := .v 9, imm := 1 }),
   (0x220FE1F0F87C1C000000008B, .plog { blank with imm := 0x8b } 3),
   (0x2B000809F87C1C01C0000000, .unpk4 { blank with ty := .e4m3, d := .v 4, a := .v 9 }),
   (0x2B000809F87C1C0240000001, .unpk4 { blank with ty := .i4o, d := .v 4, a := .v 9, imm := 1 }),
   (0x2303E1F0F87C1C000000004A, .voteAll { blank with imm := 0x4a }),
   (0x2307E1F0F87C1C0000000021, .voteAny { blank with imm := 0x21 }),
   (0x230815F0F87C1C0000000003, .voteBallot { blank with d := .v 10, imm := 3 })]

def special : List (Nat × Instr) :=
  [(0x30000E05F87C1C00C0000000, .cos { blank with ty := .f32, d := .v 7, a := .v 5 }),
   (0x31000E05F87C1C00C0000000, .ex2 { blank with ty := .f32, d := .v 7, a := .v 5 }),
   (0x32000E05F87C1C00C0000000, .lg2 { blank with ty := .f32, d := .v 7, a := .v 5 }),
   (0x33000E05F87C1C00C0000000, .rcp { blank with ty := .f32, d := .v 7, a := .v 5 }),
   (0x33000C04F87C1C0108000000, .rcp { blank with ty := .f64, d := .v 6, a := .v 4, md := 2 }),
   (0x34000E05F87C1C00C0000000, .rsq { blank with ty := .f32, d := .v 7, a := .v 5 }),
   (0x35000E05F87C1C00C0000000, .sin { blank with ty := .f32, d := .v 7, a := .v 5 }),
   (0x36000E05F87C1C00C0000000, .sqrt { blank with ty := .f32, d := .v 7, a := .v 5 }),
   (0x36000C04F87C1C0104000000, .sqrt { blank with ty := .f64, d := .v 6, a := .v 4, md := 1 }),
   (0x38000803F47C1C00C0000000, .tev { blank with ty := .f32, d := .v 4, a := .v 3, b := .w 8 }),
   (0x38001207F47C1C00C0000000, .tev { blank with ty := .f32, d := .v 9, a := .v 7, b := .w 8 }),
   (0x39001407F87C1C018000000A, .tget { blank with ty := .bf16, d := .v 10, a := .v 7, imm := 0xa }),
   (0x39001407F87C1C00C0000000, .tget { blank with ty := .f32, d := .v 10, a := .v 7 }),
   (0x3A000601017C1C00C0000000, .tset { blank with ty := .f32, d := .v 3, a := .v 1, b := .v 2 }),
   (0x3B000A04F87C1C00C0000000, .tzero { blank with ty := .f32, d := .v 5, a := .v 4 })]

def lanesAndLoads : List (Nat × Instr) :=
  [(0x4B03E02C137C180080000001, .st { blank with guard := ⟨false, 6⟩, ty := .n32, a := .v 44, imm := 1, b := .v 38 }),
   (0x40043218F88A1C0080000000, .laneBack { blank with ty := .n32, d := .v 25, a := .v 24, b := .lit .one, c := .v 40 }),
   (0x400C0A04037E5C00C0000000, .laneMate { blank with ty := .f32, d := .v 5, a := .v 4, b := .v 6, c := .lit .allones }),
   (0x48000C04F87C1C00C8000000, .ld { blank with ty := .f32, d := .v 6, a := .v 4, md := 2 }),
   (0x48000A08F87C1C00C0000040, .ld { blank with ty := .f32, d := .v 5, a := .v 8, imm := 0x40 }),
   (0x41000E05F87C1C00C0000000, .lred { blank with ty := .f32, d := .v 7, a := .v 5 } 0),
   (0x41000E05F87C1C00C8000000, .lred { blank with ty := .f32, d := .v 7, a := .v 5, md := 2 } 0),
   (0x42004421F87C1C0080000000, .lscan { blank with ty := .n32, d := .v 34, a := .v 33 } 0 false),
   (0x42281208F87C1C0080000000, .lscan { blank with ty := .n32, d := .v 9, a := .v 8 } 2 true),
   (0x49000604F87C1C0000000000, .spc { blank with d := .v 3, a := .v 4 }),
   (0x4A001404F87C1C0000000000, .spcastSp { blank with d := .v 10, a := .v 4 }),
   (0x4A04140603FC1C0000000000, .spcastSpan { blank with d := .v 10, a := .v 6, b := .v 7 }),
   (0x4B03E004047C1C02C4000040, .st { blank with ty := .n64, a := .v 4, imm := 0x40, b := .v 8, md := 1 }),
   (0x40083418F88A1C0080000000, .laneFwd { blank with ty := .n32, d := .v 26, a := .v 24, b := .lit .one, c := .v 40 }),
   (0x40003218F88A1C0080000000, .laneRank { blank with ty := .n32, d := .v 25, a := .v 24, b := .lit .one, c := .v 40 }),
   (0x4A081404F87C1C0000000000, .spcastOff { blank with d := .v 10, a := .v 4 })]

def atomicsAndCopies : List (Nat × Instr) :=
  [(0x5003E014F8FC1C0080000000, .atomAdd { blank with ty := .n32, a := .v 20, b := .lit .one }),
   (0x50181204057C1C00C0000008, .atomExch { blank with ty := .f32, d := .v 9, a := .v 4, imm := 8, b := .v 10 }),
   (0x510012040502DC0080000000, .atomcas { blank with ty := .n32, d := .v 9, a := .v 4, b := .v 10, c := .v 11 }),
   (0x58001408067C1C0000000000, .cpkick { blank with d := .v 10, a := .v 8, b := .v 12 }),
   (0x59085004037C1C0000000000, .cpl { blank with d := .v 40, a := .v 4, b := .v 6 } 2),
   (0x5A001408F87C1C0000000000, .cpt { blank with d := .v 10, a := .v 8 }),
   (0x520BE1F0F87C1C0000000000, .fence blank 2),
   (0x5213E1F0F87C1C0000000000, .fence blank 4),
   (0x5217E1F0F87C1C0000000000, .fenceSys blank),
   (0x5007E014F8FC1C0080000000, .atomMin { blank with ty := .n32, a := .v 20, b := .lit .one }),
   (0x500BE014F8FC1C0080000000, .atomMax { blank with ty := .n32, a := .v 20, b := .lit .one }),
   (0x500FE014F8FC1C0080000000, .atomAnd { blank with ty := .n32, a := .v 20, b := .lit .one }),
   (0x5013E014F8FC1C0080000000, .atomOr { blank with ty := .n32, a := .v 20, b := .lit .one }),
   (0x5017E014F8FC1C0080000000, .atomXor { blank with ty := .n32, a := .v 20, b := .lit .one })]

def matrix : List (Nat × Instr) :=
  [(0x60000BF0F87C1C0000000002, .mamax { blank with d := .v 5, imm := 2 }),
   (0x600471F0F87C1C0000000000, .mamaxClr { blank with d := .v 56 }),
   (0x6007E1F0F87C1C0000000000, .mamaxClr blank),
   (0x61003E1EF87C1C0000000000, .mclaim { blank with d := .v 31, a := .v 30 }),
   (0x6203E005F87C1C0180000000, .mconstIdent { blank with ty := .bf16, a := .v 5 }),
   (0x6217E005037C1C0180000000, .mconstShift { blank with ty := .bf16, a := .v 5, b := .v 6 }),
   (0x6303E02EF87C1C0000000000, .mdual { blank with a := .v 46 }),
   (0x6503E022168A1C0180000000, .mld { blank with ty := .bf16, a := .v 34, b := .v 45, c := .v 40 }),
   (0x6507E024150A1C0180000000, .mldT { blank with ty := .bf16, a := .v 36, b := .v 42, c := .v 40 }),
   (0x6603E008F87C1C0000000000, .mma { blank with a := .v 8 }),
   (0x6703E01FF87C1C0000000000, .mrel { blank with a := .v 31 }),
   (0x68006DF0F87C1C0000000000, .mwait { blank with d := .v 54 }),
   (0x6403E1F0F87C1C0000000000, .mfence blank),
   (0x6207E005F87C1C0180000000, .mconstExch { blank with ty := .bf16, a := .v 5 }),
   (0x620FE005F87C1C0180000000, .mconstOnesrow { blank with ty := .bf16, a := .v 5 }),
   (0x6213E005F87C1C0180000000, .mconstOnescol { blank with ty := .bf16, a := .v 5 }),
   (0x620BE005037C1C0180000000, .mconstPerm { blank with ty := .bf16, a := .v 5, b := .v 6 })]

def images : List (Nat × Instr) :=
  [(0x78008050307C1C0000000000, .dadd { blank with d := .v 64, a := .v 80, b := .v 96 }),
   (0x7804805001FC1C0000000002, .daddSub { blank with d := .v 64, a := .v 80, b := .v 3, imm := 2 }),
   (0x79008008F87C1C0000000040, .dld { blank with d := .v 64, a := .v 8, imm := 0x40 }),
   (0x7A040A40F87C1C0000000000, .dmomVar { blank with d := .v 5, a := .v 64 }),
   (0x7B008050307C1C0000000000, .dmul { blank with d := .v 64, a := .v 80, b := .v 96 }),
   (0x7C000A40037C1C0000000000, .dqtl { blank with d := .v 5, a := .v 64, b := .v 6 }),
   (0x7D0080502C011C0000000000, .dset { blank with d := .v 64, a := .v 80, b := .v 88, c := .v 4 }),
   (0x7E03E008207C1C0000000040, .dsto { blank with a := .v 8, imm := 0x40, b := .v 64 }),
   (0x7F008040F87C1C0000000000, .dtag { blank with d := .v 64, a := .v 64 }),
   (0x700190C8F87C1C0000000000, .rsvfin { blank with d := .v 200, a := .v 200 }),
   (0x71003CC8F87C1C0000000007, .rsvget { blank with d := .v 30, a := .v 200, imm := 7 }),
   (0x720191F0F87C1C0000000000, .rsvinit { blank with d := .v 200 }),
   (0x73019008F87C1C0000000000, .rsvld { blank with d := .v 200, a := .v 8 }),
   (0x740190D00A055C0000000000, .rsvmerge { blank with d := .v 200, a := .v 208, b := .v 20, c := .v 21 }),
   (0x7503E01E647C1C0000000000, .rsvst { blank with a := .v 30, b := .v 200 }),
   (0x7601900C08045C0000000000, .rsvupd { blank with d := .v 200, a := .v 12, b := .v 16, c := .v 17 }),
   (0x7A000A40F87C1C0000000000, .dmomMean { blank with d := .v 5, a := .v 64 }),
   (0x7A080A40F87C1C0000000000, .dmomM3 { blank with d := .v 5, a := .v 64 }),
   (0x7A0C0A40F87C1C0000000000, .dmomMin { blank with d := .v 5, a := .v 64 }),
   (0x7A100A40F87C1C0000000000, .dmomMax { blank with d := .v 5, a := .v 64 })]

def graphics : List (Nat × Instr) :=
  [(0x88002808F87C1C0000000000, .coll { blank with d := .v 20, a := .v 8 }),
   (0x8903E014F87C1C0000000000, .collwait { blank with a := .v 20 }),
   (0x80002808F87C1C0000000000, .splsub { blank with d := .v 20, a := .v 8 }),
   (0x8103E014F87C1C0000000000, .splwait { blank with a := .v 20 }),
   (0x82005004047C1C00C0000000, .tex { blank with ty := .f32, d := .v 40, a := .v 4, b := .v 8 }),
   (0x82045004047C1C0140000200, .texLod { blank with ty := .f16, d := .v 40, a := .v 4, b := .v 8, imm := 0x200 }),
   (0x8300500404031C00C0000000, .texd { blank with ty := .f32, d := .v 40, a := .v 4, b := .v 8, c := .v 12 })]

def control : List (Nat × Instr) :=
  [(0x9003E1F03FFFC4000000FFFE, .bra { blank with guard := ⟨false, 1⟩, imm32 := 0xfffffffe }),
   (0x92003DF000001C000000000C, .call { blank with d := .v 30, imm32 := 0xc }),
   (0x92043C0C00001C0000000000, .callInd { blank with d := .v 30, a := .v 12 }),
   (0x9403E1F000001C0000000004, .jmp { blank with imm32 := 4 }),
   (0x9407E00C00001C0000000000, .jmpInd { blank with a := .v 12 }),
   (0x960BE1F0F87C1C0000000000, .retXSkip blank),
   (0x9607E1F0F87C1C0000000000, .retX blank),
   (0x9603E1F0F87C1C0000000000, .ret blank),
   (0x97081828F8001C0000000000, .seal { blank with d := .v 12, a := .v 40 } false true),
   (0x970BE1F0F8001C0000000000, .seal blank false true),
   (0x98001808F87C1C0000000000, .task { blank with d := .v 12, a := .v 8 }),
   (0x9903E1F0F87C1C000000002A, .trap { blank with imm := 0x2a }),
   (0x9903E1F0F87C1C0000000000, .trap blank),
   (0x9103E1F0F87C1C0000000000, .brk blank),
   (0x9303E1F0F87C1C0000000000, .exit blank),
   (0x9503E1F0F87C1C0000000000, .nop blank)]

def barriersAndSystem : List (Nat × Instr) :=
  [(0xA0000C20F87C1C0000000000, .bar { blank with d := .v 6, a := .v 32 }),
   (0xA1000A2AF87C1C0000000000, .bararr { blank with d := .v 5, a := .v 42 }),
   (0xA203E02002FC1C0000000000, .barinit { blank with a := .v 32, b := .v 5 }),
   (0xA303E020F87C1C0000000000, .barinv { blank with a := .v 32 }),
   (0xA400082AF87C1C0000000000, .barwait { blank with d := .v 4, a := .v 42 }),
   (0xA503E02814FC1C0000000000, .fwait { blank with a := .v 40, b := .v 41 }),
   (0xA80005F0F87C1C0000000005, .getsr { blank with d := .v 2, imm := 5 }),
   (0xA80035F0F87C1C000000000C, .getsr { blank with d := .v 26, imm := 0xc }),
   (0xA903E003F87C1C000000000A, .setsrMode { blank with a := .v 3, imm := 0xa }),
   (0xA903E1F0F87C1C000000000F, .setsrSeed { blank with imm := 0xf }),
   (0xAA001404F87C1C0000000001, .syscPagein { blank with d := .v 10, a := .v 4, imm := 1 }),
   (0xAB0009F0F87C1C0000000000, .tstamp { blank with d := .v 4 }),
   (0xA203E02002FC240000000000, .barinit { blank with guard := ⟨true, 1⟩, a := .v 32, b := .v 5 }),
   (0xA903E003F87C1C0000000012, .setsrSplAlpha { blank with a := .v 3, imm := 0x12 }),
   (0xA903E003F87C1C0000000015, .setsrPwrRatio { blank with a := .v 3, imm := 0x15 }),
   (0xAA001404F87C1C0000000002, .syscAbort { blank with d := .v 10, a := .v 4, imm := 2 }),
   (0xAA001404F87C1C0000000003, .syscVersion { blank with d := .v 10, a := .v 4, imm := 3 })]

theorem test_decode_arith : (arith.all fun p => decodeTableWord 96 p.1 == some p.2) = true := by decide +kernel
theorem test_decode_logic : (logic.all fun p => decodeTableWord 96 p.1 == some p.2) = true := by decide +kernel
theorem test_decode_convert : (convert.all fun p => decodeTableWord 96 p.1 == some p.2) = true := by decide +kernel
theorem test_decode_special : (special.all fun p => decodeTableWord 96 p.1 == some p.2) = true := by decide +kernel
theorem test_decode_lanesAndLoads : (lanesAndLoads.all fun p => decodeTableWord 96 p.1 == some p.2) = true := by decide +kernel
theorem test_decode_atomicsAndCopies : (atomicsAndCopies.all fun p => decodeTableWord 96 p.1 == some p.2) = true := by decide +kernel
theorem test_decode_matrix : (matrix.all fun p => decodeTableWord 96 p.1 == some p.2) = true := by decide +kernel
theorem test_decode_images : (images.all fun p => decodeTableWord 96 p.1 == some p.2) = true := by decide +kernel
theorem test_decode_graphics : (graphics.all fun p => decodeTableWord 96 p.1 == some p.2) = true := by decide +kernel
theorem test_decode_control : (control.all fun p => decodeTableWord 96 p.1 == some p.2) = true := by decide +kernel
theorem test_decode_barriersAndSystem : (barriersAndSystem.all fun p => decodeTableWord 96 p.1 == some p.2) = true := by decide +kernel

/-! Witnesses: for the hypotheses of each obligation, a state and operands that meet them together. -/

/-- The conditions on a bench at which a statement about `i` speaks: the word is ready and `P` holds of the environment, the
fields, the run and the acting lanes. -/
def Bench.meets (b : Bench) (i : Instr) (P : Env → Fields → Run → List Nat → Bool) : Bool :=
  b.ready i && match i.fields? with
    | some f => P b.env f { b.run with lanes := b.mask } (b.env.acting f.guard { b.run with lanes := b.mask })
    | none => false

theorem Bench.meets_of {b : Bench} {i : Instr} {P : Env → Fields → Run → List Nat → Bool} (h : b.meets i P = true) :
    ∃ s e f sh r, Ready i s e f sh r ∧ P e f r (e.acting f.guard r) = true ∧ s = b.st ∧ e = b.env := by
  unfold Bench.meets Bench.ready at h
  cases hf : i.fields? with
  | none => simp [hf] at h
  | some f => cases hs : i.shape with
    | none => simp [hf, hs] at h
    | some sh =>
      simp only [hf, hs, Bool.and_eq_true, beq_iff_eq] at h
      exact ⟨b.st, b.env, f, sh, _, Tests.ready_of rfl hf hs h.1.2 h.1.1, h.2, rfl, rfl⟩

/-- Every instruction that has a word is ready on the bench: the hypotheses of the statements that ask no more. -/
theorem witness_ready : ((arith ++ logic ++ convert ++ special ++ lanesAndLoads ++ atomicsAndCopies ++ matrix ++ images ++
    graphics ++ control ++ barriersAndSystem).all fun p => ({} : Bench).ready p.2) = true := by decide +kernel

/-- A lane whose registers hold the given words, untagged. -/
def strand (xs : List (Nat × Nat)) : Strand := { regs := xs.foldl (fun m p => Sparse.put {} m p.1 { bits := BitVec.ofNat 32 p.2 }) [] }
/-- A bench with such lanes, changed in its wavelet. -/
def bench (xs : List (Nat × Nat)) (g : Wavelet → Wavelet := id) (m : Mask := 3) : Bench :=
  let b : Bench := { lane := strand xs, mask := m }
  { b with wav := g b.wav }
/-- Guarded by a predicate that is 0. -/
def off (f : Fields) : Fields := { f with guard := ⟨false, 1⟩ }

theorem witness_IntegerArithmetic : ([Instr.add, .sub, .mul].all fun i => [Ty.n32, .s64, .s8x4].all fun t =>
    ({} : Bench).ready (i { blank with d := .v 2, a := .v 4, b := .v 6, ty := t })) = true := by decide +kernel
theorem witness_FloatingResults : ([Instr.add, .sub, .mul, .div].all fun i => [Ty.f32, .f64].all fun t =>
    ({} : Bench).ready (i { blank with d := .v 2, a := .v 4, b := .v 6, ty := t })) = true := by decide +kernel
theorem witness_IntegerDivision : ([Instr.div, .rem].all fun i => ({} : Bench).meets (i { blank with d := .v 2, a := .v 4, b := .v 6, ty := .s32 })
    fun e f _ _ => !f.ty.isFloat && !e.idivTrap) = true := by decide +kernel
theorem witness_IntegerDivision_traps : ([Instr.div, .rem].all fun i =>
    (bench [(4, 0x80000000), (6, 0xFFFFFFFF)] fun v => { v with mode := 2 }).meets (i { blank with d := .v 2, a := .v 4, b := .v 6, ty := .s32 })
    fun e f _ ls => !f.ty.isFloat && e.idivTrap && ls.any fun l => divEdge f.ty true (srcI e f.a f.ty l 0) (srcI e f.b f.ty l 0)) = true := by
  decide +kernel
theorem witness_Votes : ({} : Bench).meets (.voteBallot (off { blank with d := .v 10 })) (fun _ _ _ ls => ls.isEmpty) = true ∧
    ({} : Bench).meets (.voteBallot { blank with d := .v 10 }) (fun _ _ _ ls => !ls.isEmpty) = true := by decide +kernel
theorem witness_Conversions : ([(Ty.f16, Ty.s32), (.s32, .f32), (.n8x4, .s8x4), (.b32, .f32)].all fun p =>
    ({} : Bench).ready (.cvt { blank with d := .v 7, a := .v 4, ty := p.1, imm := BitVec.ofNat 16 p.2.code })) = true := by decide +kernel
theorem witness_LaneReads : ([Instr.laneRank, .laneBack, .laneFwd, .laneMate].all fun i =>
    ({} : Bench).meets (i { blank with d := .v 2, a := .v 4, b := .lit .one, c := .lit .allones, ty := .n32 })
      fun e f r ls => ((e.members f.c (ls.headD 0)).lanes e.wav.width).all r.lanes.has) = true := by decide +kernel
theorem witness_LaneReads_gone : ([Instr.laneRank, .laneBack, .laneFwd, .laneMate].all fun i =>
    (bench [] id 1).meets (i { blank with d := .v 2, a := .v 4, b := .lit .one, c := .lit .allones, ty := .n32 })
      fun e f r ls => !ls.isEmpty && ((e.members f.c (ls.headD 0)).lanes e.wav.width).any (!r.lanes.has ·)) = true := by decide +kernel
/-- A bench whose lane 1 is guarded off by p1. -/
def benchHalf (lanes : List Strand := [lane0, lane0]) : Bench :=
  let b : Bench := {}
  { b with wav := { b.wav with lanes := lanes.zipIdx.map fun (x, l) => { x with pc := 0x10000, live := true, preds := if l = 0 then 2 else 0 } } }
theorem witness_LaneReads_guarded : (benchHalf.meets (.laneFwd { blank with d := .v 2, a := .v 4, b := .lit .one, c := .lit .allones, ty := .n32, guard := ⟨false, 1⟩ })
      fun e f r ls => ls == [0] && ((e.members f.c 0).lanes e.wav.width).all r.lanes.has && e.members f.c 0 == 3) = true := by decide +kernel
theorem witness_Reductions : ((List.range 6).all fun op => if h : op < 6 then
    ({} : Bench).ready (.lred { blank with d := .v 2, a := .v 4, ty := .n32 } ⟨op, h⟩) else true) = true ∧
    ({} : Bench).ready (.lscan { blank with d := .v 2, a := .v 4, ty := .n32 } 0 true) = true := by decide +kernel

theorem witness_SpecialAndPackedValues : ([Instr.cos, .sin, .ex2, .lg2, .rsq].all fun i =>
    ({} : Bench).ready (i { blank with d := .v 2, a := .v 4, ty := .f32 })) = true ∧
    ([(Instr.dot2, Ty.bf16), (.dot2, .s16x2), (.dot4, .e4m3), (.dot4, .n8x4)].all fun p =>
      ({} : Bench).ready (p.1 { blank with d := .v 2, a := .v 4, b := .v 8, c := .v 9, ty := p.2 })) = true ∧
    ([Ty.e5m2, .s8x4, .i4o].all fun t => ({} : Bench).ready (.pack4 { blank with d := .v 2, a := .v 4, ty := t })) = true ∧
    ([Ty.s8x4, .n8x4, .i4o, .e4m3].all fun t => ({} : Bench).ready (.unpk4 { blank with d := .v 4, a := .v 9, ty := t })) = true ∧
    ([Ty.e4m3, .i4o].all fun t => ({} : Bench).ready (.cvtblkDec { blank with d := .v 8, a := .v 40, b := .v 56, ty := t }) &&
      ({} : Bench).ready (.cvtblkEnc { blank with d := .v 40, a := .v 0, ty := t })) = true := by decide +kernel
theorem witness_PointerAndDistributionReads : ({} : Bench).ready (.spc { blank with d := .v 2, a := .v 4 }) = true ∧
    ([Instr.dmomMean, .dmomVar, .dmomM3].all fun i => ({} : Bench).ready (i { blank with d := .v 2, a := .v 64 })) = true ∧
    ({} : Bench).ready (.dqtl { blank with d := .v 2, a := .v 64, b := .v 6 }) = true := by decide +kernel

theorem witness_PointerCasts :
    (bench [(4, 2 ^ 24 - 1)]).meets (.spcastSp { blank with d := .v 2, a := .v 4 }) (fun e f _ ls => ls.all fun l => srcN e f.a .n32 l < 2 ^ 24) = true ∧
    (bench [(4, 2 ^ 24)]).meets (.spcastSp { blank with d := .v 2, a := .v 4 }) (fun e f _ ls => ls.any fun l => 2 ^ 24 ≤ srcN e f.a .n32 l) = true ∧
    (bench [(5, 7)]).meets (.spcastSpan { blank with d := .v 2, a := .v 4, b := .v 5 }) (fun e f _ ls => ls.all fun l =>
      srcN e f.a .n32 l < 2 ^ 24 && srcN e f.b .n32 l < 8) = true ∧
    (bench [(5, 8)]).meets (.spcastSpan { blank with d := .v 2, a := .v 4, b := .v 5 }) (fun e f _ ls => ls.any fun l => 8 ≤ srcN e f.b .n32 l) = true ∧
    (bench [(5, 0xFC000000)]).meets (.spcastOff { blank with d := .v 2, a := .v 4 }) (fun e f _ ls => ls.all fun l => !offFails (e.readPtr l f.a)) = true ∧
    (bench []).meets (.spcastOff { blank with d := .v 2, a := .v 4 }) (fun e f _ ls => ls.any fun l => offFails (e.readPtr l f.a)) = true := by
  decide +kernel

theorem witness_Distributions : ([Instr.dadd, .daddSub, .dmul].all fun i =>
    ({} : Bench).meets (i { blank with d := .v 64, a := .v 80, b := .v 96 }) fun _ f _ _ => f.imm == 0) = true ∧
    ([Instr.dmomMin, .dmomMax].all fun i => ({} : Bench).meets (i { blank with d := .v 2, a := .v 80 }) fun e f _ ls => ls.all fun l =>
      natBits (imgIn (e.lane l) f.a 0).toNat 3 0 == 1 && natBits (imgIn (e.lane l) f.a 0).toNat 15 4 == 0 &&
      !F32.isNan (imgIn (e.lane l) f.a 1)) = true := by decide +kernel
theorem witness_MaxMagnitude : ([Instr.mamax, .mamaxClr].all fun i =>
    ({} : Bench).meets (i { blank with d := .v 2, imm := 3 }) (fun _ _ _ ls => !ls.isEmpty) &&
    ({} : Bench).meets (i (off { blank with d := .v 2 })) fun _ _ _ ls => ls.isEmpty) = true := by decide +kernel

/-! Memory. -/

def checkedB (m : Move) (e : Env) (f : Fields) (ls : List Nat) : Bool :=
  ls.all fun l => e.winCause (addr e f l) == none && (addr e f l).toNat % m.align e (addr e f l) == 0 &&
    match e.page? (addr e f l) with | some p => (m.glob p.2).isSome | none => true
theorem checked_of {m e f ls} (h : checkedB m e f ls = true) : Checked m e f ls := by
  intro l hl
  have := List.all_eq_true.1 h l hl
  simp only [Bool.and_eq_true, beq_iff_eq] at this
  exact ⟨this.1.1, this.1.2, fun p hp => by have h := this.2; rw [hp] at h; exact h⟩

def landsB (m : Move) (s : State) (e : Env) (f : Fields) (ls : List Nat) (spot : Nat → Spot) : Bool :=
  checkedB m e f ls && e.wav.failing.isEmpty && ls.all fun l =>
    e.spot m.dir m.planes (fun p => (m.glob p).getD m.n) (addr e f l) l == some (spot l) &&
    !s.fails e m.dir (m.deep (spot l)) (m.bytes e (addr e f l)) (spot l) l
theorem lands_of {m s e f ls spot} (h : landsB m s e f ls spot = true) : Lands m s e f ls spot := by
  simp only [landsB, Bool.and_eq_true, List.all_eq_true, beq_iff_eq, Bool.not_eq_true', List.isEmpty_iff] at h
  exact ⟨checked_of h.1.1, h.1.2, h.2⟩

def noWaiterB (m : Move) (s : State) (ls : List Nat) (spot : Nat → Spot) : Bool :=
  ls.all fun l => match (spot l).loc with
    | .scr b o => (List.range ((m.n + 15) / 16)).all fun i => !s.wt b (o / 16 + i)
    | _ => true
theorem noWaiter_of {m s ls spot} (h : noWaiterB m s ls spot = true) : NoWaiter m s ls spot := by
  intro l hl b o hb i hi
  have := List.all_eq_true.1 h l hl
  rw [hb] at this
  simpa using List.all_eq_true.1 this i (List.mem_range.2 hi)

def apartB (m : Move) (s : State) (e : Env) (f : Fields) (ls : List Nat) (spot : Nat → Spot) : Bool :=
  let foot := fun (l : Nat) => e.foot m.dir m.planes (m.bytes e (addr e f l)) (spot l)
  (ls.all fun l => ls.all fun k => l == k || (foot l).all fun x => (foot k).all fun y => !x.1.meets y.1 x.2 y.2) &&
  (ls.all fun l => decide ((foot l).Pairwise fun x y => x.1.meets y.1 x.2 y.2 = false)) &&
  ls.all fun l => match (spot l).loc with
    | .scr b o => match s.blk? b with
      | some k => k.objs.all fun u => decide (o + m.n ≤ 16 * u) || decide (16 * u + 16 ≤ o)
      | none => false
    | _ => true
theorem apart_of {m s e f ls spot} (h : apartB m s e f ls spot = true) : Apart m s e f ls spot := by
  simp only [apartB, Bool.and_eq_true, List.all_eq_true, Bool.or_eq_true, beq_iff_eq, Bool.not_eq_true', decide_eq_true_eq] at h
  refine ⟨fun l hl k hk hn => (h.1.1 l hl k hk).resolve_left hn, h.1.2, fun l hl b o hb => ?_⟩
  · have := h.2 l hl
    rw [hb] at this
    dsimp only at this
    split at this
    · rename_i k hk
      exact ⟨k, hk, fun u hu => by simpa using List.all_eq_true.1 this u hu⟩
    · cases this

/-- The global page of the tests: virtual and physical 0x20000, read and written. -/
def leaf0 : Leaf := BitVec.ofNat 128 (0x20000 * 2 ^ 64 + 7)
def job0 : Job := { pages := [(0x20000, leaf0)] }
/-- One lane acts, with an address in `v8:v9`. -/
def benchAt (lo hi : Nat) (xs : List (Nat × Nat) := []) : Bench := { bench ([(8, lo), (9, hi)] ++ xs) id 1 with job := job0 }

/-- The places of the tests: the last bytes of private memory, a global page, the own scratchpad, the span window. -/
def places : List (Nat × Nat × Spot) :=
  [(4088, 0xFC000000, { loc := .priv 4088 }), (0x20000, 0, ⟨.mem 0x20000, some (0x20000, leaf0), 0x20000⟩),
   (0, 0xFD000000, { loc := .scr ⟨1, 0⟩ 0 }), (64, 0xFE000000, { loc := .scr ⟨1, 0⟩ 64 })]

theorem witness_Loads : (places.all fun p => (benchAt p.1 p.2.1).meets (.ld { blank with d := .v 2, a := .v 8, ty := .n32 }) fun e f _ ls =>
    (moveOf (.ld f)).any fun m => m.dir == .load && landsB m (benchAt p.1 p.2.1).st e f ls (fun _ => p.2.2)) = true := by decide +kernel
theorem witness_StoresWrite : (places.all fun p => (benchAt p.1 p.2.1).meets (.st { blank with a := .v 8, b := .v 2, ty := .n64 }) fun e f _ ls =>
    (moveOf (.st f)).any fun m => m.dir == .store && landsB m (benchAt p.1 p.2.1).st e f ls (fun _ => p.2.2) &&
      noWaiterB m (benchAt p.1 p.2.1).st ls (fun _ => p.2.2) && apartB m (benchAt p.1 p.2.1).st e f ls (fun _ => p.2.2)) = true := by
  decide +kernel
theorem witness_Atomics : ((places.drop 1).all fun p => (benchAt p.1 p.2.1).meets (.atomAdd { blank with d := .v 2, a := .v 8, b := .v 4, ty := .n32 })
    fun e f _ ls => (moveOf (.atomAdd f)).any fun m => m.dir == .atomic && landsB m (benchAt p.1 p.2.1).st e f ls (fun _ => p.2.2) &&
      noWaiterB m (benchAt p.1 p.2.1).st ls (fun _ => p.2.2) && apartB m (benchAt p.1 p.2.1).st e f ls (fun _ => p.2.2)) = true := by
  decide +kernel

/-- A bench whose second lane waits on the barrier object at offset 0. -/
def benchWaiting : Bench :=
  let b := benchAt 0 0xFD000000
  { b with wav := { b.wav with lanes := listModify (fun x => { x with wait := .barwait ⟨1, 0⟩ 0 0 .zero }) b.wav.lanes 1 } }

/-- A bench whose page holds `i4o`. -/
def benchFmt : Bench := { benchAt 0x20000 0 with job := { pages := [(0x20000, leaf0 ||| 0x900#128)] } }

theorem witness_AccessTraps :
    (benchAt 0 0x01000000).meets (.ld { blank with d := .v 2, a := .v 8, ty := .n32 }) (fun e f _ ls => ls.any fun l => e.winCause (addr e f l) == some eSpace) = true ∧
    (benchAt 0 0xFD000001).meets (.ld { blank with d := .v 2, a := .v 8, ty := .n32 }) (fun e f _ ls => ls.any fun l => e.winCause (addr e f l) == some eSpforeign) = true ∧
    (benchAt 0x20002 0).meets (.ld { blank with d := .v 2, a := .v 8, ty := .n32 }) (fun e f _ ls => (moveOf (.ld f)).any fun m => ls.all fun l =>
      e.winCause (addr e f l) == none && (addr e f l).toNat % m.align e (addr e f l) != 0) = true ∧
    benchFmt.meets (.ld { blank with d := .v 2, a := .v 8, ty := .n32 }) (fun e f _ ls =>
      (moveOf (.ld f)).any fun m => ls.all fun l => e.winCause (addr e f l) == none && (addr e f l).toNat % m.align e (addr e f l) == 0 &&
        match e.page? (addr e f l) with | some p => (m.glob p.2).isNone | none => false) = true ∧
    benchWaiting.meets (.st { blank with a := .v 8, b := .v 2, ty := .n32 }) (fun e f _ ls => (moveOf (.st f)).any fun m => checkedB m e f ls && ls.any fun l =>
      match e.scr (addr e f l) with | .ok (b, o) => benchWaiting.st.wt b (o / 16) | .error _ => false) = true ∧
    benchWaiting.meets (.atomcas { blank with d := .v 2, a := .v 8, b := .v 4, c := .v 6, ty := .n32 }) (fun e f _ ls =>
      (moveOf (.atomcas f)).any fun m => checkedB m e f ls && ls.any fun l => match e.scr (addr e f l) with
        | .ok (b, o) => benchWaiting.st.scrRead b o m.n == srcN e f.b f.ty l && benchWaiting.st.wt b (o / 16)
        | .error _ => false) = true := by decide +kernel

/-- Two lanes, the first on a page that is not there, the second on one that is; and the units that fail their checks. -/
def benchTwo (g : Wavelet → Wavelet := id) : Bench :=
  let b : Bench := bench [] g
  { b with job := job0, wav := { b.wav with lanes := b.wav.lanes.zipIdx.map fun (x, l) =>
      { x with regs := [(8, { bits := if l = 0 then 0x40000 else 0x20000 })] } } }
/-- The unit of address 0x20000 fails its check. -/
def bad800 (s : State) : State := { s with checks := [(0x800, 0)] }
theorem witness_PageFaultsWait : (let i := Instr.ld { blank with d := .v 2, a := .v 8, ty := .n32 }
    benchTwo.meets i fun e f _ ls => e.wav.tried.isEmpty && (moveOf i).any fun m => checkedB m e f ls &&
      (parting m benchTwo.st e f ls).absent == [0] && (parting m benchTwo.st e f ls).good == [1]) = true ∧
    ([Instr.st { blank with a := .v 8, b := .v 2, ty := .n32 }, .atomAdd { blank with d := .v 2, a := .v 8, b := .v 4, ty := .n32 }].all fun i =>
      (benchAt 0x20000 0).meets i fun e f _ ls => e.wav.failing.isEmpty && (moveOf i).any fun m => checkedB m e f ls &&
        (parting m (bad800 (benchAt 0x20000 0).st) e f ls).fresh e == [0]) = true := by decide +kernel

/-- The word is issued again on a bench for lanes of a memory access, and `P` holds. -/
def Bench.again (b : Bench) (i : Instr) (P : Env → Fields → List Nat → Bool) : Bool :=
  let r := { b.run with lanes := b.mask }
  let e := b.env
  match i.fields?, i.shape with
  | some f, some sh =>
    let ls := e.acting f.guard r
    (e.wav.run == some r && e.wav.lanes.length == e.wav.width && decide (e.wav.width ≤ 64) && Sparse.wf ({} : UReg) e.wav.w &&
      e.wav.lanes.all fun x => Sparse.wf ({} : Reg) x.regs) &&
    (i.legal && i.kOk e.K && (i.isSeal || decide (r.count < 24) && !r.mustSeal) && f.hc == 0) && e.wav.replay.isSome &&
    gate i f sh e r ls true == .pass && (ls.all fun l => (dests f sh).all fun k => !((e.lane l).reg k).full) && P e f ls
  | _, _ => false
theorem Bench.again_of {b : Bench} {i : Instr} {P} (h : b.again i P = true) :
    ∃ s e f sh r, Again i s e f sh r ∧ P e f (e.acting f.guard r) = true ∧ s = b.st ∧ e = b.env := by
  unfold Bench.again at h
  split at h
  · rename_i f sh hf hs
    simp only [Bool.and_eq_true, List.all_eq_true, beq_iff_eq, decide_eq_true_eq, Bool.not_eq_true', Bool.or_eq_true] at h
    obtain ⟨⟨⟨⟨⟨⟨⟨⟨⟨h0, h1⟩, h2⟩, h3⟩, h4⟩, ⟨⟨⟨h5, h6⟩, h7⟩, h8⟩⟩, h9⟩, h10⟩, h11⟩, h12⟩ := h
    exact ⟨b.st, b.env, f, sh, _, ⟨⟨rfl, hf, hs, h0, h1, h2, h3, h4⟩, ⟨h5, h6, h7.imp id fun h => ⟨h.1, h.2⟩, h8⟩, h9, h10, h11⟩, h12, rfl, rfl⟩
  · cases h
/-- The word is issued again for lane 0, whose unit fails its check: one that was tried already, or a fresh one. -/
theorem witness_PageFaultsWait_again : ([Instr.ld { blank with d := .v 2, a := .v 8, ty := .n32 }, .st { blank with a := .v 8, b := .v 4, ty := .n32 }].all fun i =>
    [true, false].all fun old =>
    let b := benchAt 0x20000 0
    let b := { b with wav := { b.wav with replay := some 1, tried := [.phys (if old then 0x800 else 0x900)],
                                          lanes := b.wav.lanes.map fun x => x.setFull 2 false } : Bench }
    b.again i fun e f ls => (moveOf i).any fun m => checkedB m e f ls && (parting m (bad800 b.st) e f ls).absent.isEmpty &&
      (parting m (bad800 b.st) e f ls).broken == [0] && (parting m (bad800 b.st) e f ls).fresh e == if old then [] else [0]) = true := by decide +kernel

/-! Control. -/

/-- A bench whose PC is no multiple of 4. -/
def benchSkew : Bench :=
  let b := bench []
  { b with wav := { b.wav with lanes := b.wav.lanes.map fun x => { x with pc := 0x10002 } } }
theorem witness_Deferrals : ([Instr.bra blank, .jmp blank, .jmpInd { blank with a := .v 4 }, .exit blank, .fwait { blank with a := .v 4 },
    .splwait { blank with a := .v 4 }, .collwait { blank with a := .v 4 }, .mwait { blank with d := .v 4 }].all fun i =>
    ({} : Bench).meets i fun e f r ls => (deferOf e r i).isSome && ls.all fun l => (e.readPtr l f.a).toNat % 4 == 0) = true ∧
    (bench [(4, 2)]).meets (.jmpInd { blank with a := .v 4 }) (fun e f _ ls => ls.any fun l => (e.readPtr l f.a).toNat % 4 != 0) = true ∧
    ([Instr.bra blank, .jmp blank].all fun i => benchSkew.meets i fun e f r ls => !ls.isEmpty && (target e f r).toNat % 4 != 0) = true := by
  decide +kernel

/-- A bench whose lanes have `n` entries on their return stacks. -/
def benchStack (n : Nat) : Bench := bench [] fun v => { v with lanes := v.lanes.map fun x => { x with stack := List.replicate n 0x10000 } }

theorem witness_CallsAndReturns :
    (benchStack 15).meets (.call { blank with d := .v 4 }) (fun e f r ls => ls.all fun l => (e.lane l).stack.length < 16 && (target e f r).toNat % 4 == 0) = true ∧
    (benchStack 15).meets (.callInd { blank with d := .v 4, a := .v 6 }) (fun e f _ ls => ls.all fun l =>
      (e.lane l).stack.length < 16 && (e.readPtr l f.a).toNat % 4 == 0) = true ∧
    (benchStack 16).meets (.call { blank with d := .v 4 }) (fun e _ _ ls => ls.any fun l => 16 ≤ (e.lane l).stack.length) = true ∧
    (benchStack 1).meets (.ret blank) (fun e _ _ ls => ls.all fun l => (e.lane l).stack != []) = true ∧
    (benchStack 0).meets (.ret blank) (fun e _ _ ls => ls.any fun l => (e.lane l).stack.isEmpty) = true ∧
    benchSkew.meets (.call { blank with d := .v 4 }) (fun e f r ls => ls.all fun l => (e.lane l).stack.length < 16 && (target e f r).toNat % 4 != 0) = true ∧
    (bench [(6, 2)]).meets (.callInd { blank with d := .v 4, a := .v 6 }) (fun e f _ ls => ls.all fun l =>
      (e.lane l).stack.length < 16 && (e.readPtr l f.a).toNat % 4 != 0) = true ∧
    (bench [] fun v => { v with lanes := v.lanes.map fun x => { x with stack := [0x10002] } }).meets (.ret blank) (fun e _ _ ls => ls.all fun l =>
      (e.lane l).stack != [] && ((e.lane l).stack.headD 0).toNat % 4 != 0) = true := by decide +kernel

def runsOnB (e : Env) : Bool := e.span.stage == .running && e.task.cause == 0 && !e.blk.ended && decide (e.wid.blk < e.span.blocks)
theorem runsOn_of {e} (h : runsOnB e = true) : RunsOn e := by
  simp only [runsOnB, Bool.and_eq_true, beq_iff_eq, Bool.not_eq_true', decide_eq_true_eq] at h
  exact ⟨h.1.1.1, h.1.1.2, h.1.2, h.2⟩

theorem witness_Seals : ([none, some (Deferred.exit 1), some (.goto [(0, 0x10018)])].all fun d =>
    { lane := strand [], run := { start := 0x10000, count := 24, lanes := 3, mustSeal := true, deferred := d } : Bench }.meets
      (.seal { blank with d := .v 2, a := .v 4 } true false) fun e _ r _ => runsOnB e && (List.range 2).any fun l =>
        (e.lane l).live && !(r.lanes.has l && exits r l)) = true := by decide +kernel
theorem witness_Seals_waits : ([Wait.regs [2], .known (.v 2) 0, .bar ⟨1, 0⟩ 0 0 (.v 2), .barwait ⟨1, 0⟩ 0 0 (.v 2), .mwait (.v 2)].all fun w =>
    { lane := strand [], run := { start := 0x10000, count := 1, lanes := 3, mustSeal := true, deferred := some (.wait [(0, w), (1, w)]) } : Bench }.meets
      (.seal blank false false) fun e f r _ => runsOnB e && Name.mains f.d 1 ++ Name.mains f.a 1 ++ Name.mains f.b 1 == [] &&
        (r.lanes.lanes 2).all fun l => (e.lane l).live && (e.lane l).wait == .none && !exits r l) = true := by decide +kernel
theorem witness_Seals_mwait : (let d : Deferred := .wait [(0, .mwait .zero), (1, .mwait .zero)]
    let b : Bench := { lane := strand [], run := { start := 0x10000, count := 1, lanes := 3, mustSeal := true, deferred := some d } }
    b.meets (.seal { blank with d := .v 2 } false false) fun e _ r _ => runsOnB e && !((b.st.matrixOps e.wid.block).any fun o => o.1.wid == e.wid) &&
      (r.lanes.lanes 2).all fun l => (e.lane l).live && (e.lane l).wait == .none) = true := by decide +kernel

/-- A handler entered by the lanes of a mask. -/
def handler0 (m : Mask) : Handler := { lanes := m, run := { start := 0x10000, count := 3, lanes := m }, o := [], q := [], marked := none, held := 0, abandon := [] }
def benchHandler (m : Mask) (d : Option Deferred := none) : Bench :=
  let b : Bench := { lane := strand [], run := { start := 0x10000, count := 1, lanes := 3, mustSeal := d.isSome, deferred := d } }
  { b with wav := { b.wav with handler := some (handler0 m) } }

theorem witness_HandlerReturns :
    ([Instr.retX, .retXSkip].all fun i => (benchHandler 3).meets (i blank) (fun e _ _ ls => e.wav.handler.any fun h =>
        e.wav.live.all fun l => !h.lanes.has l || ls.contains l) &&
      { benchHandler 3 with mask := 1, wav := { (benchHandler 3).wav with run := some { start := 0x10000, count := 1, lanes := 1 } } : Bench }.meets
        (i blank) (fun e _ _ ls => !ls.isEmpty && e.wav.handler.any fun h => e.wav.live.any fun l => h.lanes.has l && !ls.contains l) &&
      (benchHandler 3).meets (i (off blank)) (fun e _ _ ls => ls.isEmpty && e.wav.handler.any fun h => e.wav.live.any fun l => h.lanes.has l) &&
      (({} : Bench).meets (i blank) fun e _ _ ls => e.wav.handler.isNone && !ls.isEmpty) &&
      ({} : Bench).meets (i (off blank)) fun e _ _ ls => e.wav.handler.isNone && ls.isEmpty) = true ∧
    ([false, true].all fun skip => [none, some 1, some 3].all fun m => let b := benchHandler 3 (some (.retX skip))
      { b with wav := { b.wav with handler := some { handler0 3 with marked := m, held := 2 } } : Bench }.meets (.seal blank false false) fun e _ r _ =>
        r.deferred == some (.retX skip) && runsOnB e && e.wav.live != [] && e.wav.handler.any fun h => h.marked == m) = true := by decide +kernel

theorem witness_TrapInstruction : ({} : Bench).meets (.trap { blank with imm := 0xFFFF }) (fun _ _ _ ls => !ls.isEmpty) = true ∧
    ({} : Bench).meets (.trap (off blank)) (fun _ _ _ ls => ls.isEmpty) = true := by decide +kernel
theorem witness_BreakInstruction : ([false, true].all fun d => { lane := strand [], job := { debug := d } : Bench }.meets (.brk blank)
    fun e _ _ ls => !ls.isEmpty && e.job.debug == d && e.wav.handler.isNone) = true ∧
    { benchHandler 3 with job := { debug := true } : Bench }.meets (.brk blank) (fun e _ _ ls => !ls.isEmpty && e.job.debug && e.wav.handler.isSome) = true ∧
    ({} : Bench).meets (.brk (off blank)) (fun _ _ _ ls => ls.isEmpty) = true := by
  decide +kernel

/-! Barriers. -/

def canonB (s : State) : Bool :=
  Memory.wf s.mem && (s.blocks.all fun b => Sparse.wf 0 b.2.scratch) &&
    (s.jobs.all fun j => j.2.pages.all fun p => !Leaf.valid p.2 || p.1 % Leaf.size p.2 == 0) &&
    s.wavs.all fun v => v.2.lanes.length == v.2.width &&
      v.2.lanes.all fun x => Sparse.wf ({} : Reg) x.regs && Sparse.wf 0 x.priv && Sparse.wf 0 x.planes && decide (x.stack.length ≤ 16)
theorem canon_of {s} (h : canonB s = true) : Canonical s := by
  simp only [canonB, Bool.and_eq_true, List.all_eq_true, beq_iff_eq, decide_eq_true_eq, Bool.or_eq_true, Bool.not_eq_true'] at h
  refine ⟨h.1.1.1, h.1.1.2, fun j hj p hp hv => ?_, fun v hv => ⟨(h.2 v hv).1, fun x hx => ?_⟩⟩
  · exact (h.1.2 j hj p hp).resolve_left (by simp [hv])
  · obtain ⟨⟨⟨h1, h2⟩, h3⟩, h4⟩ := (h.2 v hv).2 x hx
    exact ⟨h1, h2, h3, h4⟩

/-- One lane at the barrier object at offset 16 of the own scratchpad, with the object's bytes. -/
def benchObj (n : Nat) (xs : List (Nat × Nat) := []) : Bench :=
  let b := benchAt 16 0xFD000000 xs
  { b with blk := { b.blk with scratch := Sparse.writeN [] 16 16 n, objs := [1] } }
def obj0 : BlkId × Nat := (⟨1, 0⟩, 16)
def onObjectsB (e : Env) (f : Fields) (ls : List Nat) : Bool := ls.all fun l =>
  (match e.scr (addr e f l) with | .ok p => p == obj0 | .error _ => false) && (addr e f l).toNat % 16 == 0
theorem onObjects_of {e f ls} (h : onObjectsB e f ls = true) : OnObjects e f ls fun _ => obj0 := by
  intro l hl
  have := List.all_eq_true.1 h l hl
  simp only [Bool.and_eq_true, beq_iff_eq] at this
  refine ⟨?_, this.2⟩
  have h1 := this.1
  split at h1
  · rename_i p hp; rw [hp]; simpa using h1
  · cases h1
def admitsB (s : State) (ls : List Nat) : Bool :=
  let o := s.obj obj0.1 obj0.2
  o.ok && (o.inv || decide (ls.length ≤ (o.exp - o.arr) + (o.exp - o.hld)))
theorem admits_of {s ls} (h : admitsB s ls = true) : Admits s ls fun _ => obj0 := by
  simp only [admitsB, Bool.and_eq_true, Bool.or_eq_true, decide_eq_true_eq] at h
  rintro l - o rfl
  refine ⟨h.1, h.2.imp id fun h => Nat.le_trans (List.length_filter_le _ _) h⟩

theorem witness_Barriers_arrive : ([Instr.bararr, .bar].all fun i => [0x10000, 0x20000000].all fun n =>
    (benchObj n).meets (i { blank with d := .v 2, a := .v 8 }) fun e f _ ls => onObjectsB e f ls && admitsB (benchObj n).st ls) = true := by
  decide +kernel
theorem witness_Barriers_wait : ([0x10000, 0x10001].all fun n => (benchObj n).meets (.barwait { blank with d := .v 2, a := .v 8, b := .v 4 })
    fun e f _ ls => onObjectsB e f ls && ((benchObj n).st.obj obj0.1 obj0.2).ok) = true := by decide +kernel
theorem witness_Barriers_init : ([1, 8192].all fun n => (benchObj 0 [(4, n)]).meets (.barinit { blank with a := .v 8, b := .v 4 })
    fun e f _ ls => onObjectsB e f ls && ls == [0] && (ls.all fun l => 1 ≤ srcN e f.b .n32 l && srcN e f.b .n32 l ≤ 8192) &&
      ((benchObj 0).st.obj obj0.1 obj0.2).cnt == 0 && ((benchObj 0).st.obj obj0.1 obj0.2).hld == 0 && !(benchObj 0).st.wt ⟨1, 0⟩ 1) = true := by
  decide +kernel
theorem witness_Barriers_inv : (benchObj 0x10000).meets (.barinv { blank with a := .v 8 }) (fun e f _ ls => onObjectsB e f ls &&
    ((benchObj 0x10000).st.blk? obj0.1).isSome) = true := by decide +kernel
theorem witness_Barriers_one : ([Instr.bararr, .bar].all fun i => [0x10000, 0x20000].all fun n =>
    (benchObj n).meets (i { blank with d := .v 2, a := .v 8 }) fun e f _ ls => onObjectsB e f ls && admitsB (benchObj n).st ls && ls == [0] &&
      ((benchObj n).st.blk? obj0.1).isSome && canonB (benchObj n).st && let o := (benchObj n).st.obj obj0.1 obj0.2
      !o.inv && decide (o.arr + 1 ≤ o.exp) && decide (o.hld < o.exp)) = true ∧
    (benchObj 0x10001).meets (.bar { blank with d := .v 2, a := .v 8 }) (fun e f _ ls => onObjectsB e f ls && admitsB (benchObj 0x10001).st ls &&
      ((benchObj 0x10001).st.obj obj0.1 obj0.2).inv) = true := by decide +kernel
/-- Lane 1 is blocked on the object, outside the bundle: the arrival completes the phase and its ticket is released, and `barinv`
releases any. -/
def benchBlocked (n : Nat) (w : Wait) : Bench :=
  let b := benchObj n
  { b with wav := { b.wav with lanes := listModify (fun x => { x with wait := w }) b.wav.lanes 1 } }
theorem witness_Barriers_letGo : ([Wait.bar ⟨1, 0⟩ 16 0 (.v 4), .barwait ⟨1, 0⟩ 16 0 .zero].all fun w =>
    (([Instr.bararr, .bar].all fun i => (benchBlocked 0x10000 w).meets (i { blank with d := .v 2, a := .v 8 }) fun e f r ls =>
      onObjectsB e f ls && admitsB (benchBlocked 0x10000 w).st ls && ls == [0] && !r.lanes.has 1 && (e.lane 1).wait == w &&
        let o := (benchBlocked 0x10000 w).st.obj obj0.1 obj0.2
        o.arr + 1 == o.exp && o.cnt == 0 && freed o 0) &&
     (benchBlocked 0x10000 w).meets (.barinv { blank with a := .v 8 }) fun e f r ls => onObjectsB e f ls && ls == [0] && !r.lanes.has 1)) = true := by
  decide +kernel
/-- The causes of an address, and a count out of range beside an address outside the scratchpads. -/
theorem witness_Barriers_causes : ([Instr.bar, .bararr, .barwait, .barinv, .barinit].all fun i =>
    [(16, 0xFC000000, some eSpace), (16, 0xFD000001, some eSpforeign), (8, 0xFD000000, none)].all fun p =>
      let f0 : Fields := { blank with d := .v 2, a := .v 8, b := .v 4 }
      let f : Fields := if i blank = .barinv blank then { f0 with d := .zero, b := .zero }
        else if i blank = .barinit blank then { f0 with d := .zero } else if i blank = .barwait blank then f0 else { f0 with b := .zero }
      (benchAt p.1 p.2.1 [(4, 1)]).meets (i f) fun e f _ ls => !ls.isEmpty && ls.all fun l =>
        (match e.scr (addr e f l) with | .error c => some c == p.2.2 | .ok _ => p.2.2 == none) &&
        (p.2.2 != none || (addr e f l).toNat % 16 != 0) && (srcN e f.b .n32 l == 1 || f.b == .zero)) = true ∧
    (benchAt 16 0xFC000000 [(4, 0)]).meets (.barinit { blank with a := .v 8, b := .v 4 }) (fun e f _ ls =>
      !ls.isEmpty && ls.all fun l => srcN e f.b .n32 l == 0) = true := by decide +kernel
theorem witness_Barriers_traps : ([Instr.bararr, .bar].all fun i => [0, 0x0001000100010000].all fun n =>
    (benchObj n).meets (i { blank with d := .v 2, a := .v 8 }) fun e f _ ls => onObjectsB e f ls && !ls.isEmpty &&
      !admitsB (benchObj n).st ls) = true ∧
    ([0, 8193].all fun n => (benchObj 0 [(4, n)]).meets (.barinit { blank with a := .v 8, b := .v 4 })
      fun e f _ ls => onObjectsB e f ls && ls.any fun l => srcN e f.b .n32 l == 0 || 8192 < srcN e f.b .n32 l) = true ∧
    ([0, 0x20010000].all fun n => (benchObj n).meets (.barwait { blank with d := .v 2, a := .v 8, b := .v 4 })
      fun e f _ ls => onObjectsB e f ls && !ls.isEmpty && !((benchObj n).st.obj obj0.1 obj0.2).ok) = true ∧
    ([2 ^ 96, 2 ^ 48].all fun n => (benchObj n [(4, 1)]).meets (.barinit { blank with a := .v 8, b := .v 4 })
      fun e f _ ls => onObjectsB e f ls && ls == [0] && srcN e f.b .n32 0 == 1 && ((benchObj n).st.blk? obj0.1).isSome &&
        (((benchObj n).st.obj obj0.1 obj0.2).cnt != 0 || ((benchObj n).st.obj obj0.1 obj0.2).hld != 0)) = true := by decide +kernel

/-! System registers, services, tasks. -/

theorem witness_SystemRegisters : ([(Instr.setsrSeed, 15), (.setsrMode, 10), (.setsrSplAlpha, 0x12), (.setsrPwrRatio, 0x15)].all fun p =>
    ({} : Bench).ready (p.1 { blank with a := .v 4, imm := BitVec.ofNat 16 p.2 })) = true ∧
    ({} : Bench).meets (.setsrSeed { blank with a := .v 4, imm := 0 }) (fun _ f _ ls => f.sysReg != 0x0F && !ls.isEmpty) = true ∧
    (((List.range 0x17) ++ (List.range 8).map (0x18 + ·)).all fun n =>
      ({} : Bench).meets (.getsr { blank with d := .v 2, imm := BitVec.ofNat 16 n }) fun _ f _ _ => f.sysReg == n) = true := by decide +kernel

theorem witness_ServicesAndTasks :
    ([(Instr.syscPagein, 1), (.syscVersion, 3)].all fun p =>
      ({} : Bench).meets (p.1 { blank with d := .v 2, a := .v 4, imm := p.2 }) (fun _ _ _ ls => !ls.isEmpty) &&
      ({} : Bench).meets (p.1 (off { blank with d := .v 2, a := .v 4, imm := p.2 })) fun _ _ _ ls => ls.isEmpty) = true ∧
    ({} : Bench).meets (.syscVersion { blank with d := .v 2, a := .v 4, imm := 4 }) (fun _ f _ ls => f.imm != 3 && !ls.isEmpty) = true ∧
    ({} : Bench).meets (.syscAbort { blank with d := .v 2, a := .v 4, imm := 2 }) (fun e _ _ ls => !ls.isEmpty && e.task.cause == 0) = true ∧
    ({} : Bench).meets (.syscAbort (off { blank with d := .v 2, a := .v 4, imm := 2 })) (fun _ _ _ ls => ls.isEmpty) = true ∧
    (benchAt 64 0xFD000000).meets (.task { blank with d := .v 2, a := .v 8 }) (fun e f _ ls => ls.all fun l =>
      e.recCause (e.readPtr l f.a) == none && (e.readPtr l f.a).toNat % 64 == 0 && ((benchAt 64 0xFD000000).st.recSpots e l (e.readPtr l f.a)).any fun ps =>
        ps.all fun p => !(benchAt 64 0xFD000000).st.fails e .load false p.2 p.1 l) = true ∧
    ([(64, 0xFC000000, eSpace), (64, 0xFD000001, eSpforeign)].all fun p => (benchAt p.1 p.2.1).meets (.task { blank with d := .v 2, a := .v 8 })
      fun e f _ ls => ls.all fun l => e.recCause (e.readPtr l f.a) == some p.2.2) = true ∧
    (benchAt 32 0xFD000000).meets (.task { blank with d := .v 2, a := .v 8 }) (fun e f _ ls => ls.all fun l =>
      e.recCause (e.readPtr l f.a) == none && (e.readPtr l f.a).toNat % 64 == 32) = true := by decide +kernel

/-- The records that `Submits` tells apart: one that is malformed; one that is accepted; no such queue; no such kernel; a block
beyond the kernel's; a full queue. -/
theorem witness_ServicesAndTasks_records : (let n := (placeHdr + BitVec.ofNat 512 placeVa).toNat
    let h := (splitRecord n).1
    !Hdr.ok (splitRecord 0).1 (splitRecord 0).2 && Hdr.ok h (splitRecord n).2 &&
      ([({ queues := [⟨1, 0, 16⟩], kernels := [(placeVa, placeKern)] } : Job), {}, { queues := [⟨1, 0, 16⟩] },
        { queues := [⟨1, 0, 0⟩], kernels := [(placeVa, placeKern)] }].map fun j =>
        (j.queues.find? fun q => q.qid == Hdr.qid h).map fun q => (Assoc.get? j.kernels (Hdr.krec h).toNat).map fun k =>
          (Kern.fits k (Hdr.bsz h), j.sigMapped h, decide (q.cap ≤ 0))) ==
      [some (some (true, true, false)), none, some none, some (some (true, true, true))] && !Kern.fits placeKern 65535) = true := by decide +kernel

/-- A wavelet that waits for Pewter's answer. -/
def benchSysc (ver : Bool) : Bench := bench [] fun v => { v with stall := .sysc ver { blank with d := .v 2, a := .v 4 } }
theorem witness_ServicesAndTasks_answer : ([false, true].all fun ver => ((benchSysc ver).st.env? placeWav == some (benchSysc ver).env) &&
    (benchSysc ver).wav.lanes.length == (benchSysc ver).wav.width && (benchSysc ver).wav.run.isSome &&
    (benchSysc ver).wav.stall == .sysc ver { blank with d := .v 2, a := .v 4 }) = true ∧
    (let b := benchSysc true
     let v := { b.wav with lanes := b.wav.lanes.map fun x => x.setFull 3 false }
     match { b with wav := v : Bench }.st.env? placeWav with
      | some e => e.wav.run.isSome && e.wav.stall == .sysc true { blank with d := .v 2, a := .v 4 } &&
          (Name.mains (.v 2) 2).any fun k => !((e.lane 0).reg k).full
      | none => false) = true := by decide +kernel

/-! Engines. -/

def tile (t : Ty) (role : Nat) : Tile := ⟨t, role, 0, 0, 0, [], []⟩
/-- A bench whose block holds slots 0 (an A tile) and 1 (a B tile). -/
def benchSlots (lo hi : Nat) (xs : List (Nat × Nat) := []) : Bench :=
  let b := benchAt lo hi xs
  { b with blk := { b.blk with slots := [(0, some (tile .bf16 0)), (1, some (tile .bf16 1))] } }

theorem witness_Matrix_claim : ([1, 14].all fun n => (benchSlots 0 0 [(4, n)]).meets (.mclaim { blank with d := .v 2, a := .v 4 }) fun e f _ ls =>
    ls.any fun l => e.wav.granted == none && 1 ≤ srcN e f.a .n32 l && srcN e f.a .n32 l ≤ 16 &&
      srcN e f.a .n32 l + e.blk.slots.length ≤ e.kern.opm && (benchSlots 0 0).st.claims.isEmpty &&
      srcN e f.a .n32 l ≤ ((benchSlots 0 0).st.freeSlots e.blk.at').length) = true := by decide +kernel
theorem witness_Matrix_claimWaits : ([SpanStage.running, .stopping].all fun g => let b := benchSlots 0 0 [(4, 14)]
    { b with stage := g : Bench }.meets (.mclaim { blank with d := .v 2, a := .v 4 }) fun e f _ ls => ls.any fun l =>
      e.wav.granted == none && srcN e f.a .n32 l == 14 && 14 + e.blk.slots.length ≤ e.kern.opm && e.task.cause == 0 && e.span.stage == g &&
        { b.st with claims := [(0, ⟨1, 0, 1⟩, 1)] }.claims.any fun c => c.1 == e.blk.at') = true := by decide +kernel
theorem witness_Matrix_release : (benchSlots 0 0 [(4, 3)]).meets (.mrel { blank with a := .v 4 }) (fun e f _ ls => ls.any fun l =>
    (List.range 32).all fun n => !(srcN e f.a .n32 l).testBit n || (decide (n < 16) && e.blk.holds n)) = true := by decide +kernel

/-- The first test of a matrix instruction that lane 0 meets. -/
def Bench.tests (b : Bench) (i : Instr) (P : Option (Nat × W64) → Bool) : Bool :=
  b.meets i fun e _ _ ls => ls == [0] && P (firstOf (matrixTests b.st e 0 i))

/-- `mld` of a bf16 A tile from the global page meets no test, in both forms; then one bench for each test that it may meet. -/
theorem witness_Matrix_load : ([Instr.mld, .mldT].all fun i =>
    let f : Fields := { blank with a := .v 8, b := .v 4, c := .v 6, ty := .bf16 }
    ((benchSlots 0x20000 0 [(4, 0), (6, 128)]).tests (i f) (· == none)) &&
    [(benchSlots 0 0xFC000000, eSpace), (benchSlots 0 0xFD000001, eSpforeign), (benchSlots 0x20008 0, eAlign), (benchSlots 0x20000 0 [(4, 256)], eIll),
     (benchSlots 0x20000 0 [(4, 2)], eSlot)].all fun p => p.1.tests (i f) fun x => x.map (·.1) == some p.2) = true ∧
    (benchSlots 65520 0xFD000000 [(4, 0), (6, 128)]).tests (.mld { blank with a := .v 8, b := .v 4, c := .v 6, ty := .bf16 })
      (fun x => x.map (·.1) == some eSpace) = true := by decide +kernel

theorem witness_Matrix_const : ([Instr.mconstIdent, .mconstExch, .mconstOnesrow, .mconstOnescol].all fun i =>
      let f : Fields := { blank with a := .v 4, ty := .bf16 }
      (benchSlots 0 0 [(4, 0)]).tests (i f) (· == none) && (benchSlots 0 0 [(4, 32)]).tests (i f) (· == some (eIll, 0)) &&
      (benchSlots 0 0 [(4, 2)]).tests (i f) (· == some (eSlot, 0))) = true ∧
    (benchSlots 0 0 [(4, 17)]).tests (.mconstShift { blank with a := .v 4, b := .v 6, ty := .bf16 }) (· == none) = true ∧
    ([(65536 - 128, 0xFD000000, none), (0, 0, some eSpace), (0, 0xFD000001, some eSpforeign), (65536 - 127, 0xFD000000, some eSpace)].all fun p =>
      (benchSlots p.1 p.2.1 [(4, 0)]).tests (.mconstPerm { blank with a := .v 4, b := .v 8, ty := .bf16 }) fun x => x.map (·.1) == p.2.2) = true := by
  decide +kernel

/-- A claim that was granted while the bundle stalled, and counts that a claim and a release refuse. -/
theorem witness_Matrix_granted : (let b := benchSlots 0 0 [(4, 14)]
    { b with wav := { b.wav with granted := some 12 } : Bench }.meets (.mclaim { blank with d := .v 2, a := .v 4 }) fun e _ _ ls =>
      ls == [0] && e.wav.granted == some 12) = true ∧
    ([0, 17, 15].all fun n => (benchSlots 0 0 [(4, n)]).tests (.mclaim { blank with d := .v 2, a := .v 4 }) (· == some (eSlot, 0))) = true ∧
    ([4, 0x10000].all fun n => (benchSlots 0 0 [(4, n)]).tests (.mrel { blank with a := .v 4 }) (· == some (eSlot, 0))) = true ∧
    ([Instr.mclaim (off { blank with d := .v 2, a := .v 4 }), .mrel (off { blank with a := .v 4 }),
      .mld (off { blank with a := .v 8, b := .v 4, c := .v 6, ty := .bf16 }), .mconstIdent (off { blank with a := .v 4, ty := .bf16 }),
      .mma (off { blank with a := .v 8 }), .mdual (off { blank with a := .v 8 })].all fun i =>
        ({} : Bench).meets i fun _ _ _ ls => ls.isEmpty) = true := by decide +kernel

/-- Four wavelets of sixteen lanes, and a parameter block at offset 64 (R320): slots 0 and 1, bf16. -/
def par (dual : Bool) : Nat := 0x660010 + (2 ^ 10 + 0x03020100 * 2 ^ 16) * 2 ^ 64 + if dual then (256 + 2 ^ 10 + 0x03020100 * 2 ^ 16) * 2 ^ 128 else 0
def benchMma (dual : Bool) : Bench :=
  let b := benchSlots 64 0xFD000000
  let x : Strand := { strand [(8, 64), (9, 0xFD000000)] with pc := 0x10000, live := true }
  { b with wav := { width := 16, lanes := List.replicate 16 x, run := some { start := 0x10000, count := 0, lanes := 1 } },
           blk := { b.blk with width := 16, scratch := Sparse.writeN [] 64 64 (par dual) } }
def stMma (dual : Bool) : State :=
  let s := (benchMma dual).st
  { s with wavs := (List.range 4).map fun i => (⟨1, 0, i⟩, (benchMma dual).wav) }

theorem witness_Matrix_mma : ([false, true].all fun dual =>
    let e := (benchMma dual).env
    let f : Fields := { blank with a := .v 8 }
    let i := if dual then Instr.mdual f else .mma f
    let p : Par := BitVec.ofNat 512 (par dual)
    let s := stMma dual
    (s.cur.bind s.env? == some e) && (match i.shape with | some sh => readyB i f sh e { start := 0x10000, count := 0, lanes := 1 } | none => false) &&
    firstOf (matrixTests s e 0 i) == none && (p == parOf s e f 0) && (placesOf s e p dual).isSome) = true := by decide +kernel
/-- The tests of `mma`, each met alone: a parameter block of ones, slots that are not held, a slot that is not filled with the
format, a wavelet that is not there, an accumulator that is empty; and the addresses. -/
theorem witness_Matrix_mma_traps : ([false, true].all fun dual =>
    let f : Fields := { blank with a := .v 8 }
    let i := if dual then Instr.mdual f else .mma f
    let s := stMma dual
    let b := benchMma dual
    let at' := fun (lo hi : Nat) => { b.env with wav := { b.wav with lanes := b.wav.lanes.map fun x => { x with regs := (strand [(8, lo), (9, hi)]).regs } } }
    let slots := fun (k : Block) => { k with slots := [] }
    let ones := { s with blocks := s.blocks.map fun k => (k.1, { k.2 with scratch := Sparse.writeN k.2.scratch 128 64 (2 ^ 512 - 1) }) }
    let wavs := fun (n : Nat) (g : Strand → Strand) => { s with wavs := (s.wavs.take n).map fun v => (v.1, { v.2 with lanes := v.2.lanes.map g }) }
    [(s, at' 64 0xFC000000, eSpace), (s, at' 64 0xFD000001, eSpforeign), (s, at' 32 0xFD000000, eAlign), (ones, at' 128 0xFD000000, eIll),
     (s, { b.env with blk := slots b.env.blk }, eSlot),
     ({ s with blocks := s.blocks.map fun k => (k.1, { k.2 with slots := [(0, some (tile .f16 0)), (1, some (tile .bf16 1))] }) }, b.env, eFmt),
     (wavs 4 fun x => { x with live := false }, b.env, eLanegone), (wavs 4 fun x => x.setFull 16 false, b.env, ePendwrite)].all fun p =>
      (firstOf (matrixTests p.1 p.2.1 0 i)).map (·.1) == some p.2.2) = true := by decide +kernel

theorem badIn_none {s : State} (h : s.checks = []) (hw : ∀ p ∈ s.wavs, p.2.checks = []) (e : Env) (d : Dir) (n : Nat) (a : W64) :
    s.badIn e d n a = [] := by
  have hk : ∀ u, s.badKey u = false := by
    intro u
    cases u with
    | phys n => simp [State.badKey, State.badUnit, h]
    | priv w p n =>
      simp only [State.badKey]
      split
      · rename_i v hv
        have hm : v.checks = [] := by
          exact hw _ (Assoc.mem_of_get? hv)
        simp [Wavelet.badPriv, hm]
      · rfl
  unfold State.badIn State.failing
  split <;> simp [hk]

theorem witness_EngineInstructions :
    ((List.range 3).all fun n => if h : n < 3 then (benchAt 64 0xFD000000 [(4, 128), (5, 0xFD000000)]).meets
        (.cpl { blank with d := .v 2, a := .v 8, b := .v 4 } ⟨n, h⟩) (fun e f _ ls => ls.all fun l =>
        e.winCause (addr e f l) == none && e.winCause (e.readPtr l f.b) == none && (addr e f l).toNat % (4 * 2 ^ n) == 0 &&
        (e.readPtr l f.b).toNat % (4 * 2 ^ n) == 0) else true) = true ∧
    ([Instr.splsub, .coll].all fun i => (benchAt 64 0xFD000000).meets (i { blank with d := .v 2, a := .v 8 }) fun e f _ ls => ls.all fun l =>
        e.descCause (e.readPtr l f.a) == none && (e.readPtr l f.a).toNat % 64 == 0) = true ∧
    ([Instr.tex, .texLod, .texd].all fun i => (benchAt 64 0xFD000000).meets
        (i { blank with d := .v 40, a := .v 4, b := .v 8, c := if i blank = .texd blank then .v 12 else .zero, ty := .f32 }) fun e f _ ls =>
        e.wav.failing.isEmpty && (benchAt 64 0xFD000000).st.checks.isEmpty && (benchAt 64 0xFD000000).st.wavs.all (·.2.checks.isEmpty) && !ls.isEmpty && ls.all fun l =>
        e.descCause (e.readPtr l f.b) == none && (e.readPtr l f.b).toNat % 64 == 0) = true := by decide +kernel

/-- A copy record of no rows, that counts on the object at offset 16 (R192). -/
def benchCopy (xs : List (Nat × Nat)) (hdr : Nat := 0) : Bench :=
  let b := benchObj 0x10000 ([(8, 64)] ++ xs)
  { b with blk := { b.blk with scratch := Sparse.writeN (Sparse.writeN b.blk.scratch 64 64 (0xFD00000000000010 * 2 ^ 128)) 32 16 hdr } }
def submitsB (e : Env) (s : State) (ds : List Req) : Bool := (submitted e s (bare (ds.map fun d => (0, d)))).isSome
/-- Such a bench whose two lanes both issue. -/
def both (b : Bench) : Bench := { lane := b.lane, blk := b.blk }
def cpkick0 : Fields := { blank with d := .v 2, a := .v 8, b := .v 4 }
/-- The bench issues `cpkick` in the lanes `ls`, whose headers are good, and their records meet no cause; `start` are the lanes that
get a start count, `ill` those whose ring is malformed or too short, `bar` those that are refused. -/
def kicksB (b : Bench) (f : Fields) (ls start ill bar : List Nat) : Bool :=
  b.meets (.cpkick f) fun e g _ xs => xs == ls && ls.all (headOk e g) &&
    (let p := kickPlan e g b.st ls
     (p.all fun x => (x.2.getD []).all fun o => decide (o < e.alloc) &&
       (e.reqCauses (BitVec.ofNat 512 (b.st.scrRead e.wid.block o 64))).all (·.2.isEmpty)) &&
     (p.filter (·.2.isNone)).map (·.1) == ill) &&
    (let k := kicked e g (fun _ => []) b.st ls
     k.2.1.map (·.1) == start && k.2.2.map (·.1) == bar && (start != [] || bar != [] || ill != [] || ls.all fun l => srcN e g.b .n32 l == 0))

theorem witness_EngineInstructions_copy :
    (benchCopy []).meets (.cpt { blank with d := .v 2, a := .v 8 }) (fun e f _ ls => ls == [0] && ls.all fun l =>
      e.ownCause (e.readPtr l f.a) == none && (e.readPtr l f.a).toNat % 64 == 0 &&
      let d : Req := BitVec.ofNat 512 ((benchCopy []).st.scrRead e.wid.block ((e.readPtr l f.a).toNat % 2 ^ 24) 64)
      (e.reqCauses d).all (·.2.isEmpty) && submitsB e (benchCopy []).st [d]) = true ∧
    (both (benchCopy [])).meets (.cpt { blank with d := .v 2, a := .v 8 }) (fun e _ _ ls => ls == [0, 1] &&
      submitsB e (both (benchCopy [])).st (List.replicate 2 (BitVec.ofNat 512 (0xFD00000000000010 * 2 ^ 128)))) = true := by decide +kernel
theorem witness_EngineInstructions_kick : (let b := fun (n : Nat) => benchCopy [(8, 32), (4, n)] (64 + 2 ^ 32)
    kicksB (b 0) cpkick0 [0] [] [] [] && kicksB (b 1) cpkick0 [0] [0] [] [] && kicksB (both (b 1)) cpkick0 [0, 1] [0, 1] [] [] &&
    kicksB (b 1) (off cpkick0) [] [] [] [] && kicksB (b 2) cpkick0 [0] [] [0] [] && kicksB (both (b 2)) cpkick0 [0, 1] [] [0, 1] []) = true := by
  decide +kernel

/-- The same bench with an object that is malformed, which refuses a record. -/
def benchBar (xs : List (Nat × Nat)) (hdr : Nat := 0) : Bench :=
  let b := benchCopy xs hdr
  { b with blk := { b.blk with scratch := Sparse.writeN b.blk.scratch 16 16 0 } }
def refusesB (b : Bench) (e : Env) : Bool :=
  let d : Req := BitVec.ofNat 512 (b.st.scrRead e.wid.block 64 64)
  (e.reqCauses d).all (·.2.isEmpty) && !submitsB e b.st [d] && (submitEach e b.st (bare [(0, d)])).2 == [(0, Req.bar d)]
theorem witness_EngineInstructions_bar :
    (benchBar []).meets (.cpt { blank with d := .v 2, a := .v 8 }) (fun e f _ ls => ls == [0] && e.ownCause (e.readPtr 0 f.a) == none &&
      (e.readPtr 0 f.a).toNat == 0xFD00000000000040 && refusesB (benchBar []) e) = true ∧
    (let b := benchBar [(8, 32), (4, 1)] (64 + 2 ^ 32)
     kicksB b cpkick0 [0] [] [] [0] && kicksB (both b) cpkick0 [0, 1] [] [] [0, 1]) = true := by decide +kernel

/-- The first cause that an engine instruction's addresses in lane 0 meet. -/
def Bench.causeIs (b : Bench) (i : Instr) (c : Nat) : Bool :=
  b.meets i fun e f _ ls => ls == [0] && [eSpace, eSpforeign, eAlign].find? (fun x => (Claim.meets (engAddrs b.st e f [0] 0 i) x).isSome) == some c
theorem witness_EngineInstructions_addresses :
    (let f : Fields := { blank with d := .v 40, a := .v 8 }
     let t : Fields := { blank with d := .v 40, a := .v 4, b := .v 8, ty := .f32 }
     [Instr.cpl { f with b := .v 4 } 2, .splsub f, .coll f, .tex t, .texLod t, .texd { t with c := .v 12 }, .cpt f, .cpkick { f with b := .v 4 }].all fun i =>
      [(64, 0xF0000000, eSpace), (64, 0xFD000001, eSpforeign), (4, 0xFD000000, eAlign)].all fun p =>
        (benchAt p.1 p.2.1 [(4, 128), (5, 0xFD000000)]).causeIs i p.2.2) = true ∧
    ([(0xFC00000000000000, eSpace), (0xFD00000000000018 * 2 ^ 128, eAlign), (0x40000 * 2 ^ 128, eSpace), (0xFD00000100000000 * 2 ^ 64 + 0xFD00000000000010 * 2 ^ 128, eSpforeign),
      (0xFD00000000000010 * 2 ^ 128 + 2 * 2 ^ 384, eAlign)].all fun p =>
        let b := benchCopy []
        { b with blk := { b.blk with scratch := Sparse.writeN b.blk.scratch 64 64 p.1 } : Bench }.causeIs (.cpt { blank with d := .v 2, a := .v 8 }) p.2) = true ∧
    (benchCopy [(8, 32), (4, 1)] (2 ^ 20 + 2 ^ 32)).causeIs (.cpkick { blank with d := .v 2, a := .v 8, b := .v 4 }) eSpace = true := by decide +kernel

/-! Device events. -/

def aliveB (s : State) (w : WavId) (v : Wavelet) : Bool :=
  s.wav? w == some v && v.lanes.length == v.width && decide (v.width ≤ 64) && Sparse.wf ({} : UReg) v.w &&
  (v.lanes.all fun x => Sparse.wf ({} : Reg) x.regs) && v.live != [] &&
  match s.span? w.span, s.blk? w.block with
  | some p, some b => decide (w.blk < p.blocks) && !b.ended
  | _, _ => false
theorem alive_of {s w v} (h : aliveB s w v = true) : Alive s w v := by
  simp only [aliveB, Bool.and_eq_true, beq_iff_eq, decide_eq_true_eq, List.all_eq_true, bne_iff_ne] at h
  obtain ⟨⟨⟨⟨⟨⟨h1, h2⟩, h3⟩, h4⟩, h5⟩, h6⟩, h7⟩ := h
  refine ⟨h1, ⟨h2, h3, h4, h5⟩, h6, ?_⟩
  split at h7
  · rename_i p b hp hb
    simp only [Bool.and_eq_true, decide_eq_true_eq, Bool.not_eq_true'] at h7
    exact ⟨p, b, hp, h7.1, hb, h7.2⟩
  · cases h7

/-- The bench with one piece of outstanding work, number 5. -/
def stOp (k : Work) (b : Bench := { lane := strand [] }) : State := { b.st with ops := [⟨5, placeWav, k, 0⟩] }
def fill0 : List Fill := [⟨0, 2, { bits := 7 }⟩, ⟨1, 2, { bits := 8 }⟩]

theorem witness_FillEvents : ([Work.load fill0, .atomic fill0, .tex fill0].all fun k => (stOp k).op? 5 == some ⟨5, placeWav, k, 0⟩ &&
      aliveB (stOp k) placeWav ({ lane := strand [] } : Bench).wav && (fill0.map fun z => (z.lane, z.reg)) == [(0, 2), (1, 2)] &&
      fill0.all fun z => z.lane < 2) = true ∧
    ([Work.cpl 1 0x40000 0x20000 4 (.v 2), .splat 1 0x20000 0 (.v 2), .coll 1 0x20000 (.v 2)].all fun k =>
      (stOp k).op? 5 == some ⟨5, placeWav, k, 0⟩ && (stOp k).env? placeWav == some ({ lane := strand [] } : Bench).env &&
      ((stOp k).groups.isEmpty) && aliveB (stOp k) placeWav ({ lane := strand [] } : Bench).wav) = true ∧
    (match ({ lane := strand [] } : Bench).env.spot .load false (fun _ => 4) 0x40000 1 with | none => true | some _ => false) = true := by
  decide +kernel
/-- A copy from the global page to the own scratchpad, away from the barrier object at offset 16. -/
theorem witness_FillEvents_cpl : (let b : Bench := { benchObj 0x10000 with job := job0 }
    let s := stOp (.cpl 1 0x20000 0xFD00000000000040 4 (.v 2)) b
    (match s.env? placeWav with
      | some e => aliveB s placeWav e.wav && (e.spot .load false (fun _ => 4) 0x20000 1).isSome && s.checks.isEmpty &&
          (match e.spot .store false (fun _ => 4) 0xFD00000000000040 1 with
            | some y => y.loc == .scr ⟨1, 0⟩ 64 && (match s.blk? ⟨1, 0⟩ with
              | some z => z.objs.all fun u => decide (64 + 4 ≤ 16 * u) || decide (16 * u + 16 ≤ 64)
              | none => false)
            | none => false)
      | none => false)) = true := by decide +kernel

/-- The same bench whose group 0 has this package alone, and a record of no elements at offset 64. -/
def stColl : State :=
  let b : Bench := { lane := strand [] }
  { stOp (.coll 0 0xFD00000000000040 (.v 2)) { b with blk := { b.blk with scratch := Sparse.writeN [] 64 4 0x100 } } with
    groups := [(0, { ctx := 1, size := 2, rank := 0 })], floeb := [(2, 1)] }
theorem witness_FillEvents_coll : (match stColl.op? 5, stColl.env? placeWav with
    | some _, some e => (match stColl.record e 0xFD00000000000040 with
      | .ok x => Assoc.get? stColl.groups (Coll.grp x) == some { ctx := 1, size := 2, rank := 0 } && Coll.res x == false && Coll.count x == 0 &&
          (match stColl.collSrc e x with
            | .ok own => (({ ctx := 1, size := 2, rank := 0 } : Group).contributions 5 (Coll.chunks x 2) [] own []).all fun c => c.elems.length == 0 && stColl.floeb != []
            | .error _ => false)
      | .error _ => false)
    | _, _ => false) = true := by decide +kernel

def stMat (m : Matrix) (x : Bool := false) : State := stOp (.matrix m ⟨placeWav, 0, [], []⟩ x) (benchSlots 0 0)
def dueB (s : State) (m : Matrix) (x : Bool) : Bool := match s.matrixDue 5 with
  | some (o, m', _, y, e) => o.id == 5 && m' == m && y == x && aliveB s o.wid e.wav && e.blk.holds 0 && e.blk.fail.isNone &&
      s.wavs.all fun v => v.2.lanes.all fun z => z.wait == .none
  | none => false

theorem witness_EngineEvents_matrix :
    (([Matrix.mconst 0 0 0 .bf16 0, .mld 0 0 0 .bf16 false 0x40000 128 0, .mma false (BitVec.ofNat 512 (par false)),
        .mma true (BitVec.ofNat 512 (par true))].all fun m => dueB (stMat m) m false && dueB (stMat m true) m true)) = true ∧
    (match (stMat (.mld 0 0 0 .bf16 false 0x40000 128 0)).matrixDue 5 with
      | some (_, m, fence, _, e) => match (stMat (.mld 0 0 0 .bf16 false 0x40000 128 0)).tileOf e m fence with
        | (.error _, _) => true
        | _ => false
      | none => false) = true := by decide +kernel

/-- The fill of an `f64` A tile from the global page, and the drain of an `mma` whose four wavelets are live. -/
theorem witness_EngineEvents_tile : (let m := Matrix.mld 0 0 0 .f64 false 0x20000 128 0
    match (stMat m).matrixDue 5 with
      | some (_, _, fence, _, e) => (match (stMat m).tileOf e m fence with
          | (.ok (n, z), _) => n == 0 && z.elems.length == z.rows * z.cols
          | _ => false) && isGlob 0x20000 && (match (stMat m).codeAt e .f64 0x20000 0 with | .ok c => c == 0 | .error _ => false)
      | none => false) = true := by decide +kernel
def stDrain : State := { stMma false with ops := [⟨5, placeWav, .matrix (.mma false (BitVec.ofNat 512 (par false))) ⟨placeWav, 0, [], []⟩ false, 0⟩] }
theorem witness_EngineEvents_drain : (match stDrain.matrixDue 5 with
    | some (o, _, _, _, e) => (match Par.places (BitVec.ofNat 512 (par false)) false e.blk.width (stDrain.wavsOf e.wid.block).length with
      | some (p :: _) => decide (0 < p.size) && p.wvs.all fun i => match stDrain.wav? (wavOf o.wid.block i) with
          | some v => aliveB stDrain (wavOf o.wid.block i) v && v.width == e.blk.width && v.lanes.all fun y => y.past.isEmpty && y.wait == .none
          | none => false
      | _ => false)
    | none => false) = true := by decide +kernel

/-- A tile of one block whose scale is the one given. -/
def scaledTile (sc : Nat) : Tile := { ty := .e4m3, role := 0, sp := 0, rows := 1, cols := 1, elems := [some 0x38], scales := [some sc] }
/-- R99: 0x80 and 0x7F decode as NaN, 0x7E is 448; the lane is the one that issued the `mld`. -/
theorem test_scalenan : ([0x80, 0x7F, 0x7E].map fun sc =>
    (((bench []).st.noteScales placeWav (.mld 0 0 0 .e4m3 false 0 0 1) (scaledTile sc)).wav? placeWav).map fun v =>
      (v.lanes.take 2).map (·.status)) = [some [0, 2], some [0, 2], some [0, 0]] := by decide +kernel

/-- A bench that waits for one slot of cluster 0. -/
def stClaim : State := { (bench [] fun v => { v with stall := .claim }).st with claims := [(0, placeWav, 1)] }
theorem witness_EngineEvents_claim : ((stClaim.env? placeWav).isSome &&
    stClaim.claims.find? (fun c => c.2.1 == placeWav) == some (0, placeWav, 1) &&
    (stClaim.claims.find? fun c => c.1 == 0).map (·.2.1) == some placeWav && decide (1 ≤ (stClaim.freeSlots 0).length)) = true := by
  decide +kernel

/-- A copy of one row of 16 bytes between global pages; `src` may lie on none. -/
def copy0 (src : Nat) : Copy :=
  { desc := BitVec.ofNat 512 (src + 0x20100 * 2 ^ 64 + 0xFD00000000000010 * 2 ^ 128 + 16 * 2 ^ 192 + 2 ^ 224 + 16 * 2 ^ 320),
    bar := ⟨1, 0⟩, off := 16, charged := true }
def stCopy (src : Nat) : State := stOp (.bulk (copy0 src)) { benchObj 0x10000 with job := job0 }
theorem witness_EngineEvents_copy : ([(0x20000, true), (0x60000, false)].all fun p => match (stCopy p.1).copyDue 5 with
    | some (_, c, e) => (match (stCopy p.1).moveRow e c with | Except.ok _ => p.2 | .error _ => !p.2) && Req.stat c.desc == 0 &&
        !Req.cvt c.desc && !Req.xp c.desc && (match c.runs e (e.side (Req.src c.desc) (natBits c.desc.toNat 359 356))
            (e.side (Req.dst c.desc) (natBits c.desc.toNat 363 360)) with
          | [q] => window (Req.drow c.desc q.row + BitVec.ofNat 64 q.col) == .glob 0x20100 && q.n == 16
          | _ => false) && e.job.phys .store 0x20100 == some 0x20100
    | none => false) = true := by decide +kernel

theorem witness_EngineEvents_ranks :
    (let x : Group := { ctx := 1, size := 4, rank := 0, gone := [⟨1, [], none⟩], fenced := [1] }
     decide (3 < x.size) && decide (3 ≠ x.rank) && !x.fenced.contains 3 && (x.absence 7 3).isNone && x.fenced.contains 1 &&
     decide (1 < x.size) && x.gone.all fun z => z.upTo.isNone) = true ∧
    (let s := stOp (.coll 1 0x20000 (.v 2)) {}
     (s.ops.any fun o => o.id == 5 && o.work.isColl) && ((Assoc.get? [(5, [2])] 5).getD [] == [2]) &&
       !((stOp (.load fill0) {}).ops.any fun o => o.id == 5 && o.work.isColl)) = true := by decide +kernel

/-- A bench stalled on faults. -/
def stFault (whole : Bool) : State :=
  (bench [] fun v => { v with stall := .fault whole, faults := [(0, 0x40000)], integ := [(1, 0x50000)], replay := some 3 }).st
def map0 : Mapping := ⟨0x40000, BitVec.ofNat 128 (0x40000 * 2 ^ 64 + 7)⟩
def stFetch : State := (bench [] fun v => { v with stall := .fetch }).st

theorem witness_FaultEvents : ([false, true].all fun whole => match (stFault whole).env? placeWav with
      | some e => e.wav.stall == .fault whole && !e.wav.faults.isEmpty && !e.wav.integ.isEmpty && ((stFault whole).mapPages e.task.ctx [map0]).isSome
      | none => false) = true ∧
    (match ({} : Bench).st.env? placeWav with
      | some e => e.task.cause == 0 && runsOnB e && (match Wavelet.begin e.wav with
        | some v => (({} : Bench).st.fetch e (Wavelet.pc v)).isNone
        | none => false)
      | none => false) = true ∧
    (match stFetch.env? placeWav with
      | some e => e.wav.stall == .fetch && e.wav.run.isSome && (stFetch.mapPages e.task.ctx [map0]).isSome && e.task.cause == 0
      | none => false) = true ∧ ((stOp (.load fill0)).op? 5).isSome = true := by decide +kernel
/-- A lane whose private page at offset 0 is not there, and a copy of a unit that passes its check beside one that does not. -/
def copy800 (b : Byte) : GoodCopy := ⟨.phys 0x800, 0, b :: List.replicate 63 0⟩
theorem witness_FaultEvents_refetch :
    ((bench [] fun v =>
      { v with stall := .fault false, faults := [(0, 0xFC00000000000010)], replay := some 1,
               lanes := v.lanes.map fun x => { x with absent := [(0, 8192)] } }).st.env? placeWav).any (fun e => !e.wav.faults.isEmpty &&
      window 0xFC00000000000010 == .priv 16 && (({} : Bench).st.mapPages e.task.ctx []).isSome) = true ∧
    ((bench [] fun v => { v with stall := .check }).st.wav? placeWav).any (·.stall == .check) = true ∧
    (let s := { ({} : Bench).st with checks := [(0x800, crc32c (copy800 1).bytes)] }
     s.badKey (.phys 0x800) && s.mayServe (copy800 1) && s.checkOf (.phys 0x800) == some (crc32c (copy800 1).bytes) &&
       s.checkOf (.phys 0x800) != some (crc32c (copy800 2).bytes)) = true := by decide +kernel
/-- A bundle whose word lies on a mapped code page, in a unit that fails its check; before and after the refetch. -/
theorem witness_FaultEvents_word : ([false, true].all fun x =>
    let b : Bench := bench [] fun v => { v with retried := x }
    let s := { { b with job := { pages := [(0x10000, placeLeaf)] } : Bench }.st with checks := [(0x400, 0)] }
    match s.env? placeWav with
      | some e => (match Wavelet.begin e.wav with
        | some v => v.run.isSome && (s.fetch e (Wavelet.pc v)).isNone && s.wordFails e (Wavelet.pc v) && v.retried == x && runsOnB e
        | none => false)
      | none => false) = true := by decide +kernel

/-! Pewter, scheduling. -/

/-- A launch record at 0x20000 of a process with queue 1 and the kernel of the tests, and a second record whose signal is
at 0x20100; the signal's count is 3. -/
def stLaunch : State :=
  { State.reset with
    mem := Sparse.writeN (Sparse.writeN [] 0x20000 64 (placeHdr + BitVec.ofNat 512 placeVa).toNat) 0x20100 8 3
    jobs := [(1, { pages := [(0x20000, leaf0)], queues := [⟨1, 0, 16⟩], kernels := [(placeVa, placeKern)],
                   waits := [⟨0x20100, 5, 9⟩] })]
    nextOp := 4 }

theorem witness_PewterCalls_launch : (match (stLaunch.mend []).recordOf 1 0x20000 with
    | .ok n => let (h, rs) := splitRecord n
      isGlob 0x20000 && Hdr.ok h rs && (stLaunch.job 1).queues.find? (fun x => x.qid == Hdr.qid h) == some ⟨1, 0, 16⟩ &&
      (match Assoc.get? (stLaunch.job 1).kernels (Hdr.krec h).toNat with | some k => Kern.fits k (Hdr.bsz h) | none => false) &&
      (stLaunch.job 1).sigMapped h && decide ((stLaunch.queued 1 (Hdr.qid h)).length < 16)
    | _ => false) = true ∧ (stLaunch.mend []).recordOf 1 0x40000 = .absent ∧
    ((bad800 stLaunch).mend []).recordOf 1 0x20000 = .broken 0x20000 := by decide +kernel
/-- The record's tests, each failing alone: a record of zeros; no such queue; no such kernel; a block beyond the kernel's; a full
queue. -/
theorem witness_PewterCalls_refused : (match stLaunch.recordOf 1 0x20400 with
      | .ok n => !Hdr.ok (splitRecord n).1 (splitRecord n).2 | _ => false) = true ∧
    (match stLaunch.recordOf 1 0x20000 with
      | .ok n => let (h, _) := splitRecord n
        (([] : List Queue).all fun x => x.qid != Hdr.qid h) && Assoc.get? ([] : List (Nat × Kern)) (Hdr.krec h).toNat == none &&
        !Kern.fits placeKern 65535 && !({} : Job).sigMapped (h ||| BitVec.ofNat 512 (0x20100 * 2 ^ 128)) &&
        decide (0 ≤ (stLaunch.queued 1 (Hdr.qid h)).length)
      | _ => false) = true := by decide +kernel

theorem witness_PewterCalls_signal : (stLaunch.mend []).sigCount 1 0x20100 = some 3 ∧
    ((stLaunch.job 1).waits.find? fun w => w.sig == 0x20100 && w.timeout != 0).isSome = true ∧
    stLaunch.reached 1 ⟨0x20100, 5, 9⟩ = false ∧ stLaunch.reached 1 ⟨0x20100, 3, 9⟩ = true ∧
    ⟨0x20100, 3, 9⟩ ∈ ((stLaunch.setJob 1 { stLaunch.job 1 with waits := [⟨0x20100, 3, 9⟩] }).job 1).waits ∧
    (stLaunch.setJob 1 { stLaunch.job 1 with waits := [⟨0x20100, 3, 9⟩] }).reached 1 ⟨0x20100, 3, 9⟩ = true ∧
    (stLaunch.job 1).phys .load 0x20000 = some 0x20000 ∧ ((bad800 stLaunch).mend []).badAt 0x20000 8 = true := by decide +kernel

theorem witness_PewterCalls_queues : ((stLaunch.job 1).queues.any fun x => x.qid == 1) = true ∧ stLaunch.tasks.isEmpty = true ∧
    (stLaunch.job 1).queues.length < Config.maxQueues ∧ (16 = 2 ^ Nat.log2 16 ∧ 65536 = 2 ^ Nat.log2 65536) := by decide +kernel

/-- An object of one `nop`, one kernel record and a note of a level, its file, and places for its sections (R133-R135). -/
def bytesOf (k n : Nat) : List Byte := (List.range k).map fun i => BitVec.ofNat 8 (n / 2 ^ (8 * i))
def names0 : List Byte := ["", ".text", ".nx.kernels", ".note.nx"].flatMap fun x => (x.toList.map fun c => BitVec.ofNat 8 c.toNat) ++ [0]
def note0 (level : Nat) : List Byte :=
  bytesOf 12 (8 + 16 * 2 ^ 32 + 2 ^ 64) ++ [0x5A, 0x77, 0x69, 0x70, 0x68, 0x6F, 0x72, 0] ++ bytesOf 16 level
def object0 (level : Nat) (machine := 0x5A9) : CodeObject where
  cls := 2
  data := 1
  type := 1
  machine := machine
  sections := [⟨.text, 4, List.replicate 12 0, {}⟩, ⟨.kernels, 8, bytesOf 32 placeKern.toNat, {}⟩, ⟨.note, 4, note0 level, {}⟩,
    ⟨.other, 1, names0, {}⟩]
  symbols := []
  relocs := []
/-- A section header: name, type, flags, offset, size, alignment. -/
def head0 (name type flags off size align : Nat) : List Byte :=
  bytesOf 4 name ++ bytesOf 4 type ++ bytesOf 8 flags ++ bytesOf 8 0 ++ bytesOf 8 off ++ bytesOf 8 size ++ bytesOf 8 0 ++ bytesOf 8 align ++ bytesOf 8 0
def file0 (level : Nat) (machine := 0x5A9) : List Byte :=
  [0x7F, 0x45, 0x4C, 0x46, 2, 1, 1] ++ List.replicate 9 0 ++ bytesOf 2 1 ++ bytesOf 2 machine ++ bytesOf 4 1 ++ bytesOf 16 0 ++ bytesOf 8 172 ++
  bytesOf 4 0 ++ bytesOf 2 64 ++ bytesOf 4 0 ++ bytesOf 2 64 ++ bytesOf 2 4 ++ bytesOf 2 3 ++
  List.replicate 12 0 ++ bytesOf 32 placeKern.toNat ++ note0 level ++ names0 ++
  head0 1 1 6 64 12 4 ++ head0 7 1 2 76 32 8 ++ head0 19 7 2 108 36 4 ++ head0 0 3 0 144 28 1
def places0 : List SectionPlace := [⟨0x40000, 0x40000⟩, ⟨0x60000, 0x60000⟩, ⟨0, 0⟩, ⟨0, 0⟩]
theorem witness_PewterCalls_objects : ([1, 2].all fun n => stLaunch.placesOk 1 (object0 n) places0) = true ∧
    readElf (file0 1) [] = some (object0 1) ∧ readElf (file0 (2 ^ 33)) [] = some (object0 (2 ^ 33)) ∧ readElf (file0 1 0) [] = some (object0 1 0) ∧
    readElf [] [] = none ∧ readElf ((file0 1).take 400) [] = none ∧
    ([object0 1, object0 2, object0 (2 ^ 33), object0 1 0].map fun o => codeRefusal (stLaunch.job 1) o) =
      [none, some (-10), some (-12), some (-13)] := by decide +kernel

/-- A task in a stage. -/
def task0 (g : Stage) (next := 0) (kept : Option Kept := none) : Task :=
  { ctx := 1, qid := 1, hdr := placeHdr + BitVec.ofNat 512 (placeVa + 0x20100 * 2 ^ 128), regions := [], kern := placeKern, grid := 0, stage := g, next := next, kept := kept }
def stTask (t : Task) : State := { stLaunch with tasks := [(1, t)], boot := { State.reset.boot with held := false } }

theorem witness_PewterCalls_taskFault : ([task0 .queued, task0 .done, task0 .done 0 (some ⟨7, 0, 1, 0, [(0, 0)]⟩)].all fun t =>
    (((stTask t).tasks.filter fun u => u.2.ctx == 1 && Hdr.sig u.2.hdr == 0x20100).getLast?) == some (1, t)) = true := by decide +kernel
/-- The queue of a task that is outstanding, and of one that is done. -/
theorem witness_PewterCalls_destroy : ([task0 .queued, task0 .done].map fun t => (stTask t).tasks.all fun u =>
    u.2.ctx == 1 && u.2.qid == 1 && u.2.stage != .done) = [true, false] := by decide +kernel

theorem witness_SchedulingEvents_arbiter : ((stTask (task0 .queued)).jobs.map (·.1) == [1] && (stTask (task0 .queued)).tasks.map (·.1) == [1] &&
    ((stTask (task0 .queued)).jobs.all fun j => decide (1 ≤ j.2.weight)) && ((stTask (task0 .queued)).tasks.all fun t => t.2.stage != .selected) &&
    (stTask (task0 .queued)).vfOrder.find? (fun v => (stTask (task0 .queued)).hasWork v || !((stTask (task0 .queued)).readyJobs v).isEmpty) == some 0 &&
    (stTask (task0 .queued)).readyJobs 0 != []) = true := by decide +kernel
def vf0 (n : Nat) : Vf := { id := n, slice := 100, grace := 10 }
theorem witness_SchedulingEvents_slice : ({ State.reset with vfs := [vf0 0, vf0 1] }.vfs.find? (fun x => x.id == 0) == some (vf0 0) &&
    { State.reset with vfs := [vf0 0, vf0 1] }.vfOrder == [0, 1] && (1 : Nat) != State.reset.turn) = true := by decide +kernel
theorem witness_SchedulingEvents_unset : ({ State.reset with vfs := [vf0 1] }.turn == 0 && { State.reset with vfs := [vf0 1] }.vfOrder == [0, 1]) = true := by
  decide +kernel
/-- Function 0 has the turn and the only task, which is held back no more than its stage says; function 1 has blocks to place. -/
def stTurn (g : Stage) : State := { stTask (task0 g) with vfs := [vf0 0, vf0 1], turn := 1 }
theorem witness_SchedulingEvents_turn : ((stTurn .released).vfs != [] && !(stTurn .released).hasWork (stTurn .released).turn &&
    (stTurn .released).vfOrder.find? (fun u => (stTurn .released).hasWork u) == some 0 && !(stTurn .held).hasWork 0 &&
    (stTurn .released).task? 1 == some (task0 .released) && ((stTurn .released).job 1).vf != (stTurn .released).turn) = true := by decide +kernel
/-- Function 1 has the turn and a ready task of process 2, while a span of process 1 runs in the grace period of function 0. -/
def stGrace : State :=
  let s := ({} : Bench).st
  { s with vfs := [vf0 0, vf0 1], turn := 1, grace := [(0, 110)], jobs := s.jobs ++ [(2, { vf := 1, queues := [⟨1, 0, 16⟩] })], tasks := s.tasks ++ [(2, { task0 .queued with ctx := 2 })] }
theorem witness_SchedulingEvents_grace : (stGrace.grace.map (·.1) == [0] && stGrace.spans.map (·.1) == [1] && (0 : Nat) != stGrace.turn &&
    stGrace.spansOf 0 != [] && (stGrace.vfOrder.any fun u => u != 0 && stGrace.hasWork u) && (stGrace.span? 1).any (·.stage == .running)) = true := by
  decide +kernel
theorem witness_SchedulingEvents_enter : ((stTask (task0 .selected)).task? 1 == some (task0 .selected) &&
    decide ((stTask (task0 .selected)).inUnit.length < Config.rduTasks)) = true := by decide +kernel
theorem witness_SchedulingEvents_dispatch :
    (let s := stTask (task0 .released); let t := task0 .released
     s.task? 1 == some t && t.cause == 0 && decide (t.next < Hdr.nblk t.hdr) && [5].length == Hdr.span t.hdr && oneDie [5] && s.vfs == [] && !s.boot.held &&
     s.idle == .active && ([5].all fun c => (s.room t.kern c (s.widthOf t.origin t.kern)
       ((Hdr.bsz t.hdr + s.widthOf t.origin t.kern - 1) / s.widthOf t.origin t.kern)).isSome)) = true := by decide +kernel
theorem witness_SchedulingEvents_complete : (let s := stTask (task0 .released 1)
    s.task? 1 == some (task0 .released 1) && s.taskOver 1 (task0 .released 1) && Hdr.sig (task0 .released 1).hdr == 0x20100 &&
      (s.job 1).phys .atomic 0x20100 == some 0x20100 && !(s.mend []).badAt 0x20100 16 &&
      ({ s with checks := [(0x804, 0)] }.mend []).badAt 0x20100 16) = true := by decide +kernel
theorem witness_SchedulingEvents_wave :
    ((bench [] fun v => { v with lanes := listModify (fun x => { x with wait := .wake 3 }) v.lanes 1 }).st.wave 0 3 == [placeWav]) = true := by decide +kernel
/-- The bench with its span saved. -/
def stSaved : State :=
  let s := ({} : Bench).st
  { s with spans := [(1, { task := 1, ctx := 1, blocks := 1, stage := .saved })] }
theorem witness_SchedulingEvents_spans : (({} : Bench).st.span? 1).any (·.stage == .running) = true ∧
    (stSaved.span? 1).any (·.stage == .saved) = true ∧ oneDie [7] = true ∧ stSaved.idle = .active ∧
    (match stSaved.blk? ⟨1, 0⟩, stSaved.task? 1 with
      | some k, some t => (k.slots.all fun x => (stSaved.freeSlots 7).contains x.1) && (stSaved.room t.kern 7 k.width (stSaved.wavsOf ⟨1, 0⟩).length).isSome
      | _, _ => false) = true := by decide +kernel

/-! Power, memory, links, boot. -/

theorem witness_PowerEvents : (({} : Bench).st.resident 0 0 != [] && State.reset.droop < 41 &&
    ((State.reset.modCluster 3 fun k => { k with stretch := 6, halve := 64 }).cluster 3).stretch == 6 &&
    ((State.reset.modCluster 3 fun k => { k with stretch := 6, halve := 64 }).cluster 3).halve == 64 &&
    State.reset.idle == .active && State.reset.spans.isEmpty && !State.reset.busy && State.reset.ltr.getD 10000 == 10000) = true ∧
    State.reset.resident 0 0 = [] ∧ (State.reset.cluster 0).gated = [] ∧ (stTask (task0 .queued)).busy = true ∧ { State.reset with idle := .i1, exiting := true }.idle ≠ .active ∧
    { State.reset with host := { up := true }, idle := .i1 }.host.up = true := by decide +kernel

theorem noBad_of {s : State} (h : s.checks = []) (u : Nat) : s.badUnit u = false := by simp [State.badUnit, h]

theorem witness_MemoryEvents : ((stLaunch.job 1).page 0x20000 == some (0x20000, leaf0) && 0x60000 % Leaf.size leaf0 == 0 && canonB stLaunch &&
    (stLaunch.jobs.all fun j => j.2.pages.all fun q => decide (Leaf.pbase q.2 + Leaf.size q.2 ≤ 0x60000)) && (stLaunch.mapPages 1 [map0]).isSome &&
    { stLaunch with checks := [(0x805, 1)] }.badAt 0x20140 1 && !stLaunch.badAt 0x20140 1 && stLaunch.checks.isEmpty &&
    ((State.reset.modCluster 3 fun k => { k with leases := [.line 9] }).cluster 3).leases.contains (.line 9) && window map0.va == .glob 0x40000 &&
    stLaunch.has 0x60000 (Leaf.size leaf0) && stLaunch.has 0x20140 64 && !stLaunch.has (2 ^ 52) 1 && stLaunch.has 0x20148 8 &&
    ({ stLaunch with checks := [(0x805, 1)] }.mend []).badUnit 0x805 && ({ stLaunch with checks := [(0x805, 1)] }.rouse.mend []).badAt 0x20140 1 &&
    { stLaunch with tier := { bytes := 2 ^ 30, shared := true } }.has Config.tierBase 64 && !stLaunch.host.up &&
    { stLaunch with host := { up := true }, floeb := [(2, 1)] }.host.up && { stLaunch with host := { up := true }, floeb := [(2, 1)] }.floeb != [] &&
    stLaunch.floeb.isEmpty && !(stTask (task0 .queued)).boot.held && window 0xFC00000000002000 == .priv 8192 && 8192 % Leaf.size leaf0 == 0 &&
    (({} : Bench).st.env? placeWav).any fun e => e.task.ctx == 1 && e.wav.lanes.length == e.wav.width && decide (1 < e.wav.width)) = true := by
  decide +kernel

theorem witness_LinkEvents : ([16, 8].any fun w => [16, 8, 4, 2, 1].contains w && decide (w ≤ 9)) = true ∧
    ([16, 8].all fun w => decide (3 < w)) = true ∧ 1 ≤ 3 ∧ Assoc.get? (Assoc.put State.reset.floeb 2 1) 2 = some 1 ∧
    ({ State.reset with otp := { State.reset.otp with isModule := false } }.jobs.all fun j => j.2.pages.all fun p =>
      { State.reset with tier := { bytes := 2 ^ 30, shared := true } }.backs p.2) = true ∧ stLaunch.backs leaf0 = true ∧
    { State.reset with otp := { State.reset.otp with isModule := false } }.otp.isModule = false := by decide +kernel

def stBoot (waiting : Bool) (from' : Source) : State :=
  { State.reset with boot := { State.reset.boot with waiting := waiting, src := from' }, otp := { State.reset.otp with minVer := 2 } }
theorem witness_BootEvents : ((stBoot false .port).boot.image.isNone && !(stBoot false .port).boot.waiting && (stBoot true .fabric).boot.waiting &&
    ([⟨true, 2, true, [7]⟩, ⟨false, 2, true, []⟩, ⟨true, 1, true, []⟩, ⟨true, 2, false, []⟩].map fun (g : BootImage) =>
      (g.sigOk, decide ((stBoot false .port).otp.minVer ≤ g.version), g.forModule == (stBoot false .port).otp.isModule)) ==
      [(true, true, true), (false, true, true), (true, false, true), (true, true, false)]) = true ∧
    ([false, true].map fun x => { stBoot false .port with otp := { State.reset.otp with fabric := x } }.otp.fabric) = [false, true] ∧
    ¬ .fabric ∈ (stBoot false .port).boot.failed ∧ { stBoot false .fabric with floeb := [(2, 1)] }.boot.src = .fabric ∧
    { stBoot false .fabric with floeb := [(2, 1)] }.floeb ≠ [] := by decide +kernel

/-! The step and the checks of a word. -/

theorem witness_StepKeepsCanonical : canonB ({} : Bench).st = true ∧ canonB State.reset = true ∧
    (match step (State.reset.withFetchWord 96 0x0600280A05F0A840E4000000) with | .next t => canonB t | _ => false) = true := by decide +kernel

/-- The word of `fma` and one that decodes to nothing, where the next step fetches. -/
def fetches (w : Nat) (ok : Bool) : Bool :=
  let s := State.reset.withFetchWord 96 w
  (match s.agenda with | .run u :: _ => u == placeWav | _ => false) && match { s.tick with agenda := s.agenda.tail }.env? placeWav with
    | some e => (match Wavelet.begin e.wav with
      | some v => v.run.isSome && (match { s.tick with agenda := s.agenda.tail }.fetch e (Wavelet.pc v) with
        | some bs => (match decode bs with | .ok _ => ok | .error _ => !ok)
        | none => false)
      | none => false)
    | none => false
theorem witness_StepRunsDecoded : fetches 0x0600280A05F0A840E4000000 true = true ∧ ({ State.reset with agenda := [.event .bootReset] }).agenda ≠ [] ∧
    State.reset.agenda = [] ∧ State.reset.tick.defaultTurn = none ∧ State.reset.vfs = [] ∧ (stTurn .released).hasWork 0 = true ∧ (({} : Bench).st.tick.defaultTurn).isSome = true := by decide +kernel
/-- The wavelet that the agenda names cannot fetch its word: its page is not there, or `bad`, its unit fails the check. -/
def noFetch (s : State) (bad : Bool) : Bool :=
  let a : State := { s.tick with agenda := s.agenda.tail }
  s.agenda.head? == some (.run placeWav) && match a.env? placeWav with
    | some e => (match Wavelet.begin e.wav with
      | some v => (a.fetch e (Wavelet.pc v)).isNone && a.wordFails e (Wavelet.pc v) == bad
      | none => false)
    | none => false
theorem witness_StepRunsDecoded_fault : (noFetch { State.reset.withFetchWord 96 0 with jobs := [] } false &&
    noFetch { State.reset.withFetchWord 96 0 with checks := [(0x400, 0)] } true) = true := by decide +kernel
theorem witness_WordTraps_decode : fetches (2 ^ 96 - 1) false = true := by decide +kernel

/-- The wavelet of a bench issues the word, in the bench's run. -/
def Bench.issues (b : Bench) (i : Instr) : Bool :=
  i.fields?.isSome && i.shape.isSome && b.wav.run == some { b.run with lanes := b.mask } && b.wav.lanes.length == b.wav.width &&
  decide (b.wav.width ≤ 64) && Sparse.wf ({} : UReg) b.wav.w && b.wav.lanes.all fun x => Sparse.wf ({} : Reg) x.regs
theorem Bench.issues_of {b : Bench} {i : Instr} (h : b.issues i = true) : ∃ s e f sh r, Issues i s e f sh r ∧ s = b.st ∧ e = b.env := by
  simp only [Bench.issues, Bool.and_eq_true, beq_iff_eq, decide_eq_true_eq, List.all_eq_true] at h
  obtain ⟨⟨⟨⟨⟨⟨h1, h2⟩, h3⟩, h4⟩, h5⟩, h6⟩, h7⟩ := h
  obtain ⟨f, hf⟩ := Option.isSome_iff_exists.1 h1
  obtain ⟨sh, hs⟩ := Option.isSome_iff_exists.1 h2
  exact ⟨b.st, b.env, f, sh, _, ⟨rfl, hf, hs, h3, h4, h5, h6, h7⟩, rfl, rfl⟩

/-- A bench whose run has `n` instructions, the last of them one that a seal must follow. -/
def benchRun (n : Nat) (m : Bool) : Bench := { run := { start := 0x10000, count := n, lanes := 3, mustSeal := m } }
def add0 : Fields := { blank with d := .v 2, a := .v 4, b := .v 5, ty := .n32 }
theorem witness_WordTraps : ([(benchRun 0 false, Instr.add { add0 with ty := .b32 }), ({ benchRun 0 false with kern := placeKern - BitVec.ofNat 256 (7 * 2 ^ 44) }, .tget { blank with d := .v 2, a := .v 4, ty := .f32, imm := 1 }),
      (benchRun 24 false, .add add0), (benchRun 1 true, .add add0)].all fun p => p.1.issues p.2 &&
      (!p.2.legal || !p.2.kOk p.1.env.K || (!p.2.isSeal && (24 ≤ p.1.run.count || p.1.run.mustSeal)))) = true ∧
    ((benchRun 23 false).issues (.add { add0 with hc := 1 }) && Instr.legal (.add { add0 with hc := 1 }) &&
      Instr.kOk (.add { add0 with hc := 1 }) 0) = true := by decide +kernel

theorem witness_TrapEntry : ((let b : Bench := { kern := placeKern + BitVec.ofNat 256 (0x18000 * 2 ^ 192) }
      b.st.env? placeWav == some b.env && b.wav.run.isSome && b.env.kern.trap != 0 && b.env.wav.handler.isNone) &&
    (({} : Bench).st.env? placeWav == some ({} : Bench).env && ({} : Bench).env.kern.trap == 0 && ({} : Bench).env.task.cause == 0)) = true ∧
    { kern := placeKern + BitVec.ofNat 256 (0x18000 * 2 ^ 192),
      wav := { ({} : Bench).wav with replay := some 1, failing := [(1, 0x20000)] } : Bench }.env.wav.replay = some 1 ∧
    { kern := placeKern + BitVec.ofNat 256 (0x18000 * 2 ^ 192), wav := { ({} : Bench).wav with granted := some 12 },
      blk := { ({} : Bench).blk with slots := [(0, none), (2, none), (3, none)] } : Bench }.env.wav.granted = some 12 := by
  decide +kernel

/-- A bench for a word that passes the checks of R125, with the operand check that its acting lanes fail first. -/
def Bench.stopsAt (b : Bench) (i : Instr) (n : Nat) : Bool :=
  match i.fields?, i.shape with
  | some f, some sh =>
    let r : Run := { b.run with lanes := b.mask }
    let e := b.env
    let ls := e.acting f.guard r
    let held := readers sh ls ++ laneMembers i f sh e r ls
    let full := fun (pol : Bool) => held.all fun l => (reads i f sh e ls l).all fun p => f.fe.getLsbD p.1 != pol ||
      (p.2.2.mains p.2.1).all fun k => ((e.lane l).reg k).full
    b.issues i && i.legal && i.kOk e.K && decide (r.count < 24) && !r.mustSeal && f.hc == 0 && e.wav.replay.isNone &&
    [(readers sh ls ++ laneReads i f sh e ls).any (lacks i f sh e ls), held.any (hollow i f sh e ls), !full false,
      (readers sh ls).any (unfit i f sh e ls), (writeLanes i f e ls).any (pends f sh e)] == (List.range 5).map (· == n)
  | _, _ => false
def benchHas (r : Nat) (x : Reg) : Bench := { lane := { regs := [(r, x)] } }
theorem witness_OperandChecks : (({} : Bench).stopsAt (.add { add0 with a := .o 3 }) 0 &&
    (benchHas 4 { full := false }).stopsAt (.add { add0 with fe := 7 }) 1 && (benchHas 4 { full := false }).stopsAt (.add add0) 2 &&
    (let b := benchHas 4 { tag := Ty.f32.tag }; { b with wav := { b.wav with mode := 1 } : Bench }.stopsAt (.add add0) 3) &&
    (benchHas 2 { full := false }).stopsAt (.add add0) 4) = true := by decide +kernel
/-- A `lane` whose member lane 1 is guarded off: its A is no valid entry, or is empty under either policy. -/
theorem witness_OperandChecks_lane :
    (let i : Instr := .laneFwd { blank with d := .v 2, a := .v 4, b := .lit .one, c := .lit .allones, ty := .n32, guard := ⟨false, 1⟩ }
     let k : Instr := .laneFwd { blank with d := .v 2, a := .v 4, b := .lit .one, c := .lit .allones, ty := .n32, guard := ⟨false, 1⟩, fe := 4 }
     let o : Instr := .laneFwd { blank with d := .v 2, a := .o 3, b := .lit .one, c := .lit .allones, ty := .n32, guard := ⟨false, 1⟩ }
     let empty : Strand := { regs := [(4, { full := false })] }
     (benchHalf [{ lane0 with o := [(3, ⟨7, Ty.n32.tag, []⟩)] }, {}]).stopsAt o 0 && (benchHalf [{}, empty]).stopsAt k 1 &&
     (benchHalf [{}, empty]).stopsAt i 2) = true := by decide +kernel

theorem witness_DecodeEncode : (Instr.wellFormed (.add add0) && (encode (.add add0)).any fun bs => match decode bs with
    | .ok (i, rest) => i == .add add0 && rest.isEmpty
    | .error _ => false) = true := by decide +kernel

theorem witness_OneResultFrame : (({} : Bench).ready (.add add0) && match exec (.add add0) ({} : Bench).st with
    | .next _ => true
    | _ => false) = true := by decide +kernel
/-! Ill-formed terms: one for each check of `wellFormed` (R125, R118, R121-R123, R47-R49, R61), each beside a well-formed
term that differs in that one field. -/

/-- The first is well formed, and none of the others. -/
def onlyFirst (x : Instr) (ys : List Instr) : Bool := x.wellFormed && ys.all fun y => !y.wellFormed

theorem test_illformed_guard : onlyFirst (.add add0) [.add { add0 with guard := ⟨true, 7⟩ }] = true := by decide +kernel
theorem test_illformed_tangentMode : onlyFirst (.add { add0 with ty := .f32, tz := true })
    [.nop { blank with tz := true }, .cmp { blank with a := .v 4, b := .v 5, ty := .f32, tz := true } 0] = true := by decide +kernel
theorem test_illformed_type : onlyFirst (.and { add0 with ty := .b32 }) [.add { add0 with ty := .b32 }, .and { add0 with ty := .f32 },
    .nop { blank with ty := .f32 }] = true := by decide +kernel
theorem test_illformed_modifier : onlyFirst (.add { add0 with ty := .f32, md := 9 })
    [.add { add0 with ty := .f32, md := 5 }, .add { add0 with md := 1 }, .and { add0 with ty := .b32, md := 8 },
     .frnd { blank with d := .v 2, a := .v 4, ty := .f32, md := 4 }] = true := by decide +kernel
theorem test_illformed_immediate : onlyFirst (.cmp { blank with a := .v 4, b := .v 5, ty := .n32, imm := 7 } 0)
    [.cmp { blank with a := .v 4, b := .v 5, ty := .n32, imm := 8 } 0, .add { add0 with imm := 1 },
     .getsr { blank with d := .v 2, imm := 0x40 }] = true := by decide +kernel
theorem test_illformed_condition : onlyFirst (.cmp { blank with a := .v 4, b := .v 5, ty := .f32 } 6)
    [.cmp { blank with a := .v 4, b := .v 5, ty := .n32 } 6] = true := by decide +kernel
theorem test_illformed_unusedName : onlyFirst (.mov { blank with d := .v 2, a := .v 4, ty := .n32 })
    [.mov { blank with d := .v 2, a := .v 4, b := .v 5, ty := .n32 }, .st { blank with d := .v 2, a := .v 4, b := .v 5, ty := .n32 },
     .movi { blank with d := .v 2, a := .v 4, ty := .n32 }] = true := by decide +kernel
theorem test_illformed_destination : onlyFirst (.ld { blank with d := .v 2, a := .v 4, ty := .n32 })
    [.ld { blank with d := .o 2, a := .v 4, ty := .n32 }, .ld { blank with d := .w 2, a := .v 4, ty := .n32 }, .add { add0 with d := .q 0 },
     .add { add0 with d := .lit .one }] = true := by decide +kernel
theorem test_illformed_pair : onlyFirst (.add { add0 with ty := .n64, b := .v 6 })
    [.add { add0 with ty := .n64, b := .v 5 }, .add { add0 with ty := .n64, b := .v 6, d := .v 3 }, .add { add0 with ty := .n64, b := .w 5 },
     .ld { blank with d := .v 2, a := .v 5, ty := .n32 }] = true := by decide +kernel
theorem test_illformed_literal : onlyFirst (.add { add0 with ty := .f32, b := .lit .half }) [.add { add0 with b := .lit .half }] = true := by
  decide +kernel
theorem test_illformed_group : onlyFirst (.unpk4 { blank with d := .v 444, a := .v 4, ty := .s8x4 })
    [.unpk4 { blank with d := .v 445, a := .v 4, ty := .s8x4 }, .unpk4 { blank with d := .o 2, a := .v 4, ty := .s8x4 },
     .pack4 { blank with d := .v 2, a := .v 445, ty := .s8x4 }] = true := by decide +kernel
theorem test_illformed_image : onlyFirst (.rsvinit { blank with d := .v 200 })
    [.rsvinit { blank with d := .v 201 }, .rsvinit blank, .dadd { blank with d := .v 64, a := .v 80, b := .v 100 }] = true := by decide +kernel
theorem test_illformed_form : onlyFirst (.movi { blank with d := .v 2, ty := .n32, imm32 := 5 })
    [.movi { blank with d := .v 2, ty := .n32, imm := 5 }, .add { add0 with imm32 := 5 }] = true := by decide +kernel
theorem test_illformed_deltas : onlyFirst (.tev { blank with d := .v 4, a := .v 3, b := .w 8, ty := .f32 })
    [.tev { blank with d := .v 4, a := .v 3, b := .v 8, ty := .f32 }] = true := by decide +kernel

/-! One step of an instruction. Expected values are the spec's, at the place named. -/

/-- Register `n` of lane `l` after the instruction. -/
def Bench.out (b : Bench) (i : Instr) (l n : Nat) : Option Nat :=
  match exec i b.st with
  | .next t => (t.wav? placeWav).map fun v => ((v.lane l).reg n).bits.toNat
  | _ => none
/-- Predicate `n` of the lanes after the instruction. -/
def Bench.preds (b : Bench) (i : Instr) (n : Nat) : Option (List Bool) :=
  match exec i b.st with
  | .next t => (t.wav? placeWav).map fun v => v.lanes.map (·.pred n)
  | _ => none
/-- A bench of eight lanes, whose register `v4` holds the given words; `p` gives the predicates of a lane. -/
def bench8 (xs : List Nat) (p : Nat → BitVec 7 := fun _ => 0) : Bench :=
  { wav := { width := 8, run := some { start := 0x10000, count := 0, lanes := 0xFF },
             lanes := xs.zipIdx.map fun (x, l) => { strand [(4, x)] with pc := 0x10000, live := true, preds := p l } },
    blk := { task := 1, idx := 0, home := 0, at' := 0, width := 8 }, mask := 0xFF }
def d2 (a b : Nat) (h : a < 448 := by decide) (h' : b < 448 := by decide) (t : Ty := .f32) : Fields :=
  { blank with d := .v 2, a := .v ⟨a, h⟩, b := .v ⟨b, h'⟩, ty := t }

-- mul, mul24, mulhi: the entry's worked results
theorem test_mulhi_signed : (bench [(4, 0x80000000)]).out (.mulhi (d2 4 4 (t := .s32))) 0 2 = some 0x40000000 := by decide +kernel
theorem test_mulhi_unsigned : (bench [(4, 0xFFFFFFFF)]).out (.mulhi (d2 4 4 (t := .n32))) 0 2 = some 0xFFFFFFFE := by decide +kernel
theorem test_mul24 : (bench [(4, 0x00800000), (6, 2)]).out (.mul24 (d2 4 6 (t := .s32))) 0 2 = some 0xFF000000 := by decide +kernel
theorem test_mul_sat : (bench [(4, 0x40000000), (6, 2)]).out (.mul { d2 4 6 (t := .s32) with md := 8 }) 0 2 = some 0x7FFFFFFF := by decide +kernel
-- addc: the 128-bit sum
theorem test_addc_low : (bench [(4, 0xFFFFFFFF), (5, 0xFFFFFFFF), (8, 1)]).preds (.addc { d2 4 8 (t := .n64) with imm := 1 }) 1 = some [true, true] := by
  decide +kernel
theorem test_addc_high : (let b := bench [] fun v => { v with lanes := v.lanes.map fun x => { x with preds := 2 } }
    b.out (.addc { d2 6 10 (t := .n64) with imm := 0x4F }) 0 2) = some 1 := by decide +kernel
-- bfe, bfi
theorem test_bfe : (bench [(4, 0xF00), (6, 0x408)]).out (.bfe (d2 4 6 (t := .s32))) 0 2 = some 0xFFFFFFFF := by decide +kernel
theorem test_bfi : (bench [(4, 5), (6, 0xFFFFFFFF), (8, 0x304)]).out (.bfi { d2 4 6 (t := .b32) with c := .v 8 }) 0 2 = some 0xFFFFFFDF := by decide +kernel
-- shl, shr, sra: the shift examples
theorem test_shr_far : (bench [(4, 0x80000000), (6, 40)]).out (.shr (d2 4 6 (t := .n32))) 0 2 = some 0 := by decide +kernel
theorem test_sra_far : (bench [(4, 0x80000000), (6, 40)]).out (.sra (d2 4 6 (t := .s32))) 0 2 = some 0xFFFFFFFF := by decide +kernel
theorem test_shl_packed : (bench [(4, 0x00018001), (6, 1)]).out (.shl (d2 4 6 (t := .s16x2))) 0 2 = some 0x00020002 := by decide +kernel
theorem test_sra_packed : (bench [(4, 0x80000004), (6, 2)]).out (.sra (d2 4 6 (t := .s16x2))) 0 2 = some 0xE0000001 := by decide +kernel
-- rcp, sqrt
theorem test_rcp : (bench [(4, 0x40400000)]).out (.rcp { d2 4 4 with b := .zero }) 0 2 = some 0x3EAAAAAB := by decide +kernel
theorem test_rcp_rz : (bench [(4, 0x40400000)]).out (.rcp { d2 4 4 with b := .zero, md := 1 }) 0 2 = some 0x3EAAAAAA := by decide +kernel
theorem test_sqrt : (bench [(4, 0x40000000)]).out (.sqrt { d2 4 4 with b := .zero }) 0 2 = some 0x3FB504F3 := by decide +kernel
/-- A lane with one register that has tangents. -/
def tanLane (n : Nat) (bits : W32) (tan : List W32) : Bench := { lane := { regs := [(n, { bits := bits, tag := Ty.f32.tag, tan := tan })] } }
def Bench.outTan (b : Bench) (i : Instr) (n : Nat) : Option (List W32) :=
  match exec i b.st with
  | .next t => (t.wav? placeWav).map fun v => ((v.lane 0).reg n).tan
  | _ => none
-- R78's formula RN(1 / RN(2·0x3FB504F3)), by hand 2⁻²·1.41421…; the entry prints 0x3F35_04F3 beside it (log 17)
theorem test_sqrt_tangent : (tanLane 4 0x40000000 [0x3F800000]).outTan (.sqrt { d2 4 4 with b := .zero }) 2 = some [0x3EB504F3] := by decide +kernel
-- tev: the example after R89
theorem test_tev : (let b := tanLane 7 0x41100000 [0x40400000, 0, 0x41400000]
    { b with wav := { b.wav with w := [(10, ⟨0x3C23D70A, Ty.f32.tag⟩)] } : Bench }.out
      (.tev { blank with d := .v 2, a := .v 7, b := .w 8, ty := .f32 }) 0 2) = some 0x4111EB85 := by decide +kernel
-- dot2
theorem test_dot2 : (bench [(4, 0xC0003FC0), (6, 0x3E804080), (8, 0x3F800000)]).out (.dot2 { d2 4 6 (t := .bf16) with c := .v 8 }) 0 2 = some 0x40D00000 := by
  decide +kernel
-- add: stochastic rounding (R107)
theorem test_add_sr : (let b := bench8 [0x3F800000, 0x40000000, 0, 0, 0, 0, 0, 0]
    let v := { b.wav with lanes := b.wav.lanes.zipIdx.map fun (x, l) =>
      { x with regs := Sparse.put {} x.regs 6 { bits := if l = 0 then 0x30800000 else if l = 1 then 0x40000000 else 0 } } }
    { b with wav := v : Bench }.out (.add { d2 4 6 with md := 4 }) 0 2) = some 0x3F800001 := by decide +kernel
-- pack4, unpk4
theorem test_pack4_e4m3 : (bench [(4, 0x3F800000), (5, 0xC0200000), (6, 0x43FA0000), (7, 0x3E99999A)]).out
    (.pack4 { blank with d := .v 9, a := .v 4, ty := .e4m3 }) 0 9 = some 0x2A7EC238 := by decide +kernel
theorem test_pack4_i4o : (bench [(9, 0xA583), (12, 0xFFFFFFFF), (13, 6), (14, 8), (15, 7)]).out
    (.pack4 { blank with d := .v 9, a := .v 12, b := .v 9, ty := .i4o, imm := 1 }) 0 9 = some 0x786FA583 := by decide +kernel
theorem test_unpk4_e4m3 : ([4, 5, 6, 7].map fun n => (bench [(9, 0x2A7EC238)]).out (.unpk4 { blank with d := .v 4, a := .v 9, ty := .e4m3 }) 0 n) =
    [some 0x3F800000, some 0xC0200000, some 0x43E00000, some 0x3EA00000] := by decide +kernel
theorem test_unpk4_i4o : ([4, 5, 6, 7].map fun n => (bench [(9, 0x786FA583)]).out (.unpk4 { blank with d := .v 4, a := .v 9, ty := .i4o }) 0 n) =
    [some 3, some 0xFFFFFFF8, some 5, some 0xFFFFFFFA] := by decide +kernel
-- cvtblk: the two examples after R291
theorem test_cvtblk_enc : ([40, 41, 48].map fun n => (bench [(4, 0x44600000), (5, 0x3F800000)]).out
    (.cvtblkEnc { blank with d := .v 40, a := .v 4, ty := .e4m3 }) 0 n) = [some 0x307E, some 0, some 0x40] := by decide +kernel
theorem test_cvtblk_dec : ([8, 9, 10, 11, 12, 13, 14, 15].map fun n => (bench [(40, 0x786FA583), (44, 0x30)]).out
    (.cvtblkDec { blank with d := .v 8, a := .v 40, b := .v 44, ty := .i4o }) 0 n) =
    [some 0x3FC00000, some 0x41200000, some 0, some 0, some 0xBF000000, some 0x40400000, some 0, some 0x40600000] := by decide +kernel
-- lred: the example of the entry
theorem test_lred : ((List.range 8).all fun l => (bench8 [0x4B800000, 0x3F800000, 0x3F800000, 0, 0, 0, 0, 0]).out
    (.lred { d2 4 4 with b := .zero } 0) l 2 == some 0x4B800000) = true := by decide +kernel
theorem test_lred_ru : (bench8 [0x4B800000, 0x3F800000, 0x3F800000, 0, 0, 0, 0, 0]).out
    (.lred { d2 4 4 with b := .zero, md := 2 } 0) 5 2 = some 0x4B800002 := by decide +kernel
-- match and vote, with lane 6 guarded off by p1
def keys : Bench := bench8 [0x3F800000, 0, 0x7FC00000, 0x3F800000, 0x80000000, 0x7FC00000, 0x40000000, 0x3F800000] fun l => if l = 6 then 0 else 2
theorem test_match : ((List.range 8).map fun l => keys.out (.matchKey { blank with d := .v 10, a := .v 4, ty := .f32, imm := 2, guard := ⟨false, 1⟩ }) l 10) =
    [0x89, 0x12, 0x04, 0x89, 0x12, 0x20, 0, 0x89].map some := by decide +kernel
theorem test_match_lowest : keys.preds (.matchKey { blank with d := .v 10, a := .v 4, ty := .f32, imm := 2, guard := ⟨false, 1⟩ }) 2 =
    some [true, true, true, false, false, true, false, false] := by decide +kernel
def voters : Bench := bench8 [0, 0, 0, 0, 0, 0, 0, 0] fun l => (if l = 6 then 0 else 2) ||| if [1, 3, 4, 6].contains l then 8 else 0
theorem test_vote_ballot : (voters.out (.voteBallot { blank with d := .v 10, imm := 3, guard := ⟨false, 1⟩ }) 7 10 == some 0x1A &&
    voters.out (.voteBallot { blank with d := .v 10, imm := 3, guard := ⟨false, 1⟩ }) 6 10 == some 0) = true := by decide +kernel
theorem test_vote_any : voters.preds (.voteAny { blank with imm := 0x23, guard := ⟨false, 1⟩ }) 2 =
    some [true, true, true, true, true, true, false, true] := by decide +kernel
theorem test_vote_all : voters.preds (.voteAll { blank with imm := 0x23, guard := ⟨false, 1⟩ }) 2 = some (List.replicate 8 false) := by decide +kernel

-- reservoirs: the stream after R226
def rsvAt (n : Nat) (ws : List Nat) : List (Nat × Reg) := ws.zipIdx.map fun (w, k) => (n + k, { bits := BitVec.ofNat 32 w, tag := Tag.rsv })
def rsvBench (d : List Nat) (xs : List (Nat × Nat)) : Bench :=
  { lane := { regs := rsvAt 200 d ++ xs.map fun p => (p.1, { bits := BitVec.ofNat 32 p.2 }) } }
theorem test_rsvupd : ([200, 204, 205, 206, 207].map fun n =>
    { lane := { regs := [(12, { bits := 9 }), (16, { bits := 0x40400000 }), (17, { bits := 0x3FC00000 })] ++ rsvAt 200 [0, 0, 0, 0, 0, 0, 1, 0] } : Bench }.out
      (.rsvupd { blank with d := .v 200, a := .v 12, b := .v 16, c := .v 17 }) 0 n) =
    [some 9, some 0x3FC00000, some 0x40400000, some 2, some 0] := by decide +kernel
theorem test_rsvfin_second : (rsvBench [9, 0, 0, 0, 0x3FC00000, 0x40800000, 3, 0] []).out (.rsvfin { blank with d := .v 200, a := .v 200 }) 0 207 =
    some 0x3F638E39 := by decide +kernel
theorem test_rsvfin_third : (rsvBench [9, 0, 0, 0, 0x3F000000, 0x40800000, 3, 0] []).out (.rsvfin { blank with d := .v 200, a := .v 200 }) 0 207 =
    some 0x402AAAAB := by decide +kernel
-- the deciding draws of the worked program: lane 2's second update
theorem test_rsv_draw : rsvDraw 0 2 2 0 = 0x7955F61B := by decide +kernel
theorem test_rsv_draw_merge : rsvDraw 0 2 1 0 = 0xF27C58FE := by decide +kernel

-- distributions: the example after R233
def disAt (n : Nat) (ws : List Nat) : List (Nat × Reg) := ws.zipIdx.map fun (w, k) => (n + k, { bits := BitVec.ofNat 32 w, tag := Tag.dis })
def sumImage : List Nat := [0x00030008, 0, 0x3F800000, 0x40000000, 0x412AAAAB, 0x41400000, 0x41A00000, 0x41A80000, 0x41B00000,
  0x3E000000, 0x3E800000, 0x3E000000, 0x3E400000, 0x3D800000, 0x3D800000, 0x3E000000]
def addendRegs : List (Nat × Reg) :=
  disAt 80 [0x00010003, 0, 0x3F800000, 0x40000000, 0, 0, 0, 0, 0, 0x3E800000, 0x3F000000, 0, 0, 0, 0, 0] ++
  disAt 96 [0x00020003, 0, 0x41200000, 0x41A00000, 0, 0, 0, 0, 0, 0x3F000000, 0x3E800000, 0, 0, 0, 0, 0]
def addends : Bench := { lane := { regs := addendRegs } }
theorem test_dadd : ((List.range 16).map fun k => addends.out (.dadd { blank with d := .v 64, a := .v 80, b := .v 96 }) 0 (64 + k)) =
    sumImage.map some := by decide +kernel
theorem test_dmom_mean : ({ lane := { regs := disAt 64 sumImage } } : Bench).out (.dmomMean { blank with d := .v 2, a := .v 64 }) 0 2 = some 0x41080000 := by
  decide +kernel
theorem test_dqtl : ({ lane := { regs := (6, { bits := 0x3F000000 }) :: disAt 64 sumImage } } : Bench).out (.dqtl { blank with d := .v 2, a := .v 64, b := .v 6 }) 0 2 =
    some 0x40000000 := by decide +kernel

-- traps and wrong addresses: R356, R146
/-- Cause, lanes and the address of lane 0 after a trap. -/
def Bench.trapped (b : Bench) (i : Instr) : Option (Nat × W64 × W64) :=
  match exec i { b.st with tasks := [(1, { b.task with kern := b.kern + BitVec.ofNat 256 (0x18000 * 2 ^ 192) })] } with
  | .next t => (t.wav? placeWav).map fun v => (v.cause, v.fmask, (v.lane 0).faddr)
  | _ => none
theorem test_trap : ({} : Bench).trapped (.trap { blank with imm := 0x1234 }) = some (0x11, 3, 0x1234) := by decide +kernel
theorem test_ld_align : (benchAt 0x20002 0).trapped (.ld { blank with d := .v 2, a := .v 8, ty := .n32 }) = some (0x07, 1, 0x20002) := by decide +kernel
theorem test_ld_foreign : (benchAt 0 0xFD000001).trapped (.ld { blank with d := .v 2, a := .v 8, ty := .n32 }) = some (0x09, 1, 0xFD00000100000000) := by
  decide +kernel
-- R151, R168: lane 1 meets an empty register while the word is executed again for both lanes, which `ret.x` then performs
theorem test_trap_in_replay : (let empty : Strand := { regs := [(4, { full := false })] }
    let b := benchHalf [{}, empty]
    let b := { b with kern := placeKern + BitVec.ofNat 256 (0x18000 * 2 ^ 192), wav := { b.wav with replay := some 3 } : Bench }
    match exec (.add { blank with d := .v 2, a := .v 4, b := .v 5, ty := .n32, fe := 7 }) b.st with
    | .next t => ((t.wav? placeWav).bind (·.handler)).map fun h => (h.marked, h.held)
    | _ => none) = some (some 2, 1) := by decide +kernel
-- ELF, R136: a weak definition gives way to a global one
theorem test_weak_export : ([false, true].map fun w => Assoc.get? (addExport [([7], 0x1000, false)] ⟨[7], .absolute 0x2000, true, w⟩ 0x2000) [7]) =
    [some (0x2000, false), some (0x1000, false)] := by decide +kernel
theorem test_setsr_perm : ({} : Bench).trapped (.setsrSeed { blank with a := .v 4, imm := 0 }) = some (0x0B, 3, 0) := by decide +kernel

-- stores and atomics: little-endian bytes (R141)
def Bench.memAt (b : Bench) (i : Instr) (a : Nat) : Option Byte :=
  match exec i b.st with
  | .next t => some (Sparse.get 0 t.mem a)
  | _ => none
theorem test_st_bytes : ([0, 3, 4].map fun k => (benchAt 0x20000 0 [(2, 0xAABBCCDD)]).memAt (.st { blank with a := .v 8, b := .v 2, ty := .n32 }) (0x20000 + k)) =
    [some 0xDD, some 0xAA, some 0] := by decide +kernel
theorem test_atom_add : (benchAt 0x20000 0 [(4, 1)]).memAt (.atomAdd { blank with d := .v 2, a := .v 8, b := .v 4, ty := .n32 }) 0x20000 = some 1 := by
  decide +kernel
end Sys2Proof.Tests
end

section
/-! The device's events on links, boot, clocks, power and memory: O47 to O51. -/

namespace Sys2Proof.Device

open Sys2Proof Sys2Proof.Machine Sys2Proof.Claim

/-! Reset. -/

/-- Settles O51: the reset state is a closed term, and each of its lists is empty. -/
theorem resetState : Obligations.ResetState := by
  refine ⟨⟨Memory.wf_reset, ?_, ?_, ?_⟩, rfl, rfl, rfl, rfl, rfl, rfl, rfl, rfl, rfl, rfl, rfl, rfl, fun c => rfl⟩ <;>
    exact fun p hp => absurd hp List.not_mem_nil

/-! Boot (R10). -/

/-- The other boot source. -/
theorem bootFailOnce_src (s : State) (why : BootFail) :
    (s.bootFailOnce why).boot.src = match s.boot.src with | .port => .fabric | .fabric => .port := by
  unfold State.bootFailOnce
  dsimp only [State.report]
  rw [apply_ite Boot.src]
  exact ite_self _

@[simp] theorem bootFailOnce_reports (s : State) (why : BootFail) :
    (s.bootFailOnce why).reports = s.reports ++ [.boot s.boot.src (some why)] := rfl

@[simp] theorem bootFailOnce_otp (s : State) (why : BootFail) : (s.bootFailOnce why).otp = s.otp := rfl

@[simp] theorem bootFailOnce_image (s : State) (why : BootFail) : (s.bootFailOnce why).boot.image = s.boot.image := by
  unfold State.bootFailOnce
  dsimp only [State.report]
  split <;> rfl

@[simp] theorem bootFailOnce_held (s : State) (why : BootFail) : (s.bootFailOnce why).boot.held = s.boot.held := by
  unfold State.bootFailOnce
  dsimp only [State.report]
  split <;> rfl

@[simp] theorem bootFailOnce_failed (s : State) (why : BootFail) :
    (s.bootFailOnce why).boot.failed = s.boot.failed ++ [s.boot.src] := by
  unfold State.bootFailOnce
  dsimp only [State.report]
  split <;> rfl

/-- A round is full once both sources stand among those that failed. -/
theorem roundFull_iff (b : Boot) :
    ((b.failed ++ [b.src]).contains .port && (b.failed ++ [b.src]).contains .fabric) = true ↔
      ∀ x, x = b.src ∨ x ∈ b.failed := by
  simp only [List.contains_eq_mem, List.mem_append, List.mem_singleton, Bool.and_eq_true, decide_eq_true_eq]
  constructor
  · rintro ⟨hp, hf⟩ (_ | _)
    · exact hp.symm
    · exact hf.symm
  · exact fun h => ⟨(h _).symm, (h _).symm⟩

/-- After a full round the ROM waits 1 s at first, then twice as long each time, up to 60 s. -/
theorem bootFailOnce_full (s : State) (why : BootFail) (h : ∀ x, x = s.boot.src ∨ x ∈ s.boot.failed) :
    (s.bootFailOnce why).boot.waiting = true ∧
      (s.bootFailOnce why).boot.wait = if s.boot.wait = 0 then 1 else min (2 * s.boot.wait) 60 := by
  unfold State.bootFailOnce
  dsimp only [State.report]
  rw [if_pos ((roundFull_iff s.boot).2 h)]
  exact ⟨rfl, by simp only [beq_iff_eq]⟩

theorem bootFailOnce_notFull (s : State) (why : BootFail) (h : ¬ ∀ x, x = s.boot.src ∨ x ∈ s.boot.failed) :
    (s.bootFailOnce why).boot.waiting = s.boot.waiting ∧ (s.bootFailOnce why).boot.wait = s.boot.wait := by
  unfold State.bootFailOnce
  dsimp only [State.report]
  rw [if_neg (mt (roundFull_iff s.boot).1 h)]
  exact ⟨rfl, rfl⟩

/-- With a fabric target, or when the port is next, one attempt fails. -/
theorem bootFail_once {s : State} (why : BootFail) (h : s.otp.fabric = true) : s.bootFail why = s.bootFailOnce why := by
  simp [State.bootFail, h]

/-- Without a fabric target, an attempt that fails at the port makes the fabric's fail at once. -/
theorem bootFail_twice {s : State} (why : BootFail) (hf : s.otp.fabric = false) (hp : s.boot.src = .port) :
    s.bootFail why = (s.bootFailOnce why).bootFailOnce .noTarget := by
  simp [State.bootFail, hf, bootFailOnce_src, hp]

@[simp] theorem bootFail_held (s : State) (why : BootFail) : (s.bootFail why).boot.held = s.boot.held := by
  unfold State.bootFail; dsimp only; split <;> simp

@[simp] theorem bootFail_image (s : State) (why : BootFail) : (s.bootFail why).boot.image = s.boot.image := by
  unfold State.bootFail; dsimp only; split <;> simp

/-- Each event of a failed attempt fails it with its reason. -/
theorem exec_bootFail {i : Instr} {why : BootFail} {s : State} (hi : s.boot.image = none) (hw : s.boot.waiting = false)
    (hs : ∀ img, i = .imageFetchComplete img → s.boot.src = .fabric → s.floeb ≠ [])
    (h : (∃ img, i = .imageFetchComplete img ∧ img.sigOk = false ∧ why = .signature) ∨
     (∃ img, i = .imageFetchComplete img ∧ img.sigOk = true ∧ img.version < s.otp.minVer ∧ why = .version) ∨
     (∃ img, i = .imageFetchComplete img ∧ img.sigOk = true ∧ s.otp.minVer ≤ img.version ∧ img.forModule ≠ s.otp.isModule ∧ why = .form) ∨
     (i = .dhcpTimeout ∧ s.boot.src = .port ∧ why = .noOffer) ∨ (i = .sourceTimeout ∧ why = .noAnswer) ∨ (i = .transferBreak ∧ why = .broken)) :
    exec i s = .next (s.bootFail why) := by
  have hf : s.boot.fetching = true := by simp [Boot.fetching, hi, hw]
  have hsrc : ∀ img, i = .imageFetchComplete img → (s.boot.src == .fabric && s.floeb.isEmpty) = false := by
    intro img hi
    have := hs img hi
    cases hb : s.boot.src <;> simp_all
  rcases h with ⟨img, rfl, hsig, rfl⟩ | ⟨img, rfl, hsig, hv, rfl⟩ | ⟨img, rfl, hsig, hv, hm, rfl⟩ |
    ⟨rfl, hp, rfl⟩ | ⟨rfl, rfl⟩ | ⟨rfl, rfl⟩
  · change execImageFetchComplete img s = _
    simp [execImageFetchComplete, hf, hsrc, hsig]
  · change execImageFetchComplete img s = _
    simp [execImageFetchComplete, hf, hsrc, hsig, hv]
  · change execImageFetchComplete img s = _
    simp [execImageFetchComplete, hf, hsrc, hsig, Nat.not_lt.2 hv, hm]
  · change execDhcpTimeout s = _
    simp [execDhcpTimeout, hf, hp]
  · change execSourceTimeout s = _
    simp [execSourceTimeout, hf]
  · change execTransferBreak s = _
    simp [execTransferBreak, hf]

/-- A good image ends the boot. -/
theorem exec_imageTaken {s : State} {img : BootImage} (hi : s.boot.image = none) (hw : s.boot.waiting = false)
    (hs : s.boot.src = .fabric → s.floeb ≠ []) (hsig : img.sigOk = true) (hv : s.otp.minVer ≤ img.version)
    (hm : img.forModule = s.otp.isModule) : exec (.imageFetchComplete img) s = .next { s with
      boot := { s.boot with image := some (img.version, img.bytes), held := false }, reports := s.reports ++ [.boot s.boot.src none] } := by
  have hf : s.boot.fetching = true := by simp [Boot.fetching, hi, hw]
  have hsrc : (s.boot.src == .fabric && s.floeb.isEmpty) = false := by cases hb : s.boot.src <;> simp_all
  change execImageFetchComplete img s = _
  simp [execImageFetchComplete, hf, hsrc, hsig, Nat.not_lt.2 hv, hm, State.report]

/-- Settles O50: each failed attempt is one `bootFail`, which the lemmas above take apart. -/
theorem bootEvents : Obligations.BootEvents := by
  refine ⟨fun s => rfl, fun s img hi hw hs hsig hv hm => exec_imageTaken hi hw hs hsig hv hm, ?_, ?_⟩
  · intro i why s hi hw hs h
    refine ⟨_, exec_bootFail hi hw hs h, bootFail_held s why, by simpa using hi, fun hf => ?_, fun hf hp hnf => ?_⟩
    · rw [bootFail_once why hf]
      refine ⟨rfl, bootFailOnce_src s why, fun all hall => ⟨fun ha => bootFailOnce_full s why (hall ▸ ha), fun ha => ?_⟩⟩
      have := bootFailOnce_notFull s why (hall ▸ ha)
      exact ⟨this.1.trans hw, this.2⟩
    · have hsrc : (s.bootFailOnce why).boot.src = .fabric := by rw [bootFailOnce_src, hp]
      have hone : ¬ ∀ x, x = s.boot.src ∨ x ∈ s.boot.failed := fun ha => by
        rcases ha .fabric with h | h
        · rw [hp] at h; cases h
        · exact hnf h
      have hboth : ∀ x, x = (s.bootFailOnce why).boot.src ∨ x ∈ (s.bootFailOnce why).boot.failed := by
        intro x
        rw [hsrc, bootFailOnce_failed, hp]
        cases x <;> simp
      have hfull := bootFailOnce_full (s.bootFailOnce why) .noTarget hboth
      rw [bootFail_twice why hf hp]
      refine ⟨?_, ?_, hfull.1, ?_⟩
      · simp [hsrc, hp]
      · rw [bootFailOnce_src, hsrc]
      · rw [hfull.2, (bootFailOnce_notFull s why hone).2]
  · intro s hw
    change execBootRetryWaitExpiry s = _
    simp [execBootRetryWaitExpiry, hw]

/-! Requests that end an idle state (R261). -/

/-- A request changes at most whether the exit from an idle state has started. -/
theorem rouse_eq (s : State) : s.rouse = { s with exiting := s.rouse.exiting } := by
  unfold State.rouse; split <;> rfl

theorem rouse_exiting {s : State} (h : s.idle ≠ .active) : s.rouse.exiting = true := by simp [State.rouse, h]

/-! Links (R6 to R8). -/

/-- The widest common width that works is in a descending list the first that passes. -/
theorem linkWidth_widest {ws : List Nat} {good : Nat} (h : ∃ w ∈ ws, w ∈ [16, 8, 4, 2, 1] ∧ w ≤ good) :
    ∃ w, linkWidth ws good = some w ∧ w ∈ ws ∧ w ∈ [16, 8, 4, 2, 1] ∧ w ≤ good ∧
      ∀ x ∈ ws, x ∈ [16, 8, 4, 2, 1] → x ≤ good → x ≤ w := by
  obtain ⟨u, hu, hm, hg⟩ := h
  unfold linkWidth
  cases hf : [16, 8, 4, 2, 1].find? fun w => ws.contains w && w ≤ good with
  | none =>
    have := List.find?_eq_none.1 hf u hm
    simp [hu, hg] at this
  | some w =>
    obtain ⟨hp, as, bs, hl, hbefore⟩ := List.find?_eq_some_iff_append.1 hf
    simp only [List.contains_eq_mem, Bool.and_eq_true, decide_eq_true_eq] at hp
    refine ⟨w, rfl, hp.1, hl ▸ by simp, hp.2, fun x hx hxm hxg => ?_⟩
    have sorted : (as ++ w :: bs).Pairwise (· > ·) := hl ▸ by decide
    rw [hl] at hxm
    rcases List.mem_append.1 hxm with h | h
    · have := hbefore x h
      simp [hx, hxg] at this
    · rcases List.mem_cons.1 h with rfl | h
      · exact le_rfl
      · exact Nat.le_of_lt (List.rel_of_pairwise_cons (List.pairwise_append.1 sorted).2.1 h)

/-- Where no offered width works, a link with a good lane comes up at x1, and one without stays down. -/
theorem linkWidth_none {ws : List Nat} {good : Nat} (h : ∀ w ∈ ws, w ∈ [16, 8, 4, 2, 1] → good < w) :
    linkWidth ws good = if 1 ≤ good then some 1 else none := by
  have : ([16, 8, 4, 2, 1].find? fun w => ws.contains w && w ≤ good) = none := by
    rw [List.find?_eq_none]
    intro w hw
    simp only [List.contains_eq_mem, Bool.and_eq_true, decide_eq_true_eq, not_and]
    exact fun hm => Nat.not_le.2 (h w hm hw)
  simp only [linkWidth, this]

/-- No width works without a good lane. -/
theorem linkWidth_zero (ws : List Nat) : linkWidth ws 0 = none := by
  rw [linkWidth_none fun w _ hw => ?_]
  · rfl
  · simp only [List.mem_cons, List.not_mem_nil, or_false] at hw
    omega

theorem exec_hostLinkTrain_up {s : State} {g c w : Nat} {ws : List Nat} {good : Nat} (hg : 5 ≤ g) (h : linkWidth ws good = some w) :
    exec (.hostLinkTrain g c ws good) s =
      .next { s with host := { up := true, gen := min 7 g, width := w, cxl := if c < 2 then 0 else min 3 c } } := by
  change execHostLinkTrain g c ws good s = _
  simp [execHostLinkTrain, Nat.not_lt.2 hg, h, Config.pcieGen]

/-- Settles O49: each event of a link with the width that `linkWidth` gives it. -/
theorem linkEvents : Obligations.LinkEvents := by
  refine ⟨?_, ?_, ?_, ?_, ?_, ?_⟩
  · intro s g c ws good hg h
    obtain ⟨w, hw, hrest⟩ := linkWidth_widest h
    exact ⟨w, exec_hostLinkTrain_up hg hw, hrest⟩
  · intro s g c ws good hg h hgood
    exact exec_hostLinkTrain_up hg (by rw [linkWidth_none h, if_pos hgood])
  · intro s g c ws hg
    change execHostLinkTrain g c ws 0 s = _
    simp [execHostLinkTrain, Nat.not_lt.2 hg, linkWidth_zero, State.report]
  · intro s p g hp hg
    refine ⟨{ s.rouse with floeb := Assoc.put s.floeb p g }, ?_, by rw [rouse_eq]⟩
    change execFloebNegotiate p g s = _
    simp [execFloebNegotiate, hp, hg]
  · intro s p g hp
    refine ⟨{ s.rouse with resent := s.resent + 1 }, ?_, by rw [rouse_eq]⟩
    change execFlitResend p s = _
    simp [execFlitResend, hp]
  · intro s g w n t hm hg hw ht hb
    change execCxlRootPortTrain ⟨g, n⟩ w s = _
    have hfull : Link.full3 { up := true, gen := Config.pcieGen, width := w, cxl := g } = decide (g = 3) := by
      rcases hg with rfl | rfl <;> rfl
    have hall : (s.jobs.all fun j => j.2.pages.all fun p => t.backs p.2) = true := by
      simpa only [List.all_eq_true] using hb
    rw [ht] at hall
    have hw' : ([16, 8, 4, 2, 1] : List Nat).contains w = true := by simpa using hw
    have hv : (g == 2 || g == 3) = true := by simpa using hg
    simp only [execCxlRootPortTrain, hfull, hm, hv, hw', Bool.not_false, Bool.true_and]
    rw [ht]
    exact if_pos hall

end Sys2Proof.Device
end

section
/-! Clocks and power (R250, R256 to R261): O47. -/

namespace Sys2Proof.Device

open Sys2Proof Sys2Proof.Machine Sys2Proof.Claim

/-- The least request of wavelets is one of theirs, and no other is less. -/
theorem foldl_minReq (vs : List Wavelet) (r : BitVec 2) (k : BitVec 2)
    (h : k = vs.foldl (fun m x => if x.req.toNat < m.toNat then x.req else m) r) :
    (k = r ∨ ∃ x ∈ vs, x.req = k) ∧ k.toNat ≤ r.toNat ∧ ∀ x ∈ vs, k.toNat ≤ x.req.toNat := by
  induction vs generalizing r with
  | nil => exact ⟨.inl h, by rw [h]; exact le_rfl, by simp⟩
  | cons v vs ih =>
    rw [List.foldl_cons] at h
    obtain ⟨hmem, hle, hall⟩ := ih _ h
    split at hmem
    · rename_i hlt
      rw [if_pos hlt] at hle
      refine ⟨.inr ?_, by omega, List.forall_mem_cons.2 ⟨hle, hall⟩⟩
      rcases hmem with hk | ⟨x, hx, hk⟩
      · exact ⟨v, List.mem_cons_self, hk.symm⟩
      · exact ⟨x, List.mem_cons_of_mem _ hx, hk⟩
    · rename_i hlt
      rw [if_neg hlt] at hle
      refine ⟨?_, hle, List.forall_mem_cons.2 ⟨by omega, hall⟩⟩
      exact hmem.imp id fun ⟨x, hx, hk⟩ => ⟨x, List.mem_cons_of_mem _ hx, hk⟩

/-- A slice with wavelets takes the fastest ratio that they ask for. -/
theorem exec_pwrRatioEffect {s : State} {c sl : Nat} {v : Wavelet} {vs : List Wavelet} (h : s.resident c sl = v :: vs) :
    ∃ r, exec (.pwrRatioEffect c sl) s = .next (s.modCluster c fun k => { k with eff := listSet k.eff sl r }) ∧
      (∃ x ∈ v :: vs, x.req = r) ∧ ∀ x ∈ v :: vs, r.toNat ≤ x.req.toNat := by
  obtain ⟨hmem, hle, hall⟩ := foldl_minReq vs v.req _ rfl
  refine ⟨_, ?_, ?_, List.forall_mem_cons.2 ⟨hle, hall⟩⟩
  · change execPwrRatioEffect c sl s = _
    simp only [execPwrRatioEffect, h]
  · rcases hmem with hk | ⟨x, hx, hk⟩
    · exact ⟨v, List.mem_cons_self, hk.symm⟩
    · exact ⟨x, List.mem_cons_of_mem _ hx, hk⟩

/-- A tolerance of 100 ns and more allows an idle state. -/
theorem idleFor_of_le {ns : Nat} (h : 100 ≤ ns) : idleFor ns = if 500000 ≤ ns then .i3 else if 20000 ≤ ns then .i2 else
    if 2000 ≤ ns then .i1 else .i0 := by
  simp only [idleFor, if_pos h]

theorem idleFor_eq_active {ns : Nat} : idleFor ns = .active ↔ ns < 100 := by
  unfold idleFor
  refine ⟨fun h => ?_, fun h => ?_⟩
  · by_contra hn
    have : 100 ≤ ns := by omega
    rw [if_pos this] at h
    split at h
    · cases h
    · split at h
      · cases h
      · split at h <;> cases h
  · rw [if_neg (by omega), if_neg (by omega), if_neg (by omega), if_neg (by omega)]

/-- The result of a report of the host while the device is idle. -/
theorem exec_latencyToleranceReport_idle {s : State} (ns : Nat) (hup : s.host.up = true) (hi : s.idle ≠ .active) :
    exec (.latencyToleranceReport ns) s = .next (if ns < 100 then { s with ltr := some ns, exiting := true }
      else { s with ltr := some ns, idle := idleFor ns }) := by
  change execLatencyToleranceReport ns s = _
  by_cases h : ns < 100
  · simp [execLatencyToleranceReport, hup, hi, h, idleFor_eq_active.2 h]
  · simp [execLatencyToleranceReport, hup, hi, h, mt idleFor_eq_active.1 h]

/-- Setting the parameters of processes leaves the virtual functions alone. -/
theorem vfs_foldl_setJob {α : Type} (xs : List α) (ctx : α → Nat) (f : α → Job → Job) (s : State) :
    (xs.foldl (fun s x => s.setJob (ctx x) (f x (s.job (ctx x)))) s).vfs = s.vfs := by
  induction xs generalizing s with
  | nil => rfl
  | cons x xs ih => rw [List.foldl_cons, ih]; rfl

/-- A function that is set stands among the functions: its entry is replaced, or it is added. -/
theorem mem_setVf (vfs : List Vf) (vf : Nat) (v : Vf) : v ∈ (if (vfs.find? (·.id == vf)).isSome = true
    then vfs.map fun x => if x.id == vf then v else x else vfs ++ [v]) := by
  split
  · rename_i h
    obtain ⟨x, hx, hid⟩ := List.find?_isSome.1 h
    exact List.mem_map.2 ⟨x, hx, if_pos hid⟩
  · simp

/-- Parameters in range are set. -/
theorem exec_arbiterParametersSet {s : State} {vf sl g : Nat} {ws : List (Nat × Nat)} (bs : List (Nat × Bool)) (hvf : vf < 16)
    (h1 : 1 ≤ sl) (h2 : sl ≤ 65535) (hg : g ≤ 1000) (hws : ∀ w ∈ ws, 1 ≤ w.2 ∧ w.2 ≤ 255) :
    ∃ t v, exec (.arbiterParametersSet vf sl g ws bs) s = .next t ∧ v ∈ t.vfs ∧ v.id = vf ∧ v.slice = sl ∧ v.grace = g := by
  have hin : (decide (vf < 16) && decide (1 ≤ sl) && decide (sl ≤ 65535) && decide (g ≤ 1000) &&
      ws.all fun w => decide (1 ≤ w.2) && decide (w.2 ≤ 255)) = true := by
    simp only [Bool.and_eq_true, decide_eq_true_eq, List.all_eq_true]
    exact ⟨⟨⟨⟨hvf, h1⟩, h2⟩, hg⟩, hws⟩
  let v : Vf := { id := vf, slice := sl, grace := g, time := ((s.vfs.find? (·.id == vf)).map (·.time)).getD 0 }
  have hrun : exec (.arbiterParametersSet vf sl g ws bs) s = _ := if_neg (by simp only [hin, Bool.not_true, Bool.false_eq_true, not_false_eq_true])
  refine ⟨_, v, hrun, ?_, rfl, rfl, rfl⟩
  rw [vfs_foldl_setJob bs (·.1) (fun b j => { j with boost := b.2 }), rouse_eq]
  dsimp only
  rw [vfs_foldl_setJob ws (·.1) (fun w j => { j with vf := vf, weight := w.2 })]
  exact mem_setVf s.vfs vf v

/-- Settles O47: the events of clocks and power one by one. -/
theorem powerEvents : Obligations.PowerEvents := by
  refine ⟨?_, ?_, ?_, ?_, ?_, ?_, ?_, ?_, ?_, ?_, ?_, ?_, ?_⟩
  · intro s c sl v vs h
    obtain ⟨r, hr, hmem, hmin⟩ := exec_pwrRatioEffect h
    exact ⟨_, r, hr, rfl, hmem, hmin⟩
  · intro s c sl h hc hsl hg
    change execPwrRatioEffect c sl s = _
    simp only [execPwrRatioEffect, h, hc, hsl, hg, decide_true, Bool.not_false, Bool.and_self, if_true]
  · intro s c hc
    change execLostLocalityWindow c s = _
    simp only [execLostLocalityWindow, hc, if_true]
    rfl
  · intro s c fall h
    change execDroopDetect c fall s = _
    simp only [execDroopDetect, h, if_true]
  · intro s c h
    change execDroopStretchEnd c s = _
    simp [execDroopStretchEnd, h]
  · intro s c h
    change execDroopHalveEnd c s = _
    simp [execDroopHalveEnd, h]
  · intro s hi hsp hb ns hns h100
    have hne : idleFor (s.ltr.getD 10000) ≠ .active := mt idleFor_eq_active.1 (by omega)
    change execIdleEnter s = _
    rw [hns] at h100 ⊢
    rw [← idleFor_of_le h100]
    simp [execIdleEnter, hi, hsp, hb, hne]
  · intro s hb
    change execIdleEnter s = _
    simp [execIdleEnter, hb]
  · intro s hi he
    change execIdleExit s = _
    simp [execIdleExit, hi, he]
  · intro s ns hup hi
    change execLatencyToleranceReport ns s = _
    simp [execLatencyToleranceReport, hup, hi]
  · intro s ns hup hi
    rw [exec_latencyToleranceReport_idle ns hup hi]
    split
    · rfl
    · rw [idleFor_of_le (by omega)]
  · intro s a b h1 h2 h3 h4
    refine ⟨{ s.rouse with slope := a, droop := b }, ?_, by rw [rouse_eq], fun hi => rouse_exiting hi⟩
    change execPwrLimitsSet a b s = _
    simp [execPwrLimitsSet, h1, h2, h3, h4]
  · exact fun s vf sl g ws bs hvf h1 h2 hg hws => exec_arbiterParametersSet bs hvf h1 h2 hg hws

end Sys2Proof.Device
end

section
/-! Memory as lists and the refetch of failing units (R164, R165): what each leaves of memory, check values and wavelets. -/

namespace Sys2Proof.Device

open Sys2Proof Sys2Proof.Machine Sys2Proof.Claim

/-! Sparse lists. -/

/-- A part of a list that its keys decide holds what the list holds at those keys. -/
theorem get_filter_key {β : Type} {d : β} (f : Nat → Bool) (m : List (Nat × β)) (k : Nat) :
    Sparse.get d (m.filter fun c => f c.1) k = if f k = true then Sparse.get d m k else d := by
  induction m with
  | nil => simp [Sparse.get]
  | cons c m ih =>
    obtain ⟨j, v⟩ := c
    by_cases hj : j = k
    · subst hj
      by_cases hf : f j = true
      · simp [hf, Sparse.get]
      · rw [List.filter_cons_of_neg (by exact hf), ih, if_neg hf, if_neg hf]
    · by_cases hf : f j = true
      · rw [List.filter_cons_of_pos (by exact hf)]
        simp [Sparse.get, hj, ih]
      · rw [List.filter_cons_of_neg (by exact hf)]
        simp [Sparse.get, hj, ih]

/-- Entries put one after the other, each at its key moved by one and the same way, are read back at their moved keys. -/
theorem get_foldl_put {β : Type} [DecidableEq β] {d : β} (g : Nat → Nat) {xs : List (Nat × β)} (hx : Sparse.wf d xs = true)
    {k : Nat} (hg : ∀ c ∈ xs, g c.1 = g k → c.1 = k) {m : List (Nat × β)} (hm : Sparse.wf d m = true) :
    Sparse.get d (xs.foldl (fun m c => Sparse.put d m (g c.1) c.2) m) (g k) =
      if Sparse.get d xs k = d then Sparse.get d m (g k) else Sparse.get d xs k := by
  induction xs generalizing m with
  | nil => simp [Sparse.get]
  | cons c xs ih =>
    obtain ⟨j, v⟩ := c
    obtain ⟨hv, hhead, hxs⟩ := Sparse.wf_cons.1 hx
    rw [List.foldl_cons, ih hxs (fun c hc => hg c (List.mem_cons_of_mem _ hc)) (Sparse.wf_put _ _ hm), Sparse.get_put _ _ _ hm]
    by_cases hj : j = k
    · subst hj
      rw [Sparse.get_of_lt hxs hhead]
      simp [Sparse.get, hv]
    · have hgj : g j ≠ g k := fun h => hj (hg _ List.mem_cons_self h)
      simp [Sparse.get, hj, hgj]

/-- A byte of a list of bytes that was joined to a number. -/
theorem joinBytes_get (bs : List Byte) (i : Nat) (hi : i < bs.length) :
    BitVec.ofNat 8 (joinBits 8 (bs.map (·.toNat)) / 256 ^ i) = bs.getD i 0 := by
  apply BitVec.eq_of_toNat_eq
  have h := Laws.join_get 8 (bs.map (·.toNat)) i
  have hpow : (2 : Nat) ^ (i * 8) = 256 ^ i := by rw [Nat.mul_comm, Nat.pow_mul]
  rw [hpow] at h
  rw [BitVec.toNat_ofNat, h]
  have hb : (bs.map (·.toNat)).getD i 0 = (bs.getD i 0).toNat := by
    simp [List.getD_eq_getElem?_getD, hi]
  rw [hb]
  exact Nat.mod_eq_of_lt (bs.getD i 0).isLt

/-! Physical memory. -/

/-- The bytes of a list that was written to memory. -/
theorem get_memWrite_bytes {s : State} (h : Memory.wf s.mem = true) (a : Nat) (bs : List Byte) {i : Nat} (hi : i < bs.length) :
    Sparse.get 0 (s.memWrite a bs.length (joinBits 8 (bs.map (·.toNat)))).mem (a + i) = bs.getD i 0 := by
  simp only [State.memWrite]
  rw [Sparse.get_writeN h hi, joinBytes_get bs i hi]

/-- A write leaves every byte outside it alone. -/
theorem get_memWrite_of_not {s : State} (h : Memory.wf s.mem = true) {a n v x : Nat} (hx : x < a ∨ a + n ≤ x) :
    Sparse.get 0 (s.memWrite a n v).mem x = Sparse.get 0 s.mem x := Sparse.get_writeN_of_not h hx

/-- A unit that is written passes its check. -/
theorem badUnit_memWrite (s : State) (u v : Nat) : (s.memWrite (64 * u) 64 v).badUnit u = false := by
  have : (s.memWrite (64 * u) 64 v).checks.find? (·.1 == u) = none := by
    rw [List.find?_eq_none]
    intro c hc hcu
    simp only [State.memWrite, List.mem_filter, beq_iff_eq] at hc hcu
    simp [hcu] at hc
  simp only [State.badUnit, this]

/-- Which units fail depends on memory and check values alone. -/
theorem badUnit_congr {s t : State} (hm : t.mem = s.mem) (hc : t.checks = s.checks) (u : Nat) : t.badUnit u = s.badUnit u := by
  simp only [State.badUnit, State.unit, hm, hc]

/-! The refetch (R165). -/

/-- What a refetch may change of a wavelet: bytes of its strands' own memory and their check values. -/
def Mended (v v' : Wavelet) : Prop := v' = { v with lanes := v'.lanes, checks := v'.checks }

/-- What a refetch may change: memory, check values, the count of refetches, and strands' own memory. -/
def Refetched (s t : State) : Prop :=
  t = { s with mem := t.mem, checks := t.checks, refetched := t.refetched, wavs := t.wavs } ∧
    (∀ w v, s.wav? w = some v → ∃ v', t.wav? w = some v' ∧ Mended v v') ∧ ∀ w, s.wav? w = none → t.wav? w = none

theorem Mended.refl (v : Wavelet) : Mended v v := rfl
theorem Mended.trans {u v x : Wavelet} (h : Mended u v) (k : Mended v x) : Mended u x := by
  unfold Mended at *
  rw [k, h]

theorem Refetched.refl (s : State) : Refetched s s := ⟨rfl, fun _ v h => ⟨v, h, Mended.refl v⟩, fun _ h => h⟩

theorem Refetched.trans {s t u : State} (h : Refetched s t) (k : Refetched t u) : Refetched s u := by
  refine ⟨?_, fun w v hv => ?_, fun w hw => k.2.2 w (h.2.2 w hw)⟩
  · rw [k.1, h.1]
  · obtain ⟨v', hv', hm⟩ := h.2.1 w v hv
    obtain ⟨v'', hv'', hm'⟩ := k.2.1 w v' hv'
    exact ⟨v'', hv'', hm.trans hm'⟩

theorem mended_recheck (v : Wavelet) (plane : Nat) (us : List Nat) : Mended v (v.recheck plane us) := by
  unfold Wavelet.recheck
  split
  · exact Mended.refl v
  · rfl

theorem mended_putUnit (v : Wavelet) (plane n : Nat) (bs : List Byte) : Mended v (v.putUnit plane n bs) := by
  unfold Wavelet.putUnit
  refine Mended.trans ?_ (mended_recheck _ _ _)
  generalize List.range 16 = js
  induction js generalizing v with
  | nil => exact Mended.refl v
  | cons j js ih =>
    refine Mended.trans ?_ (ih _)
    rfl

theorem refetched_memWrite (s : State) (a n v : Nat) : Refetched s (s.memWrite a n v) :=
  ⟨rfl, fun _ v h => ⟨v, h, Mended.refl v⟩, fun _ h => h⟩

theorem refetched_putUnit (s : State) (bs : List Byte) (u : UnitKey) : Refetched s (s.putUnit bs u) := by
  cases u with
  | phys n => exact refetched_memWrite ..
  | priv w p n =>
    simp only [State.putUnit]
    cases hw : s.wav? w with
    | none =>
      have : s.modWav w (·.putUnit p n bs) = s := by simp only [State.modWav, hw]
      rw [this]
      exact Refetched.refl s
    | some v =>
      rw [State.modWav_eq _ hw]
      refine ⟨rfl, fun x y hy => ?_, fun x hx => ?_⟩
      · rw [State.wav?_setWav]
        split
        · rename_i hxw
          subst hxw
          obtain rfl : v = y := Option.some.inj (hw.symm.trans hy)
          exact ⟨_, rfl, mended_putUnit v p n bs⟩
        · exact ⟨y, hy, Mended.refl y⟩
      · rw [State.wav?_setWav, if_neg, hx]
        rintro rfl
        rw [hx] at hw
        cases hw

/-- Whether a copy replaces a failing unit (R165). -/
def Serves (s : State) (unit : UnitKey) (c : GoodCopy) : Prop :=
  c.unit = unit ∧ s.mayServe c = true ∧ s.checkOf unit = some (crc32c c.bytes)

/-- The refetch of a unit leaves it as it is, or puts a copy that serves in its place. -/
theorem mendUnit_cases (s : State) (copies : List GoodCopy) (unit : UnitKey) :
    s.mendUnit copies unit = s ∨ (s.badKey unit = true ∧ ∃ c ∈ copies, Serves s unit c ∧
      s.mendUnit copies unit = { s.putUnit c.bytes unit with refetched := s.refetched + 1 }) := by
  unfold State.mendUnit
  by_cases hb : s.badKey unit = true
  · rw [if_neg (by simp [hb])]
    dsimp only
    split
    · rename_i c hc
      obtain ⟨k, -, hk⟩ := List.exists_of_findSome?_eq_some hc
      have hp := List.find?_some hk
      simp only [Bool.and_eq_true, beq_iff_eq] at hp
      obtain ⟨-, ⟨hu, hm⟩, hcheck⟩ := hp
      exact .inr ⟨hb, c, List.mem_of_find?_eq_some hk, ⟨hu, hm, hcheck⟩, rfl⟩
    · exact .inl rfl
  · rw [if_pos (by simp [hb])]
    exact .inl rfl

theorem refetched_mendUnit (s : State) (copies : List GoodCopy) (unit : UnitKey) : Refetched s (s.mendUnit copies unit) := by
  rcases mendUnit_cases s copies unit with h | ⟨-, c, -, -, h⟩
  · rw [h]; exact Refetched.refl s
  · rw [h]; exact (refetched_putUnit s c.bytes unit).trans ⟨rfl, fun _ v h => ⟨v, h, Mended.refl v⟩, fun _ h => h⟩

/-- A refetch changes what `Refetched` says and nothing else. -/
theorem refetched_mend (s : State) (copies : List GoodCopy) : Refetched s (s.mend copies) := by
  unfold State.mend
  generalize (copies.map (·.unit)).eraseDups = us
  induction us generalizing s with
  | nil => exact Refetched.refl s
  | cons u us ih => exact (refetched_mendUnit s copies u).trans (ih _)

/-- The refetch of units of strands' own memory, and of units that pass their check, leaves physical memory alone. -/
theorem mem_mendUnit_of_good {s : State} (copies : List GoodCopy) (unit : UnitKey) (h : ∀ u, s.badUnit u = false) :
    (s.mendUnit copies unit).mem = s.mem ∧ (s.mendUnit copies unit).checks = s.checks := by
  rcases mendUnit_cases s copies unit with e | ⟨hb, c, -, -, e⟩
  · rw [e]; exact ⟨rfl, rfl⟩
  · rw [e]
    cases unit with
    | phys n => rw [State.badKey, h n] at hb; cases hb
    | priv w p n => simp [State.putUnit]

/-- Where every unit passes its check a refetch leaves physical memory alone. -/
theorem mem_mend_of_good {s : State} (copies : List GoodCopy) (h : ∀ u, s.badUnit u = false) :
    (s.mend copies).mem = s.mem ∧ (s.mend copies).checks = s.checks := by
  unfold State.mend
  generalize (copies.map (·.unit)).eraseDups = us
  induction us generalizing s with
  | nil => exact ⟨rfl, rfl⟩
  | cons u us ih =>
    obtain ⟨hm, hc⟩ := mem_mendUnit_of_good copies u h
    obtain ⟨hm', hc'⟩ := ih (s := s.mendUnit copies u) fun x => (badUnit_congr hm hc x).trans (h x)
    exact ⟨hm'.trans hm, hc'.trans hc⟩

section

variable {s t : State} (h : Refetched s t)
include h

theorem Refetched.jobs : t.jobs = s.jobs := by rw [h.1]
theorem Refetched.tasks : t.tasks = s.tasks := by rw [h.1]
theorem Refetched.spans : t.spans = s.spans := by rw [h.1]
theorem Refetched.blocks : t.blocks = s.blocks := by rw [h.1]
theorem Refetched.ops : t.ops = s.ops := by rw [h.1]
theorem Refetched.reports : t.reports = s.reports := by rw [h.1]
theorem Refetched.nextOp : t.nextOp = s.nextOp := by rw [h.1]
theorem Refetched.idle : t.idle = s.idle := by rw [h.1]
theorem Refetched.job (ctx : Nat) : t.job ctx = s.job ctx := by unfold State.job; rw [h.jobs]
theorem Refetched.task? (n : Nat) : t.task? n = s.task? n := by unfold State.task?; rw [h.tasks]

end

end Sys2Proof.Device
end

section
/-! The memory system's events (R149 to R171, R184): O48. -/

namespace Sys2Proof.Device

open Sys2Proof Sys2Proof.Machine Sys2Proof.Claim

/-! A leaf that points to another place (R149, R163). -/

theorem size_cases (l : Leaf) : Leaf.size l = 2 ^ 13 ∨ Leaf.size l = 2 ^ 16 ∨ Leaf.size l = 2 ^ 21 ∨ Leaf.size l = 2 ^ 29 := by
  unfold Leaf.size
  split
  · exact .inl rfl
  · exact .inr (.inl rfl)
  · exact .inr (.inr (.inl rfl))
  · exact .inr (.inr (.inr rfl))

theorem size_pos (l : Leaf) : 0 < Leaf.size l := by rcases size_cases l with h | h | h | h <;> rw [h] <;> decide

/-- Of two page sizes the smaller divides the greater. -/
theorem size_dvd {l m : Leaf} (h : Leaf.size l ≤ Leaf.size m) : Leaf.size l ∣ Leaf.size m := by
  have key : ∀ n : Leaf, ∃ k, Leaf.size n = 2 ^ k := fun n => by
    rcases size_cases n with h | h | h | h <;> exact ⟨_, h⟩
  obtain ⟨a, ha⟩ := key l
  obtain ⟨b, hb⟩ := key m
  rw [ha, hb] at h ⊢
  exact Nat.pow_dvd_pow 2 ((Nat.pow_le_pow_iff_right Nat.one_lt_two).1 h)

/-- A field below bit 64 depends on the number's low 64 bits alone. -/
theorem extractLsb'_low {x y : BitVec 128} (h : x.toNat % 2 ^ 64 = y.toNat % 2 ^ 64) {a n : Nat} (ha : a + n ≤ 64) :
    x.extractLsb' a n = y.extractLsb' a n := by
  apply BitVec.eq_of_getLsbD_eq
  intro i hi
  have hb : ∀ z : BitVec 128, z.getLsbD (a + i) = (z.toNat % 2 ^ 64).testBit (a + i) := fun z => by
    rw [Nat.testBit_mod_two_pow, decide_eq_true (by omega), Bool.true_and]; rfl
  rw [BitVec.getLsbD_extractLsb', BitVec.getLsbD_extractLsb', hb, hb, h]

/-- The three parts of a leaf as a number: the fields below the base, the base, and those above it. -/
theorem pbase_eq (l : Leaf) : Leaf.pbase l = l.toNat / 2 ^ 64 % 2 ^ 52 := by
  rw [Leaf.pbase, BitVec.extractLsb'_toNat, Nat.shiftRight_eq_div_pow]

theorem top_eq_zero {l : Leaf} : l.extractLsb' 116 12 = 0 ↔ l.toNat / 2 ^ 116 = 0 := by
  rw [← BitVec.toNat_inj, BitVec.extractLsb'_toNat, Nat.shiftRight_eq_div_pow]
  have : l.toNat / 2 ^ 116 < 2 ^ 12 := Nat.div_lt_of_lt_mul l.isLt
  rw [Nat.mod_eq_of_lt this]
  rfl

/-- A number below `2 ^ 116` with another base. -/
theorem rebase_nat {n b : Nat} (h : n / 2 ^ 116 = 0) (hb : b < 2 ^ 52) :
    (2 ^ 128 - n / 2 ^ 64 % 2 ^ 52 * 2 ^ 64 % 2 ^ 128 + n) % 2 ^ 128 = n % 2 ^ 64 ∧ (n % 2 ^ 64 + b * 2 ^ 64) % 2 ^ 128 = b * 2 ^ 64 + n % 2 ^ 64 ∧
      (b * 2 ^ 64 + n % 2 ^ 64) / 2 ^ 64 % 2 ^ 52 = b ∧ (b * 2 ^ 64 + n % 2 ^ 64) / 2 ^ 116 = 0 ∧
      (b * 2 ^ 64 + n % 2 ^ 64) % 2 ^ 64 = n % 2 ^ 64 := by
  omega

/-- The leaf with another base: every field below the base is kept. -/
theorem leaf_rebase {l : Leaf} {b : Nat} (h : l.extractLsb' 116 12 = 0) (hb : b < 2 ^ 52) :
    ∃ m : Leaf, m = l - BitVec.ofNat 128 (Leaf.pbase l * 2 ^ 64) + BitVec.ofNat 128 (b * 2 ^ 64) ∧ Leaf.pbase m = b ∧
      m.extractLsb' 116 12 = 0 ∧ m.toNat % 2 ^ 64 = l.toNat % 2 ^ 64 := by
  obtain ⟨h1, h2, h3, h4, h5⟩ := rebase_nat (top_eq_zero.1 h) hb
  have hm : (l - BitVec.ofNat 128 (Leaf.pbase l * 2 ^ 64) + BitVec.ofNat 128 (b * 2 ^ 64)).toNat = b * 2 ^ 64 + l.toNat % 2 ^ 64 := by
    rw [BitVec.toNat_add, BitVec.toNat_sub, BitVec.toNat_ofNat, BitVec.toNat_ofNat, pbase_eq, h1, Nat.add_mod_mod, h2]
  refine ⟨_, rfl, ?_, top_eq_zero.2 ?_, ?_⟩
  · rw [pbase_eq, hm, h3]
  · rw [hm, h4]
  · rw [hm, h5]

/-- The size of a leaf and whether it is valid, up to its base, lie in the fields below the base. -/
theorem size_low {l m : Leaf} (h : m.toNat % 2 ^ 64 = l.toNat % 2 ^ 64) : Leaf.size m = Leaf.size l := by
  unfold Leaf.size
  rw [extractLsb'_low h (by decide)]

theorem valid_low {l m : Leaf} (h : m.toNat % 2 ^ 64 = l.toNat % 2 ^ 64) (hl : l.extractLsb' 116 12 = 0)
    (hm : m.extractLsb' 116 12 = 0) (hp : Leaf.pbase m % Leaf.size m = 0 ↔ Leaf.pbase l % Leaf.size l = 0) :
    Leaf.valid m = Leaf.valid l := by
  have hv : Leaf.v m = Leaf.v l := by
    have := congrArg (·.getLsbD 0) (extractLsb'_low h (a := 0) (n := 1) (by decide))
    simpa [Leaf.v] using this
  have hz : (Leaf.pbase m % Leaf.size m == 0) = (Leaf.pbase l % Leaf.size l == 0) := by
    rw [Bool.eq_iff_iff, beq_iff_eq, beq_iff_eq]; exact hp
  unfold Leaf.valid Leaf.ev Leaf.icls
  rw [hv, hl, hm, hz, extractLsb'_low h (a := 32) (n := 32) (by decide), extractLsb'_low h (a := 6) (n := 2) (by decide),
    extractLsb'_low h (a := 18) (n := 2) (by decide)]

theorem valid_top {l : Leaf} (h : Leaf.valid l = true) : l.extractLsb' 116 12 = 0 := by
  simp only [Leaf.valid, Bool.and_eq_true, beq_iff_eq] at h
  exact h.1.1.1.1.2

theorem valid_aligned {l : Leaf} (h : Leaf.valid l = true) : Leaf.pbase l % Leaf.size l = 0 := by
  simp only [Leaf.valid, Bool.and_eq_true, beq_iff_eq] at h
  exact h.2

/-- A leaf after its range has moved to `base`: the same page, at the place moved by as much, valid as before. -/
theorem moved_spec {l q : Leaf} {base : Nat} (hl : Leaf.valid l = true) (hbase : base % Leaf.size l = 0)
    (hend : base + Leaf.size l ≤ 2 ^ 52)
    (hq : Leaf.valid q = true → Leaf.pbase q + Leaf.size q ≤ Leaf.pbase l ∨ Leaf.pbase l + Leaf.size l ≤ Leaf.pbase q ∨
      Leaf.pbase l ≤ Leaf.pbase q ∧ Leaf.pbase q + Leaf.size q ≤ Leaf.pbase l + Leaf.size l) :
    Leaf.size (q.moved (Leaf.pbase l) base (Leaf.size l)) = Leaf.size q ∧
      Leaf.valid (q.moved (Leaf.pbase l) base (Leaf.size l)) = Leaf.valid q ∧
      (Leaf.valid q = true → Leaf.pbase l ≤ Leaf.pbase q → Leaf.pbase q < Leaf.pbase l + Leaf.size l →
        Leaf.pbase (q.moved (Leaf.pbase l) base (Leaf.size l)) = Leaf.pbase q - Leaf.pbase l + base) := by
  unfold Leaf.moved
  split
  · rename_i hc
    simp only [Bool.and_eq_true, decide_eq_true_eq] at hc
    obtain ⟨⟨hv, hlo⟩, hhi⟩ := hc
    have hpos := size_pos q
    have hin : Leaf.pbase q + Leaf.size q ≤ Leaf.pbase l + Leaf.size l := by rcases hq hv with h | h | h <;> omega
    have hdvd : Leaf.size q ∣ Leaf.size l := size_dvd (by omega)
    obtain ⟨m, hm, hpb, htop, hlow⟩ := leaf_rebase (b := Leaf.pbase q - Leaf.pbase l + base) (valid_top hv) (by omega)
    have hsz := size_low hlow
    rw [← hm]
    refine ⟨hsz, valid_low hlow (valid_top hv) htop ?_, fun _ _ _ => hpb⟩
    have h1 : Leaf.size q ∣ Leaf.pbase q := Nat.dvd_of_mod_eq_zero (valid_aligned hv)
    have h2 : Leaf.size q ∣ Leaf.pbase l := hdvd.trans (Nat.dvd_of_mod_eq_zero (valid_aligned hl))
    have h3 : Leaf.size q ∣ base := hdvd.trans (Nat.dvd_of_mod_eq_zero hbase)
    rw [hpb, hsz]
    exact iff_of_true (Nat.mod_eq_zero_of_dvd (Nat.dvd_add (Nat.dvd_sub h1 h2) h3)) (valid_aligned hv)
  · rename_i hc
    refine ⟨rfl, rfl, fun hv hlo hhi => absurd ?_ hc⟩
    simp only [Bool.and_eq_true, decide_eq_true_eq]
    exact ⟨⟨hv, hlo⟩, hhi⟩

/-! A page that moves (R163). -/

/-- The bytes of a range that was copied to a range apart from it. -/
theorem get_copyPhys {s : State} (h : Memory.wf s.mem = true) {src dst n i : Nat} (hi : i < n) :
    Sparse.get 0 (s.copyPhys src dst n).mem (dst + i) = Sparse.get 0 s.mem (src + i) := by
  have hsrc := wf_filter (fun c => decide (src ≤ c.1 ∧ c.1 < src + n)) h
  have hdst := wf_filter (fun c => !decide (dst ≤ c.1 ∧ c.1 < dst + n)) h
  have hkey : (src + i) - src + dst = dst + i := by omega
  have hs : Sparse.get 0 (s.mem.filter fun c => decide (src ≤ c.1 ∧ c.1 < src + n)) (src + i) = Sparse.get 0 s.mem (src + i) := by
    rw [get_filter_key fun k => decide (src ≤ k ∧ k < src + n)]
    exact if_pos (by simp [hi])
  have hd : Sparse.get 0 (s.mem.filter fun c => !decide (dst ≤ c.1 ∧ c.1 < dst + n)) (dst + i) = 0 := by
    rw [get_filter_key fun k => !decide (dst ≤ k ∧ k < dst + n)]
    exact if_neg (by simp [hi])
  have hput := get_foldl_put (fun k => k - src + dst) hsrc (k := src + i) (fun c hc he => by
    have := (List.mem_filter.1 hc).2
    simp only [decide_eq_true_eq] at this
    omega) hdst
  rw [hs, hkey, hd] at hput
  change Sparse.get 0 (List.foldl _ _ _) (dst + i) = _
  rw [hput, ite_eq_right_iff]
  exact Eq.symm

/-- A page table after a range of physical memory has moved. -/
def movePages (src dst n : Nat) (j : Job) : Job := { j with pages := j.pages.map fun q => (q.1, Leaf.moved q.2 src dst n) }

/-- The page of an address after a move that leaves each leaf's size alone and keeps it valid or invalid. -/
theorem page_movePages {j : Job} {src dst n va p : Nat} {l : Leaf} (h : j.page va = some (p, l))
    (hf : ∀ q ∈ j.pages, Leaf.size (Leaf.moved q.2 src dst n) = Leaf.size q.2 ∧ Leaf.valid (Leaf.moved q.2 src dst n) = Leaf.valid q.2) :
    (movePages src dst n j).page va = some (p, Leaf.moved l src dst n) := by
  unfold Job.page movePages at *
  rw [List.find?_map, List.find?_congr (p₂ := fun q => decide (q.1 ≤ va) && decide (va < q.1 + Leaf.size q.2) && Leaf.valid q.2) ?_, h]
  · rfl
  · intro q hq
    obtain ⟨h1, h2⟩ := hf q hq
    simp only [Function.comp, h1, h2]

theorem has_end {s : State} {a n : Nat} (h : s.has a n = true) : a + n ≤ 2 ^ 52 := by
  rcases Bool.or_eq_true_iff.1 h with h | h
  · exact (of_decide_eq_true h).trans (show 640 * 10 ^ 9 ≤ 2 ^ 52 by decide)
  · simp only [State.inTier, Bool.and_eq_true, decide_eq_true_eq, le_min_iff] at h
    exact h.2.2

/-- A job after the same change of each process's page table. -/
theorem job_map {s t : State} (f : Job → Job) {ctx : Nat} {j : Job} (h : Assoc.get? s.jobs ctx = some j)
    (ht : t.jobs = s.jobs.map fun x => (x.1, f x.2)) : t.job ctx = f j := by
  have key : ∀ xs : List (Nat × Job), Assoc.get? (xs.map fun x => (x.1, f x.2)) ctx = (Assoc.get? xs ctx).map f := by
    intro xs
    induction xs with
    | nil => rfl
    | cons x xs ih => simp only [List.map_cons, Assoc.get?, ih]; split <;> rfl
  unfold State.job
  rw [ht, key, h]
  rfl

/-- A page moves to an aligned free range with its bytes (R163). -/
theorem exec_pageMigrate {s : State} {ctx : Nat} {va : W64} {base p : Nat} {l : Leaf} (hp : (s.job ctx).page va.toNat = some (p, l))
    (hb : base % Leaf.size l = 0) (hhas : s.has base (Leaf.size l) = true) (hwf : Memory.wf s.mem = true)
    (hfree : ∀ j ∈ s.jobs, ∀ q ∈ j.2.pages, Leaf.valid q.2 = true → Leaf.pbase q.2 + Leaf.size q.2 ≤ base ∨ base + Leaf.size l ≤ Leaf.pbase q.2)
    (hin : ∀ j ∈ s.jobs, ∀ q ∈ j.2.pages, Leaf.valid q.2 = true → Leaf.pbase q.2 + Leaf.size q.2 ≤ Leaf.pbase l ∨
      Leaf.pbase l + Leaf.size l ≤ Leaf.pbase q.2 ∨
      Leaf.pbase l ≤ Leaf.pbase q.2 ∧ Leaf.pbase q.2 + Leaf.size q.2 ≤ Leaf.pbase l + Leaf.size l) :
    ∃ t, exec (.pageMigrate ctx va base) s = .next t ∧
      (∃ m, (t.job ctx).page va.toNat = some (p, m) ∧ Leaf.pbase m = base ∧ Leaf.size m = Leaf.size l) ∧
      (∀ i, i < Leaf.size l → Sparse.get 0 t.mem (base + i) = Sparse.get 0 s.mem (Leaf.pbase l + i)) := by
  obtain ⟨j, hj⟩ : ∃ j, Assoc.get? s.jobs ctx = some j := by
    cases hg : Assoc.get? s.jobs ctx with
    | some j => exact ⟨j, rfl⟩
    | none => simp [State.job, hg, Job.page] at hp
  have hjob : s.job ctx = j := by simp [State.job, hj]
  have hmem := Assoc.mem_of_get? hj
  have hlmem : (p, l) ∈ j.pages := List.mem_of_find?_eq_some (hjob ▸ hp)
  have hl : Leaf.valid l = true := by
    have := List.find?_some hp
    simp only [Bool.and_eq_true] at this
    exact this.2
  have hused : (s.jobs.any fun j => j.2.pages.any fun q => Leaf.valid q.2 && decide (Leaf.pbase q.2 < base + Leaf.size l) &&
      decide (base < Leaf.pbase q.2 + Leaf.size q.2)) = false := by
    simp only [List.any_eq_false, Bool.not_eq_true, Bool.and_eq_true, decide_eq_true_eq, not_and, and_imp]
    intro j hj q hq hv h1
    have := hfree j hj q hq hv
    omega
  have hacross : (s.jobs.any fun j => j.2.pages.any fun q => Leaf.valid q.2 && decide (Leaf.pbase q.2 < Leaf.pbase l + Leaf.size l) &&
      decide (Leaf.pbase l < Leaf.pbase q.2 + Leaf.size q.2) && !(decide (Leaf.pbase l ≤ Leaf.pbase q.2) &&
        decide (Leaf.pbase q.2 + Leaf.size q.2 ≤ Leaf.pbase l + Leaf.size l))) = false := by
    simp only [List.any_eq_false, Bool.not_eq_true, Bool.and_eq_true, decide_eq_true_eq, not_and, and_imp, Bool.not_eq_eq_eq_not,
      Bool.not_true, Bool.and_eq_false_iff, decide_eq_false_iff_not]
    intro j hj q hq hv h1 h2
    have := hin j hj q hq hv
    omega
  let t : State := { s.copyPhys (Leaf.pbase l) base (Leaf.size l) with
    jobs := s.jobs.map fun j => (j.1, movePages (Leaf.pbase l) base (Leaf.size l) j.2) }
  have hrun : exec (.pageMigrate ctx va base) s = .next t := by
    change execPageMigrate ctx va base s = _
    simp only [execPageMigrate, hp]
    exact if_neg (by simp only [hb, hhas, hused, hacross, bne_self_eq_false, Bool.not_true, Bool.or_self, Bool.false_eq_true,
      not_false_eq_true])
  obtain ⟨hsize, -, hpb⟩ := moved_spec (q := l) hl hb (has_end hhas) (hin _ hmem _ hlmem)
  refine ⟨t, hrun, ⟨Leaf.moved l (Leaf.pbase l) base (Leaf.size l), ?_, ?_, hsize⟩, fun i hi => ?_⟩
  · have ht : t.job ctx = _ := job_map (movePages (Leaf.pbase l) base (Leaf.size l)) hj rfl
    rw [ht]
    refine page_movePages (hjob ▸ hp) fun q hq => ?_
    obtain ⟨h1, h2, -⟩ := moved_spec hl hb (has_end hhas) (hin _ hmem q hq)
    exact ⟨h1, h2⟩
  · have := size_pos l
    rw [hpb hl le_rfl (by omega)]
    omega
  · exact get_copyPhys hwf hi

/-! Private pages (R66, R150). -/

/-- After a change of its own page each offset of the page is mapped exactly where the leaf is valid. -/
theorem privOk_changePriv (x : Strand) {off size o n : Nat} (valid : Bool) (h1 : off ≤ o) (h2 : o < off + size) (hn : o < n) :
    (x.changePriv off size valid).privOk n o = valid := by
  have hout : (x.absent.filter fun p => !(decide (off < p.1 + p.2) && decide (p.1 < off + size))).all
      (fun p => decide (o < p.1) || decide (p.1 + p.2 ≤ o)) = true := by
    simp only [List.all_eq_true, List.mem_filter, Bool.or_eq_true, decide_eq_true_eq, Bool.not_eq_eq_eq_not, Bool.not_true,
      Bool.and_eq_false_iff, decide_eq_false_iff_not]
    intro p hp
    omega
  cases valid
  · have hself : ¬ (o < off) ∧ ¬ (off + size ≤ o) := by omega
    simp [Strand.privOk, Strand.changePriv, hself]
  · simp only [Strand.privOk, Strand.changePriv, if_true, hn, decide_true, Bool.true_and]
    exact hout

theorem wav?_modLane {s : State} {w : WavId} {v : Wavelet} (h : s.wav? w = some v) (l : Nat) (f : Strand → Strand) :
    (s.modLane w l f).wav? w = some (v.withFiles (listModify f v.lanes l) v.w) := by
  rw [State.modLane_eq _ _ h, State.wav?_setWav, if_pos rfl]

/-- A change of a strand's own page. -/
theorem exec_pageTableChange_priv {s : State} {ctx : Nat} {m : Mapping} {w : WavId} {l off : Nat} {e : Env} (he : s.env? w = some e)
    (hctx : e.task.ctx = ctx) (ht : Tidy e.wav) (hl : l < e.wav.width) (hw : window m.va = .priv off)
    (ho : off % Leaf.size m.leaf = 0) : ∃ t v, exec (.pageTableChange ctx ⟨m, some (w, l)⟩) s = .next t ∧ t.wav? w = some v ∧
      v.lane l = (e.wav.lane l).changePriv off (Leaf.size m.leaf) (Leaf.valid m.leaf) := by
  have hv := (State.env?_wav he).1
  have hrun : exec (.pageTableChange ctx ⟨m, some (w, l)⟩) s =
      .next (s.modLane w l (·.changePriv off (Leaf.size m.leaf) (Leaf.valid m.leaf))) := by
    change execPageTableChange ctx ⟨m, some (w, l)⟩ s = _
    simp only [execPageTableChange, hw, he]
    exact if_pos (by simp [hctx, hl, ho])
  refine ⟨_, _, hrun, wav?_modLane hv l _, ?_⟩
  · rw [Wavelet.withFiles_lane, getD_listModify, if_pos ⟨rfl, by rw [ht.1]; exact hl⟩]
    rfl

/-! Exits (R164, R165). -/

/-- An exit that may be used: what its port and its memory ask (R6, R7, R8). -/
theorem exec_hostRead {s : State} {a n : Nat} {cs : List GoodCopy} {via : Exit} (hhas : s.has a n = true) (hvia : via ≠ .identity)
    (hhost : via = .host → s.host.up = true) (hfab : via = .fabric ∨ via = .storage → s.floeb ≠ [])
    (hother : via = .otherHost → s.tier.shared = true ∧ Config.tierBase ≤ a) :
    exec (.hostRead a ⟨n, cs, via⟩) s = if n ≠ 0 ∧ (s.rouse.mend cs).badAt a n = true then
      .next ((s.rouse.mend cs).report (.exitStopped via a)) else .next (s.rouse.mend cs) := by
  have hport : ((via == .host && !s.host.up) || ((via == .fabric || via == .storage) && s.floeb.isEmpty)) = false := by
    cases via <;> simp_all
  have htier : (via == .otherHost && !(s.tier.shared && s.inTier a n)) = false := by
    cases via with
    | otherHost =>
      obtain ⟨hs, ha⟩ := hother rfl
      have hin : s.inTier a n = true := by
        simp only [State.has, Bool.or_eq_true, decide_eq_true_eq] at hhas
        rcases hhas with h | h
        · simp only [Config.hbmBytes, Config.tierBase] at h ha; omega
        · exact h
      simp [hs, hin]
    | _ => rfl
  have hid : (via == .identity) = false := by simpa using hvia
  change execHostRead a ⟨n, cs, via⟩ s = _
  simp only [execHostRead, hid, hport, htier, hhas, Bool.false_eq_true, if_false, Bool.not_true, Bool.and_eq_true, bne_iff_ne]

/-! Stores of the control cores (R166, R184). -/

theorem exec_controlCoreAccess {s : State} {a : Nat} {bs : List Byte} (cs : List GoodCopy) (hhas : s.has a bs.length = true) :
    exec (.controlCoreAccess a ⟨bs, cs⟩) s = if bs.length ≠ 0 ∧ ∃ i < (a + bs.length - 1) / 64 + 1 - a / 64,
        ¬ (a ≤ 64 * (a / 64 + i) ∧ 64 * (a / 64 + i) + 64 ≤ a + bs.length) ∧ (s.mend cs).badUnit (a / 64 + i) = true
      then .next ((s.mend cs).report (.notPassed a))
      else .next ((s.mend cs).memWrite a bs.length (joinBits 8 (bs.map (·.toNat)))) := by
  change execControlCoreAccess a ⟨bs, cs⟩ s = _
  simp only [execControlCoreAccess, hhas, if_true, Bool.not_true, Bool.false_eq_true, if_false, Bool.and_eq_true, bne_iff_ne,
    List.any_eq_true, List.mem_range, Bool.not_eq_eq_eq_not, Bool.and_eq_false_iff, decide_eq_false_iff_not, not_and_or]

/-- Where every unit passes its check a store writes its bytes alone. -/
theorem exec_controlCoreAccess_good {s : State} {a : Nat} {bs : List Byte} (cs : List GoodCopy) (hhas : s.has a bs.length = true)
    (hgood : ∀ u, s.badUnit u = false) :
    exec (.controlCoreAccess a ⟨bs, cs⟩) s = .next ((s.mend cs).memWrite a bs.length (joinBits 8 (bs.map (·.toNat)))) := by
  obtain ⟨hm, hc⟩ := mem_mend_of_good cs hgood
  rw [exec_controlCoreAccess cs hhas, if_neg]
  rintro ⟨-, i, -, -, hb⟩
  rw [badUnit_congr hm hc, hgood] at hb
  cases hb

/-- Settles O48: the moved page is `exec_pageMigrate`, each other event its own lemma or the branch of its definition. -/
theorem memoryEvents : Obligations.MemoryEvents := by
  refine ⟨?_, ?_, ?_, ?_, ?_, ?_, ?_, ?_, ?_, ?_, ?_⟩
  · intro s ctx va base p l hp hb hhas hcan hfree hin
    exact exec_pageMigrate hp hb hhas hcan.1 hfree hin
  · intro s ctx m u a hw hm
    change execPageTableChange ctx ⟨m, none⟩ s = _
    simp only [execPageTableChange, hw, hm]
  · intro s ctx m w l e off he hctx ht hl hw ho
    obtain ⟨t, v, hrun, hv, hlane⟩ := exec_pageTableChange_priv he hctx ht hl hw ho
    refine ⟨t, v, hrun, hv, fun n o h1 h2 hn => ?_⟩
    rw [hlane, privOk_changePriv _ _ h1 h2 hn]
  · intro s u bs hlen hhas hport hcan
    have hwf : Memory.wf s.rouse.mem = true := by rw [rouse_eq]; exact hcan.1
    have hmem : s.rouse.mem = s.mem := by rw [rouse_eq]
    refine ⟨s.rouse.memWrite (64 * u) 64 (joinBits 8 (bs.map (·.toNat))), ?_, badUnit_memWrite .., fun i hi => ?_, fun a ha => ?_⟩
    · change execDataEntryCrc u bs s = _
      exact if_pos (by simpa [hlen, hhas] using hport)
    · rw [← hlen] at hi ⊢
      exact get_memWrite_bytes hwf _ bs hi
    · rw [get_memWrite_of_not hwf ha, hmem]
  · intro s a n cs via u hhas hu hvia hhost hfab hother
    rw [exec_hostRead hhas hvia hhost hfab hother, hu]
    refine ⟨fun h => if_neg ?_, fun h0 h => if_pos ⟨by omega, h⟩⟩
    rintro ⟨h0, hb⟩
    rcases h with h | h
    · exact h0 h
    · rw [h] at hb; cases hb
  · intro s a n cs hheld
    refine ⟨s.rouse.report (.certificate s.otp.cert), ?_, by rw [State.report, rouse_eq]⟩
    change execHostRead a ⟨n, cs, .identity⟩ s = _
    simp [execHostRead, hheld]
  · intro s a bs cs hhas hgood hcan
    obtain ⟨hm, -⟩ := mem_mend_of_good cs hgood
    have hwf : Memory.wf (s.mend cs).mem = true := hm ▸ hcan.1
    refine ⟨_, exec_controlCoreAccess_good cs hhas hgood, fun i hi => get_memWrite_bytes hwf a bs hi, fun x hx => ?_⟩
    rw [get_memWrite_of_not hwf hx, hm]
  · intro s c line h
    change execLeaseExpiry c line s = _
    simp only [execLeaseExpiry, h, if_true]
  · intro s on
    exact ⟨{ s.rouse with lineMode := on }, rfl, by rw [rouse_eq]⟩
  · intro s a bs cs u hhas hne hmeet hpart hbad
    have hlen : 0 < bs.length := List.length_pos_iff.2 hne
    rw [exec_controlCoreAccess cs hhas, if_pos]
    refine ⟨by omega, u - a / 64, by omega, ?_, ?_⟩
    · omega
    · rw [Nat.add_sub_cancel' (by omega)]; exact hbad
  · intro s a bs n cs
    refine ⟨fun h => ?_, fun hup h => ?_, fun hup => ?_, fun hf => ⟨?_, ?_⟩⟩
    · change execControlCoreAccess a ⟨bs, cs⟩ s = _
      simp [execControlCoreAccess, h]
    · change execHostRead a ⟨n, cs, .host⟩ s = _
      simp [execHostRead, hup, h]
    · change execHostRead a ⟨n, cs, .host⟩ s = _
      simp [execHostRead, hup]
    · change execHostRead a ⟨n, cs, .fabric⟩ s = _
      simp [execHostRead, hf]
    · change execHostRead a ⟨n, cs, .storage⟩ s = _
      simp [execHostRead, hf]

end Sys2Proof.Device
end

section
/-! Completions of outstanding work (R57, R189, R191): O42. -/

namespace Sys2Proof.Device

open Sys2Proof Sys2Proof.Machine Sys2Proof.Claim

/-! A machine in which a lane waits on a unit of the scratchpad that no `barinit` made a barrier object: a copy into that unit keeps
the WT bit that the waiting lane sets (R31, R37), so that the bytes read there are not those copied. -/

/-- The wavelet that copies. -/
def copierId : WavId := ⟨0, 0, 0⟩

/-- Its one lane, which waits on the unit at offset 16 of its block's scratchpad. -/
def copier : Wavelet := { width := 1, lanes := [{ live := true, wait := .bar ⟨0, 0⟩ 16 0 .zero }] }

/-- Its block, on cluster 0, with 256 bytes of scratchpad, all 0, and no barrier object. -/
def copierEnv : Env :=
  { wid := copierId, wav := copier, blk := { task := 0, idx := 0, home := 0, at' := 0, width := 1 },
    span := { task := 0, ctx := 0, blocks := 1 },
    task := { ctx := 0, qid := 0, hdr := 0, regions := [], kern := BitVec.ofNat 256 (256 * 2 ^ 96), grid := 0, stage := .released },
    job := {} }

/-- A copy of four bytes from offset 0 of the scratchpad to offset 16. -/
def waitedCopy : Op := ⟨0, copierId, .cpl 0 0xFD00000000000000 0xFD00000000000010 4 .zero, 0⟩

/-- The machine. -/
def waitedState : State :=
  { wavs := [(copierId, copier)], blocks := [(⟨0, 0⟩, copierEnv.blk)], spans := [(0, copierEnv.span)], tasks := [(0, copierEnv.task)],
    ops := [waitedCopy], nextOp := 1 }

theorem copier_alive : Alive waitedState copierId copier := by
  refine ⟨rfl, ⟨rfl, by decide, rfl, fun x hx => ?_⟩, by decide, _, _, rfl, by decide, rfl, rfl⟩
  obtain rfl := List.mem_singleton.1 hx
  rfl

theorem waitedState_canonical : Canonical waitedState := by
  refine ⟨rfl, fun b hb => ?_, fun j hj => absurd hj List.not_mem_nil, fun v hv => ?_⟩
  · obtain rfl := List.mem_singleton.1 hb
    rfl
  · obtain rfl := List.mem_singleton.1 hv
    refine ⟨rfl, fun x hx => ?_⟩
    obtain rfl := List.mem_singleton.1 hx
    exact ⟨rfl, rfl, rfl, by decide⟩

/-- What stands at the destination after the copy. -/
def copiedBytes (r : Res) : Option Nat :=
  match r with
  | .next t => some (t.readLoc copierId 0 (.scr ⟨0, 0⟩ 16) 4)
  | _ => none

theorem copiedBytes_waited : copiedBytes (exec (.cplComplete 0) waitedState) = some 2 := by decide +kernel

/-- Refutes O42: a `cpl` into a unit that a lane waits on, though no `barinit` made it a barrier object, leaves that unit's WT bit
set, so that the bytes at its destination are not those of its source. -/
theorem not_fillEvents : ¬ Obligations.FillEvents := by
  rintro ⟨-, hcpl, -⟩
  obtain ⟨t, hrun, -, -, -, hcopied⟩ := hcpl 0 waitedState waitedCopy copierEnv 0 0xFD00000000000000 0xFD00000000000010 4 .zero
    rfl rfl rfl (by decide)
  have hsame : t.readLoc copierId 0 (.scr ⟨0, 0⟩ 16) 4 = waitedState.readLoc copierId 0 (.scr ⟨0, 0⟩ 0) 4 :=
    hcopied copier_alive waitedState_canonical { loc := .scr ⟨0, 0⟩ 0 } { loc := .scr ⟨0, 0⟩ 16 } (by decide +kernel) (by decide +kernel)
      rfl rfl fun b off h => ⟨copierEnv.blk, by cases h; rfl, fun u hu => absurd hu List.not_mem_nil⟩
  have htwo := copiedBytes_waited
  rw [hrun] at htwo
  have hzero : waitedState.readLoc copierId 0 (.scr ⟨0, 0⟩ 0) 4 = 0 := by decide +kernel
  rw [copiedBytes, hsame, hzero] at htwo
  exact absurd htwo (by decide)

end Sys2Proof.Device
end

section
/-! Faults, refetches and errors (R151, R165, R252 to R254): O44. -/

namespace Sys2Proof.Device

open Sys2Proof Sys2Proof.Machine Sys2Proof.Claim

variable {s : State} {w : WavId} {v : Wavelet} {e : Env}

/-! The environment of a wavelet. -/

/-- The parts of a wavelet's environment stand in the state. -/
theorem env?_parts (h : s.env? w = some e) : s.wav? w = some e.wav ∧ s.blk? w.block = some e.blk ∧ s.span? w.span = some e.span ∧
    s.task? e.span.task = some e.task ∧ e.job = s.job e.task.ctx ∧ e.wid = w := by
  unfold State.env? at h
  split at h
  · split at h
    · rename_i hv hb hp _ _ ht
      cases h
      exact ⟨hv, hb, hp, ht, rfl, rfl⟩
    · cases h
  · cases h

/-! Page faults (R151). -/

/-- A bundle whose faulted lanes are all answered goes on; nothing else of it changes. -/
theorem resume_eq (v : Wavelet) : v.resume = { v with stall := v.resume.stall } := by
  unfold Wavelet.resume
  split
  · split <;> rfl
  · rfl

theorem resume_stall {whole : Bool} (hs : v.stall = .fault whole) (hf : v.faults = []) (hi : v.integ = []) :
    v.resume.stall = .none := by
  simp [Wavelet.resume, hs, hf, hi]

/-- The strands' own pages that faulted lanes name are mapped; no other page is unmapped, and nothing else changes (R66). -/
theorem mapPrivs_spec (fs : List (Nat × W64)) (h : s.wav? w = some v) : ∃ ls, s.mapPrivs w fs = s.setWav w (v.withFiles ls v.w) ∧
    ∀ l, ∀ p ∈ (ls.getD l {}).absent, p ∈ (v.lane l).absent ∧
      ∀ x ∈ fs, x.1 = l → ∀ off, window x.2 = .priv off → ¬ (p.1 ≤ off ∧ off < p.1 + p.2) := by
  induction fs generalizing s v with
  | nil => exact ⟨v.lanes, (State.setWav_self h).symm, fun l p hp => ⟨hp, by simp⟩⟩
  | cons f fs ih =>
    have hcons : s.mapPrivs w (f :: fs) = State.mapPrivs (match window f.2 with
      | .priv off => s.modLane w f.1 (·.mapPriv off)
      | _ => s) w fs := rfl
    rw [hcons]
    split
    · rename_i off hoff
      obtain ⟨ls, hls, hall⟩ := ih (s := s.modLane w f.1 (·.mapPriv off)) (wav?_modLane h f.1 _)
      refine ⟨ls, ?_, fun l p hp => ?_⟩
      · rw [hls, State.modLane_eq _ _ h, State.setWav_setWav, Wavelet.withFiles_withFiles]
        rfl
      · obtain ⟨hin, hrest⟩ := hall l p hp
        rw [Wavelet.withFiles_lane, getD_listModify] at hin
        split at hin
        · rename_i hl
          simp only [Strand.mapPriv, List.mem_filter, Bool.not_eq_eq_eq_not, Bool.not_true, Bool.and_eq_false_iff,
            decide_eq_false_iff_not] at hin
          refine ⟨hin.1, List.forall_mem_cons.2 ⟨fun _ o ho => ?_, hrest⟩⟩
          rw [hoff] at ho
          cases ho
          omega
        · rename_i hl
          refine ⟨hin, List.forall_mem_cons.2 ⟨fun hfl o ho => ?_, hrest⟩⟩
          have hlen : ¬ l < v.lanes.length := fun hlt => hl ⟨hfl.symm, hlt⟩
          rw [List.getD_eq_default _ _ (Nat.not_lt.1 hlen)] at hin
          cases hin
    · rename_i hno
      obtain ⟨ls, hls, hall⟩ := ih h
      refine ⟨ls, hls, fun l p hp => ?_⟩
      obtain ⟨hin, hrest⟩ := hall l p hp
      exact ⟨hin, List.forall_mem_cons.2 ⟨fun _ o ho => absurd ho (hno o), hrest⟩⟩

/-- Page tables that Pewter changes leave the wavelets alone. -/
theorem mapPages_wavs {ctx : Nat} {ms : List Mapping} {u : State} (h : s.mapPages ctx ms = some u) : u.wavs = s.wavs := by
  unfold State.mapPages at h
  dsimp only at h
  split at h
  · cases h; rfl
  · cases h

theorem mapPages_wav? {ctx : Nat} {ms : List Mapping} {u : State} (h : s.mapPages ctx ms = some u) (w : WavId) :
    u.wav? w = s.wav? w := by
  unfold State.wav?
  rw [mapPages_wavs h]

/-- Pages are mapped for the faulted lanes, and they go on (R151). -/
theorem exec_faultResolve {whole : Bool} {maps : List Mapping} {u : State} (he : s.env? w = some e) (hs : e.wav.stall = .fault whole)
    (hf : e.wav.faults ≠ []) (hm : s.mapPages e.task.ctx maps = some u) :
    ∃ t v, exec (.faultResolve w maps) s = .next t ∧ t.wav? w = some v ∧ v.faults = [] ∧ v.replay = e.wav.replay ∧
      (e.wav.integ = [] → v.stall = .none) ∧ t.job e.task.ctx = u.job e.task.ctx ∧
      ∀ x ∈ e.wav.faults, ∀ off, window x.2 = .priv off → ∀ p ∈ (v.lane x.1).absent, ¬ (p.1 ≤ off ∧ off < p.1 + p.2) := by
  have hw : u.wav? w = some e.wav := (mapPages_wav? hm w).trans (env?_parts he).1
  obtain ⟨ls, hls, habs⟩ := mapPrivs_spec e.wav.faults hw
  have hrun : exec (.faultResolve w maps) s =
      .next ((u.mapPrivs w e.wav.faults).modWav w fun v => { v with faults := [] }.resume) := by
    change execFaultResolve w maps s = _
    simp only [execFaultResolve, he, hs, hm]
    exact if_neg (by simpa using hf)
  have hwav : ((u.mapPrivs w e.wav.faults).modWav w fun v => { v with faults := [] }.resume).wav? w =
      some { e.wav.withFiles ls e.wav.w with faults := [] }.resume := by
    rw [hls, State.modWav_eq _ (v := e.wav.withFiles ls e.wav.w) (by simp)]
    simp
  refine ⟨_, _, hrun, hwav, by rw [resume_eq], by rw [resume_eq]; rfl, fun hi => resume_stall hs rfl hi, ?_, fun x hx off ho p hp => ?_⟩
  · unfold State.job
    rw [State.modWav_jobs, hls, State.setWav_jobs]
  · rw [resume_eq] at hp
    exact (habs x.1 p hp).2 x hx rfl off ho

/-! Refetches (R165). -/

theorem wav?_modWav (f : Wavelet → Wavelet) (h : s.wav? w = some v) : (s.modWav w f).wav? w = some (f v) := by
  rw [State.modWav_eq _ h, State.wav?_setWav, if_pos rfl]

/-- The failed lanes of an access are performed again after the refetch of their units. -/
theorem exec_integrityRefetch {whole : Bool} (copies : List GoodCopy) (hv : s.wav? w = some v) (hs : v.stall = .fault whole)
    (hi : v.integ ≠ []) : ∃ t y, exec (.integrityRefetch w copies) s = .next t ∧ t.wav? w = some y ∧ y.integ = [] ∧ y.tried = v.tried ∧
      (v.faults = [] → y.stall = .none) ∧ t.mem = (s.mend copies).mem ∧ t.checks = (s.mend copies).checks := by
  obtain ⟨v', hv', hm⟩ := (refetched_mend s copies).2.1 w v hv
  have hrun : exec (.integrityRefetch w copies) s = .next ((s.mend copies).modWav w fun v => { v with integ := [] }.resume) := by
    change execIntegrityRefetch w copies s = _
    simp [execIntegrityRefetch, hv, hs, hi]
  refine ⟨_, _, hrun, wav?_modWav _ hv', by rw [resume_eq], ?_, fun hf => ?_, by simp, by simp⟩
  · rw [resume_eq]
    show v'.tried = _
    rw [hm]
  · refine resume_stall (whole := whole) ?_ ?_ rfl
    · show v'.stall = _
      rw [hm]; exact hs
    · show v'.faults = _
      rw [hm]; exact hf

/-- A bundle that waits for its word's unit issues the word after the refetch. -/
theorem exec_integrityRefetch_check (copies : List GoodCopy) (hv : s.wav? w = some v) (hs : v.stall = .check) :
    ∃ t y, exec (.integrityRefetch w copies) s = .next t ∧ t.wav? w = some y ∧ y.stall = .none ∧ y.retried = true ∧
      t.mem = (s.mend copies).mem := by
  obtain ⟨v', hv', -⟩ := (refetched_mend s copies).2.1 w v hv
  have hrun : exec (.integrityRefetch w copies) s =
      .next ((s.mend copies).modWav w fun v => { v with stall := .none, retried := true }) := by
    change execIntegrityRefetch w copies s = _
    simp [execIntegrityRefetch, hv, hs]
  exact ⟨_, _, hrun, wav?_modWav _ hv', rfl, rfl, by simp⟩

/-- One copy of a failing unit is refetched alone. -/
theorem mend_single (x : GoodCopy) : s.mend [x] = s.mendUnit [x] x.unit := by
  simp [State.mend, List.eraseDups_cons]

theorem mayServe_src {x : GoodCopy} (h : s.mayServe x = true) : x.bytes.length = 64 ∧ (x.src = 0 ∨ x.src = 1 ∨ x.src = 2) := by
  unfold State.mayServe at h
  simp only [Bool.and_eq_true, beq_iff_eq] at h
  refine ⟨h.1, ?_⟩
  have h2 := h.2
  split at h2
  · exact .inl ‹_›
  · exact .inr (.inl ‹_›)
  · exact .inr (.inr ‹_›)
  · cases h2

/-- A copy that may serve and passes the check replaces its failing unit; no other changes anything (R165). -/
theorem mendUnit_single {x : GoodCopy} (hb : s.badKey x.unit = true) :
    s.mendUnit [x] x.unit = if s.mayServe x = true ∧ s.checkOf x.unit = some (crc32c x.bytes) then
      { s.putUnit x.bytes x.unit with refetched := s.refetched + 1 } else s := by
  split
  · rename_i h
    obtain ⟨hm, hc⟩ := h
    have hfound : ([0, 1, 2].findSome? fun k => [x].find? fun c =>
        c.src == k && (c.unit == x.unit && s.mayServe c && s.checkOf x.unit == some (crc32c c.bytes))) = some x := by
      rcases (mayServe_src hm).2 with h | h | h <;> simp [h, hm, hc]
    unfold State.mendUnit
    rw [if_neg (by simp [hb])]
    dsimp only
    rw [hfound]
  · rename_i h
    rcases mendUnit_cases s [x] x.unit with he | ⟨-, c, hc, ⟨-, hm, hcheck⟩, -⟩
    · exact he
    · obtain rfl := List.mem_singleton.1 hc
      exact absurd ⟨hm, hcheck⟩ h

/-- A unit of memory that takes 64 bytes holds them and passes its check. -/
theorem putUnit_phys {bs : List Byte} (hwf : Memory.wf s.mem = true) (hl : bs.length = 64) (n : Nat) :
    (s.putUnit bs (.phys n)).badUnit n = false ∧
      ∀ i, i < 64 → Sparse.get 0 (s.putUnit bs (.phys n)).mem (64 * n + i) = bs.getD i 0 := by
  refine ⟨badUnit_memWrite s n _, fun i hi => ?_⟩
  have h := get_memWrite_bytes hwf (64 * n) bs (hl ▸ hi)
  rw [hl] at h
  exact h

/-- The count of refetches is no part of memory: a unit passes its check, and holds its bytes, under any count. -/
theorem goodUnit_setRefetched {u : State} {bs : List Byte} (k n : Nat)
    (h : u.badUnit n = false ∧ ∀ i, i < 64 → Sparse.get 0 u.mem (64 * n + i) = bs.getD i 0) :
    ({ u with refetched := k } : State).badUnit n = false ∧
      ∀ i, i < 64 → Sparse.get 0 ({ u with refetched := k } : State).mem (64 * n + i) = bs.getD i 0 := h

theorem refetch_single {x : GoodCopy} (hb : s.badKey x.unit = true) (hcan : Canonical s) :
    if s.mayServe x = true ∧ s.checkOf x.unit = some (crc32c x.bytes) then
      (s.mend [x]).refetched = s.refetched + 1 ∧ ∀ n, x.unit = .phys n → (s.mend [x]).badUnit n = false ∧
        ∀ i, i < 64 → Sparse.get 0 (s.mend [x]).mem (64 * n + i) = x.bytes.getD i 0
    else s.mend [x] = s := by
  rw [mend_single, mendUnit_single hb]
  split
  · rename_i h
    refine ⟨rfl, fun n hn => ?_⟩
    rw [hn]
    exact goodUnit_setRefetched _ n (putUnit_phys hcan.1 (mayServe_src h.1).1 n)
  · rfl

/-! Instruction words that cannot be fetched (R252, R13). -/

/-- A wavelet whose span runs and whose grid has not ended does not stop at a boundary. -/
theorem standAt_of_runs (x : Wavelet) (he : s.env? w = some e) (h : RunsOn e) : (s.setWav w x).standAt w = s.setWav w x := by
  obtain ⟨-, -, hp, ht, -, -⟩ := env?_parts he
  obtain ⟨hstage, hcause, -, -⟩ := h
  have hp' : (s.setWav w x).span? w.span = some e.span := hp
  have ht' : (s.setWav w x).task? e.span.task = some e.task := ht
  simp [State.standAt, hp', ht', hstage, hcause]

theorem exec_fetchFault {v : Wavelet} (he : s.env? w = some e) (hb : Wavelet.begin e.wav = some v) (hf : s.fetch e (Wavelet.pc v) = none)
    (h : s.wordFails e (Wavelet.pc v) = false ∨ v.retried = false) : exec (.fetchFault w) s =
      .next ((s.setWav w { v with stall := if s.wordFails e (Wavelet.pc v) then .check else .fetch }).standAt w) := by
  change execFetchFault w s = _
  simp only [execFetchFault, he, hb, hf, Option.isSome_none, Bool.false_eq_true, if_false]
  cases hw : s.wordFails e (Wavelet.pc v) with
  | false => rfl
  | true =>
    rcases h with h | h
    · rw [hw] at h; cases h
    · simp only [h, Bool.not_true, Bool.false_eq_true, if_false, if_true]

theorem fetch_of_wordFails {pc : W64} (h : s.wordFails e pc = true) : s.fetch e pc = none := by
  simp [State.fetch, h]

/-! Grids that end (R253). -/

theorem task?_discard (n m : Nat) : (s.discard n).task? m = s.task? m := by
  have key : ∀ (cls : List Nat) (u : State), (u.reclock cls).tasks = u.tasks := by
    intro cls
    induction cls with
    | nil => intro u; rfl
    | cons c cls ih => intro u; exact ih _
  unfold State.discard State.task?
  rw [key]

theorem task?_sweep (n m : Nat) : (s.sweep n).task? m = s.task? m := by
  unfold State.sweep
  split
  · split
    · exact task?_discard n m
    · rfl
  · rfl

theorem task?_setTask (n m : Nat) (t : Task) : (s.setTask n t).task? m = if n = m then some t else s.task? m := Assoc.get?_put ..

theorem task?_modTask {n : Nat} {t : Task} (f : Task → Task) (h : s.task? n = some t) : (s.modTask n f).task? n = some (f t) := by
  simp only [State.modTask, h, task?_setTask, if_true]

/-- The grid of a wavelet ends with the first trap context that is kept. -/
theorem suspend_task (k : Kept) (he : s.env? w = some e) (hc : e.task.cause = 0) :
    ∃ x, (s.suspend w k).task? e.span.task = some x ∧ x.cause = k.cause ∧ x.kept = some k := by
  obtain ⟨-, -, hp, ht, -, -⟩ := env?_parts he
  have ht' : ((s.modWav w fun v => { v with stopped := true, run := none, stall := .none }).haltGrid e.span.task).task? e.span.task =
      some e.task := by
    unfold State.haltGrid State.task?
    rw [State.modWav_tasks]
    exact ht
  refine ⟨{ e.task with cause := k.cause, kept := some k }, ?_, rfl, rfl⟩
  simp only [State.suspend, hp]
  rw [task?_sweep, task?_modTask _ ht']
  simp [hc]

/-- Pewter supplies no page for a word: the grid ends with `E_FETCH`. -/
theorem exec_fetchFaultResolved_none {r : Run} (he : s.env? w = some e) (hs : e.wav.stall = .fetch) (hr : e.wav.run = some r)
    (hc : e.task.cause = 0) : ∃ t k, exec (.fetchFaultResolved w none) s = .next t ∧ t.task? e.span.task = some k ∧ k.cause = eFetch ∧
      ∃ c, k.kept = some c ∧ c.cause = eFetch ∧ c.epc = Wavelet.pc e.wav ∧ c.fmask = Mask.ofLanes (bundle e r) ∧
        c.addrs = (bundle e r).map fun l => (l, Wavelet.pc e.wav) := by
  obtain ⟨x, hx, hcause, hkept⟩ := suspend_task (keptOf eFetch (Wavelet.pc e.wav) ((bundle e r).map fun l => (l, Wavelet.pc e.wav))) he hc
  refine ⟨_, x, ?_, hx, hcause, _, hkept, rfl, rfl, ?_, rfl⟩
  · change execFetchFaultResolved w none s = _
    simp only [execFetchFaultResolved, he, hs, hr]
    rfl
  · simp [keptOf, Function.comp_def]

/-- Settles O44: each event by its own lemma above; those that change nothing further by their definition. -/
theorem faultEvents : Obligations.FaultEvents := by
  refine ⟨?_, ?_, ?_, ?_, ?_, ?_, ?_, ?_, ?_, ?_, ?_, ?_⟩
  · exact fun w s e whole maps u he hs hf hm => exec_faultResolve he hs hf hm
  · intro w s v whole hv hs hf
    refine ⟨if whole then {} else { marked := some (Mask.ofLanes (v.faults.map (·.1))), held := v.heldBack, abandon := v.marks }, ?_,
      fun hw => by simp [hw]⟩
    change execFaultDecline w s = _
    simp only [execFaultDecline, hv, hs]
    exact if_neg (by simpa using hf)
  · exact fun w s v whole copies hv hs hi => exec_integrityRefetch copies hv hs hi
  · exact fun w s v copies hv hs => exec_integrityRefetch_check copies hv hs
  · exact fun s x hb hcan => refetch_single hb hcan
  · intro w s e v he hb hf h
    refine ⟨_, exec_fetchFault he hb hf h, fun hr => ?_⟩
    rw [standAt_of_runs _ he hr]
    exact ⟨_, (State.wav?_setWav ..).trans (if_pos rfl), rfl, rfl, rfl⟩
  · intro w s e v r he hb hr hw hre
    change execFetchFault w s = _
    simp only [execFetchFault, he, hb, fetch_of_wordFails hw, hw, hre, hr, Option.isSome_none, Bool.false_eq_true, if_false,
      Bool.not_true, if_true]
  · intro w s e r m u he hs hr hm
    refine ⟨_, _, ?_, wav?_modWav (fun v => { v with stall := .none }) ((mapPages_wav? hm w).trans (env?_parts he).1), rfl⟩
    change execFetchFaultResolved w (some m) s = _
    simp only [execFetchFaultResolved, he, hs, hr, hm]
  · exact fun w s e r he hs hr hc => exec_fetchFaultResolved_none he hs hr hc
  · intro w s e he hc
    obtain ⟨x, hx, hcause, -⟩ := suspend_task
      (keptOf eIntegrity e.wav.epc ((e.wav.fmask.lanes e.wav.width).map fun l => (l, (e.wav.lane l).faddr))) he hc
    refine ⟨_, x, ?_, hx, hcause⟩
    change execUncorrectableStateError w s = _
    simp only [execUncorrectableStateError, (env?_parts he).1]
  · intro n s o ho
    change execUncorrectableErrorInFlight n s = _
    simp only [execUncorrectableErrorInFlight, ho]
  · exact fun n s => rfl

end Sys2Proof.Device
end

section
/-! The arbiter, slices, grace periods and pre-emption (R43, R247, R248). -/

namespace Sys2Proof.Device

open Sys2Proof Sys2Proof.Machine Sys2Proof.Claim

variable {s t : State}

/-! Lookups in association lists. -/

/-- Where no key is listed twice, what is listed is found. -/
theorem get?_of_mem_nodup {α β : Type} [DecidableEq α] {xs : List (α × β)} {k : α} {v : β} (hn : (xs.map (·.1)).Nodup)
    (h : (k, v) ∈ xs) : Assoc.get? xs k = some v := by
  induction xs with
  | nil => cases h
  | cons x xs ih =>
    obtain ⟨hx, hxs⟩ := List.nodup_cons.1 hn
    rcases List.mem_cons.1 h with rfl | h
    · simp [Assoc.get?]
    · have hne : x.1 ≠ k := fun e => hx (List.mem_map.2 ⟨_, h, e.symm⟩)
      simpa [Assoc.get?, hne] using ih hxs h

/-- A lookup in a list whose values are changed, each by its key and value. -/
theorem get?_map_values {α β : Type} [DecidableEq α] (g : α × β → β) (xs : List (α × β)) (k : α) :
    Assoc.get? (xs.map fun x => (x.1, g x)) k = (Assoc.get? xs k).map fun v => g (k, v) := by
  induction xs with
  | nil => rfl
  | cons x xs ih =>
    obtain ⟨k', v⟩ := x
    by_cases h : k' = k
    · subst h; simp [Assoc.get?]
    · simp [Assoc.get?, h, ih]

theorem job_of_mem (hn : (s.jobs.map (·.1)).Nodup) {c : Nat} {j : Job} (h : (c, j) ∈ s.jobs) : s.job c = j := by
  simp [State.job, get?_of_mem_nodup hn h]

/-! ARBITER_SELECT (R247). -/

theorem mem_behind {α : Type} (p : α → Bool) (xs : List α) (x : α) : x ∈ behind p xs ↔ x ∈ xs := by
  unfold behind
  split
  · rename_i i _
    rw [List.mem_append, or_comm, ← List.mem_append, List.take_append_drop]
  · rfl

/-- The oldest ready task of a queue is a queued task of its process. -/
theorem readyIn_spec (hn : (s.tasks.map (·.1)).Nodup) {c q n : Nat} (h : s.readyIn c q = some n) :
    ∃ x, s.task? n = some x ∧ x.ctx = c ∧ x.stage = .queued := by
  obtain ⟨⟨m, x⟩, hx, rfl⟩ := Option.map_eq_some_iff.1 h
  have hp := List.find?_some hx
  simp only [Bool.and_eq_true, beq_iff_eq] at hp
  obtain ⟨⟨⟨hctx, -⟩, hstage⟩, -⟩ := hp
  exact ⟨x, get?_of_mem_nodup hn (List.mem_of_find?_eq_some hx), hctx, hstage⟩

/-- The queue that is served next has the task that it gives. -/
theorem pickQueue_readyIn {c n : Nat} {j : Job} {q : Queue} (h : s.pickQueue c j = some (q, n)) : s.readyIn c q.qid = some n := by
  obtain ⟨q', -, hq⟩ := List.mem_filterMap.1 (List.mem_of_find?_eq_some h)
  obtain ⟨m, hm, he⟩ := Option.map_eq_some_iff.1 hq
  cases he
  exact hm

/-- Where processes of a function have ready tasks, one of these processes is served next. -/
theorem pickJob_ready {v : Nat} (h : s.readyJobs v ≠ []) : ∃ c d j, s.pickJob v = some (c, d) ∧ (c, j) ∈ s.readyJobs v := by
  unfold State.pickJob
  dsimp only
  split
  · rename_i j hj
    exact ⟨_, _, j.2, rfl, List.mem_of_find?_eq_some hj⟩
  · obtain ⟨j, hj⟩ := List.exists_mem_of_ne_nil _ h
    obtain ⟨hjobs, hv⟩ := List.mem_filter.1 hj
    have hin : j ∈ behind (fun x => some x.1 == Assoc.get? s.lastJob v) (s.jobs.filter fun x => x.2.vf == v) :=
      (mem_behind _ _ _).2 (List.mem_filter.2 ⟨hjobs, (Bool.and_eq_true_iff.1 hv).1⟩)
    obtain ⟨x, hx⟩ := Option.isSome_iff_exists.1 ((List.find?_isSome
      (p := fun x : Nat × Job => (s.readyJobs v).any fun y => y.1 == x.1)).2 ⟨j, hin, List.any_eq_true.2 ⟨j, hj, beq_self_eq_true j.1⟩⟩)
    obtain ⟨y, hy, hyx⟩ := List.any_eq_true.1 (List.find?_some (p := fun x : Nat × Job => (s.readyJobs v).any fun y => y.1 == x.1) hx)
    exact ⟨x.1, _, y.2, by rw [hx]; rfl, beq_iff_eq.1 hyx ▸ hy⟩

theorem modTask_turn (n : Nat) (f : Task → Task) : (s.modTask n f).turn = s.turn := by unfold State.modTask; split <;> rfl

/-- ARBITER_SELECT chooses a queued task of a process of the first function that has ready work, which then has the turn. -/
theorem exec_arbiterSelect {v : Nat} (hj : (s.jobs.map (·.1)).Nodup) (ht : (s.tasks.map (·.1)).Nodup)
    (hsel : ∀ t ∈ s.tasks, t.2.stage ≠ .selected)
    (hv : s.vfOrder.find? (fun v => s.hasWork v || !(s.readyJobs v).isEmpty) = some v) (hready : s.readyJobs v ≠ []) :
    ∃ t n x, exec .arbiterSelect s = .next t ∧ s.task? n = some x ∧ x.stage = .queued ∧
      t.task? n = some { x with stage := .selected } ∧ (s.job x.ctx).vf = v ∧ t.turn = v := by
  obtain ⟨c, d, j, hpick, hmem⟩ := pickJob_ready hready
  obtain ⟨hjob, hjv⟩ := List.mem_filter.1 hmem
  obtain ⟨hvf, hsome⟩ := Bool.and_eq_true_iff.1 hjv
  obtain ⟨⟨q, n⟩, hq⟩ := Option.isSome_iff_exists.1 hsome
  have hcj := job_of_mem hj hjob
  obtain ⟨x, hx, hctx, hstage⟩ := readyIn_spec ht (pickQueue_readyIn hq)
  have hno : s.tasks.any (fun t => t.2.stage == .selected) = false := List.any_eq_false.2 fun t h => by simpa using hsel t h
  obtain ⟨hturn, hpass⟩ := State.passTurn_spec (s := s) v
  have hrun : ∃ u : State, exec .arbiterSelect s = .next (u.modTask n fun k => { k with stage := .selected }) ∧
      u.tasks = (s.passTurn v).tasks ∧ u.turn = (s.passTurn v).turn := by
    change ∃ u : State, execArbiterSelect s = _ ∧ _
    unfold execArbiterSelect
    rw [← hcj] at hq
    simp only [hno, Bool.false_eq_true, if_false, hv, hpick, hq]
    exact ⟨_, rfl, rfl, rfl⟩
  obtain ⟨u, hu, htasks, hut⟩ := hrun
  have hux : u.task? n = some x := by rw [← hx, State.task?, htasks, hpass]; rfl
  exact ⟨_, n, x, hu, hx, hstage, task?_modTask _ hux, by rw [hctx, hcj]; exact beq_iff_eq.1 hvf, by rw [modTask_turn, hut, hturn]⟩

/-! Time passes (R247). -/

/-- A process whose waits for counts that have been reached have returned (R242). -/
def returned (s : State) (j : Nat × Job) : Job :=
  if j.2.waits.any (s.reached j.1) then { j.2 with a0 := 0, waits := j.2.waits.filter fun w => !s.reached j.1 w } else j.2

theorem returned_eq (s : State) (j : Nat × Job) : returned s j = { j.2 with a0 := (returned s j).a0, waits := (returned s j).waits } := by
  unfold returned
  split <;> rfl

theorem pollWaits_jobs : s.pollWaits.jobs = s.jobs.map fun j => (j.1, returned s j) := by
  refine List.map_congr_left fun j _ => ?_
  unfold returned
  by_cases h : j.2.waits.any (s.reached j.1) = true
  · rw [if_pos h, if_pos h]
  · rw [if_neg h, if_neg h]

/-- Of a process a return changes the result and the waits alone. -/
theorem pollWaits_job (ctx : Nat) :
    s.pollWaits.job ctx = { s.job ctx with a0 := (s.pollWaits.job ctx).a0, waits := (s.pollWaits.job ctx).waits } := by
  unfold State.job
  rw [pollWaits_jobs, get?_map_values]
  cases Assoc.get? s.jobs ctx with
  | none => rfl
  | some j => exact returned_eq s (ctx, j)

theorem readyJobs_pollWaits (v : Nat) : (s.pollWaits.readyJobs v).isEmpty = (s.readyJobs v).isEmpty := by
  unfold State.readyJobs
  have hpick : ∀ j : Nat × Job, s.pollWaits.pickQueue j.1 (returned s j) = s.pickQueue j.1 j.2 := fun j => by rw [returned_eq]; rfl
  have hvf : ∀ j : Nat × Job, (returned s j).vf = j.2.vf := fun j => by rw [returned_eq]
  rw [pollWaits_jobs, List.filter_map, List.isEmpty_map]
  congr 2
  funext j
  simp only [Function.comp_apply, hpick, hvf]

/-- A wait that returns is no work of its function. -/
theorem hasWork_pollWaits (v : Nat) : s.pollWaits.hasWork v = s.hasWork v := by
  have hvf : ∀ ctx, (s.pollWaits.job ctx).vf = (s.job ctx).vf := fun ctx => by rw [pollWaits_job]
  unfold State.hasWork
  simp only [readyJobs_pollWaits, hvf]
  rfl

/-- As time passes a function without ready work gives up its slice to the next that has some. -/
theorem tick_turn {v : Nat} (hvfs : s.vfs ≠ []) (hno : s.hasWork s.turn = false) (hv : s.vfOrder.find? s.hasWork = some v) :
    s.tick.turn = v := by
  have hwork : State.hasWork (State.pollWaits { s with steps := s.steps + 1 }) = s.hasWork := funext fun u => hasWork_pollWaits u
  have hfind : (State.pollWaits { s with steps := s.steps + 1 }).vfOrder.find? (State.pollWaits { s with steps := s.steps + 1 }).hasWork = some v := by
    rw [hwork]; exact hv
  unfold State.tick State.yieldTurn
  rw [hfind, hwork]
  rw [if_neg]
  · exact (State.passTurn_spec v).1
  · change ¬ (s.vfs.isEmpty || s.hasWork s.turn) = true
    simp [hvfs, hno]

/-! Slices (R247). -/

theorem mem_vfOrder {v : Nat} : v ∈ s.vfOrder ↔ v ∈ s.vfIds := by
  unfold State.vfOrder
  rw [List.mem_append, or_comm, ← List.mem_append, List.takeWhile_append_dropWhile]

/-- The slice of a function that has turns ends, and the next function has the turn; alone, it keeps it. -/
theorem exec_vfSliceExpiry (hvfs : s.vfs ≠ []) (hturn : s.turn ∈ s.vfIds) : ∃ v, exec .vfSliceExpiry s = .next (s.endSlice v (·.slice)) ∧
    ∀ a b rest, s.vfOrder = a :: b :: rest → v = b := by
  have hs : s.sliced = true := by simp [State.sliced, hvfs, hturn]
  change ∃ v, execVfSliceExpiry s = _ ∧ _
  unfold execVfSliceExpiry
  simp only [hs, Bool.not_true, Bool.false_eq_true, if_false]
  split
  · exact ⟨_, rfl, fun a b rest h => by simp_all⟩
  · rename_i hne
    exact ⟨_, rfl, fun a b rest h => absurd h (hne a b rest)⟩

/-- The function whose slice ends has received it. -/
theorem mem_endSlice {v : Vf} (vf : Nat) (time : Vf → Nat) (h : s.vfs.find? (fun x => x.id == s.turn) = some v) :
    { v with time := v.time + time v } ∈ (s.endSlice vf time).vfs := by
  refine List.mem_map.2 ⟨v, List.mem_of_find?_eq_some h, if_pos (List.find?_some h)⟩

/-- Where the turn passes to another function, the one that had it has a grace period. -/
theorem grace_endSlice {vf : Nat} (time : Vf → Nat) (h : vf ≠ s.turn) : ∃ d, (s.turn, d) ∈ (s.endSlice vf time).grace := by
  unfold State.endSlice
  simp [h]

theorem vfs_endSlice_unset {vf : Nat} (time : Vf → Nat) (h : ∀ v ∈ s.vfs, v.id ≠ s.turn) : (s.endSlice vf time).vfs = s.vfs := by
  refine (List.map_congr_left fun v hv => ?_).trans (List.map_id _)
  simp [h v hv]

/-! Pre-emption (R43) and the end of a grace period (R247). -/

/-- What a span that is asked to stop can change: spans, wavelets, claims and clocks. -/
def Stopped (s t : State) : Prop := t = { s with spans := t.spans, wavs := t.wavs, claims := t.claims, clusters := t.clusters }

theorem Stopped.trans {u : State} (h : Stopped s t) (k : Stopped t u) : Stopped s u := by
  unfold Stopped at *
  rw [k, h]

theorem Stopped.turn (h : Stopped s t) : t.turn = s.turn := by rw [h]
theorem Stopped.mem (h : Stopped s t) : t.mem = s.mem := by rw [h]

/-- Renewing clocks changes the clusters alone. -/
theorem reclock_eq (s : State) (cls : List Nat) : s.reclock cls = { s with clusters := (s.reclock cls).clusters } := by
  unfold State.reclock
  induction cls generalizing s with
  | nil => rfl
  | cons c cls ih =>
    rw [List.foldl_cons, ih]
    rfl

theorem stopped_modSpan (s : State) (n : Nat) (f : Span → Span) : Stopped s (s.modSpan n f) := by
  unfold State.modSpan
  split <;> rfl

theorem stopped_reclock (s : State) (cls : List Nat) : Stopped s (s.reclock cls) := by
  unfold Stopped
  rw [reclock_eq]

theorem stopped_trySave (s : State) (n : Nat) : Stopped s (s.trySave n) := by
  unfold State.trySave
  split
  · split
    · exact (stopped_modSpan s n _).trans (Stopped.trans (t := { s.modSpan n _ with wavs := _ }) rfl (stopped_reclock _ _))
    · rfl
  · rfl

theorem stopped_stopSpan (s : State) (n : Nat) : Stopped s (s.stopSpan n) := by
  unfold State.stopSpan
  exact (stopped_modSpan s n _).trans (Stopped.trans (t := { s.modSpan n _ with wavs := _, claims := _ }) rfl (stopped_trySave _ _))

theorem span?_modSpan (s : State) (n m : Nat) (f : Span → Span) :
    (s.modSpan n f).span? m = if n = m then (s.span? m).map f else s.span? m := by
  unfold State.modSpan
  split
  · rename_i p hp
    refine (Assoc.get?_put ..).trans ?_
    split
    · subst n; rw [hp]; rfl
    · rfl
  · rename_i hp
    split
    · subst n; rw [hp]; rfl
    · rfl

theorem span?_reclock (s : State) (cls : List Nat) (m : Nat) : (s.reclock cls).span? m = s.span? m := by
  rw [reclock_eq]; rfl

/-- A span that is stopping or saved. -/
def Leaving (s : State) (n : Nat) : Prop := ∃ q, s.span? n = some q ∧ (q.stage = .stopping ∨ q.stage = .saved)

/-- A span is saved or stays; no other changes. -/
theorem span?_trySave (s : State) (n m : Nat) : (s.trySave n).span? m = s.span? m ∨
    n = m ∧ (s.trySave n).span? m = (s.span? m).map fun p => { p with stage := .saved } := by
  unfold State.trySave
  split
  · split
    · rw [span?_reclock]
      have h := span?_modSpan s n m fun p => { p with stage := .saved }
      by_cases hm : n = m
      · exact .inr ⟨hm, h.trans (if_pos hm)⟩
      · exact .inl (h.trans (if_neg hm))
    · exact .inl rfl
  · exact .inl rfl

theorem leaving_trySave {n m : Nat} (h : Leaving s m) : Leaving (s.trySave n) m := by
  obtain ⟨q, hq, hstage⟩ := h
  rcases span?_trySave s n m with h | ⟨-, h⟩
  · exact ⟨q, h.trans hq, hstage⟩
  · exact ⟨{ q with stage := .saved }, h.trans (by rw [hq]; rfl), .inr rfl⟩

/-- A span that is asked to stop is stopping or saved. -/
theorem leaving_stopSpan {n : Nat} {p : Span} (h : s.span? n = some p) : Leaving (s.stopSpan n) n := by
  refine leaving_trySave ⟨_, (span?_modSpan ..).trans ((if_pos rfl).trans (congrArg _ h)), ?_⟩
  cases hp : p.stage <;> simp [hp]

theorem span?_stopSpan_of_ne {n m : Nat} (h : n ≠ m) : (s.stopSpan n).span? m = s.span? m := by
  unfold State.stopSpan
  rcases span?_trySave { s.modSpan n _ with wavs := _, claims := _ } n m with hk | ⟨he, -⟩
  · exact hk.trans ((span?_modSpan ..).trans (if_neg h))
  · exact absurd he h

theorem stopped_foldl_stopSpan (ps : List (Nat × Span)) (s : State) : Stopped s (ps.foldl (fun s p => s.stopSpan p.1) s) := by
  induction ps generalizing s with
  | nil => rfl
  | cons p ps ih => exact (stopped_stopSpan s p.1).trans (ih _)

theorem span?_foldl_stopSpan_of_not {m : Nat} (ps : List (Nat × Span)) (s : State) (h : ∀ p ∈ ps, p.1 ≠ m) :
    (ps.foldl (fun s p => s.stopSpan p.1) s).span? m = s.span? m := by
  induction ps generalizing s with
  | nil => rfl
  | cons p ps ih =>
    obtain ⟨hp, hps⟩ := List.forall_mem_cons.1 h
    exact (ih _ hps).trans (span?_stopSpan_of_ne hp)

/-- Of the spans that are asked to stop each is then stopping or saved. -/
theorem leaving_foldl_stopSpan {m : Nat} (ps : List (Nat × Span)) (s : State) (h : (∃ p, s.span? m = some p) ∧ (Leaving s m ∨ ∃ p ∈ ps, p.1 = m)) :
    Leaving (ps.foldl (fun s p => s.stopSpan p.1) s) m := by
  induction ps generalizing s with
  | nil => simpa using h.2
  | cons p ps ih =>
    obtain ⟨⟨q, hq⟩, h⟩ := h
    refine ih _ ?_
    by_cases hp : p.1 = m
    · have hl : Leaving (s.stopSpan p.1) m := hp ▸ leaving_stopSpan (hp ▸ hq)
      exact ⟨hl.imp fun _ h => h.1, .inl hl⟩
    · have hsame : (s.stopSpan p.1).span? m = s.span? m := span?_stopSpan_of_ne hp
      refine ⟨⟨q, hsame.trans hq⟩, h.imp (fun ⟨r, hr⟩ => ⟨r, hsame.trans hr.1, hr.2⟩) fun ⟨r, hr, hrm⟩ => ?_⟩
      rcases List.mem_cons.1 hr with rfl | hr
      · exact absurd hrm hp
      · exact ⟨r, hr, hrm⟩

/-- The first of those with the least second part is one of them and has it. -/
theorem foldl_least (gs : List (Nat × Nat)) (g : Nat × Nat) :
    gs.foldl (fun a b => if b.2 < a.2 then b else a) g ∈ g :: gs ∧
      ∀ x ∈ g :: gs, (gs.foldl (fun a b => if b.2 < a.2 then b else a) g).2 ≤ x.2 := by
  induction gs generalizing g with
  | nil => simp
  | cons b gs ih =>
    obtain ⟨hin, hle⟩ := ih (if b.2 < g.2 then b else g)
    obtain ⟨hhead, htail⟩ := List.forall_mem_cons.1 hle
    have hboth : (if b.2 < g.2 then b else g).2 ≤ b.2 ∧ (if b.2 < g.2 then b else g).2 ≤ g.2 := by split <;> omega
    rw [List.foldl_cons]
    refine ⟨?_, List.forall_mem_cons.2 ⟨hhead.trans hboth.2, List.forall_mem_cons.2 ⟨hhead.trans hboth.1, htail⟩⟩⟩
    rcases List.mem_cons.1 hin with h | h
    · rw [h]; split <;> simp
    · exact List.mem_cons_of_mem _ (List.mem_cons_of_mem _ h)

/-- The grace period that ends first is that of a function whose due period ends before every other one. -/
theorem graceDue_eq {v d : Nat} (hmem : (v, d) ∈ s.grace) (hturn : v ≠ s.turn) (hspans : s.spansOf v ≠ [])
    (hwork : ∃ u ∈ s.vfOrder, u ≠ v ∧ s.hasWork u = true) (hfirst : ∀ g ∈ s.grace, g.1 ≠ v → d < g.2) : s.graceDue = some v := by
  unfold State.graceDue
  have hdue : (v, d) ∈ s.grace.filter fun g => g.1 != s.turn && !(s.spansOf g.1).isEmpty && s.vfOrder.any fun v => v != g.1 && s.hasWork v := by
    obtain ⟨u, hu, hne, hw⟩ := hwork
    refine List.mem_filter.2 ⟨hmem, ?_⟩
    simp only [Bool.and_eq_true, bne_iff_ne, ne_eq, Bool.not_eq_eq_eq_not, Bool.not_true, List.isEmpty_eq_false_iff, List.any_eq_true]
    exact ⟨⟨hturn, hspans⟩, u, hu, hne, hw⟩
  dsimp only
  split
  · rename_i h; rw [h] at hdue; cases hdue
  · rename_i g gs h
    rw [h] at hdue
    obtain ⟨hin, hle⟩ := foldl_least gs g
    have hgrace := (List.mem_filter.1 (h ▸ hin)).1
    by_cases hv : (gs.foldl (fun a b => if b.2 < a.2 then b else a) g).1 = v
    · rw [hv]
    · exact absurd (hle _ hdue) (Nat.not_le.2 (hfirst _ hgrace hv))

/-- At the end of the grace period that ends first its function's running spans are asked to stop. -/
theorem exec_gracePeriodExpiry {v : Nat} (h : s.graceDue = some v) : exec .gracePeriodExpiry s =
    .next ((s.spansOf v).foldl (fun s p => s.stopSpan p.1) { s with grace := s.grace.filter (·.1 != v) }) := by
  change execGracePeriodExpiry s = _
  simp [execGracePeriodExpiry, h]

/-- The running spans of a function are asked to stop; a span of another is as it was. -/
theorem stop_spansOf {u : State} {v : Nat} (hn : (s.spans.map (·.1)).Nodup) (hu : u.spans = s.spans) :
    (∀ n p, s.span? n = some p → p.stage = .running → (s.job p.ctx).vf = v → Leaving ((s.spansOf v).foldl (fun s p => s.stopSpan p.1) u) n) ∧
    ∀ n p, s.span? n = some p → (s.job p.ctx).vf ≠ v → ((s.spansOf v).foldl (fun s p => s.stopSpan p.1) u).span? n = some p := by
  have hsame : ∀ n, u.span? n = s.span? n := fun n => by unfold State.span?; rw [hu]
  refine ⟨fun n p hp hstage hv => leaving_foldl_stopSpan _ u ⟨⟨p, (hsame n).trans hp⟩, .inr ⟨(n, p), ?_, rfl⟩⟩,
    fun n p hp hv => (span?_foldl_stopSpan_of_not _ u fun x hx he => ?_).trans ((hsame n).trans hp)⟩
  · exact List.mem_filter.2 ⟨Assoc.mem_of_get? hp, by simp [hstage, hv]⟩
  · obtain ⟨hin, hcond⟩ := List.mem_filter.1 hx
    have hxp : s.span? n = some x.2 := get?_of_mem_nodup hn (he ▸ hin)
    rw [hp] at hxp
    cases hxp
    simp only [Bool.and_eq_true, beq_iff_eq] at hcond
    exact hv hcond.2

end Sys2Proof.Device
end

section
/-! The dependence unit, the dispatcher, completion, waves and restores (R244 to R249, R256): O46. -/

namespace Sys2Proof.Device

open Sys2Proof Sys2Proof.Machine Sys2Proof.Claim

variable {s t : State}

/-! RDU_ENTER (R248). -/

theorem exec_rduEnter {n : Nat} {t : Task} (ht : s.task? n = some t) (hstage : t.stage = .selected) (hroom : s.inUnit.length < Config.rduTasks) :
    exec (.rduEnter n) s = .next ({ s with nextOp := s.nextOp + 1 }.setTask n
      { t with entry := s.nextOp, stage := if s.heldBack { t with entry := s.nextOp } then .held else .released }) := by
  change execRduEnter n s = _
  have hmay : s.mayEnter t = true := by simp [State.mayEnter, hstage, hroom]
  simp [execRduEnter, ht, hmay]

/-- A task is held back exactly when one that entered before it conflicts (R248). -/
theorem heldBack_iff (t : Task) : s.heldBack t = true ↔
    ∃ y ∈ s.inUnit, y.2.entry < t.entry ∧ ∃ a ∈ t.regions, ∃ b ∈ y.2.regions, Region.conflicts a b = true := by
  simp [State.heldBack, List.any_eq_true]

/-! DISPATCH_SPAN (R249). -/

/-- A function with a value at each element of a list gives a list of as many values. -/
theorem mapM_isSome {α β : Type} {f : α → Option β} {xs : List α} (h : ∀ x ∈ xs, (f x).isSome = true) :
    ∃ ys, xs.mapM f = some ys ∧ ys.length = xs.length := by
  induction xs with
  | nil => exact ⟨[], rfl, rfl⟩
  | cons x xs ih =>
    obtain ⟨hx, hxs⟩ := List.forall_mem_cons.1 h
    obtain ⟨y, hy⟩ := Option.isSome_iff_exists.1 hx
    obtain ⟨ys, hys, hl⟩ := ih hxs
    exact ⟨y :: ys, by rw [List.mapM_cons, hy, hys]; rfl, by rw [List.length_cons, List.length_cons, hl]⟩

/-- Steps over a list that each touch the block of one position leave at each position what its own step makes there. -/
theorem blk?_foldl_zipIdx {α : Type} {sp : Nat} {F : State → α → Nat → State} {upd : α → Nat → Option Block → Option Block}
    (hF : ∀ s a i j, (F s a i).blk? ⟨sp, j⟩ = if i = j then upd a i (s.blk? ⟨sp, j⟩) else s.blk? ⟨sp, j⟩) (xs : List α) (k : Nat) (s : State) (j : Nat) :
    ((xs.zipIdx k).foldl (fun s p => F s p.1 p.2) s).blk? ⟨sp, j⟩ =
      if k ≤ j then match xs[j - k]? with | some a => upd a j (s.blk? ⟨sp, j⟩) | none => s.blk? ⟨sp, j⟩ else s.blk? ⟨sp, j⟩ := by
  induction xs generalizing k s with
  | nil => simp
  | cons x xs ih =>
    rw [List.zipIdx_cons, List.foldl_cons, ih, hF]
    dsimp only
    rcases Nat.lt_trichotomy k j with h | h | h
    · rw [if_pos (Nat.succ_le_of_lt h), if_neg (Nat.ne_of_lt h), if_pos (Nat.le_of_lt h), show j - k = j - (k + 1) + 1 by omega, List.getElem?_cons_succ]
    · subst h; simp
    · rw [if_neg (by omega), if_neg (by omega), if_neg (by omega)]

/-- What the placing of a block changes: blocks, wavelets and the gates of clusters. -/
def Placed (s t : State) : Prop := t = { s with blocks := t.blocks, wavs := t.wavs, clusters := t.clusters }

theorem Placed.trans {u : State} (h : Placed s t) (k : Placed t u) : Placed s u := by
  unfold Placed at *
  rw [k, h]

theorem Placed.span? (h : Placed s t) (n : Nat) : t.span? n = s.span? n := by rw [h]; rfl
theorem Placed.task? (h : Placed s t) (n : Nat) : t.task? n = s.task? n := by rw [h]; rfl

theorem placed_foldl {α : Type} {F : State → α → State} (hF : ∀ s a, Placed s (F s a)) (xs : List α) (s : State) : Placed s (xs.foldl F s) := by
  induction xs generalizing s with
  | nil => rfl
  | cons x xs ih => exact (hF s x).trans (ih _)

/-- Ending a gate changes the clusters alone. -/
theorem ungate_eq (s : State) (cl sl : Nat) : s.ungate cl sl = { s with clusters := (s.ungate cl sl).clusters } := by
  unfold State.ungate
  split <;> rfl

theorem placed_startWav (s : State) (w : WavId) (v : Wavelet) (cl sl : Nat) :
    Placed s ((s.setWav w v).ungate cl sl) ∧ ((s.setWav w v).ungate cl sl).blocks = s.blocks := by
  rw [ungate_eq]
  exact ⟨rfl, rfl⟩

/-- The wavelets that a block's placing starts, one in each slice given. -/
theorem placed_placeBlock (s : State) (task sp idx pos cl w : Nat) (t : Task) (slices : List Nat) :
    Placed s (s.placeBlock task sp idx pos cl w t slices) := by
  unfold State.placeBlock
  exact Placed.trans (t := s.setBlk ⟨sp, pos⟩ _) rfl (placed_foldl (fun s p => (placed_startWav s _ _ _ _).1) _ _)

theorem blocks_foldl {α : Type} {F : State → α → State} (hF : ∀ s a, (F s a).blocks = s.blocks) (xs : List α) (s : State) :
    (xs.foldl F s).blocks = s.blocks := by
  induction xs generalizing s with
  | nil => rfl
  | cons x xs ih => exact (ih _).trans (hF s x)

/-- A placed block stands where it was placed; no other block changes. -/
theorem blk?_placeBlock (s : State) (task sp idx pos cl w : Nat) (t : Task) (slices : List Nat) (j : Nat) :
    (s.placeBlock task sp idx pos cl w t slices).blk? ⟨sp, j⟩ =
      if pos = j then some { task := task, idx := idx, home := cl, at' := cl, width := w } else s.blk? ⟨sp, j⟩ := by
  unfold State.placeBlock State.blk?
  dsimp only
  rw [blocks_foldl fun s p => (placed_startWav s _ _ _ _).2]
  refine (Assoc.get?_put ..).trans ?_
  simp

/-- The state in which the next span of a task is placed. -/
def dispatched (s : State) (n : Nat) (t : Task) (cls : List Nat) (slices : List (List Nat)) : State :=
  (cls.zip slices).zipIdx.foldl (fun u p => u.placeBlock n s.nextOp (t.next + p.2) p.2 p.1.1 (s.widthOf t.origin t.kern) t p.1.2)
    (State.setTask { s with nextOp := s.nextOp + 1, spans := Assoc.put s.spans s.nextOp { task := n, ctx := t.ctx, blocks := Hdr.span t.hdr } } n
      { t with next := t.next + Hdr.span t.hdr })

/-- A span that fits is placed whole (R249). -/
theorem exec_dispatchSpan {n : Nat} {t : Task} {cls : List Nat} {slices : List (List Nat)} (ht : s.task? n = some t) (hfit : s.fitSpan t cls = some slices) :
    exec (.dispatchSpan n cls) s = .next (dispatched s n t cls slices) := by
  change execDispatchSpan n cls s = _
  simp [execDispatchSpan, ht, hfit, dispatched]

theorem span?_dispatched (n : Nat) (t : Task) (cls : List Nat) (slices : List (List Nat)) :
    (dispatched s n t cls slices).span? s.nextOp = some { task := n, ctx := t.ctx, blocks := Hdr.span t.hdr } :=
  ((placed_foldl (fun _ _ => placed_placeBlock ..) _ _).span? _).trans ((Assoc.get?_put ..).trans (if_pos rfl))

theorem task?_dispatched (n : Nat) (t : Task) (cls : List Nat) (slices : List (List Nat)) :
    (dispatched s n t cls slices).task? n = some { t with next := t.next + Hdr.span t.hdr } :=
  ((placed_foldl (fun _ _ => placed_placeBlock ..) _ _).task? _).trans ((Assoc.get?_put ..).trans (if_pos rfl))

theorem blk?_dispatched (n : Nat) (t : Task) {cls : List Nat} {slices : List (List Nat)} {i : Nat} (hi : i < cls.length) (hi' : i < slices.length) :
    (dispatched s n t cls slices).blk? ⟨s.nextOp, i⟩ =
      some { task := n, idx := t.next + i, home := cls.getD i 0, at' := cls.getD i 0, width := s.widthOf t.origin t.kern } := by
  unfold dispatched
  refine (blk?_foldl_zipIdx (α := Nat × List Nat)
    (F := fun u a i => u.placeBlock n s.nextOp (t.next + i) i a.1 (s.widthOf t.origin t.kern) t a.2)
    (upd := fun a i _ => some { task := n, idx := t.next + i, home := a.1, at' := a.1, width := s.widthOf t.origin t.kern })
    (fun u a i j => blk?_placeBlock u n s.nextOp (t.next + i) i a.1 (s.widthOf t.origin t.kern) t a.2 j) _ _ _ _).trans ?_
  simp [hi, hi']

/-- A span of a released grid, on clusters with room, fits. -/
theorem fitSpan_eq {t : Task} {cls : List Nat} (hstage : t.stage = .released) (hcause : t.cause = 0) (hnext : t.next < Hdr.nblk t.hdr)
    (hlen : cls.length = Hdr.span t.hdr) (hdie : oneDie cls = true) (hturn : s.vfs = [] ∨ (s.job t.ctx).vf = s.turn) (hheld : s.boot.held = false)
    (hidle : s.idle = .active) (hroom : ∀ c ∈ cls, (s.room t.kern c (s.widthOf t.origin t.kern)
      ((Hdr.bsz t.hdr + s.widthOf t.origin t.kern - 1) / s.widthOf t.origin t.kern)).isSome = true) :
    ∃ slices, s.fitSpan t cls = some slices ∧ slices.length = cls.length := by
  obtain ⟨slices, hs, hl⟩ := mapM_isSome hroom
  refine ⟨slices, ?_, hl⟩
  have hin : s.inTurn t.ctx = true := by rcases hturn with h | h <;> simp [State.inTurn, h]
  simp [State.fitSpan, Task.toPlace, hstage, hcause, hnext, hlen, hdie, hin, hheld, hidle, hs]

/-- No block is placed of a function that has not the turn (R247). -/
theorem exec_dispatchSpan_notDue {n : Nat} {cls : List Nat} {t : Task} (hvfs : s.vfs ≠ []) (ht : s.task? n = some t) (hvf : (s.job t.ctx).vf ≠ s.turn) :
    exec (.dispatchSpan n cls) s = .refused .notDue := by
  change execDispatchSpan n cls s = _
  have hno : s.fitSpan t cls = none := by simp [State.fitSpan, State.inTurn, hvfs, hvf]
  simp [execDispatchSpan, ht, hno]

/-! TASK_COMPLETE (R244). -/

/-- What a signal changes: memory, the LLC, and the reports where its unit fails its check. -/
def Signalled (s t : State) : Prop :=
  t = { s with mem := t.mem, checks := t.checks, llc := t.llc, charges := t.charges, reports := t.reports }

theorem signalled_signal (s : State) (t : Task) : Signalled s (s.signal t) := by
  unfold State.signal
  dsimp only
  split
  · split
    · rfl
    · split <;> rfl
  · rfl

theorem Signalled.task? (h : Signalled s t) (n : Nat) : t.task? n = s.task? n := by rw [h]; rfl

theorem statusWord_lt (cause count : Nat) : statusWord cause count < 256 ^ 4 := by
  have h : cause % 128 < 128 := Nat.mod_lt _ (by decide)
  have h' : min count 0xFFFFFF ≤ 0xFFFFFF := Nat.min_le_right ..
  unfold statusWord
  omega

/-- A signal is written, or reported where its unit fails its check, once its lines have been reached. -/
theorem signal_eq {t : Task} {a : Nat} (hsig : Hdr.sig t.hdr ≠ 0) (ha : (s.job t.ctx).phys .atomic (Hdr.sig t.hdr).toNat = some a) :
    s.signal t =
      if (s.touchJob t.ctx (Hdr.sig t.hdr).toNat 16 none true).badAt a 16 = true then
        (s.touchJob t.ctx (Hdr.sig t.hdr).toNat 16 none true).report (.notPassed a)
      else ((s.touchJob t.ctx (Hdr.sig t.hdr).toNat 16 none true).memWrite (a + 8) 4 (statusWord t.cause t.ended)).memWrite a 8
        ((Sparse.readN (s.touchJob t.ctx (Hdr.sig t.hdr).toNat 16 none true).mem a 8 + 1) % 2 ^ 64) := by
  have hsig' : (Hdr.sig t.hdr == 0) = false := by simpa using hsig
  unfold State.signal
  dsimp only
  rw [ha]
  dsimp only
  rw [hsig', if_neg Bool.false_ne_true]

/-- A signal whose unit passes its check adds 1 to the count and writes the status word behind it (R244). -/
theorem signal_good {t : Task} {a : Nat} (hwf : Memory.wf s.mem = true) (hsig : Hdr.sig t.hdr ≠ 0)
    (ha : (s.job t.ctx).phys .atomic (Hdr.sig t.hdr).toNat = some a) (hgood : s.badAt a 16 = false) :
    Sparse.readN (s.signal t).mem a 8 = (Sparse.readN s.mem a 8 + 1) % 2 ^ 64 ∧
      Sparse.readN (s.signal t).mem (a + 8) 4 = statusWord t.cause t.ended := by
  have hbad : (s.touchJob t.ctx (Hdr.sig t.hdr).toNat 16 none true).badAt a 16 = false := hgood
  have hmem : (s.signal t).mem = Sparse.writeN (Sparse.writeN s.mem (a + 8) 4 (statusWord t.cause t.ended)) a 8
      ((Sparse.readN s.mem a 8 + 1) % 2 ^ 64) := by
    rw [signal_eq hsig ha, if_neg (by simp [hbad])]
    rfl
  have hwf' := Sparse.wf_writeN (a + 8) 4 (statusWord t.cause t.ended) hwf
  rw [hmem, Sparse.readN_writeN _ _ _ hwf', Sparse.readN_writeN_of_not hwf' (by omega), Sparse.readN_writeN _ _ _ hwf,
    Nat.mod_eq_of_lt (statusWord_lt ..)]
  exact ⟨Nat.mod_mod _ _, rfl⟩

/-- Into a unit that fails its check nothing is written, which is reported (R166, R13). -/
theorem signal_bad {t : Task} {a : Nat} (hsig : Hdr.sig t.hdr ≠ 0) (ha : (s.job t.ctx).phys .atomic (Hdr.sig t.hdr).toNat = some a)
    (hbad : s.badAt a 16 = true) : (s.signal t).mem = s.mem ∧ (s.signal t).reports = s.reports ++ [.notPassed a] := by
  have hbad' : (s.touchJob t.ctx (Hdr.sig t.hdr).toNat 16 none true).badAt a 16 = true := hbad
  rw [signal_eq hsig ha, if_pos hbad']
  exact ⟨rfl, rfl⟩

/-- A task that is not held is no task that is released now (R248). -/
theorem task?_releaseHeld {n : Nat} {t : Task} (h : s.task? n = some t) (hs : t.stage ≠ .held) : s.releaseHeld.task? n = some t := by
  have hmap : s.releaseHeld.tasks = s.tasks.map fun x => (x.1, if x.2.stage == .held && !s.heldBack x.2 then { x.2 with stage := .released } else x.2) :=
    List.map_congr_left fun x _ => by split <;> rfl
  unfold State.task? at *
  rw [hmap, get?_map_values, h]
  simp [hs]

/-- What a task's end changes beside its signal: processes and tasks. -/
def Ended (s t : State) : Prop := t = { s with jobs := t.jobs, tasks := t.tasks }

theorem Ended.trans {u : State} (h : Ended s t) (k : Ended t u) : Ended s u := by
  unfold Ended at *
  rw [k, h]

theorem Ended.mem (h : Ended s t) : t.mem = s.mem := by rw [h]
theorem Ended.reports (h : Ended s t) : t.reports = s.reports := by rw [h]

theorem ended_modTask (s : State) (n : Nat) (f : Task → Task) : Ended s (s.modTask n f) := by
  unfold State.modTask
  split <;> rfl

/-- Queues that close change no task. -/
theorem closeQueues_eq (s : State) (ctx : Nat) : s.closeQueues ctx = { s with jobs := (s.closeQueues ctx).jobs } := by
  unfold State.closeQueues
  dsimp only
  split <;> rfl

/-- A task that has run to its end completes, after its signal; of memory and the reports the signal's changes alone are left. -/
theorem exec_taskComplete {n : Nat} {t : Task} (cs : List GoodCopy) (ht : s.task? n = some t) (hover : s.taskOver n t = true) :
    ∃ u, exec (.taskComplete ⟨n, cs⟩) s = .next u ∧ u.task? n = some { t with stage := .done } ∧ Ended ((s.mend cs).signal t) u := by
  refine ⟨(((((s.mend cs).signal t).pollWaits.modTask n fun t => { t with stage := .done }).releaseHeld).closeQueues t.ctx), ?_, ?_, ?_⟩
  · change execTaskComplete ⟨n, cs⟩ s = _
    simp [execTaskComplete, ht, hover]
  · have h1 : (((s.mend cs).signal t).pollWaits).task? n = some t :=
      ((signalled_signal _ t).task? n).trans (((refetched_mend s cs).task? n).trans ht)
    rw [closeQueues_eq]
    exact task?_releaseHeld (task?_modTask _ h1) (by simp)
  · rw [closeQueues_eq]
    exact Ended.trans (t := ((s.mend cs).signal t).pollWaits) rfl ((ended_modTask _ n _).trans rfl)

/-! BARRIER_WAKE_WAVE (R256). -/

theorem mem_insBy {α : Type} {le : α → α → Bool} {x y : α} {xs : List α} (h : y ∈ insBy le x xs) : y = x ∨ y ∈ xs := by
  induction xs with
  | nil => simpa [insBy] using h
  | cons z xs ih =>
    unfold insBy at h
    split at h
    · rcases List.mem_cons.1 h with rfl | h
      · exact .inr (List.mem_cons_self ..)
      · exact (ih h).imp_right (List.mem_cons_of_mem _)
    · exact List.mem_cons.1 h

/-- A sorted list has the elements of the list alone. -/
theorem mem_sortBy {α : Type} {le : α → α → Bool} {xs : List α} {y : α} (h : y ∈ sortBy le xs) : y ∈ xs := by
  have hfold : ∀ ys, y ∈ xs.foldl (fun ys x => insBy le x ys) ys → y ∈ ys ∨ y ∈ xs := by
    clear h
    induction xs with
    | nil => exact fun ys h => .inl h
    | cons x xs ih =>
      intro ys h
      rcases ih _ h with h | h
      · rcases mem_insBy h with rfl | h
        · exact .inr (List.mem_cons_self ..)
        · exact .inl h
      · exact .inr (List.mem_cons_of_mem _ h)
  exact (hfold [] h).resolve_left List.not_mem_nil

/-- A wave is chosen among the wavelets of the list. -/
theorem mem_foldl_wave (slope : Nat) {w : WavId} (xs : List (Nat × WavId × Nat)) (acc : List WavId × Nat × Bool)
    (h : w ∈ (xs.foldl (fun (acc : List WavId × Nat × Bool) y =>
      if acc.2.2 && acc.2.1 + y.2.2 ≤ slope then (acc.1 ++ [y.2.1], acc.2.1 + y.2.2, true) else (acc.1, acc.2.1, false)) acc).1) :
    w ∈ acc.1 ∨ ∃ y ∈ xs, y.2.1 = w := by
  induction xs generalizing acc with
  | nil => exact .inl h
  | cons x xs ih =>
    rcases ih _ h with h | ⟨y, hy, he⟩
    · dsimp only at h
      split at h
      · rcases List.mem_append.1 h with h | h
        · exact .inl h
        · exact .inr ⟨x, List.mem_cons_self .., (List.mem_singleton.1 h).symm⟩
      · exact .inl h
    · exact .inr ⟨y, List.mem_cons_of_mem _ hy, he⟩

/-- A key that is listed is found. -/
theorem get?_of_key {α β : Type} [DecidableEq α] {xs : List (α × β)} {x : α × β} (h : x ∈ xs) : ∃ v, Assoc.get? xs x.1 = some v := by
  induction xs with
  | nil => cases h
  | cons y xs ih =>
    by_cases hy : y.1 = x.1
    · exact ⟨y.2, by simp [Assoc.get?, hy]⟩
    · obtain ⟨v, hv⟩ := ih ((List.mem_cons.1 h).resolve_left fun e => hy (e ▸ rfl))
      exact ⟨v, by simpa [Assoc.get?, hy] using hv⟩

/-- The wavelets of a wave are wavelets of the state. -/
theorem wav?_of_mem_wave {c ph : Nat} {w : WavId} (h : w ∈ s.wave c ph) : ∃ v, s.wav? w = some v := by
  unfold State.wave at h
  dsimp only at h
  split at h
  · cases h
  · rename_i x xs hsort
    obtain ⟨y, hy, rfl⟩ : ∃ y ∈ x :: xs, y.2.1 = w := by
      rcases mem_foldl_wave _ _ _ h with h | ⟨y, hy, he⟩
      · exact ⟨x, List.mem_cons_self .., (List.mem_singleton.1 h).symm⟩
      · exact ⟨y, List.mem_cons_of_mem _ hy, he⟩
    obtain ⟨u, hu, hsome⟩ := List.mem_filterMap.1 (mem_sortBy (hsort ▸ hy))
    split at hsome
    · split at hsome
      · cases hsome
        exact get?_of_key hu
      · cases hsome
    · cases hsome

/-- A wavelet none of whose lanes waits for a release. -/
def Awake (ph : Nat) (s : State) (w : WavId) : Prop := ∃ v, s.wav? w = some v ∧ ∀ x ∈ v.lanes, x.wait ≠ .wake ph

theorem wait_wakeAll (v : Wavelet) (ph : Nat) : ∀ x ∈ (v.wakeAll ph).lanes, x.wait ≠ .wake ph := by
  intro x hx
  obtain ⟨y, -, rfl⟩ := List.mem_map.1 hx
  split
  · exact fun h => nomatch h
  · rename_i h
    exact fun hw => h (by simp [hw])

theorem wav?_modWav_of_ne {w u : WavId} (f : Wavelet → Wavelet) (h : w ≠ u) : (s.modWav w f).wav? u = s.wav? u := by
  unfold State.modWav
  split
  · exact (State.wav?_setWav ..).trans (if_neg h)
  · rfl

/-- Of the wavelets that are woken each is then awake. -/
theorem awake_foldl (ph : Nat) (ws : List WavId) (s : State) (w : WavId) (h : (∃ v, s.wav? w = some v) ∧ (Awake ph s w ∨ w ∈ ws)) :
    Awake ph (ws.foldl (fun s w => s.modWav w (·.wakeAll ph)) s) w := by
  induction ws generalizing s with
  | nil => simpa using h.2
  | cons u ws ih =>
    obtain ⟨⟨v, hv⟩, h⟩ := h
    refine ih _ ?_
    by_cases hu : u = w
    · subst hu
      have hw := wav?_modWav (·.wakeAll ph) hv
      exact ⟨⟨_, hw⟩, .inl ⟨_, hw, wait_wakeAll v ph⟩⟩
    · have hsame := wav?_modWav_of_ne (s := s) (·.wakeAll ph) hu
      refine ⟨⟨v, hsame.trans hv⟩, h.imp (fun ⟨x, hx, hwait⟩ => ⟨x, hsame.trans hx, hwait⟩) fun h => ?_⟩
      exact (List.mem_cons.1 h).resolve_left fun e => hu e.symm

/-- A wave wakes its wavelets (R256). -/
theorem exec_barrierWakeWave {c ph : Nat} (h : s.wave c ph ≠ []) :
    ∃ t, exec (.barrierWakeWave ⟨c, ph⟩) s = .next t ∧ ∀ w ∈ s.wave c ph, Awake ph t w := by
  refine ⟨(s.wave c ph).foldl (fun s w => s.modWav w (·.wakeAll ph)) s, ?_, fun w hw => awake_foldl ph _ s w ⟨wav?_of_mem_wave hw, .inr hw⟩⟩
  change execBarrierWakeWave ⟨c, ph⟩ s = _
  unfold execBarrierWakeWave
  split
  · rename_i he; exact absurd he h
  · rfl

/-! SPAN_RESTORE (R46, R255). -/

theorem blk?_modBlk (s : State) (b c : BlkId) (f : Block → Block) : (s.modBlk b f).blk? c = if b = c then (s.blk? c).map f else s.blk? c := by
  unfold State.modBlk
  split
  · rename_i k hk
    refine (Assoc.get?_put ..).trans ?_
    split
    · subst b; rw [hk]; rfl
    · rfl
  · rename_i hk
    split
    · subst b; rw [hk]; rfl
    · rfl

/-- A saved span fits on clusters of one die that have its slots free and room for its wavelets. -/
theorem fitSaved_eq {n : Nat} {p : Span} {cls : List Nat} (hp : s.span? n = some p) (hstage : p.stage = .saved) (hlen : cls.length = p.blocks)
    (hdie : oneDie cls = true) (hidle : s.idle = .active)
    (hroom : ∀ i, i < p.blocks → ∃ k t, s.blk? ⟨n, i⟩ = some k ∧ s.task? p.task = some t ∧ (∀ x ∈ k.slots, x.1 ∈ s.freeSlots (cls.getD i 0)) ∧
      (s.room t.kern (cls.getD i 0) k.width (s.wavsOf ⟨n, i⟩).length).isSome = true) : ∃ slices, s.fitSaved n cls = some slices := by
  unfold State.fitSaved
  rw [hp]
  simp only [hstage, beq_self_eq_true, hlen, hdie, hidle, Bool.and_self, if_true]
  refine (mapM_isSome (xs := (List.range p.blocks).zip cls) fun x hx => ?_).imp fun ys h => h.1
  · obtain ⟨i, hi, rfl⟩ := List.mem_iff_getElem.1 hx
    simp only [List.length_zip, List.length_range, hlen, Nat.min_self] at hi
    obtain ⟨k, t, hk, ht, hslots, hr⟩ := hroom i hi
    have hget : cls.getD i 0 = cls[i]'(hlen ▸ hi) := by simp [hlen, hi]
    rw [hget] at hslots hr
    simp only [List.getElem_zip, List.getElem_range, hk, ht]
    rw [if_pos]
    · exact hr
    · simpa using hslots

/-- What is left as it was where blocks move: all but the blocks. -/
theorem modBlk_eq (s : State) (b : BlkId) (f : Block → Block) : s.modBlk b f = { s with blocks := (s.modBlk b f).blocks } := by
  unfold State.modBlk
  split <;> rfl

/-- The wavelets of a span go on in the slices that they are given (R46). -/
def resumed (span : Nat) (slices : List (List Nat)) (v : WavId × Wavelet) : Wavelet :=
  if v.1.span != span then v.2
  else { v.2 with stopped := false, slice := (slices.getD v.1.blk []).getD v.1.wid 0,
                  stall := match v.2.stall with | .fetch | .check | .claim => .none | k => k }

/-- The blocks of a span move to the clusters given, and the span runs. -/
def moved (s : State) (span : Nat) (cls : List Nat) : State :=
  (cls.zipIdx.foldl (fun s p => s.modBlk ⟨span, p.2⟩ fun k => { k with at' := p.1 }) s).modSpan span fun p => { p with stage := .running }

/-- What gates and clocks change: the clusters. -/
def Clocked (s t : State) : Prop := t = { s with clusters := t.clusters }

theorem Clocked.trans {u : State} (h : Clocked s t) (k : Clocked t u) : Clocked s u := by
  unfold Clocked at *
  rw [k, h]

theorem Clocked.spans (h : Clocked s t) : t.spans = s.spans := by rw [h]
theorem Clocked.blocks (h : Clocked s t) : t.blocks = s.blocks := by rw [h]
theorem Clocked.wavs (h : Clocked s t) : t.wavs = s.wavs := by rw [h]

theorem clocked_foldl {α : Type} {F : State → α → State} (hF : ∀ s a, Clocked s (F s a)) (xs : List α) (s : State) : Clocked s (xs.foldl F s) := by
  induction xs generalizing s with
  | nil => rfl
  | cons x xs ih => exact (hF s x).trans (ih _)

theorem clocked_ungate (s : State) (cl sl : Nat) : Clocked s (s.ungate cl sl) := ungate_eq s cl sl

theorem clocked_reclock (s : State) (cls : List Nat) : Clocked s (s.reclock cls) := reclock_eq s cls

/-- What a restore leaves of the state in which the blocks have moved: all but the wavelets and the clusters. -/
theorem exec_spanRestore {n : Nat} {cls : List Nat} {slices : List (List Nat)} (h : s.fitSaved n cls = some slices) :
    ∃ t, exec (.spanRestore n cls) s = .next t ∧ t.spans = (moved s n cls).spans ∧ t.blocks = (moved s n cls).blocks ∧
      t.wavs = (moved s n cls).wavs.map fun v => (v.1, resumed n slices v) := by
  have hwavs : (fun v : WavId × Wavelet => (v.1, resumed n slices v)) = fun v => if v.1.span != n then v
      else (v.1, { v.2 with stopped := false, slice := (slices.getD v.1.blk []).getD v.1.wid 0,
                            stall := match v.2.stall with | .fetch | .check | .claim => .none | k => k }) := by
    funext v
    unfold resumed
    split <;> rfl
  change ∃ t, execSpanRestore n cls s = _ ∧ _
  unfold execSpanRestore
  rw [h, hwavs]
  have hclocked : ∀ u : State, ∀ ps : List (Nat × List Nat), Clocked u
      (State.reclock (ps.foldl (fun s p => p.2.foldl (fun s sl => s.ungate p.1 sl) s) u)
        ((ps.foldl (fun s p => p.2.foldl (fun s sl => s.ungate p.1 sl) s) u).ranked n)) := fun u ps =>
    (clocked_foldl (fun s p => clocked_foldl (fun s sl => clocked_ungate s p.1 sl) p.2 s) ps u).trans (clocked_reclock _ _)
  exact ⟨_, rfl, (hclocked _ _).spans, (hclocked _ _).blocks, (hclocked _ _).wavs⟩

theorem span?_moved {n : Nat} {p : Span} (cls : List Nat) (h : s.span? n = some p) :
    (moved s n cls).span? n = some { p with stage := .running } := by
  have hspans : ∀ (xs : List (Nat × Nat)) (s : State),
      (xs.foldl (fun s p => s.modBlk ⟨n, p.2⟩ fun k => { k with at' := p.1 }) s).spans = s.spans := by
    intro xs
    induction xs with
    | nil => exact fun _ => rfl
    | cons x xs ih => exact fun s => (ih _).trans (State.modBlk_spans ..)
  unfold moved
  rw [span?_modSpan, if_pos rfl]
  unfold State.span? at *
  rw [hspans, h]
  rfl

theorem blk?_moved {n i : Nat} {k : Block} {cls : List Nat} (hi : i < cls.length) (h : s.blk? ⟨n, i⟩ = some k) :
    (moved s n cls).blk? ⟨n, i⟩ = some { k with at' := cls.getD i 0 } := by
  have hfold := blk?_foldl_zipIdx (sp := n) (F := fun (s : State) (c i : Nat) => s.modBlk ⟨n, i⟩ fun k => { k with at' := c })
    (upd := fun c _ k => k.map fun k => { k with at' := c }) (fun s c i j => by simp [blk?_modBlk]) cls 0 s i
  have hmod : ∀ u : State, ∀ f, (u.modSpan n f).blk? ⟨n, i⟩ = u.blk? ⟨n, i⟩ := fun u f => by unfold State.modSpan; split <;> rfl
  unfold moved
  rw [hmod, hfold, h]
  simp [hi]

/-- A saved span that fits goes on: it runs, its wavelets are stopped no more, and its blocks stand where they were placed (R46). -/
theorem exec_spanRestore_saved {n : Nat} {p : Span} {cls : List Nat} {slices : List (List Nat)} (hp : s.span? n = some p)
    (hfit : s.fitSaved n cls = some slices) (hb : ∀ i, i < cls.length → ∃ k, s.blk? ⟨n, i⟩ = some k) :
    ∃ t q, exec (.spanRestore n cls) s = .next t ∧ t.span? n = some q ∧ q.stage = .running ∧
      (∀ w v, w.span = n → t.wav? w = some v → v.stopped = false) ∧
      ∀ i, i < cls.length → ∃ k, t.blk? ⟨n, i⟩ = some k ∧ k.at' = cls.getD i 0 := by
  obtain ⟨t, hrun, hspans, hblocks, hwavs⟩ := exec_spanRestore hfit
  refine ⟨t, _, hrun, (congrArg (Assoc.get? · n) hspans).trans (span?_moved cls hp), rfl, fun w v hw hv => ?_, fun i hi => ?_⟩
  · rw [State.wav?, hwavs, get?_map_values] at hv
    obtain ⟨u, -, rfl⟩ := Option.map_eq_some_iff.1 hv
    simp [resumed, hw]
  · obtain ⟨k, hk⟩ := hb i hi
    exact ⟨_, (congrArg (Assoc.get? · (⟨n, i⟩ : BlkId)) hblocks).trans (blk?_moved hi hk), rfl⟩

/-- Settles O46: the clauses are the lemmas above, one per event. -/
theorem schedulingEvents : Obligations.SchedulingEvents := by
  unfold Obligations.SchedulingEvents
  refine ⟨fun s v hj ht hsel hv hready => exec_arbiterSelect hj ht hsel hv hready, fun s v hvfs hno hv => tick_turn hvfs hno hv, ?slice,
    fun s => ⟨mem_vfOrder.2 (State.mem_vfIds.2 (.inl rfl)), fun v hv => mem_vfOrder.2 (State.mem_vfIds.2 (.inr ⟨v, hv, rfl⟩))⟩, ?unset,
    fun s n cls t hvfs ht hvf => exec_dispatchSpan_notDue hvfs ht hvf, ?grace, ?enter, ?dispatch, ?complete,
    fun s c ph h => exec_barrierWakeWave h, ?preempt, ?restore⟩
  case slice =>
    intro s v hv
    have hmem := List.mem_of_find?_eq_some hv
    have hturn : s.turn ∈ s.vfIds := State.mem_vfIds.2 (.inr ⟨v, hmem, beq_iff_eq.1 (List.find?_some (p := fun x : Vf => x.id == s.turn) hv)⟩)
    obtain ⟨u, hrun, hnext⟩ := exec_vfSliceExpiry (List.ne_nil_of_mem hmem) hturn
    refine ⟨_, hrun, rfl, ⟨_, mem_endSlice u _ hv, rfl, rfl⟩, fun a b rest horder => ?_⟩
    obtain rfl := hnext a b rest horder
    exact ⟨rfl, fun hne => grace_endSlice _ hne⟩
  case unset =>
    intro s a b rest hvfs hunset hturn horder
    obtain ⟨u, hrun, hnext⟩ := exec_vfSliceExpiry hvfs (State.mem_vfIds.2 (.inl hturn))
    obtain rfl := hnext a b rest horder
    exact ⟨_, hrun, rfl, vfs_endSlice_unset _ (hturn ▸ hunset), rfl⟩
  case grace =>
    intro s v d hgrace hspans hmem hturn hne hwork hfirst
    refine ⟨_, exec_gracePeriodExpiry (graceDue_eq hmem hturn hne hwork hfirst), (stopped_foldl_stopSpan _ _).turn, (stopped_foldl_stopSpan _ _).mem, ?_⟩
    exact stop_spansOf hspans rfl
  case enter =>
    intro s n t ht hstage hroom
    refine ⟨_, _, exec_rduEnter ht hstage hroom, (task?_setTask ..).trans (if_pos rfl), ?_⟩
    dsimp only
    rw [← heldBack_iff { t with entry := s.nextOp }]
    by_cases hheld : s.heldBack { t with entry := s.nextOp } = true
    · rw [if_pos hheld]
      exact ⟨iff_of_true rfl hheld, .inl rfl⟩
    · rw [if_neg hheld]
      exact ⟨iff_of_false (fun h => nomatch h) hheld, .inr rfl⟩
  case dispatch =>
    intro s n t cls ht hstage hcause hnext hlen hdie hturn hheld hidle hroom
    obtain ⟨slices, hfit, hl⟩ := fitSpan_eq hstage hcause hnext hlen hdie hturn hheld hidle hroom
    exact ⟨_, exec_dispatchSpan ht hfit, span?_dispatched .., task?_dispatched ..,
      fun i hi => ⟨_, blk?_dispatched n t hi (hl ▸ hi), rfl, rfl, rfl, rfl, rfl⟩⟩
  case complete =>
    intro s n t ht hover cs
    obtain ⟨u, hrun, htask, hended⟩ := exec_taskComplete cs ht hover
    refine ⟨u, _, hrun, htask, rfl, rfl, fun a hcan hsig ha => ?_⟩
    rw [← (refetched_mend s cs).job] at ha
    rw [hended.mem, hended.reports, ← (refetched_mend s cs).reports]
    exact ⟨signal_good (Canonical.mend cs hcan).1 hsig ha, signal_bad hsig ha⟩
  case preempt =>
    intro s n p hp hstage
    obtain ⟨q, hq, hleaving⟩ := leaving_stopSpan hp
    refine ⟨_, q, ?_, hq, hleaving, (stopped_stopSpan s n).mem⟩
    change execPreemptRequest n s = _
    simp [execPreemptRequest, hp, hstage]
  case restore =>
    intro s n p cls hp hstage hlen hdie hidle hroom
    obtain ⟨slices, hfit⟩ := fitSaved_eq hp hstage hlen hdie hidle hroom
    rw [← hlen]
    exact exec_spanRestore_saved hp hfit fun i hi => (hroom i (hlen ▸ hi)).imp fun k h => h.elim fun _ h => h.1

end Sys2Proof.Device
end

section
/-! What Pewter's calls do and return (R242, R243, R263), but for the loader. -/

namespace Sys2Proof.Device

open Sys2Proof Sys2Proof.Machine Sys2Proof.Claim

variable {s t : State} {ctx : Nat}

/-- The state in which a call has returned a result to its process. -/
def answered (s : State) (ctx : Nat) (r : Int) : State := s.setJob ctx { s.job ctx with a0 := r }

@[simp] theorem job_setJob (s : State) (ctx : Nat) (j : Job) : (s.setJob ctx j).job ctx = j := by
  simp [State.job, State.setJob]

/-! Queues. -/

theorem exec_nxQueueCreate_refused {prio cap : Nat} (h : 7 < prio ∨ cap < 16 ∨ 65536 < cap ∨ cap ≠ 2 ^ Nat.log2 cap) :
    exec (.nxQueueCreate ctx prio cap) s = .next (answered s ctx (-1)) := by
  refine if_pos ?_
  simpa [or_assoc] using h

/-- Of 257 handles in a row one is held by none of fewer than 256 queues. -/
theorem exists_freeHandle (k : Nat) {qs : List Queue} (h : qs.length < Config.maxQueues) :
    ∃ q ∈ (List.range (Config.maxQueues + 1)).map fun i => 1 + (k + i) % 65535, qs.all (·.qid != q) = true := by
  by_contra hno
  push Not at hno
  have hsub : (List.range (Config.maxQueues + 1)).map (fun i => 1 + (k + i) % 65535) ⊆ qs.map (·.qid) := by
    intro q hq
    obtain ⟨x, hx, he⟩ : ∃ x ∈ qs, x.qid = q := by simpa using hno q hq
    exact List.mem_map.2 ⟨x, hx, he⟩
  have hnodup : ((List.range (Config.maxQueues + 1)).map fun i => 1 + (k + i) % 65535).Nodup := by
    refine List.Nodup.map_on (fun a ha b hb hab => ?_) List.nodup_range
    have ha' := List.mem_range.1 ha
    have hb' := List.mem_range.1 hb
    have : Config.maxQueues = 256 := rfl
    omega
  have hlen := (hnodup.subperm hsub).length_le
  simp only [List.length_map, List.length_range] at hlen
  omega

/-- A queue is created under a handle that its process holds for no other (R242). -/
theorem exec_nxQueueCreate {prio cap : Nat} (hprio : prio ≤ 7) (hlo : 16 ≤ cap) (hhi : cap ≤ 65536) (hpow : cap = 2 ^ Nat.log2 cap)
    (hroom : (s.job ctx).queues.length < Config.maxQueues) : ∃ q : Nat, exec (.nxQueueCreate ctx prio cap) s =
      .next (s.draw.2.setJob ctx { s.job ctx with queues := (s.job ctx).queues ++ [⟨q, prio, cap⟩], a0 := q }) ∧
      (∀ x ∈ (s.job ctx).queues, x.qid ≠ q) ∧ 1 ≤ q ∧ q ≤ 65535 := by
  obtain ⟨x, hx, hfree⟩ := exists_freeHandle s.draw.1 hroom
  obtain ⟨q, hq⟩ := Option.isSome_iff_exists.1 ((List.find?_isSome (p := fun q => (s.job ctx).queues.all (·.qid != q))).2 ⟨x, hx, hfree⟩)
  have hnone := List.find?_some (p := fun q => (s.job ctx).queues.all (·.qid != q)) hq
  obtain ⟨i, -, rfl⟩ := List.mem_map.1 (List.mem_of_find?_eq_some hq)
  refine ⟨_, ?_, by simpa using hnone, by omega, by omega⟩
  change execNxQueueCreate ctx prio cap s = _
  unfold execNxQueueCreate
  dsimp only
  rw [if_neg (by simpa using ⟨⟨⟨hprio, hlo⟩, hhi⟩, hpow⟩), if_neg (Nat.not_le.2 hroom), hq]

/-- A process holds at most 256 queues (R242). -/
theorem exec_nxQueueCreate_full {prio cap : Nat} (hprio : prio ≤ 7) (hlo : 16 ≤ cap) (hhi : cap ≤ 65536) (hpow : cap = 2 ^ Nat.log2 cap)
    (hfull : Config.maxQueues ≤ (s.job ctx).queues.length) : exec (.nxQueueCreate ctx prio cap) s = .next (answered s ctx (-2)) := by
  change execNxQueueCreate ctx prio cap s = _
  unfold execNxQueueCreate
  dsimp only
  rw [if_neg (by simpa using ⟨⟨⟨hprio, hlo⟩, hhi⟩, hpow⟩), if_pos hfull]
  rfl

theorem exec_nxQueueDestroy_none {q : Nat} (h : ∀ x ∈ (s.job ctx).queues, x.qid ≠ q) :
    exec (.nxQueueDestroy ctx q) s = .next (answered s ctx (-1)) :=
  if_pos (by simpa using h)

/-- A queue whose tasks have completed is destroyed; for one with others the call waits (R242). -/
theorem exec_nxQueueDestroy {q : Nat} (h : ∃ x ∈ (s.job ctx).queues, x.qid = q) : exec (.nxQueueDestroy ctx q) s =
    if s.queueBusy ctx q = true then
      .next (s.setJob ctx { s.job ctx with closing := if (s.job ctx).closing.contains q then (s.job ctx).closing else (s.job ctx).closing ++ [q] })
    else .next (s.setJob ctx { s.job ctx with queues := (s.job ctx).queues.filter (·.qid != q), a0 := 0 }) :=
  if_neg (by simpa using h)

theorem queueBusy_iff {q : Nat} : s.queueBusy ctx q = true ↔ ∃ t ∈ s.tasks, t.2.ctx = ctx ∧ t.2.qid = q ∧ t.2.stage ≠ .done := by
  simp [State.queueBusy, List.any_eq_true, and_assoc]

/-! nx_launch (R243). -/

theorem recordReach_touched (s : State) (ctx : Nat) (a : W64) : ∃ llc charges, s.recordReach ctx a = { s with llc := llc, charges := charges } := by
  unfold State.recordReach
  dsimp only
  split
  · exact ⟨_, _, rfl⟩
  · split
    · exact ⟨_, _, rfl⟩
    · exact ⟨_, _, rfl⟩
    · split <;> exact ⟨_, _, rfl⟩

theorem exec_nxLaunch_absent {a : CallRead} (h : (s.mend a.copies).recordOf ctx a.at' = .absent) :
    exec (.nxLaunch ctx a) s = .next (answered ((s.mend a.copies).recordReach ctx a.at') ctx (-1)) := by
  change execNxLaunch ctx a s = _
  unfold execNxLaunch
  dsimp only
  rw [h]
  rfl

theorem exec_nxLaunch_broken {a : CallRead} {p : Nat} (h : (s.mend a.copies).recordOf ctx a.at' = .broken p) :
    exec (.nxLaunch ctx a) s = .next (answered (((s.mend a.copies).recordReach ctx a.at').report (.notPassed p)) ctx (-1)) := by
  change execNxLaunch ctx a s = _
  unfold execNxLaunch
  dsimp only
  rw [h]
  rfl

/-- What a launch returns by the test that its record fails (R242). -/
def launched (u : State) (ctx : Nat) (x : State × Nat) : Res :=
  match x.2 with
  | 0 => .next (answered x.1.rouse ctx 0)
  | 3 => .next (answered u ctx (-3))
  | 4 => .next (answered u ctx (-4))
  | 2 => .next (answered u ctx (-2))
  | _ => .next (answered u ctx (-1))

theorem exec_nxLaunch_ok {a : CallRead} {n : Nat} {h : Hdr} {rs : List Region} {u : State} (hn : (s.mend a.copies).recordOf ctx a.at' = .ok n)
    (hs : splitRecord n = (h, rs)) (hu : u = (s.mend a.copies).touchJob ctx a.at'.toNat (64 + regionBytes h) none false) :
    exec (.nxLaunch ctx a) s = launched u ctx (u.accept ctx h rs) := by
  change execNxLaunch ctx a s = _
  unfold execNxLaunch
  dsimp only
  rw [hn]
  dsimp only
  rw [hs]
  dsimp only
  rw [← hu]
  rfl

theorem job_rouse (s : State) (ctx : Nat) : s.rouse.job ctx = s.job ctx := by rw [rouse_eq]; rfl
theorem task?_rouse (s : State) (n : Nat) : s.rouse.task? n = s.task? n := by rw [rouse_eq]; rfl

/-- The process, the task and the exit from an idle state of a launch whose record was accepted (R243, R261). -/
theorem launched_accepted (u : State) (ctx : Nat) (x : Task) :
    let v := answered (State.rouse { u with tasks := Assoc.put u.tasks u.nextOp x, nextOp := u.nextOp + 1,
                                            jobs := Assoc.put u.jobs ctx { u.job ctx with accepted := (u.job ctx).accepted + 1 } }) ctx 0
    v.job ctx = { u.job ctx with accepted := (u.job ctx).accepted + 1, a0 := 0 } ∧ v.task? u.nextOp = some x ∧ (u.idle ≠ .active → v.exiting = true) := by
  intro v
  refine ⟨?_, ?_, fun h => rouse_exiting h⟩
  · refine (job_setJob ..).trans ?_
    rw [job_rouse]
    simp [State.job]
  · refine (task?_rouse _ u.nextOp).trans ((Assoc.get?_put ..).trans (if_pos rfl))

section Accept
variable {h : Hdr} {rs : List Region} {q : Queue} {k : Kern}

theorem accept_malformed (hok : Hdr.ok h rs = false) : s.accept ctx h rs = (s, 1) := by
  unfold State.accept
  simp [hok]

theorem accept_noQueue (hok : Hdr.ok h rs = true) (hq : ∀ x ∈ (s.job ctx).queues, x.qid ≠ Hdr.qid h) : s.accept ctx h rs = (s, 3) := by
  have hnone : (s.job ctx).queues.find? (·.qid == Hdr.qid h) = none := List.find?_eq_none.2 (by simpa using hq)
  unfold State.accept
  simp [hok, hnone]

theorem accept_noKernel (hok : Hdr.ok h rs = true) (hq : (s.job ctx).queues.find? (·.qid == Hdr.qid h) = some q)
    (hk : Assoc.get? (s.job ctx).kernels (Hdr.krec h).toNat = none) : s.accept ctx h rs = (s, 4) := by
  unfold State.accept
  simp [hok, hq, hk]

theorem accept_unfit (hok : Hdr.ok h rs = true) (hq : (s.job ctx).queues.find? (·.qid == Hdr.qid h) = some q)
    (hk : Assoc.get? (s.job ctx).kernels (Hdr.krec h).toNat = some k) (hfit : Kern.fits k (Hdr.bsz h) = false ∨ (s.job ctx).sigMapped h = false) :
    s.accept ctx h rs = (s, 5) := by
  unfold State.accept
  rcases hfit with hfit | hfit <;> simp [hok, hq, hk, hfit]

theorem accept_full (hok : Hdr.ok h rs = true) (hq : (s.job ctx).queues.find? (·.qid == Hdr.qid h) = some q)
    (hk : Assoc.get? (s.job ctx).kernels (Hdr.krec h).toNat = some k) (hfit : Kern.fits k (Hdr.bsz h) = true) (hsig : (s.job ctx).sigMapped h = true)
    (hfull : q.cap ≤ (s.queued ctx (Hdr.qid h)).length) : s.accept ctx h rs = (s, 2) := by
  unfold State.accept
  simp [hok, hq, hk, hfit, hsig, hfull]

/-- The task of a record that is accepted. -/
def newTask (s : State) (ctx : Nat) (h : Hdr) (rs : List Region) (k : Kern) : Task :=
  { ctx := ctx, qid := h.qid, hdr := h, regions := rs.take h.nreg, kern := k, origin := (s.job ctx).origin h.krec,
    grid := (s.job ctx).accepted % 2 ^ 32 }

theorem accept_eq (hok : Hdr.ok h rs = true) (hq : (s.job ctx).queues.find? (·.qid == Hdr.qid h) = some q)
    (hk : Assoc.get? (s.job ctx).kernels (Hdr.krec h).toNat = some k) (hfit : Kern.fits k (Hdr.bsz h) = true) (hsig : (s.job ctx).sigMapped h = true)
    (hroom : (s.queued ctx (Hdr.qid h)).length < q.cap) : s.accept ctx h rs =
      ({ s with tasks := Assoc.put s.tasks s.nextOp (newTask s ctx h rs k), nextOp := s.nextOp + 1,
                jobs := Assoc.put s.jobs ctx { s.job ctx with accepted := (s.job ctx).accepted + 1 } }, 0) := by
  unfold State.accept
  simp [hok, hq, hk, hfit, hsig, Nat.not_le.2 hroom, newTask, State.setTask]

end Accept

/-! Signal waits (R242). -/

/-- What Pewter's reads change: the cache lines that they go through, and the reports. -/
def Read (s t : State) : Prop := t = { s with llc := t.llc, charges := t.charges, reports := t.reports }

theorem Read.job (h : Read s t) (ctx : Nat) : t.job ctx = s.job ctx := by rw [h]; rfl
theorem Read.sigCount (h : Read s t) (ctx : Nat) (a : W64) : t.sigCount ctx a = s.sigCount ctx a := by rw [h]; rfl
theorem Read.reached (h : Read s t) (ctx : Nat) (w : SigWait) : t.reached ctx w = s.reached ctx w := by rw [h]; rfl

theorem read_readCount (s : State) (ctx : Nat) (sig : CallRead) : Read (s.mend sig.copies) (s.readCount ctx sig) := by
  unfold State.readCount
  dsimp only
  split
  · split <;> rfl
  · rfl

/-- A count in a unit that fails its check is reported (R13). -/
theorem readCount_reports {sig : CallRead} {p : Nat} (hp : (s.job ctx).phys .load sig.at'.toNat = some p) (hbad : (s.mend sig.copies).badAt p 8 = true) :
    (s.readCount ctx sig).reports = s.reports ++ [.notPassed p] := by
  have hbad' : ((s.mend sig.copies).touchJob ctx sig.at'.toNat 8 none false).badAt p 8 = true := hbad
  unfold State.readCount
  dsimp only
  rw [(refetched_mend s sig.copies).job, hp]
  dsimp only
  rw [hbad', if_pos rfl]
  exact congrArg (· ++ [.notPassed p]) (refetched_mend s sig.copies).reports

theorem exec_nxSignalWait (sig : CallRead) (count timeout : Nat) : exec (.nxSignalWait ctx sig count timeout) s =
    if (s.readCount ctx sig).reached ctx ⟨sig.at', count, timeout⟩ = true then
      .next ((s.readCount ctx sig).setJob ctx { (s.readCount ctx sig).job ctx with
        a0 := 0, waits := ((s.readCount ctx sig).job ctx).waits.filter (· != ⟨sig.at', count, timeout⟩) })
    else .next ((s.readCount ctx sig).setJob ctx { (s.readCount ctx sig).job ctx with
      waits := ((s.readCount ctx sig).job ctx).waits ++ [⟨sig.at', count, timeout⟩] }) := rfl

theorem reached_iff {w : SigWait} {n : Nat} (h : s.sigCount ctx w.sig = some n) : s.reached ctx w = true ↔ w.count ≤ n := by
  simp [State.reached, h]

theorem sigCount_bad {a : W64} {p : Nat} (hp : (s.job ctx).phys .load a.toNat = some p) (hbad : s.badAt p 8 = true) : s.sigCount ctx a = none := by
  simp [State.sigCount, hp, hbad]

/-- A wait with a timeout ends with -5, or with 0 where its count is reached all the same. -/
theorem exec_signalWaitTimeout {sig : CallRead} {w : SigWait} (h : (s.job ctx).waits.find? (fun w => w.sig == sig.at' && w.timeout != 0) = some w) :
    exec (.signalWaitTimeout ctx sig) s = .next ((s.readCount ctx sig).setJob ctx { (s.readCount ctx sig).job ctx with
      a0 := if (s.readCount ctx sig).reached ctx w = true then 0 else -5, waits := (s.job ctx).waits.erase w }) := by
  change execSignalWaitTimeout ctx sig s = _
  unfold execSignalWaitTimeout
  dsimp only
  rw [h]

/-- A wait whose count is reached returns 0 as time passes (R242). -/
theorem tick_returns {w : SigWait} (hw : w ∈ (s.job ctx).waits) (hreached : s.reached ctx w = true) :
    (s.tick.job ctx).a0 = 0 ∧ w ∉ (s.tick.job ctx).waits := by
  have hjob : s.tick.job ctx = (State.pollWaits { s with steps := s.steps + 1 }).job ctx := by
    unfold State.tick
    rw [State.yieldTurn_spec]
    rfl
  rw [hjob]
  unfold State.job at hw ⊢
  cases hj : Assoc.get? s.jobs ctx with
  | none => rw [hj] at hw; cases hw
  | some j =>
    rw [hj] at hw
    rw [pollWaits_jobs, get?_map_values]
    change w ∈ j.waits at hw
    have hany : j.waits.any (State.reached { s with steps := s.steps + 1 } ctx) = true := List.any_eq_true.2 ⟨w, hw, hreached⟩
    rw [show Assoc.get? ({ s with steps := s.steps + 1 } : State).jobs ctx = some j from hj]
    simp only [Option.map_some, Option.getD_some, returned, hany, if_true]
    exact ⟨trivial, fun hin => by simpa [show State.reached { s with steps := s.steps + 1 } ctx w = true from hreached] using (List.mem_filter.1 hin).2⟩

/-! nx_vf_report and nx_task_fault (R242, R262, R263). -/

/-- Writes of a list's elements at addresses in a row leave each at its own. -/
theorem get_foldl_zipIdx {m : List (Nat × Byte)} (a : Nat) (bs : List Byte) (k : Nat) (h : Sparse.wf 0 m = true) (j : Nat) :
    Sparse.get 0 ((bs.zipIdx k).foldl (fun m b => Sparse.put 0 m (a + b.2) b.1) m) (a + j) =
      if k ≤ j ∧ j < k + bs.length then bs.getD (j - k) 0 else Sparse.get 0 m (a + j) := by
  induction bs generalizing m k with
  | nil => rw [if_neg (by simp)]; rfl
  | cons b bs ih =>
    rw [List.zipIdx_cons, List.foldl_cons, ih (k + 1) (Sparse.wf_put _ _ h), Sparse.get_put _ _ _ h]
    rcases Nat.lt_trichotomy k j with hk | hk | hk
    · rw [if_neg (show ¬ a + k = a + j by omega), show j - k = j - (k + 1) + 1 by omega, List.getD_cons_succ]
      simp only [List.length_cons]
      congr 1
      exact propext ⟨fun h => by omega, fun h => by omega⟩
    · subst hk; simp
    · rw [if_neg (by omega), if_neg (by omega), if_neg (by omega)]

theorem exec_nxTaskFault {sig buf : W64} {n : Nat} {t : Task} (hsig : sig ≠ 0)
    (h : (s.tasks.filter fun t => t.2.ctx == ctx && Hdr.sig t.2.hdr == sig).getLast? = some (n, t)) : exec (.nxTaskFault ctx sig buf) s =
      if t.stage != .done then .next (answered s ctx (-6)) else match t.kept with
      | none => .next (answered s ctx (-1))
      | some k => .next (s.setJob ctx { s.job ctx with ctl := Sparse.writeN (s.job ctx).ctl buf.toNat 32 k.record, a0 := 0 }) := by
  have hfilter : (s.tasks.filter fun t => sig != 0 && t.2.ctx == ctx && Hdr.sig t.2.hdr == sig) =
      s.tasks.filter fun t => t.2.ctx == ctx && Hdr.sig t.2.hdr == sig := by
    refine List.filter_congr fun t _ => ?_
    rw [show (sig != 0) = true from bne_iff_ne.2 hsig, Bool.true_and]
  change execNxTaskFault ctx sig buf s = _
  unfold execNxTaskFault
  rw [hfilter, h]
  rfl

theorem exec_nxTaskFault_zero {buf : W64} : exec (.nxTaskFault ctx 0 buf) s = .next (answered s ctx (-1)) := by
  have hfilter : (s.tasks.filter fun t => (0 : W64) != 0 && t.2.ctx == ctx && Hdr.sig t.2.hdr == 0) = [] :=
    List.filter_eq_nil_iff.2 (by simp)
  change execNxTaskFault ctx 0 buf s = _
  unfold execNxTaskFault
  rw [hfilter]
  rfl

end Sys2Proof.Device
end

section
/-! The loader (R262, R133, R134, R19), and O45. -/

namespace Sys2Proof.Device

open Sys2Proof Sys2Proof.Machine Sys2Proof.Claim

variable {s t : State} {ctx : Nat}

/-! The pages of a section (R140). -/

/-- Beside its base a section's leaf holds what the section gives it, below bit 64. -/
theorem leaf_base (x : Section) : ∃ c, c < 2 ^ 64 ∧ ∀ b, x.leaf b = BitVec.ofNat 128 (c + b * 2 ^ 64) := by
  have hcode : x.page.fmt.code < 16 := by cases x.page.fmt <;> decide
  unfold Section.leaf
  split
  · exact ⟨0xB, by decide, fun b => rfl⟩
  · unfold PageReq.leaf
    dsimp only
    refine ⟨_, ?_, fun b => rfl⟩
    split <;> split <;> split <;> omega
  · exact ⟨0x3, by decide, fun b => rfl⟩

theorem size_leaf (x : Section) (b : Nat) : Leaf.size (x.leaf b) = Leaf.size (x.leaf 0) := by
  obtain ⟨c, hc, hleaf⟩ := leaf_base x
  refine size_low ?_
  rw [hleaf, hleaf, BitVec.toNat_ofNat, BitVec.toNat_ofNat]
  omega

theorem pbase_leaf (x : Section) (b : Nat) : Leaf.pbase (x.leaf b) = b % 2 ^ 52 := by
  obtain ⟨c, hc, hleaf⟩ := leaf_base x
  rw [pbase_eq, hleaf, BitVec.toNat_ofNat]
  omega

/-- The page that holds a byte of a section is one of its own. -/
theorem page_lt {x : Section} {i : Nat} (hi : i < x.bytes.length) : i / Leaf.size (x.leaf 0) < x.span / Leaf.size (x.leaf 0) := by
  have hn := size_pos (x.leaf 0)
  unfold Section.span
  rw [Nat.mul_div_cancel _ hn]
  calc i / Leaf.size (x.leaf 0) < i / Leaf.size (x.leaf 0) + 1 := Nat.lt_succ_self _
    _ = (i + Leaf.size (x.leaf 0)) / Leaf.size (x.leaf 0) := (Nat.add_div_right _ hn).symm
    _ ≤ _ := Nat.div_le_div_right (by omega)

/-- The mapping of a section's page. -/
def pageMap (x : Section) (p : SectionPlace) (j : Nat) : Mapping :=
  ⟨p.va + BitVec.ofNat 64 (j * Leaf.size (x.leaf 0)), x.leaf (p.pa + j * Leaf.size (x.leaf 0))⟩

theorem pageMap_mem {x : Section} {p : SectionPlace} {j : Nat} (hx : x.mapped = true) (hj : j < x.span / Leaf.size (x.leaf 0)) :
    pageMap x p j ∈ x.maps p := by
  unfold Section.maps
  rw [if_neg (by simp [hx])]
  exact List.mem_append_left _ (List.mem_map.2 ⟨j, List.mem_range.2 hj, rfl⟩)

/-- A byte of a section that is placed on its page boundaries lies on the page that the mapping of its page names. -/
theorem byte_in_page {x : Section} {p : SectionPlace} {i : Nat} (ha : p.pa % Leaf.size (x.leaf 0) = 0) :
    Leaf.pbase (pageMap x p (i / Leaf.size (x.leaf 0))).leaf ≤ (p.pa + i) % 2 ^ 52 ∧
      (p.pa + i) % 2 ^ 52 < Leaf.pbase (pageMap x p (i / Leaf.size (x.leaf 0))).leaf + Leaf.size (pageMap x p (i / Leaf.size (x.leaf 0))).leaf := by
  change Leaf.pbase (x.leaf _) ≤ _ ∧ _ < Leaf.pbase (x.leaf _) + Leaf.size (x.leaf _)
  rw [pbase_leaf, size_leaf x (p.pa + _)]
  rcases size_cases (x.leaf 0) with h | h | h | h <;> rw [h] at ha ⊢ <;> omega

/-- A section that may be placed lies on its page boundaries, its pages in the global window. -/
theorem placeOk_spec {x : Section} {p : SectionPlace} (hx : x.mapped = true) (h : s.placeOk ctx x p = true) :
    p.pa % Leaf.size (x.leaf 0) = 0 ∧ ∀ m ∈ x.maps p, isGlob m.va = true := by
  unfold State.placeOk at h
  simp only [hx, Bool.not_true, Bool.false_or, Bool.and_eq_true, beq_iff_eq, List.all_eq_true] at h
  obtain ⟨⟨-, hpa⟩, hmaps⟩ := h
  exact ⟨hpa, fun m hm => (hmaps m hm).1.1.1⟩

theorem isGlob_lt {a : W64} (h : isGlob a = true) : a.toNat < 2 ^ 56 := by
  unfold isGlob window at h
  dsimp only at h
  have hlt := a.isLt
  split at h
  · rename_i hw
    split at hw
    · rename_i hb
      simp only [natBits, beq_iff_eq] at hb
      omega
    · split at hw
      · cases hw
      · split at hw
        · cases hw
        · split at hw <;> cases hw
  · cases h

/-- The addresses of a section's pages follow one another, none past the global window. -/
theorem page_va {x : Section} {p : SectionPlace} (hglob : ∀ m ∈ x.maps p, isGlob m.va = true) (hx : x.mapped = true) (j : Nat)
    (hj : j < x.span / Leaf.size (x.leaf 0)) : p.va.toNat + j * Leaf.size (x.leaf 0) < 2 ^ 56 := by
  have hpage : ∀ k, k < x.span / Leaf.size (x.leaf 0) → (p.va + BitVec.ofNat 64 (k * Leaf.size (x.leaf 0))).toNat < 2 ^ 56 :=
    fun k hk => isGlob_lt (a := p.va + BitVec.ofNat 64 (k * Leaf.size (x.leaf 0))) (hglob (pageMap x p k) (pageMap_mem hx hk))
  have hn : Leaf.size (x.leaf 0) ≤ 2 ^ 29 := by rcases size_cases (x.leaf 0) with h | h | h | h <;> rw [h] <;> decide
  induction j with
  | zero => simpa using hpage 0 hj
  | succ j ih =>
    have hbefore := ih (by omega)
    have hthis := hpage (j + 1) hj
    rw [Nat.succ_mul] at hthis ⊢
    rw [BitVec.toNat_add, BitVec.toNat_ofNat] at hthis
    generalize j * Leaf.size (x.leaf 0) = a at *
    omega

/-- The address of a record of a section that may be placed. -/
theorem record_va {x : Section} {p : SectionPlace} {i : Nat} (hglob : ∀ m ∈ x.maps p, isGlob m.va = true) (hx : x.mapped = true)
    (hi : i < x.bytes.length / 32) : (p.va + BitVec.ofNat 64 (32 * i)).toNat = p.va.toNat + 32 * i := by
  have hlt := page_va hglob hx _ (page_lt (show 32 * i < x.bytes.length by omega))
  have hdiv := Nat.div_add_mod (32 * i) (Leaf.size (x.leaf 0))
  have hmod := Nat.mod_lt (32 * i) (size_pos (x.leaf 0))
  have hn : Leaf.size (x.leaf 0) ≤ 2 ^ 29 := by rcases size_cases (x.leaf 0) with h | h | h | h <;> rw [h] <;> decide
  rw [Nat.mul_comm (Leaf.size _)] at hdiv
  rw [BitVec.toNat_add, BitVec.toNat_ofNat]
  omega

/-! Bytes of an object (R262). -/

/-- Physical bytes that two mappings share. -/
def Shares (m q : Mapping) : Prop := ∃ a, (Leaf.pbase m.leaf ≤ a ∧ a < Leaf.pbase m.leaf + Leaf.size m.leaf) ∧
  Leaf.pbase q.leaf ≤ a ∧ a < Leaf.pbase q.leaf + Leaf.size q.leaf

/-- Mappings that lie apart share no physical byte. -/
theorem pairwise_apart {ms : List Mapping} (h : apart ms = true) : ms.Pairwise fun m q => ¬ Shares m q := by
  induction ms with
  | nil => exact List.Pairwise.nil
  | cons m ms ih =>
    simp only [apart, Bool.and_eq_true, List.all_eq_true, Bool.not_eq_eq_eq_not, Bool.not_true, decide_eq_false_iff_not] at h
    obtain ⟨hm, hms⟩ := h
    refine List.pairwise_cons.2 ⟨fun q hq => ?_, ih hms⟩
    rintro ⟨a, ⟨h1, h2⟩, h3, h4⟩
    exact (hm q hq).2 ⟨by omega, by omega⟩

/-- The bytes of two placed sections lie apart. -/
def Clear (x y : Section × SectionPlace) : Prop := ∀ i, i < x.1.bytes.length → ∀ k, k < y.1.bytes.length → x.2.pa + i ≠ y.2.pa + k

/-- Sections whose mappings lie apart have their bytes apart. -/
theorem pairwise_clear {xs : List (Section × SectionPlace)} (hok : ∀ x ∈ xs, s.placeOk ctx x.1 x.2 = true)
    (h : apart (xs.map fun x => x.1.maps x.2).flatten = true) : (xs.filter (·.1.mapped)).Pairwise Clear := by
  have hmaps := (List.pairwise_map.1 (List.pairwise_flatten.1 (pairwise_apart h)).2).filter (·.1.mapped)
  refine hmaps.imp_of_mem fun {x y} hx hy hxy i hi k hk he => ?_
  obtain ⟨hx, hxm⟩ := List.mem_filter.1 hx
  obtain ⟨hy, hym⟩ := List.mem_filter.1 hy
  have hbx := byte_in_page (i := i) (placeOk_spec hxm (hok x hx)).1
  have hby := byte_in_page (i := k) (placeOk_spec hym (hok y hy)).1
  rw [← he] at hby
  exact hxy _ (pageMap_mem hxm (page_lt hi)) _ (pageMap_mem hym (page_lt hk)) ⟨_, hbx, hby⟩

/-- The bytes of sections go to their places. -/
def writeSections (s : State) (xs : List (Section × SectionPlace)) : State :=
  xs.foldl (fun s x => s.memWrite x.2.pa x.1.bytes.length (joinBits 8 (x.1.bytes.map (·.toNat)))) s

theorem get_writeSections_of_not {xs : List (Section × SectionPlace)} {a : Nat} (hwf : Memory.wf s.mem = true)
    (h : ∀ x ∈ xs, ∀ k, k < x.1.bytes.length → a ≠ x.2.pa + k) : Sparse.get 0 (writeSections s xs).mem a = Sparse.get 0 s.mem a := by
  induction xs generalizing s with
  | nil => rfl
  | cons x xs ih =>
    obtain ⟨hx, hxs⟩ := List.forall_mem_cons.1 h
    refine (ih (State.wf_memWrite _ _ _ hwf) hxs).trans (get_memWrite_of_not hwf ?_)
    by_contra hin
    exact hx (a - x.2.pa) (by omega) (by omega)

/-- Of sections that lie apart each has its bytes where it is placed. -/
theorem get_writeSections {xs : List (Section × SectionPlace)} (hwf : Memory.wf s.mem = true) (h : xs.Pairwise Clear) :
    ∀ x ∈ xs, ∀ i, i < x.1.bytes.length → Sparse.get 0 (writeSections s xs).mem (x.2.pa + i) = x.1.bytes.getD i 0 := by
  induction xs generalizing s with
  | nil => exact fun x hx => nomatch hx
  | cons y ys ih =>
    obtain ⟨hy, hys⟩ := List.pairwise_cons.1 h
    refine List.forall_mem_cons.2 ⟨fun i hi => ?_, ih (State.wf_memWrite _ _ _ hwf) hys⟩
    exact (get_writeSections_of_not (State.wf_memWrite _ _ _ hwf) fun x hx k hk => hy x hx i hi k hk).trans (get_memWrite_bytes hwf _ _ hi)

/-- Zeros keep the form of memory. -/
theorem wf_zeroPhys (pa n : Nat) (h : Memory.wf s.mem = true) : Memory.wf (s.zeroPhys pa n).mem = true := wf_filter _ h

/-- The pages of an object's sections are mapped and filled with zeros. -/
def clearSections (s : State) (ctx : Nat) (xs : List (Section × SectionPlace)) : State :=
  xs.foldl (fun s x => (x.1.maps x.2).foldl (fun s m => s.zeroPhys (Leaf.pbase m.leaf) (Leaf.size m.leaf)) s)
    (s.setJob ctx ((s.job ctx).map (xs.map fun x => x.1.maps x.2).flatten))

theorem wf_clearSections (ctx : Nat) (xs : List (Section × SectionPlace)) (h : Memory.wf s.mem = true) :
    Memory.wf (clearSections s ctx xs).mem = true := by
  have hzero : ∀ (ms : List Mapping) (s : State), Memory.wf s.mem = true →
      Memory.wf (ms.foldl (fun s m => s.zeroPhys (Leaf.pbase m.leaf) (Leaf.size m.leaf)) s).mem = true := by
    intro ms
    induction ms with
    | nil => exact fun _ h => h
    | cons m ms ih => exact fun s h => ih _ (wf_zeroPhys _ _ h)
  have hall : ∀ (xs : List (Section × SectionPlace)) (s : State), Memory.wf s.mem = true →
      Memory.wf (xs.foldl (fun s x => (x.1.maps x.2).foldl (fun s m => s.zeroPhys (Leaf.pbase m.leaf) (Leaf.size m.leaf)) s) s).mem = true := by
    intro xs
    induction xs with
    | nil => exact fun _ h => h
    | cons x xs ih => exact fun s h => ih _ (hzero _ s h)
  exact hall xs _ h

/-! Loading an object (R262). -/

/-- An object without relocations, mapped: its bytes stand at their places, and it is among those loaded. -/
def loaded (s : State) (ctx : Nat) (obj : CodeObject) (places : List SectionPlace) : State :=
  let put := (obj.sections.zip places).filter (·.1.mapped)
  let addr := fun (k : Nat) => ((obj.symbols[k]?).map ((s.job ctx).symbol places)).getD 0
  (obj.relocs.foldl (fun u r => u.relocate places r (addr r.sym)) (writeSections (clearSections s ctx put) put)).enterObject obj

theorem mem_mapObject {obj : CodeObject} (places : List SectionPlace) : (s.mapObject ctx obj places).mem = (loaded s ctx obj places).mem := by
  unfold State.mapObject
  dsimp only
  split <;> rfl

theorem objects_mapObject {obj : CodeObject} (places : List SectionPlace) :
    (s.mapObject ctx obj places).objects = (loaded s ctx obj places).objects := by
  unfold State.mapObject
  dsimp only
  split <;> rfl

/-- Without relocations a byte of a mapped section stands where the section is placed. -/
theorem get_mapObject {obj : CodeObject} {places : List SectionPlace} (hcan : Canonical s) (hrel : obj.relocs = [])
    (hok : s.placesOk ctx obj places = true) {x : Section} {p : SectionPlace} (hmem : (x, p) ∈ obj.sections.zip places) (hx : x.mapped = true)
    {i : Nat} (hi : i < x.bytes.length) : Sparse.get 0 (s.mapObject ctx obj places).mem (p.pa + i) = x.bytes.getD i 0 := by
  simp only [State.placesOk, Bool.and_eq_true, List.all_eq_true] at hok
  obtain ⟨⟨-, hplaces⟩, hapart⟩ := hok
  have hentered : ∀ u : State, (u.enterObject obj).mem = u.mem := fun u => by rw [(State.enterObject_spec obj).1]
  rw [mem_mapObject]
  unfold loaded
  dsimp only
  rw [hrel, List.foldl_nil, hentered]
  exact get_writeSections (wf_clearSections _ _ hcan.1) (pairwise_clear hplaces hapart) (x, p) (List.mem_filter.2 ⟨hmem, hx⟩) i hi

/-- What is entered in a map by its own key is found, as one of the values entered. -/
theorem get?_foldl_put {α κ β : Type} [DecidableEq κ] (f : α → κ × β) (P : β → Prop) (xs : List α) (m : List (κ × β)) (k : κ)
    (hP : ∀ x ∈ xs, P (f x).2) (h : (∃ v, Assoc.get? m k = some v ∧ P v) ∨ ∃ x ∈ xs, (f x).1 = k) :
    ∃ v, Assoc.get? (xs.foldl (fun m x => Assoc.put m (f x).1 (f x).2) m) k = some v ∧ P v := by
  induction xs generalizing m with
  | nil => simpa using h
  | cons x xs ih =>
    obtain ⟨hx, hxs⟩ := List.forall_mem_cons.1 hP
    refine ih _ hxs ?_
    by_cases hk : (f x).1 = k
    · exact .inl ⟨(f x).2, (Assoc.get?_put ..).trans (if_pos hk), hx⟩
    · refine h.imp (fun ⟨v, hv, hp⟩ => ⟨v, ((Assoc.get?_put ..).trans (if_neg hk)).trans hv, hp⟩) fun ⟨y, hy, hyk⟩ => ?_
      rcases List.mem_cons.1 hy with rfl | hy
      · exact absurd hyk hk
      · exact ⟨y, hy, hyk⟩

theorem obj_originAt (n : Nat) (o : CodeObject) (places : List SectionPlace) (a : W64) : (originAt n o places a).obj = n := by
  unfold originAt
  dsimp only
  split <;> rfl

/-- Each kernel record of a loaded object is a kernel of its process, with its entry noted in the object (R134, R19). -/
theorem kernels_mapObject {obj : CodeObject} {places : List SectionPlace} {x : Section} {p : SectionPlace}
    (hfind : ((obj.sections.zip places).filter (·.1.mapped)).find? (fun y => y.1.kind == .kernels) = some (x, p)) :
    ((s.mapObject ctx obj places).job ctx).a0 = p.va.toNat ∧ ∀ i, i < x.bytes.length / 32 →
      (Assoc.get? ((s.mapObject ctx obj places).job ctx).kernels (p.va.toNat + 32 * i)).isSome = true ∧
      ∃ o, Assoc.get? ((s.mapObject ctx obj places).job ctx).origins (p.va.toNat + 32 * i) = some o ∧
        (s.mapObject ctx obj places).objects[o.obj]? = some obj := by
  rw [objects_mapObject]
  unfold State.mapObject
  dsimp only
  rw [hfind]
  dsimp only
  rw [job_setJob]
  refine ⟨rfl, fun i hi => ?_⟩
  have hin : ∀ g : Nat → Kern, ∃ r ∈ (List.range (x.bytes.length / 32)).map (fun i => (p.va.toNat + 32 * i, g i)), r.1 = p.va.toNat + 32 * i :=
    fun g => ⟨_, List.mem_map.2 ⟨i, List.mem_range.2 hi, rfl⟩, rfl⟩
  refine ⟨?_, ?_⟩
  · obtain ⟨v, hv, -⟩ := get?_foldl_put (fun r : Nat × Kern => r) (fun _ => True) _ _ _ (fun _ _ => trivial) (.inr (hin _))
    exact Option.isSome_iff_exists.2 ⟨v, hv⟩
  · exact get?_foldl_put (fun r : Nat × Kern => (r.1, originAt (State.objectNo (loaded s ctx obj places) obj) obj places (Kern.entry r.2)))
      (fun o => (loaded s ctx obj places).objects[o.obj]? = some obj) _ _ _
      (fun r _ => by rw [obj_originAt]; exact (State.enterObject_spec obj).2) (.inr (hin _))

theorem codeRefusal_mem {j : Job} {o : CodeObject} {r : Int} (h : codeRefusal j o = some r) : r ∈ [(-10 : Int), -12, -13] := by
  unfold codeRefusal at h
  split at h
  · cases h; decide
  · split at h
    · cases h; decide
    · split at h
      · cases h; decide
      · split at h
        · cases h; decide
        · cases h

theorem placesOk_mem {obj : CodeObject} {places : List SectionPlace} {x : Section × SectionPlace} (h : s.placesOk ctx obj places = true)
    (hx : x ∈ obj.sections.zip places) : s.placeOk ctx x.1 x.2 = true := by
  simp only [State.placesOk, Bool.and_eq_true, List.all_eq_true] at h
  exact h.1.2 x hx

theorem exec_nxObjectLoad {bs : List Byte} {pages : List (Nat × PageReq)} {obj : CodeObject} {places : List SectionPlace}
    (h : readElf bs pages = some obj) (hr : codeRefusal (s.job ctx) obj = none) (hok : s.placesOk ctx obj places = true) :
    exec (.nxObjectLoad ctx ⟨bs, pages, places⟩) s = .next (s.mapObject ctx obj places) := by
  change execNxObjectLoad ctx ⟨bs, pages, places⟩ s = _
  unfold execNxObjectLoad
  rw [h]
  dsimp only
  rw [hr]
  dsimp only
  rw [hok, if_pos rfl]

/-- Settles O45: the clauses are the lemmas above, one per call. -/
theorem pewterCalls : Obligations.PewterCalls := by
  unfold Obligations.PewterCalls
  rintro answers rfl
  refine ⟨fun ctx prio cap s h => exec_nxQueueCreate_refused h, fun ctx prio cap s h1 h2 h3 h4 h5 => exec_nxQueueCreate_full h1 h2 h3 h4 h5, ?create,
    fun ctx q s h => exec_nxQueueDestroy_none h, ?destroy, ?absent, ?broken, fun s ctx a => recordReach_touched s ctx a, ?launch,
    ?wait, ?waitBad, ?timeout, fun s ctx w => tick_returns, ?report, ?noElf, ?refusal, ?load, fun ctx buf s => exec_nxTaskFault_zero, ?fault⟩
  case create =>
    intro ctx prio cap s hprio hlo hhi hpow hroom
    obtain ⟨q, hrun, hfree, h1, h2⟩ := exec_nxQueueCreate hprio hlo hhi hpow hroom
    exact ⟨_, q, hrun, hfree, h1, h2, by rw [job_setJob], by rw [job_setJob]⟩
  case destroy =>
    intro ctx q s hq
    by_cases hbusy : s.queueBusy ctx q = true
    · obtain ⟨t, ht, hctx, hqid, hstage⟩ := queueBusy_iff.1 hbusy
      refine ⟨_, (exec_nxQueueDestroy hq).trans (if_pos hbusy), fun hall => absurd (hall t ht hctx hqid) hstage, fun _ => ?_⟩
      rw [job_setJob]
      refine ⟨rfl, rfl, ?_⟩
      dsimp only
      split
      · rename_i h; simpa using h
      · simp
    · refine ⟨_, (exec_nxQueueDestroy hq).trans (if_neg hbusy), fun _ => ?_, fun h => absurd (queueBusy_iff.2 h) hbusy⟩
      rw [job_setJob]
      exact ⟨rfl, rfl⟩
  case absent =>
    rintro ctx a s u rfl h
    exact exec_nxLaunch_absent h
  case broken =>
    rintro ctx a s u p rfl h
    exact exec_nxLaunch_broken h
  case launch =>
    intro ctx a s u n h rs hn hs hu
    have hrun := exec_nxLaunch_ok hn hs hu
    have hjob : u.job ctx = s.job ctx := by rw [hu]; exact (refetched_mend s a.copies).job ctx
    have htasks : u.tasks = s.tasks := by rw [hu]; exact (refetched_mend s a.copies).tasks
    have hnext : u.nextOp = s.nextOp := by rw [hu]; exact (refetched_mend s a.copies).nextOp
    have hidle : u.idle = s.idle := by rw [hu]; exact (refetched_mend s a.copies).idle
    have hqueued : ∀ q, u.queued ctx q = s.queued ctx q := fun q => by unfold State.queued; rw [htasks]
    rw [hrun, ← hjob]
    simp only [← hqueued, ← hnext, ← hidle]
    refine ⟨fun hok => by rw [accept_malformed hok]; rfl, fun hok hq => by rw [accept_noQueue hok hq]; rfl, fun q hok hq =>
      ⟨fun hk => by rw [accept_noKernel hok hq hk]; rfl, fun k hk => ⟨fun hfit => by rw [accept_unfit hok hq hk hfit]; rfl, fun hfit hsig =>
        ⟨fun hfull => by rw [accept_full hok hq hk hfit hsig hfull]; rfl, fun hroom => ?_⟩⟩⟩⟩
    rw [accept_eq hok hq hk hfit hsig hroom]
    obtain ⟨hj, ht, hx⟩ := launched_accepted u ctx (newTask u ctx h rs k)
    exact ⟨_, newTask u ctx h rs k, rfl, by rw [hj], by rw [hj], ht, rfl, rfl, rfl, rfl, rfl, rfl, rfl, hx⟩
  case wait =>
    intro ctx sig count timeout s n hn
    have hread := read_readCount s ctx sig
    have hcount : (s.readCount ctx sig).sigCount ctx sig.at' = some n := (hread.sigCount ..).trans hn
    have hiff := reached_iff (w := ⟨sig.at', count, timeout⟩) hcount
    rw [exec_nxSignalWait]
    by_cases hle : count ≤ n
    · rw [if_pos (hiff.2 hle)]
      exact ⟨_, rfl, fun _ => by rw [job_setJob], fun hlt => absurd hle (Nat.not_le.2 hlt)⟩
    · rw [if_neg fun h => hle (hiff.1 h)]
      exact ⟨_, rfl, fun h => absurd h hle, fun _ => by rw [job_setJob]; simp⟩
  case waitBad =>
    intro ctx sig count timeout s p hp hbad
    have hread := read_readCount s ctx sig
    have hjob := (refetched_mend s sig.copies).job ctx
    have hcount : (s.readCount ctx sig).sigCount ctx sig.at' = none := (hread.sigCount ..).trans (sigCount_bad (hjob ▸ hp) hbad)
    have hno : (s.readCount ctx sig).reached ctx ⟨sig.at', count, timeout⟩ = false := by simp [State.reached, hcount]
    rw [exec_nxSignalWait, hno, if_neg Bool.false_ne_true]
    exact ⟨_, rfl, readCount_reports hp hbad, by rw [job_setJob]; simp⟩
  case timeout =>
    intro ctx sig s w hw
    refine ⟨_, exec_signalWaitTimeout hw, by rw [job_setJob], ?_⟩
    rw [job_setJob, (read_readCount s ctx sig).reached]
  case report =>
    intro ctx buf s hwf
    refine ⟨_, rfl, rfl, by rw [job_setJob], fun i hi => ?_⟩
    rw [job_setJob]
    have hget := get_foldl_zipIdx buf.toNat (Config.vfReport s.vfUse) 0 hwf i
    rw [if_pos ⟨Nat.zero_le i, by omega⟩] at hget
    exact hget
  case noElf =>
    intro ctx bs pages places s h
    change execNxObjectLoad ctx ⟨bs, pages, places⟩ s = _
    unfold execNxObjectLoad
    rw [h]
    rfl
  case refusal =>
    intro ctx bs pages obj places s r h hr
    refine ⟨?_, codeRefusal_mem hr⟩
    change execNxObjectLoad ctx ⟨bs, pages, places⟩ s = _
    unfold execNxObjectLoad
    rw [h]
    dsimp only
    rw [hr]
    rfl
  case load =>
    intro ctx bs pages obj places s h hr hok
    refine ⟨_, exec_nxObjectLoad h hr hok, fun x p hfind => ?_, fun hcan hrel x p hmem hx i hi => get_mapObject hcan hrel hok hmem hx hi⟩
    obtain ⟨ha0, hkernels⟩ := kernels_mapObject (s := s) (ctx := ctx) hfind
    refine ⟨ha0, fun i hi => ?_⟩
    obtain ⟨hkernel, o, ho, hobj⟩ := hkernels i hi
    obtain ⟨hmem, hx⟩ := List.mem_filter.1 (List.mem_of_find?_eq_some hfind)
    have hglob := (placeOk_spec hx (placesOk_mem hok hmem)).2
    refine ⟨hkernel, o, ?_, hobj⟩
    unfold Job.origin
    rw [record_va hglob hx hi, ho]
    rfl
  case fault =>
    intro ctx sig buf s n t hsig hlast
    rw [exec_nxTaskFault hsig hlast]
    by_cases hdone : t.stage = .done
    · rw [if_neg (by simp [hdone])]
      cases hkept : t.kept with
      | none => exact ⟨_, rfl, fun h => absurd hdone h, fun _ _ => by rw [answered, job_setJob], fun k _ hk => (nomatch hk)⟩
      | some k =>
        refine ⟨_, rfl, fun h => absurd hdone h, fun _ hk => (nomatch hk), fun k' _ hk => ?_⟩
        cases hk
        rw [job_setJob]
        refine ⟨rfl, fun hwf => ?_⟩
        dsimp only
        rw [Sparse.readN_writeN _ _ _ hwf, show (256 : Nat) ^ 32 = 2 ^ 256 by norm_num]
    · rw [if_pos (by simpa using hdone)]
      exact ⟨_, rfl, fun _ => by rw [answered, job_setJob], fun h => absurd h hdone, fun k h => absurd h hdone⟩

end Sys2Proof.Device
end

section
/-! What the end of outstanding work leaves (R42), mclaim's grant (R318), and the ranks of a group (R217, R14). -/

namespace Sys2Proof.Device

open Sys2Proof Sys2Proof.Machine Sys2Proof.Claim

variable {s t : State}

/-! Blocks and spans that end (R41, R42). -/

/-- One block of a span is marked, released and let go, as `State.reap` does. -/
def reapBlock (p : Span) (s : State) (b : BlkId) : State :=
  match s.blk? b with
  | none => s
  | some k =>
    let fin := (s.wavsOf b).all fun v => v.2.live.isEmpty
    let s := if fin && !k.ended then
        (s.setBlk b { k with ended := true }).modTask p.task fun t => { t with ended := t.ended + 1 }
      else s
    let s := if fin && !s.matrixBusy b then s.modBlk b fun k => { k with slots := [], freeing := [] } else s
    if fin && !s.blockBusy b then s.modBlk b fun k => { k with held := false } else s

/-- What the end of a block can change: blocks and the counts of tasks. -/
def Reaped (s t : State) : Prop := t = { s with blocks := t.blocks, tasks := t.tasks }

theorem Reaped.trans {u : State} (h : Reaped s t) (k : Reaped t u) : Reaped s u := by
  unfold Reaped at *
  rw [k, h]

theorem Reaped.ite {c : Prop} [Decidable c] (h : Reaped s t) : Reaped s (if c then t else s) := by
  split
  · exact h
  · rfl

theorem reaped_modBlk (s : State) (b : BlkId) (f : Block → Block) : Reaped s (s.modBlk b f) := by
  unfold State.modBlk
  split <;> rfl

theorem reaped_modTask (s : State) (n : Nat) (f : Task → Task) : Reaped s (s.modTask n f) := by
  unfold State.modTask
  split <;> rfl

theorem reaped_reapBlock (p : Span) (s : State) (b : BlkId) : Reaped s (reapBlock p s b) := by
  unfold reapBlock
  split
  · rfl
  · dsimp only
    refine Reaped.trans (Reaped.trans ?_ (Reaped.ite (reaped_modBlk ..))) (Reaped.ite (reaped_modBlk ..))
    exact Reaped.ite (Reaped.trans (t := State.setBlk s b _) rfl (reaped_modTask ..))

/-- A block with a live wavelet is as it was. -/
theorem reapBlock_live {p : Span} {b : BlkId} (h : (s.wavsOf b).all (fun v => v.2.live.isEmpty) = false) : reapBlock p s b = s := by
  unfold reapBlock
  split
  · rfl
  · simp [h]

theorem blk?_reapBlock_of_ne {p : Span} {b c : BlkId} (h : b ≠ c) : (reapBlock p s b).blk? c = s.blk? c := by
  have hmod : ∀ (u : State) (f : Block → Block), (u.modBlk b f).blk? c = u.blk? c := fun u f => (blk?_modBlk ..).trans (if_neg h)
  have htask : ∀ (u : State) (n : Nat) (f : Task → Task), (u.modTask n f).blk? c = u.blk? c := fun u n f => by unfold State.modTask; split <;> rfl
  have hset : ∀ (u : State) (k : Block), (u.setBlk b k).blk? c = u.blk? c := fun u k => (Assoc.get?_put ..).trans (if_neg h)
  unfold reapBlock
  split
  · rfl
  · dsimp only
    split <;> split <;> split <;> simp only [hmod, htask, hset]

/-- A block with a live wavelet is as it was when the blocks of its span are marked. -/
theorem foldl_reapBlock (p : Span) {c : BlkId} (bs : List BlkId) (s : State) (h : (s.wavsOf c).all (fun v => v.2.live.isEmpty) = false) :
    Reaped s (bs.foldl (reapBlock p) s) ∧ (bs.foldl (reapBlock p) s).blk? c = s.blk? c := by
  induction bs generalizing s with
  | nil => exact ⟨rfl, rfl⟩
  | cons b bs ih =>
    have hr := reaped_reapBlock p s b
    have hlive : ((reapBlock p s b).wavsOf c).all (fun v => v.2.live.isEmpty) = false := by rw [hr]; exact h
    obtain ⟨hrest, hblk⟩ := ih _ hlive
    refine ⟨hr.trans hrest, hblk.trans ?_⟩
    by_cases hb : b = c
    · subst hb; rw [reapBlock_live h]
    · exact blk?_reapBlock_of_ne hb

/-- What the end of work in a span can change. -/
def Ending (s t : State) : Prop := t = { s with blocks := t.blocks, tasks := t.tasks, spans := t.spans, wavs := t.wavs, cur := t.cur, clusters := t.clusters }

theorem Ending.trans {u : State} (h : Ending s t) (k : Ending t u) : Ending s u := by
  unfold Ending at *
  rw [k, h]

theorem Ending.ops (h : Ending s t) : t.ops = s.ops := by rw [h]
theorem Ending.mem (h : Ending s t) : t.mem = s.mem := by rw [h]

theorem Reaped.ending (h : Reaped s t) : Ending s t := by
  unfold Ending
  rw [h]

theorem ending_reclock (s : State) (cls : List Nat) : Ending s (s.reclock cls) := by
  unfold Ending
  rw [reclock_eq]

theorem reaped_foldl (p : Span) (bs : List BlkId) (s : State) : Reaped s (bs.foldl (reapBlock p) s) := by
  induction bs generalizing s with
  | nil => rfl
  | cons b bs ih => exact (reaped_reapBlock p s b).trans (ih _)

/-- `State.reap` marks the blocks, then drops a span whose blocks have all ended. -/
theorem reap_eq {sp : Nat} {p : Span} (h : s.span? sp = some p) : s.reap sp =
    State.reclock (if ((List.range p.blocks).map fun i => (⟨sp, i⟩ : BlkId)).all (fun b =>
        match (((List.range p.blocks).map fun i => (⟨sp, i⟩ : BlkId)).foldl (reapBlock p) s).blk? b with
        | some k => k.ended && !k.held | none => true) = true then
      let u := ((List.range p.blocks).map fun i => (⟨sp, i⟩ : BlkId)).foldl (reapBlock p) s
      { u with spans := Assoc.del u.spans sp, blocks := u.blocks.filter (·.1.span != sp), wavs := u.wavs.filter (·.1.span != sp),
               cur := match u.cur with | some w => if w.span == sp then none else some w | none => none }
      else ((List.range p.blocks).map fun i => (⟨sp, i⟩ : BlkId)).foldl (reapBlock p) s)
      ((((List.range p.blocks).map fun i => (⟨sp, i⟩ : BlkId)).foldl (reapBlock p) s).ranked sp) := by
  unfold State.reap
  rw [h]
  rfl

theorem ending_reap (s : State) (sp : Nat) : Ending s (s.reap sp) := by
  cases h : s.span? sp with
  | none => unfold State.reap; rw [h]; rfl
  | some p =>
    rw [reap_eq h]
    refine Ending.trans ?_ (ending_reclock _ _)
    split
    · exact (reaped_foldl p _ s).ending.trans rfl
    · exact (reaped_foldl p _ s).ending

/-- Whether a wavelet keeps its span: it has a live lane in a block that has not ended. -/
def Keeps (s : State) (w : WavId) : Prop := ∃ v p b, s.wav? w = some v ∧ v.live ≠ [] ∧ s.span? w.span = some p ∧ w.blk < p.blocks ∧
  s.blk? w.block = some b ∧ b.ended = false

/-- Work that ends in a span with a live wavelet drops none of its wavelets, and leaves the block of that wavelet as it was. -/
theorem reap_keeps {w : WavId} (h : Keeps s w) : (s.reap w.span).wavs = s.wavs ∧ (s.reap w.span).blk? w.block = s.blk? w.block := by
  obtain ⟨v, p, b, hv, hlive, hp, hi, hb, hended⟩ := h
  have hwavs : (s.wavsOf w.block).all (fun v => v.2.live.isEmpty) = false := by
    refine List.all_eq_false.2 ⟨(w, v), List.mem_filter.2 ⟨Assoc.mem_of_get? hv, beq_self_eq_true _⟩, ?_⟩
    simpa using hlive
  obtain ⟨hr, hblk⟩ := foldl_reapBlock p ((List.range p.blocks).map fun i => (⟨w.span, i⟩ : BlkId)) s hwavs
  rw [reap_eq hp, if_neg, reclock_eq]
  · exact ⟨by rw [hr], hblk⟩
  · intro hall
    have hthis := List.all_eq_true.1 hall w.block (List.mem_map.2 ⟨w.blk, List.mem_range.2 hi, rfl⟩)
    rw [hblk, hb] at hthis
    simp [hended] at hthis

/-! Work that is gone. -/

/-- Work whose number no outstanding work has is not outstanding. -/
theorem op?_none {n : Nat} (h : ∀ o ∈ s.ops, o.id ≠ n) : s.op? n = none := by
  have hfind : s.ops.find? (·.id == n) = none := List.find?_eq_none.2 (by simpa using h)
  unfold State.op?
  rw [hfind]

/-- Outstanding work that can go on is listed under its number, and its span is not saved. -/
theorem op?_spec {n : Nat} {o : Op} (h : s.op? n = some o) : o ∈ s.ops ∧ o.id = n := by
  unfold State.op? at h
  split at h
  · rename_i x hx
    have hid := List.find?_some hx
    split at h
    · split at h
      · cases h
      · cases h
        exact ⟨List.mem_of_find?_eq_some hx, by simpa using hid⟩
    · cases h
  · cases h

/-- Work that is done is outstanding no more. -/
theorem op?_done (s : State) (o : Op) : (s.done o).op? o.id = none := by
  refine op?_none fun x hx => ?_
  unfold State.done at hx
  rw [(ending_reap _ _).ops] at hx
  simpa using (List.mem_filter.1 hx).2

theorem mem_done (s : State) (o : Op) : (s.done o).mem = s.mem := (ending_reap _ _).mem

/-! MCLAIM_GRANT (R318). -/

/-- A claim at the head of its cluster takes the lowest free slots once there are enough (R318, R219). -/
theorem exec_mclaimGrant {w : WavId} {e : Env} {cl n : Nat} (he : s.env? w = some e) (hstall : e.wav.stall = .claim) (hstage : e.span.stage = .running)
    (hclaim : s.claims.find? (fun c => c.2.1 == w) = some (cl, w, n)) (hhead : (s.claims.find? fun c => c.1 == cl).map (·.2.1) = some w)
    (hfree : n ≤ (s.freeSlots cl).length) :
    ∃ t v m, exec (.mclaimGrant w) s = .next t ∧ t.wav? w = some v ∧ v.stall = .none ∧ v.granted = some m ∧ (∀ c ∈ t.claims, c.2.1 ≠ w) ∧
      t.blk? w.block = some { e.blk with slots := e.blk.slots ++ ((s.freeSlots cl).take n).map fun k => (k, none) } := by
  obtain ⟨hwav, hblk, -⟩ := env?_parts he
  obtain ⟨m, u, hgrant, hu⟩ : ∃ m u, State.grant { s with claims := s.claims.filter (·.2.1 != w) } w.block cl n = (u, m) ∧
      u = State.setBlk { s with claims := s.claims.filter (·.2.1 != w) } w.block
        { e.blk with slots := e.blk.slots ++ ((s.freeSlots cl).take n).map fun k => (k, none) } := by
    have hblk' : State.blk? { s with claims := s.claims.filter (·.2.1 != w) } w.block = some e.blk := hblk
    refine ⟨_, _, rfl, ?_⟩
    unfold State.modBlk
    rw [hblk']
    rfl
  have huw : u.wav? w = some e.wav := by rw [hu]; exact hwav
  refine ⟨u.modWav w fun v => { v with stall := .none, granted := some m }, _, m, ?_, wav?_modWav _ huw, rfl, rfl, ?_, ?_⟩
  · change execMclaimGrant w s = _
    unfold execMclaimGrant
    rw [hclaim, he]
    dsimp only
    rw [hgrant, if_pos]
    simp [hstall, hstage, hhead, hfree]
  · rw [State.modWav_claims, hu]
    intro c hc
    simpa using (List.mem_filter.1 hc).2
  · rw [State.modWav_eq _ huw, hu]
    exact (Assoc.get?_put ..).trans (if_pos rfl)

/-! The ranks of a group (R217, R14). -/

/-- The chunks kept by key are those that were given for it. -/
theorem get?_filter_key {β : Type} (f : Nat → Bool) (xs : List (Nat × β)) (k : Nat) :
    Assoc.get? (xs.filter fun x => f x.1) k = if f k = true then Assoc.get? xs k else none := by
  induction xs with
  | nil => simp [Assoc.get?]
  | cons x xs ih =>
    obtain ⟨k', v⟩ := x
    by_cases hk : k' = k
    · subst hk
      by_cases hf : f k' = true <;> simp [Assoc.get?, hf, ih]
    · by_cases hf : f k' = true <;> simp [Assoc.get?, hf, ih, hk]

/-- Whether a rank's absence covers a collective. -/
def covers (id : Nat) (x : Gone) : Bool := match x.upTo with | some n => decide (id < n) | none => true

theorem absence_eq (g : Group) (id q : Nat) : g.absence id q =
    (g.gone.find? fun x => x.rank == q && covers id x).map fun x => (Assoc.get? x.reached id).getD [] := rfl

theorem mem_present {g : Group} {id q c : Nat} {recs : List Contrib} (hq : q < g.size) : q ∈ g.present id recs c ↔
    ∀ cs, g.absence id q = some cs → (c ∈ cs ∨ (keptFor recs q c).isSome = true) := by
  unfold Group.present
  rw [List.mem_filter, List.mem_range]
  cases g.absence id q <;> simp [hq]

/-- The group in which a rank has dropped out, having reached the chunks given. -/
def droppedOut (s : State) (g : Group) (rank : Nat) (reached : List (Nat × List Nat)) : Group :=
  { g with gone := g.gone ++ [⟨rank, reached.filter fun x => s.ops.any fun o => o.id == x.1 && o.work.isColl, none⟩],
           joined := g.joined.filter (· != rank), fenced := g.fenced ++ [rank] }

theorem exec_rankDropout {g rank : Nat} {x : Group} (reached : List (Nat × List Nat)) (hg : Assoc.get? s.groups g = some x) (hrank : rank < x.size)
    (hself : rank ≠ x.rank) (hfenced : x.fenced.contains rank = false) :
    exec (.rankDropout g rank reached) s = .next { s with groups := Assoc.put s.groups g (droppedOut s x rank reached) } := by
  change execRankDropout g rank reached s = _
  unfold execRankDropout
  rw [hg]
  dsimp only
  rw [if_pos (by simp only [hrank, hfenced, decide_true, Bool.not_false, Bool.and_true, Bool.true_and, bne_iff_ne]; exact hself)]
  rfl

/-- A rank that dropped out is in the chunks of a collective then outstanding that it had reached, and in those that records keep. -/
theorem present_droppedOut {x : Group} {rank n c : Nat} {recs : List Contrib} (reached : List (Nat × List Nat)) (hrank : rank < x.size)
    (hnone : x.absence n rank = none) : rank ∈ (droppedOut s x rank reached).present n recs c ↔
      (∃ o ∈ s.ops, o.id = n ∧ o.work.isColl = true) ∧ c ∈ (Assoc.get? reached n).getD [] ∨ (keptFor recs rank c).isSome = true := by
  have hfind : (x.gone.find? fun y => y.rank == rank && covers n y) = none := Option.map_eq_none_iff.1 hnone
  have habsence : (droppedOut s x rank reached).absence n rank =
      some ((if (∃ o ∈ s.ops, o.id = n ∧ o.work.isColl = true) then Assoc.get? reached n else none).getD []) := by
    rw [absence_eq]
    unfold droppedOut
    dsimp only
    rw [List.find?_append, hfind, List.find?_cons_of_pos (by simp [covers])]
    simp only [Option.none_or, Option.map_some, get?_filter_key (fun k => s.ops.any fun o => o.id == k && o.work.isColl)]
    simp [List.any_eq_true]
  rw [mem_present (by exact hrank), habsence]
  by_cases h : ∃ o ∈ s.ops, o.id = n ∧ o.work.isColl = true
  · simp [h]
  · simp [h]

/-- The end of a rank's absence, where it has none. -/
def back (s : State) (rank : Nat) (x : Gone) : Gone := if x.rank == rank && x.upTo.isNone then { x with upTo := some s.nextOp } else x

/-- The group that a spare has joined in place of a rank. -/
def rejoined (s : State) (g : Group) (rank : Nat) : Group :=
  { g with gone := g.gone.map (back s rank), joined := g.joined ++ [rank], fenced := g.fenced.filter (· != rank) }

theorem exec_spareJoining {g rank : Nat} {x : Group} (hg : Assoc.get? s.groups g = some x) (hfenced : x.fenced.contains rank = true) :
    exec (.spareJoining g rank) s = .next { s with groups := Assoc.put s.groups g (rejoined s x rank) } := by
  change execSpareJoining g rank s = _
  unfold execSpareJoining
  rw [hg]
  dsimp only
  rw [if_pos hfenced]
  rfl

theorem rank_back (rank : Nat) (x : Gone) : (back s rank x).rank = x.rank := by unfold back; split <;> rfl
theorem reached_back (rank : Nat) (x : Gone) : (back s rank x).reached = x.reached := by unfold back; split <;> rfl

/-- A collective that began before the spare joined has the ranks that it had. -/
theorem absence_rejoined {x : Group} {rank n : Nat} (q : Nat) (h : n < s.nextOp) : (rejoined s x rank).absence n q = x.absence n q := by
  have hcovers : ∀ y : Gone, covers n (back s rank y) = covers n y := by
    intro y
    unfold back
    split
    · rename_i hb
      have hnone : y.upTo = none := by simpa using (Bool.and_eq_true_iff.1 hb).2
      simp [covers, hnone, h]
    · rfl
  rw [absence_eq, absence_eq]
  unfold rejoined
  dsimp only
  rw [List.find?_map]
  simp only [Function.comp_def, rank_back, hcovers, Option.map_map, reached_back]

/-- In the collectives that begin afterwards the spare takes part. -/
theorem absence_rejoined_none {x : Group} {rank n : Nat} (h : s.nextOp ≤ n) (hgone : ∀ z ∈ x.gone, z.rank = rank → ∀ m, z.upTo = some m → m ≤ s.nextOp) :
    (rejoined s x rank).absence n rank = none := by
  rw [absence_eq]
  unfold rejoined
  dsimp only
  rw [Option.map_eq_none_iff, List.find?_eq_none]
  intro y hy
  obtain ⟨z, hz, rfl⟩ := List.mem_map.1 hy
  rw [rank_back]
  by_cases hr : z.rank = rank
  · unfold back
    cases hup : z.upTo with
    | none => simp [hr, covers, h]
    | some m =>
      have hm := hgone z hz hr m hup
      simp [hr, hup, covers]
      omega
  · simp [hr]

end Sys2Proof.Device
end

section
/-! The copy channels move bytes (R193, R196). -/

namespace Sys2Proof.Device

open Sys2Proof Sys2Proof.Machine Sys2Proof.Claim

variable {s t : State} {e : Env}

/-! Bytes of numbers. -/

theorem readN_lt (m : List (Nat × Byte)) (a n : Nat) : Sparse.readN m a n < 256 ^ n := by
  induction n generalizing a with
  | zero => simp [Sparse.readN]
  | succ n ih =>
    have hb := (Sparse.get 0 m a).isLt
    have hr := ih (a + 1)
    rw [Sparse.readN, Nat.pow_succ]
    omega

/-- Byte `d` of the bytes read from an address is the byte `d` behind it. -/
theorem readN_byte (m : List (Nat × Byte)) {a n d : Nat} (hd : d < n) : Sparse.readN m a n / 256 ^ d % 256 = Sparse.readN m (a + d) 1 := by
  induction n generalizing a d with
  | zero => omega
  | succ n ih =>
    have hb := (Sparse.get 0 m a).isLt
    cases d with
    | zero => simp only [Sparse.readN, Nat.pow_zero, Nat.div_one, Nat.add_zero]; omega
    | succ d =>
      rw [show a + (d + 1) = a + 1 + d by omega, ← ih (a := a + 1) (d := d) (by omega), Sparse.readN, Nat.pow_succ,
        Nat.mul_comm (256 ^ d), ← Nat.div_div_eq_div_mul]
      congr 2
      omega

/-- Below `256 ^ k` a number's bytes are those of its sum with a multiple of that. -/
theorem byte_add_low {x y k j : Nat} (hj : j < k) : (x + y * 256 ^ k) / 256 ^ j % 256 = x / 256 ^ j % 256 := by
  obtain ⟨m, rfl⟩ : ∃ m, k = j + (m + 1) := ⟨k - j - 1, by omega⟩
  have hpos : 0 < 256 ^ j := Nat.pow_pos (by decide)
  have hsplit : y * 256 ^ (j + (m + 1)) = (y * 256 ^ m * 256) * 256 ^ j := by rw [Nat.pow_add, Nat.pow_succ]; ring
  rw [hsplit, Nat.add_mul_div_right _ _ hpos, Nat.add_mul_mod_self_right]

theorem byte_add_high {x y k d : Nat} (hx : x < 256 ^ k) : (x + y * 256 ^ k) / 256 ^ (k + d) % 256 = y / 256 ^ d % 256 := by
  have hpos : 0 < 256 ^ k := Nat.pow_pos (by decide)
  rw [Nat.pow_add, ← Nat.div_div_eq_div_mul, Nat.add_mul_div_right _ _ hpos, Nat.div_eq_of_lt hx, Nat.zero_add]

/-- The bytes of a number joined again are its low bytes. -/
theorem byte_join_split {n v j : Nat} (hj : j < n) : joinBits 8 (splitBits 8 n v) / 256 ^ j % 256 = v / 256 ^ j % 256 := by
  have h := Laws.join_get 8 (splitBits 8 n v) j
  have hpow : (2 : Nat) ^ (j * 8) = 256 ^ j := by rw [Nat.mul_comm, Nat.pow_mul]
  have hget : (splitBits 8 n v).getD j 0 = v >>> (j * 8) % 2 ^ 8 := by simp [splitBits, hj]
  rw [hget, Nat.shiftRight_eq_div_pow, hpow, Nat.mod_mod] at h
  exact h

/-! Addresses in one unit of 64 bytes. -/

theorem natBits_high {n d hi lo : Nat} (hd : n % 64 + d < 64) (hlo : 6 ≤ lo) : natBits (n + d) hi lo = natBits n hi lo := by
  obtain ⟨k, rfl⟩ : ∃ k, lo = 6 + k := ⟨lo - 6, by omega⟩
  unfold natBits
  rw [Nat.shiftRight_add, Nat.shiftRight_add, Nat.shiftRight_eq_div_pow _ 6, Nat.shiftRight_eq_div_pow _ 6, show (n + d) / 2 ^ 6 = n / 2 ^ 6 by omega]

theorem natBits_low {n d k : Nat} (hd : n % 64 + d < 64) (hk : 6 ≤ k + 1) : natBits (n + d) k 0 = natBits n k 0 + d := by
  obtain ⟨m, hm⟩ : ∃ m, k + 1 = 6 + m := ⟨k + 1 - 6, by omega⟩
  unfold natBits
  rw [Nat.shiftRight_zero, Nat.shiftRight_zero, Nat.sub_zero, hm, Nat.pow_add, Nat.mod_mul, Nat.mod_mul,
    show (n + d) / 2 ^ 6 = n / 2 ^ 6 by omega, show (n + d) % 2 ^ 6 = n % 2 ^ 6 + d by omega]
  omega

/-- The window of an address that lies further on. -/
def winAdd (w : Win) (d : Nat) : Win :=
  match w with
  | .glob n => .glob (n + d)
  | .priv o => .priv (o + d)
  | .sp st o => .sp st (o + d)
  | .span r o => .span r (o + d)
  | .none => .none

theorem toNat_addr {a : W64} {d : Nat} (hd : a.toNat % 64 + d < 64) : (a + BitVec.ofNat 64 d).toNat = a.toNat + d := by
  have ha := a.isLt
  rw [BitVec.toNat_add, BitVec.toNat_ofNat]
  omega

/-- Addresses of one unit lie in one window. -/
theorem window_add {a : W64} {d : Nat} (hd : a.toNat % 64 + d < 64) : window (a + BitVec.ofNat 64 d) = winAdd (window a) d := by
  unfold window
  rw [toNat_addr hd]
  dsimp only
  have hhigh : ∀ hi lo, 6 ≤ lo → natBits (a.toNat + d) hi lo = natBits a.toNat hi lo := fun hi lo hlo => natBits_high hd hlo
  rw [hhigh 63 56 (by decide), hhigh 63 32 (by decide), hhigh 63 40 (by decide), hhigh 31 24 (by decide), hhigh 39 32 (by decide),
    hhigh 63 52 (by decide), hhigh 47 24 (by decide), hhigh 51 48 (by decide), natBits_low hd (k := 31) (by decide), natBits_low hd (k := 23) (by decide)]
  split
  · rfl
  · split
    · rfl
    · split
      · rfl
      · split <;> rfl

/-- Where the pages that a process has are aligned, addresses of one unit lie on one page. -/
theorem page_add {j : Job} (hj : ∀ p ∈ j.pages, Leaf.valid p.2 = true → p.1 % Leaf.size p.2 = 0) {a d : Nat} (hd : a % 64 + d < 64) :
    j.page (a + d) = j.page a := by
  have hsame : ∀ p ∈ j.pages, (decide (p.1 ≤ a + d) && decide (a + d < p.1 + Leaf.size p.2) && Leaf.valid p.2) =
      (decide (p.1 ≤ a) && decide (a < p.1 + Leaf.size p.2) && Leaf.valid p.2) := by
    intro p hp
    cases hv : Leaf.valid p.2 with
    | false => simp
    | true =>
      have hal := hj p hp hv
      rw [Bool.and_true, Bool.and_true]
      rcases size_cases p.2 with h | h | h | h <;> rw [h] at hal ⊢ <;> rw [Bool.eq_iff_iff] <;>
        simp only [Bool.and_eq_true, decide_eq_true_eq] <;> omega
  unfold Job.page
  exact List.find?_congr hsame

theorem env_pages {w : WavId} (he : s.env? w = some e) (hcan : Canonical s) : ∀ p ∈ e.job.pages, Leaf.valid p.2 = true → p.1 % Leaf.size p.2 = 0 := by
  obtain ⟨-, -, -, -, hjob, -⟩ := env?_parts he
  obtain ⟨-, -, hpages, -⟩ := hcan
  rw [hjob]
  unfold State.job
  cases hj : Assoc.get? s.jobs e.task.ctx with
  | none => exact fun p hp => nomatch hp
  | some j => exact hpages _ (Assoc.mem_of_get? hj)

theorem window_of_lt {a : W64} (h : a.toNat < 2 ^ 56) : window a = .glob a.toNat := by
  unfold window
  dsimp only
  rw [if_pos]
  simp only [natBits, beq_iff_eq]
  omega

theorem window_glob {a : W64} {va : Nat} (h : window a = .glob va) : va = a.toNat ∧ va < 2 ^ 56 := by
  have hlt := isGlob_lt (a := a) (by simp [isGlob, h])
  rw [window_of_lt hlt] at h
  cases h
  exact ⟨rfl, hlt⟩

theorem page_le {j : Job} {va p : Nat} {l : Leaf} (h : j.page va = some (p, l)) : p ≤ va := by
  have hp := List.find?_some h
  simp only [Bool.and_eq_true, decide_eq_true_eq] at hp
  exact hp.1.1

/-- The location that lies further on. -/
def locAdd (a : Loc) (d : Nat) : Loc :=
  match a with
  | .mem pa => .mem (pa + d)
  | .priv off => .priv (off + d)
  | .scr b off => .scr b (off + d)

theorem scr_add {a : W64} {d : Nat} {x y : BlkId × Nat} (hd : a.toNat % 64 + d < 64) (hx : e.scr a = .ok x) (hy : e.scr (a + BitVec.ofNat 64 d) = .ok y) :
    y = (x.1, x.2 + d) := by
  unfold Env.scr at hx hy
  rw [window_add hd] at hy
  cases hw : window a with
  | sp st off =>
    rw [hw] at hx hy
    simp only [winAdd] at hx hy
    split at hx
    · cases hx
    · split at hx
      · cases hx
      · split at hx
        · cases hx
        · rename_i h1 h2 _
          rw [if_neg h1, if_neg h2] at hy
          split at hy
          · cases hy
          · cases hx; cases hy; rfl
  | span r off =>
    rw [hw] at hx hy
    simp only [winAdd] at hx hy
    split at hx
    · cases hx
    · split at hy
      · cases hy
      · cases hx; cases hy; rfl
  | glob n => rw [hw] at hx; cases hx
  | priv n => rw [hw] at hx; cases hx
  | none => rw [hw] at hx; cases hx

/-- Where an access to the global window goes. -/
theorem spot_glob {a : W64} {dir : Dir} {f : Leaf → Nat} {l va : Nat} {x : Spot} (hw : window a = .glob va) (h : e.spot dir false f a l = some x) :
    ∃ p lf, e.job.page va = some (p, lf) ∧ Leaf.allows lf dir = true ∧ x.loc = .mem (Leaf.pbase lf + (va - p)) := by
  unfold Env.spot at h
  rw [hw] at h
  dsimp only at h
  split at h
  · rename_i p lf hp
    split at h
    · rename_i hal
      cases h
      exact ⟨p, lf, hp, by simpa using hal, rfl⟩
    · cases h
  · cases h

/-- Accesses of one unit go to locations as far apart. -/
theorem spot_add {a : W64} {d l : Nat} {dir : Dir} {f g : Leaf → Nat} {x y : Spot} (hj : ∀ p ∈ e.job.pages, Leaf.valid p.2 = true → p.1 % Leaf.size p.2 = 0)
    (hd : a.toNat % 64 + d < 64) (hx : e.spot dir false f a l = some x) (hy : e.spot dir false g (a + BitVec.ofNat 64 d) l = some y) :
    y.loc = locAdd x.loc d := by
  have hwin := window_add hd
  cases hw : window a with
  | glob va =>
    rw [hw] at hwin
    obtain ⟨rfl, -⟩ := window_glob hw
    obtain ⟨p, lf, hp, -, hloc⟩ := spot_glob hw hx
    obtain ⟨q, lf', hq, -, hloc'⟩ := spot_glob hwin hy
    rw [page_add hj hd, hp] at hq
    cases hq
    have hle := page_le hp
    rw [hloc, hloc', locAdd, show a.toNat + d - p = a.toNat - p + d by omega, Nat.add_assoc]
  | priv off =>
    unfold Env.spot at hx hy
    rw [hwin] at hy
    rw [hw] at hx hy
    simp only [winAdd] at hx hy
    split at hx
    · split at hy
      · cases hx; cases hy; rfl
      · cases hy
    · cases hx
  | sp st off | span st off | none =>
    unfold Env.spot at hx hy
    rw [hwin] at hy
    rw [hw] at hx hy
    simp only [winAdd] at hx hy
    split at hx
    · rename_i b o hb
      split at hy
      · rename_i b' o' hb'
        have h := scr_add hd hb hb'
        cases h; cases hx; cases hy
        rfl
      · cases hy
    · cases hx

theorem readLoc_lt (w : WavId) (l : Nat) (a : Loc) (n : Nat) : s.readLoc w l a n < 256 ^ n := by
  have hpos : 0 < 256 ^ n := Nat.pow_pos (by decide)
  unfold State.readLoc State.scrRead
  split
  · exact readN_lt ..
  · split
    · exact readN_lt ..
    · exact hpos
  · split
    · exact readN_lt ..
    · exact hpos

theorem readLoc_byte (w : WavId) (l : Nat) (a : Loc) {n d : Nat} (hd : d < n) :
    s.readLoc w l a n / 256 ^ d % 256 = s.readLoc w l (locAdd a d) 1 := by
  cases a with
  | mem pa => exact readN_byte _ hd
  | priv off =>
    unfold State.readLoc locAdd
    cases s.wav? w with
    | none => simp
    | some v => exact readN_byte _ hd
  | scr b off =>
    unfold State.readLoc locAdd State.scrRead
    dsimp only
    cases s.blk? b with
    | none => simp
    | some k => exact readN_byte _ hd

theorem engPart_spot {a : W64} {n y : Nat} (h : s.engPart e a n = .ok y) :
    ∃ x, e.spot .load false (fun _ => n) a = some x ∧ y = s.readLoc e.wid 0 x.loc n := by
  unfold State.engPart Env.engSpot at h
  cases hx : e.spot .load false (fun _ => n) a with
  | none => rw [hx] at h; cases h
  | some x =>
    rw [hx] at h
    dsimp only at h
    split at h
    · cases h
    · cases h; exact ⟨x, rfl, rfl⟩

/-- What an engine reads of a unit has its bytes. -/
theorem engPart_byte {a : W64} {n d y b : Nat} (hj : ∀ p ∈ e.job.pages, Leaf.valid p.2 = true → p.1 % Leaf.size p.2 = 0) (hd : d < n)
    (hu : a.toNat % 64 + d < 64) (h : s.engPart e a n = .ok y) (hb : s.engByte e (a + BitVec.ofNat 64 d) = .ok b) : y / 256 ^ d % 256 = b := by
  obtain ⟨x, hx, rfl⟩ := engPart_spot h
  obtain ⟨z, hz, rfl⟩ := engPart_spot hb
  rw [readLoc_byte _ _ _ hd, spot_add hj hu hx hz]

/-! Runs of units (R175). -/

/-- The part of `n` bytes at an address that lies in the `i`th unit from there: its offset and length. -/
def runAt (a n i : Nat) : Nat × Nat :=
  let lo := max a (64 * (a / 64 + i))
  (lo - a, min (a + n) (64 * (a / 64 + i) + 64) - lo)

/-- The bytes that lie in the first units. -/
def covered (a n k : Nat) : Nat := min (a + n) (64 * (a / 64 + k)) - a

/-- The units that bytes lie in. -/
def unitCount (a n : Nat) : Nat := (a + n - 1) / 64 + 1 - a / 64

theorem unitRuns_eq (a n : Nat) : unitRuns a n = (List.range (unitCount a n)).map (runAt a n) := rfl

theorem runAt_spec {a n k : Nat} (hk : k < unitCount a n) : (runAt a n k).1 = covered a n k ∧ covered a n (k + 1) = covered a n k + (runAt a n k).2 ∧
    (a + covered a n k) % 64 + (runAt a n k).2 ≤ 64 ∧ a + covered a n k = max a (64 * (a / 64 + k)) := by
  unfold runAt covered unitCount at *
  dsimp only
  omega

theorem covered_count (a n : Nat) : covered a n (unitCount a n) = n := by
  unfold covered unitCount
  omega

theorem covered_le (a n k : Nat) : covered a n k ≤ n := by
  unfold covered
  omega

/-- A fold over the runs of the first units, one unit more. -/
theorem foldl_runs_succ {α : Type} (f : α → Nat × Nat → α) (x : α) (a n k : Nat) :
    ((List.range (k + 1)).map (runAt a n)).foldl f x = f (((List.range k).map (runAt a n)).foldl f x) (runAt a n k) := by
  rw [List.range_succ, List.map_append, List.foldl_append]
  rfl

theorem unit_addr (a : W64) (off : Nat) : (a + BitVec.ofNat 64 off).toNat % 64 = (a.toNat + off) % 64 := by
  rw [BitVec.toNat_add, BitVec.toNat_ofNat]
  omega

theorem addr_add (a : W64) (i j : Nat) : a + BitVec.ofNat 64 i + BitVec.ofNat 64 j = a + BitVec.ofNat 64 (i + j) := by
  rw [BitVec.add_assoc, ← BitVec.ofNat_add]

/-- One unit more of an engine's read. -/
def readRun (s : State) (e : Env) (a : W64) (acc : Except Nat Nat) (r : Nat × Nat) : Except Nat Nat :=
  match acc with
  | .error c => .error c
  | .ok x => (s.engPart e (a + BitVec.ofNat 64 r.1) r.2).map fun y => x + y * 256 ^ r.1

theorem engRead_eq (a : W64) (n : Nat) : s.engRead e a n = (unitRuns a.toNat n).foldl (readRun s e a) (.ok 0) := rfl

/-- What an engine reads has the bytes there, unit by unit. -/
theorem readRun_bytes {a : W64} {n : Nat} (hj : ∀ p ∈ e.job.pages, Leaf.valid p.2 = true → p.1 % Leaf.size p.2 = 0) (k : Nat)
    (hk : k ≤ unitCount a.toNat n) (x : Nat) (h : ((List.range k).map (runAt a.toNat n)).foldl (readRun s e a) (.ok 0) = .ok x) :
    x < 256 ^ covered a.toNat n k ∧ ∀ j, j < covered a.toNat n k → ∀ b, s.engByte e (a + BitVec.ofNat 64 j) = .ok b → x / 256 ^ j % 256 = b := by
  induction k generalizing x with
  | zero =>
    have hzero : covered a.toNat n 0 = 0 := by unfold covered; omega
    cases h
    rw [hzero]
    exact ⟨by decide, fun j hj => absurd hj (Nat.not_lt_zero j)⟩
  | succ k ih =>
    rw [foldl_runs_succ] at h
    obtain ⟨hoff, hnext, hunit, -⟩ := runAt_spec (show k < unitCount a.toNat n by omega)
    cases hacc : ((List.range k).map (runAt a.toNat n)).foldl (readRun s e a) (.ok 0) with
    | error c => rw [hacc] at h; cases h
    | ok z =>
      obtain ⟨hz, hbytes⟩ := ih (by omega) z hacc
      rw [hacc] at h
      simp only [readRun, hoff] at h
      cases hy : s.engPart e (a + BitVec.ofNat 64 (covered a.toNat n k)) (runAt a.toNat n k).2 with
      | error c => rw [hy] at h; cases h
      | ok y =>
        rw [hy] at h
        cases h
        obtain ⟨sp, -, hval⟩ := engPart_spot hy
        have hylt : y < 256 ^ (runAt a.toNat n k).2 := hval ▸ readLoc_lt ..
        rw [hnext]
        refine ⟨?_, fun j hj' b hb => ?_⟩
        · rw [Nat.pow_add]
          calc z + y * 256 ^ covered a.toNat n k < (y + 1) * 256 ^ covered a.toNat n k := by rw [Nat.succ_mul]; omega
            _ ≤ 256 ^ (runAt a.toNat n k).2 * 256 ^ covered a.toNat n k := Nat.mul_le_mul_right _ hylt
            _ = _ := Nat.mul_comm ..
        · by_cases hlow : j < covered a.toNat n k
          · rw [byte_add_low hlow]
            exact hbytes j hlow b hb
          · obtain ⟨d, rfl⟩ : ∃ d, j = covered a.toNat n k + d := ⟨j - covered a.toNat n k, by omega⟩
            rw [byte_add_high hz]
            rw [← addr_add] at hb
            exact engPart_byte hj (by omega) (by rw [unit_addr]; omega) hy hb

/-- What an engine reads has the bytes that it reads one by one. -/
theorem engRead_byte {a : W64} {n v j b : Nat} (hj : ∀ p ∈ e.job.pages, Leaf.valid p.2 = true → p.1 % Leaf.size p.2 = 0) (h : s.engRead e a n = .ok v)
    (hlt : j < n) (hb : s.engByte e (a + BitVec.ofNat 64 j) = .ok b) : v / 256 ^ j % 256 = b := by
  rw [engRead_eq, unitRuns_eq] at h
  exact (readRun_bytes hj _ (Nat.le_refl _) v h).2 j (by rwa [covered_count]) b hb

/-- One unit more of an engine's write. -/
def storeRun (e : Env) (a : W64) (v : Nat) (acc : Except Nat State) (r : Nat × Nat) : Except Nat State :=
  match acc with
  | .error c => .error c
  | .ok s => s.engPut e (a + BitVec.ofNat 64 r.1) r.2 (v / 256 ^ r.1)

theorem engStore_eq (a : W64) (n v : Nat) : s.engStore e a n v = (unitRuns a.toNat n).foldl (storeRun e a v) (.ok s) := rfl

theorem engPut_spot {a : W64} {n v : Nat} {u : State} (h : s.engPut e a n v = .ok u) :
    ∃ x, e.spot .store false (fun _ => n) a = some x ∧ u = (s.reach e .store x n).writeLoc e.wid 0 x.loc n v := by
  unfold State.engPut Env.engSpot at h
  cases hx : e.spot .store false (fun _ => n) a with
  | none => rw [hx] at h; cases h
  | some x =>
    rw [hx] at h
    dsimp only at h
    split at h
    · cases h
    · cases h; exact ⟨x, rfl, rfl⟩

/-- No access goes to the addresses behind the global window. -/
theorem spot_behind {a : W64} {dir : Dir} {f : Leaf → Nat} (hlo : 2 ^ 56 ≤ a.toNat) (hhi : a.toNat < 2 ^ 57) : e.spot dir false f a = none := by
  have hw : window a = .none := by
    unfold window
    simp only [natBits, beq_iff_eq, Bool.and_eq_true]
    rw [if_neg (by omega), if_neg (by omega), if_neg (by omega), if_neg (by omega)]
  unfold Env.spot Env.scr
  rw [hw]

theorem phys_add {va d p : Nat} {lf : Leaf} {dir : Dir} (hj : ∀ p ∈ e.job.pages, Leaf.valid p.2 = true → p.1 % Leaf.size p.2 = 0)
    (hd : va % 64 + d < 64) (hp : e.job.page va = some (p, lf)) (hal : Leaf.allows lf dir = true) :
    e.job.phys dir (va + d) = some (Leaf.pbase lf + (va - p) + d) := by
  have hle := page_le hp
  unfold Job.phys
  rw [page_add hj hd, hp]
  dsimp only
  rw [if_pos hal, show va + d - p = va - p + d by omega, Nat.add_assoc]

/-- An engine's write to the global window leaves its bytes in memory, unit by unit. -/
theorem storeRun_bytes {a : W64} {n v : Nat} (hj : ∀ p ∈ e.job.pages, Leaf.valid p.2 = true → p.1 % Leaf.size p.2 = 0)
    (hwf : Memory.wf s.mem = true) (ha : a.toNat < 2 ^ 56)
    (hinj : ∀ i j q, i < n → j < n → e.job.phys .store (a.toNat + i) = some q → e.job.phys .store (a.toNat + j) = some q → i = j)
    (k : Nat) (hk : k ≤ unitCount a.toNat n) (u : State) (h : ((List.range k).map (runAt a.toNat n)).foldl (storeRun e a v) (.ok s) = .ok u) :
    Memory.wf u.mem = true ∧ 64 * (a.toNat / 64 + k) ≤ 2 ^ 56 ∧
      ∀ j, j < covered a.toNat n k → ∀ q, e.job.phys .store (a.toNat + j) = some q → (Sparse.get 0 u.mem q).toNat = v / 256 ^ j % 256 := by
  induction k generalizing u with
  | zero =>
    have hzero : covered a.toNat n 0 = 0 := by unfold covered; omega
    cases h
    rw [hzero]
    exact ⟨hwf, by omega, fun j hj => absurd hj (Nat.not_lt_zero j)⟩
  | succ k ih =>
    rw [foldl_runs_succ] at h
    obtain ⟨hoff, hnext, hunit, hstart⟩ := runAt_spec (show k < unitCount a.toNat n by omega)
    cases hacc : ((List.range k).map (runAt a.toNat n)).foldl (storeRun e a v) (.ok s) with
    | error c => rw [hacc] at h; cases h
    | ok z =>
      obtain ⟨hz, hend, hbytes⟩ := ih (by omega) z hacc
      rw [hacc] at h
      simp only [storeRun, hoff] at h
      obtain ⟨x, hx, rfl⟩ := engPut_spot h
      have haddr : (a + BitVec.ofNat 64 (covered a.toNat n k)).toNat = a.toNat + covered a.toNat n k := by
        rw [BitVec.toNat_add, BitVec.toNat_ofNat]; omega
      have hlt : a.toNat + covered a.toNat n k < 2 ^ 56 := by
        by_contra hge
        rw [spot_behind (by omega) (by omega)] at hx
        cases hx
      have hwin : window (a + BitVec.ofNat 64 (covered a.toNat n k)) = .glob (a.toNat + covered a.toNat n k) := by
        rw [window_of_lt (by omega), haddr]
      obtain ⟨p, lf, hp, hal, hloc⟩ := spot_glob hwin hx
      have hle := covered_le a.toNat n (k + 1)
      have hphys : ∀ d, d < (runAt a.toNat n k).2 → e.job.phys .store (a.toNat + (covered a.toNat n k + d)) =
          some (Leaf.pbase lf + (a.toNat + covered a.toNat n k - p) + d) := fun d hd => by
        rw [← Nat.add_assoc]
        exact phys_add hj (by omega) hp hal
      rw [hloc]
      refine ⟨State.wf_memWrite _ _ _ hz, by omega, fun j hj' q hq => ?_⟩
      change (Sparse.get 0 (Sparse.writeN z.mem _ _ _) q).toNat = _
      by_cases hlow : j < covered a.toNat n k
      · rw [Sparse.get_writeN_of_not hz]
        · exact hbytes j hlow q hq
        · by_contra hin
          have hsame := hphys (q - (Leaf.pbase lf + (a.toNat + covered a.toNat n k - p))) (by omega)
          rw [show Leaf.pbase lf + (a.toNat + covered a.toNat n k - p) + (q - (Leaf.pbase lf + (a.toNat + covered a.toNat n k - p))) = q by omega] at hsame
          have := hinj _ _ _ (by omega) (by omega) hsame hq
          omega
      · obtain ⟨d, rfl⟩ : ∃ d, j = covered a.toNat n k + d := ⟨j - covered a.toNat n k, by omega⟩
        have hd : d < (runAt a.toNat n k).2 := by omega
        rw [hphys d hd] at hq
        cases hq
        rw [Sparse.get_writeN hz hd, BitVec.toNat_ofNat, Nat.div_div_eq_div_mul, ← Nat.pow_add]

/-- An engine's write to the global window leaves its bytes in memory. -/
theorem engStore_byte {a : W64} {n v : Nat} {u : State} (hj : ∀ p ∈ e.job.pages, Leaf.valid p.2 = true → p.1 % Leaf.size p.2 = 0)
    (hwf : Memory.wf s.mem = true) (ha : a.toNat < 2 ^ 56) (h : s.engStore e a n v = .ok u)
    (hinj : ∀ i j q, i < n → j < n → e.job.phys .store (a.toNat + i) = some q → e.job.phys .store (a.toNat + j) = some q → i = j)
    {j q : Nat} (hlt : j < n) (hq : e.job.phys .store (a.toNat + j) = some q) : (Sparse.get 0 u.mem q).toNat = v / 256 ^ j % 256 := by
  rw [engStore_eq, unitRuns_eq] at h
  exact (storeRun_bytes hj hwf ha hinj _ (Nat.le_refl _) u h).2.2 j (by rwa [covered_count]) q hq

/-! The state around a copy's event. -/

theorem caches_engReach (a : W64) (n : Nat) (column : Bool) : Caches s (s.engReach e a n column) := by
  have hfold : ∀ (rs : List (Nat × Nat)) (acc : State × Bool), Caches acc.1 (rs.foldl (fun (acc : State × Bool) r =>
      if acc.2 then acc
      else match e.engSpot .load r.2 (a + BitVec.ofNat 64 r.1) with
      | .ok sp => (acc.1.reach e .load sp r.2 0 column, acc.1.fails e .load false r.2 sp)
      | .error _ => (acc.1, true)) acc).1 := by
    intro rs
    induction rs with
    | nil => exact fun acc => rfl
    | cons r rs ih =>
      refine fun acc => Caches.trans ?_ (ih _)
      dsimp only
      split
      · rfl
      · split <;> rfl
  exact hfold _ (s, false)

theorem caches_foldl {α : Type} {F : State → α → State} (hF : ∀ s a, Caches s (F s a)) (xs : List α) (s : State) : Caches s (xs.foldl F s) := by
  induction xs generalizing s with
  | nil => rfl
  | cons x xs ih => exact (hF s x).trans (ih _)

/-- The reads of a run of a record that neither converts nor transposes change the caches alone. -/
theorem caches_spanReach {d : Req} (x y : Side) (p : RowRun) (hcvt : Req.cvt d = false) (hxp : Req.xp d = false) : Caches s (s.spanReach e d x y p) := by
  unfold State.spanReach
  simp only [hcvt, hxp, Bool.not_false, if_true, Bool.false_eq_true, if_false]
  exact caches_engReach ..

/-- What a raw record's event writes, where it writes one run: the bytes that it reads. -/
theorem rowPieces_raw {c : Copy} {x y : Side} {p : RowRun} {ps : List Piece} (hcvt : Req.cvt c.desc = false) (hxp : Req.xp c.desc = false)
    (hruns : c.runs e x y = [p]) (h : s.rowPieces e c x y = .ok ps) : ∃ v, s.engRead e (Req.srow c.desc p.row + BitVec.ofNat 64 p.col) p.n = .ok v ∧
      ps = [⟨Req.drow c.desc p.row + BitVec.ofNat 64 p.col, p.n, joinBits 8 (splitBits 8 p.n v)⟩] := by
  unfold State.rowPieces at h
  rw [hruns] at h
  simp only [List.map_cons, List.map_nil] at h
  cases hv : s.engRead e (Req.srow c.desc p.row + BitVec.ofNat 64 p.col) p.n with
  | error k =>
    simp [State.spanElems, hcvt, hxp, hv, Except.map, allOk] at h
  | ok v =>
    refine ⟨v, rfl, ?_⟩
    simp only [State.spanElems, hcvt, hxp, Bool.false_eq_true, if_false, hv, Except.map, allOk, List.flatten_cons, List.flatten_nil,
      List.append_nil, Except.ok.injEq, Env.spanPieces, Req.sizes, Bool.not_false, if_true] at h
    rw [← h]
    simp [Function.comp_def]

/-- A raw record's event of one run leaves at its destination the bytes that it read. -/
theorem moveRow_raw {c : Copy} {p : RowRun} {w : WavId} {u : State} {va j q b : Nat} (he : s.env? w = some e) (hcan : Canonical s)
    (hmove : s.moveRow e c = .ok u) (hcvt : Req.cvt c.desc = false) (hxp : Req.xp c.desc = false)
    (hruns : c.runs e (e.side (Req.src c.desc) (dbits c.desc 359 356)) (e.side (Req.dst c.desc) (dbits c.desc 363 360)) = [p])
    (hwin : window (Req.drow c.desc p.row + BitVec.ofNat 64 p.col) = .glob va)
    (hinj : ∀ i j q, i < p.n → j < p.n → e.job.phys .store (va + i) = some q → e.job.phys .store (va + j) = some q → i = j)
    (hj : j < p.n) (hb : s.engByte e (Req.srow c.desc p.row + BitVec.ofNat 64 (p.col + j)) = .ok b) (hq : e.job.phys .store (va + j) = some q) :
    (Sparse.get 0 u.mem q).toNat = b := by
  have hpages := env_pages he hcan
  obtain ⟨rfl, hva⟩ := window_glob hwin
  unfold State.moveRow at hmove
  dsimp only at hmove
  split at hmove
  · cases hmove
  · split at hmove
    · cases hmove
    · rename_i ps hps
      obtain ⟨v, hv, rfl⟩ := rowPieces_raw hcvt hxp hruns hps
      rw [hruns, List.foldl_cons, List.foldl_nil] at hmove
      have hcaches := caches_spanReach (s := s) (e := e) (e.side (Req.src c.desc) (dbits c.desc 359 356))
        (e.side (Req.dst c.desc) (dbits c.desc 363 360)) p hcvt hxp
      have hwf : Memory.wf (s.spanReach e c.desc (e.side (Req.src c.desc) (dbits c.desc 359 356))
        (e.side (Req.dst c.desc) (dbits c.desc 363 360)) p).mem = true := (hcan.caches hcaches).1
      have hstore : State.engStore (s.spanReach e c.desc (e.side (Req.src c.desc) (dbits c.desc 359 356)) (e.side (Req.dst c.desc) (dbits c.desc 363 360)) p)
        e (Req.drow c.desc p.row + BitVec.ofNat 64 p.col) p.n (joinBits 8 (splitBits 8 p.n v)) = .ok u := hmove
      rw [← addr_add] at hb
      rw [engStore_byte hpages hwf hva hstore hinj hj hq, byte_join_split hj]
      exact engRead_byte hpages hv hj hb

/-! Barrier objects and write pointers are no physical memory. -/

theorem mem_modSpan (s : State) (n : Nat) (f : Span → Span) : (s.modSpan n f).mem = s.mem := (stopped_modSpan s n f).mem
theorem mem_modSync (s : State) (b : BlkId) (off : Nat) (f : Sync → Sync) : (s.modSync b off f).mem = s.mem := State.modBlk_mem ..
theorem mem_setObj (s : State) (b : BlkId) (off : Nat) (o : Obj) : (s.setObj b off o).mem = s.mem := State.modBlk_mem ..
theorem mem_reclock (s : State) (cls : List Nat) : (s.reclock cls).mem = s.mem := by rw [reclock_eq]

theorem mem_gap (s : State) (sp i : Nat) (as : List SpanArrival) : (s.gap sp i as).2.mem = s.mem := by
  unfold State.gap
  split
  · split <;> rfl
  · rfl

theorem mem_rank (s : State) (b : BlkId) (off phase : Nat) : (s.rank b off phase).mem = s.mem := by
  unfold State.rank
  split
  · rfl
  · rename_i p _
    have hgaps : ∀ (xs : List Nat) (as : List SpanArrival) (acc : List Nat × State), (xs.foldl (fun (acc : List Nat × State) i =>
        ((acc.1 ++ [(acc.2.gap b.span i as).1], (acc.2.gap b.span i as).2) : List Nat × State)) acc).2.mem = acc.2.mem := by
      intro xs as
      induction xs with
      | nil => exact fun acc => rfl
      | cons x xs ih => exact fun acc => (ih _).trans (mem_gap ..)
    dsimp only
    split
    · exact mem_modSpan ..
    · rw [mem_reclock, mem_modSpan]
      exact (hgaps _ _ _).trans (mem_modSpan ..)

theorem mem_complete (n : Nat) (s : State) (b : BlkId) (off : Nat) : (State.complete n s b off).mem = s.mem := by
  induction n generalizing s with
  | zero => rfl
  | succ n ih =>
    unfold State.complete
    dsimp only
    split
    · rw [ih, mem_rank, mem_setObj]
      exact mem_modSync ..
    · rfl

theorem mem_uncharge (s : State) (c : Copy) (n : Nat) : (s.uncharge c n).mem = s.mem := by
  unfold State.uncharge State.takeCnt State.checkPhase State.showCopy
  split
  · rw [mem_complete, mem_setObj]
    split
    · rfl
    · exact mem_modSync ..
  · rfl

theorem mem_endCopy {o : Op} {c : Copy} (cause : Nat) (h : Req.stat c.desc = 0) : (s.endCopy e o c cause).mem = s.mem := by
  unfold State.endCopy
  dsimp only
  rw [mem_done, mem_uncharge, h, if_pos (beq_self_eq_true _)]

theorem mem_pointers (s : State) (b : BlkId) (ch n : Nat) (c : Clock) : ((s.addWptr b ch n).showWptr b ch c).mem = s.mem := by
  unfold State.showWptr
  split
  · exact State.modBlk_mem ..
  · exact (State.modBlk_mem ..).trans (State.modBlk_mem ..)

/-- A due copy's event takes place; where its bytes move, memory is as the move leaves it (R193). -/
theorem exec_bulkCopyRow {n : Nat} {o : Op} {c : Copy} (h : s.copyDue n = some (o, c, e)) : ∃ t, exec (.bulkCopyRow n) s = .next t ∧
    ∀ u, s.moveRow e c = .ok u → Req.stat c.desc = 0 → t.mem = u.mem := by
  change ∃ t, execBulkCopyRow n s = _ ∧ _
  unfold execBulkCopyRow
  rw [h]
  dsimp only
  cases hmove : s.moveRow e c with
  | error k => exact ⟨_, rfl, fun u hu => nomatch hu⟩
  | ok u =>
    dsimp only
    split
    · refine ⟨_, rfl, fun u' hu hstat => ?_⟩
      cases hu
      exact (mem_endCopy _ (by exact hstat)).trans (mem_pointers ..)
    · refine ⟨_, rfl, fun u' hu hstat => ?_⟩
      cases hu
      split
      · exact mem_pointers ..
      · exact (mem_uncharge ..).trans (mem_pointers ..)

theorem copyDue_op {n : Nat} {o : Op} {c : Copy} (h : s.copyDue n = some (o, c, e)) : s.op? n = some o ∧ s.env? o.wid = some e := by
  unfold State.copyDue at h
  cases ho : s.op? n with
  | none => rw [ho] at h; cases h
  | some x =>
    rw [ho] at h
    dsimp only at h
    split at h
    · rename_i he
      split at h
      · cases h; exact ⟨rfl, he⟩
      · cases h
    · cases h

/-- A due copy that meets a cause fails with it, and is outstanding no more (R196). -/
theorem exec_bulkCopyFail {n cause : Nat} {o : Op} {c : Copy} (h : s.copyDue n = some (o, c, e)) (hmove : s.moveRow e c = .error cause) :
    ∃ t, exec (.bulkCopyFail n cause) s = .next t ∧ t.op? n = none := by
  refine ⟨(s.rowReach e c).failCopy e o c cause, ?_, ?_⟩
  · change execBulkCopyFail n cause s = _
    unfold execBulkCopyFail
    rw [h]
    dsimp only
    rw [hmove]
    exact if_pos (beq_self_eq_true _)
  · rw [← (op?_spec (copyDue_op h).1).2]
    exact op?_done _ o

end Sys2Proof.Device
end

section
/-! Matrix commands that end (R178, R197, R203, R205): what their fills and their end leave unchanged. -/

namespace Sys2Proof.Device

open Sys2Proof Sys2Proof.Machine Sys2Proof.Claim

variable {s t : State} {w : WavId} {b : BlkId} {o : Op} {m : Matrix} {fence : Fence} {x : Bool} {e : Env} {v y : Wavelet}

/-! What keeps the wavelets alive and the slots of the blocks. -/

/-- A wavelet has the width and the live lanes of another. -/
def SameLive (v y : Wavelet) : Prop := y.width = v.width ∧ ∀ l, (y.lane l).live = (v.lane l).live

theorem SameLive.trans {z : Wavelet} (h : SameLive v y) (k : SameLive y z) : SameLive v z :=
  ⟨k.1.trans h.1, fun l => (k.2 l).trans (h.2 l)⟩

theorem SameLive.live (h : SameLive v y) : y.live = v.live := by
  unfold Wavelet.live
  rw [h.1]
  exact List.filter_congr fun l _ => h.2 l

/-- A change of every lane that leaves it live or not. -/
theorem sameLive_map {g : Strand → Strand} (hg : ∀ x, (g x).live = x.live) (v : Wavelet) : SameLive v { v with lanes := v.lanes.map g } := by
  refine ⟨rfl, fun l => ?_⟩
  simp only [Wavelet.lane, List.getD_eq_getElem?_getD, List.getElem?_map]
  cases v.lanes[l]? with
  | none => rfl
  | some x => exact hg x

/-- A change of one lane that leaves it live or not. -/
theorem sameLive_modify {g : Strand → Strand} (hg : ∀ x, (g x).live = x.live) (v : Wavelet) (i : Nat) :
    SameLive v { v with lanes := listModify g v.lanes i } := by
  refine ⟨rfl, fun l => ?_⟩
  simp only [Wavelet.lane, getD_listModify]
  split
  · exact hg _
  · rfl

/-- What the fills and the end of a matrix command leave, until the blocks of the span are marked: spans, which lanes live, which
blocks have ended and the slots they hold. -/
def Undying (s t : State) : Prop :=
  t.spans = s.spans ∧ (∀ u v, s.wav? u = some v → ∃ y, t.wav? u = some y ∧ SameLive v y) ∧
    ∀ b k, s.blk? b = some k → ∃ j, t.blk? b = some j ∧ j.ended = k.ended ∧ j.slots = k.slots

theorem undying_of_eq (hs : t.spans = s.spans) (hw : t.wavs = s.wavs) (hb : t.blocks = s.blocks) : Undying s t := by
  refine ⟨hs, fun u v h => ⟨v, ?_, rfl, fun _ => rfl⟩, fun b k h => ⟨k, ?_, rfl, rfl⟩⟩
  · unfold State.wav? at *; rwa [hw]
  · unfold State.blk? at *; rwa [hb]

theorem Undying.trans {u : State} (h : Undying s t) (k : Undying t u) : Undying s u := by
  obtain ⟨hs, hw, hb⟩ := h
  obtain ⟨ks, kw, kb⟩ := k
  refine ⟨ks.trans hs, fun u v hv => ?_, fun b k hk => ?_⟩
  · obtain ⟨y, hy, hvy⟩ := hw u v hv
    obtain ⟨z, hz, hyz⟩ := kw u y hy
    exact ⟨z, hz, hvy.trans hyz⟩
  · obtain ⟨j, hj, hended, hslots⟩ := hb b k hk
    obtain ⟨i, hi, kended, kslots⟩ := kb b j hj
    exact ⟨i, hi, kended.trans hended, kslots.trans hslots⟩

theorem undying_foldl {α : Type} {F : State → α → State} (hF : ∀ s a, Undying s (F s a)) (xs : List α) (s : State) : Undying s (xs.foldl F s) := by
  induction xs generalizing s with
  | nil => exact undying_of_eq rfl rfl rfl
  | cons a xs ih => exact (hF s a).trans (ih _)

theorem undying_setWav (hv : s.wav? w = some v) (h : SameLive v y) : Undying s (s.setWav w y) := by
  refine ⟨rfl, fun u z hz => ?_, fun b k hk => ⟨k, hk, rfl, rfl⟩⟩
  rw [State.wav?_setWav]
  split
  · rename_i hu
    subst hu
    cases hv.symm.trans hz
    exact ⟨y, rfl, h⟩
  · exact ⟨z, hz, rfl, fun _ => rfl⟩

theorem undying_modWav {f : Wavelet → Wavelet} (hf : ∀ v, SameLive v (f v)) (s : State) (w : WavId) : Undying s (s.modWav w f) := by
  cases hv : s.wav? w with
  | none => unfold State.modWav; rw [hv]; exact undying_of_eq rfl rfl rfl
  | some v => rw [State.modWav_eq _ hv]; exact undying_setWav hv (hf v)

theorem undying_modLane {f : Strand → Strand} (hf : ∀ x, (f x).live = x.live) (s : State) (w : WavId) (l : Nat) : Undying s (s.modLane w l f) :=
  undying_modWav (fun v => sameLive_modify hf v l) s w

theorem undying_modBlk {f : Block → Block} (hended : ∀ k, (f k).ended = k.ended) (hslots : ∀ k, (f k).slots = k.slots) (s : State) (b : BlkId) :
    Undying s (s.modBlk b f) := by
  refine ⟨State.modBlk_spans .., fun u v h => ⟨v, ?_, rfl, fun _ => rfl⟩, fun c k h => ?_⟩
  · unfold State.wav? at *; rwa [State.modBlk_wavs]
  · rw [blk?_modBlk, h]
    split
    · exact ⟨f k, rfl, hended k, hslots k⟩
    · exact ⟨k, rfl, rfl, rfl⟩

theorem Keeps.undying (h : Keeps s w) (k : Undying s t) : Keeps t w := by
  obtain ⟨v, p, b, hv, hlive, hp, hi, hb, hended⟩ := h
  obtain ⟨hs, hw, hblk⟩ := k
  obtain ⟨y, hy, hvy⟩ := hw _ _ hv
  obtain ⟨j, hj, hj', -⟩ := hblk _ _ hb
  exact ⟨y, p, j, hy, hvy.live ▸ hlive, by unfold State.span? at *; rwa [hs], hi, hj, hj'.trans hended⟩

theorem Keeps.modBlk {f : Block → Block} (h : Keeps s w) (hended : ∀ k, (f k).ended = k.ended) : Keeps (s.modBlk b f) w := by
  obtain ⟨v, p, k, hv, hlive, hp, hi, hb, hk⟩ := h
  have hblk : ∃ j, (s.modBlk b f).blk? w.block = some j ∧ j.ended = false := by
    rw [blk?_modBlk, hb]
    split
    · exact ⟨f k, rfl, (hended k).trans hk⟩
    · exact ⟨k, rfl, hk⟩
  obtain ⟨j, hj, hj'⟩ := hblk
  exact ⟨v, p, j, by unfold State.wav? at *; rwa [State.modBlk_wavs], hlive, by unfold State.span? at *; rwa [State.modBlk_spans], hi, hj, hj'⟩

theorem keeps_of_alive (h : Alive s w v) : Keeps s w := by
  obtain ⟨hv, -, hlive, p, b, hp, hi, hb, hended⟩ := h
  exact ⟨v, p, b, hv, hlive, hp, hi, hb, hended⟩

/-! The end of a matrix command. -/

theorem undying_freeUnused (s : State) (b : BlkId) : Undying s (s.freeUnused b) := by
  refine undying_modBlk ?_ ?_ s b
  · exact fun _ => rfl
  · exact fun _ => rfl

theorem live_release (x : Strand) (step : Nat) (d : Name) (v : W32) (w : Wait) : (x.release step d v w).live = x.live := by
  unfold Strand.release
  dsimp only
  split
  · split <;> rfl
  · rfl

theorem undying_releaseMwait (s : State) (w : WavId) : Undying s (s.releaseMwait w) := by
  unfold State.releaseMwait
  split
  · exact undying_of_eq rfl rfl rfl
  · rename_i v hv
    dsimp only
    split
    · exact undying_of_eq rfl rfl rfl
    · refine Undying.trans ?_ (undying_modBlk ?_ ?_ _ _)
      · refine undying_setWav hv (sameLive_map (fun x => ?_) v)
        split
        · exact live_release ..
        · rfl
      · exact fun _ => rfl
      · exact fun _ => rfl

theorem ops_releaseMwait (s : State) (w : WavId) : (s.releaseMwait w).ops = s.ops := by
  unfold State.releaseMwait
  split
  · rfl
  · dsimp only
    split
    · rfl
    · rw [State.modBlk_ops]; rfl

/-- No lane waits in `mwait`: nothing is released. -/
def NoMwait (s : State) : Prop := ∀ u y, s.wav? u = some y → ∀ z ∈ y.lanes, ∀ d, z.wait ≠ .mwait d

theorem releaseMwait_none (h : NoMwait s) : s.releaseMwait w = s := by
  unfold State.releaseMwait
  split
  · rfl
  · rename_i v hv
    dsimp only
    rw [if_pos]
    simp only [Bool.or_eq_true, Bool.not_eq_true', List.any_eq_false]
    refine .inl fun x hx => ?_
    split
    · rename_i d hd; exact absurd hd (h _ _ hv x hx d)
    · simp

/-- A matrix command that is done, before the blocks of its span are marked. -/
def leaving (s : State) (o : Op) : State :=
  ((s.modWav o.wid fun v => { v with mseen := Clock.join v.mseen o.sub }).dropOp o.id).freeUnused o.wid.block

theorem matrixDone_eq (s : State) (o : Op) : s.matrixDone o = ((leaving s o).releaseMwait o.wid).reap o.wid.span := rfl

theorem undying_leaving (s : State) (o : Op) : Undying s (leaving s o) := by
  refine Undying.trans ?_ (undying_freeUnused ..)
  refine Undying.trans (undying_modWav ?_ s o.wid) (undying_of_eq rfl rfl rfl)
  exact fun _ => ⟨rfl, fun _ => rfl⟩

theorem op?_matrixDone (s : State) (o : Op) : (s.matrixDone o).op? o.id = none := by
  refine op?_none fun x hx => ?_
  rw [matrixDone_eq, (ending_reap _ _).ops, ops_releaseMwait] at hx
  unfold leaving State.freeUnused at hx
  rw [State.modBlk_ops] at hx
  simpa using (List.mem_filter.1 hx).2

/-- The end of a matrix command of a block that goes on leaves its slots. -/
theorem slots_matrixDone {k : Block} (hkeep : Keeps s o.wid) (hk : s.blk? o.wid.block = some k) :
    ∃ j, (s.matrixDone o).blk? o.wid.block = some j ∧ j.slots = k.slots := by
  have hund := (undying_leaving s o).trans (undying_releaseMwait (leaving s o) o.wid)
  obtain ⟨j, hj, -, hslots⟩ := hund.2.2 _ _ hk
  exact ⟨j, by rw [matrixDone_eq, (reap_keeps (hkeep.undying hund)).2, hj], hslots⟩

theorem noMwait_leaving (h : NoMwait s) : NoMwait (leaving s o) := by
  intro u y hy z hz d
  have hw : (leaving s o).wav? u = (s.modWav o.wid fun v => { v with mseen := Clock.join v.mseen o.sub }).wav? u := by
    unfold leaving State.freeUnused State.wav?
    rw [State.modBlk_wavs]
    rfl
  rw [hw] at hy
  by_cases hu : o.wid = u
  · subst hu
    cases hv : s.wav? o.wid with
    | none =>
      unfold State.modWav at hy
      rw [hv] at hy
      exact absurd (hv.symm.trans hy) (by simp)
    | some v =>
      rw [wav?_modWav _ hv] at hy
      cases hy
      exact h _ _ hv z hz d
  · rw [wav?_modWav_of_ne _ hu] at hy
    exact h _ _ hy z hz d

/-- The end of a command where no lane waits in `mwait` leaves the registers of a span with a live wavelet. -/
theorem wav?_matrixDone {u : WavId} (hno : NoMwait s) (hkeep : Keeps s u) (hspan : u.span = o.wid.span) (hv : s.wav? w = some v) :
    ∃ c, (s.matrixDone o).wav? w = some { v with mseen := c } := by
  have hkeep' := hkeep.undying (undying_leaving s o)
  rw [matrixDone_eq, releaseMwait_none (noMwait_leaving hno), ← hspan]
  unfold State.wav?
  rw [(reap_keeps hkeep').1]
  unfold leaving State.freeUnused
  rw [State.modBlk_wavs]
  by_cases hu : o.wid = w
  · subst hu
    exact ⟨_, wav?_modWav _ hv⟩
  · exact ⟨v.mseen, (wav?_modWav_of_ne _ hu).trans hv⟩

/-- Where no lane waits in `mwait` the end of a command of a block that goes on leaves the report of a failure. -/
theorem fail_matrixDone {k : Block} (hno : NoMwait s) (hkeep : Keeps s o.wid) (hk : s.blk? o.wid.block = some k) :
    ∃ j, (s.matrixDone o).blk? o.wid.block = some j ∧ j.fail = k.fail := by
  have hkeep' := hkeep.undying (undying_leaving s o)
  rw [matrixDone_eq, releaseMwait_none (noMwait_leaving hno), (reap_keeps hkeep').2]
  unfold leaving State.freeUnused
  rw [blk?_modBlk, if_pos rfl]
  have hk' : ((s.modWav o.wid fun v => { v with mseen := Clock.join v.mseen o.sub }).dropOp o.id).blk? o.wid.block = some k := by
    unfold State.blk? State.dropOp at *
    rw [State.modWav_blocks]
    exact hk
  rw [hk']
  exact ⟨_, rfl, rfl⟩

/-! Fills of accumulators (R203). -/

theorem find_eq (x : Strand) (step : Nat) (rs : List Nat) : x.find step rs =
    { x with seen := (x.find step rs).seen, arrived := (x.find step rs).arrived, past := (x.find step rs).past } := by
  unfold Strand.find
  split <;> rfl

/-- A strand goes on as it is, or once its registers are found full. -/
theorem settle_cases (x : Strand) (step : Nat) : x.settle step = x ∨ ∃ rs, x.settle step = { x with wait := .none }.find step rs := by
  unfold Strand.settle
  split
  · split
    · exact .inr ⟨_, rfl⟩
    · exact .inl rfl
  · split
    · exact .inr ⟨_, rfl⟩
    · exact .inl rfl
  · exact .inl rfl

theorem live_settle (x : Strand) (step : Nat) : (x.settle step).live = x.live := by
  rcases settle_cases x step with h | ⟨rs, h⟩
  · rw [h]
  · rw [h, find_eq]

theorem regs_settle (x : Strand) (step : Nat) : (x.settle step).regs = x.regs := by
  rcases settle_cases x step with h | ⟨rs, h⟩
  · rw [h]
  · rw [h, find_eq]

theorem wait_settle {x : Strand} {step : Nat} {d : Name} (h : x.wait ≠ .mwait d) : (x.settle step).wait ≠ .mwait d := by
  rcases settle_cases x step with h' | ⟨rs, h'⟩
  · rwa [h']
  · rw [h', find_eq]
    exact fun h => nomatch h

theorem sameLive_settle (v : Wavelet) (step : Nat) : SameLive v (v.settle step) := by
  obtain ⟨-, hl⟩ := sameLive_map (fun x => live_settle x step) v
  exact ⟨rfl, hl⟩

theorem undying_drainRegs (s : State) (w : WavId) (fs : List Fill) (sub : Clock) : Undying s (s.drainRegs w fs sub) := by
  refine Undying.trans (undying_foldl (fun s f => ?_) fs s) (undying_modWav (fun v => sameLive_settle v _) ..)
  refine undying_modLane ?_ s w f.lane
  exact fun _ => rfl

theorem undying_fillAll (s : State) (fs : List (WavId × Fill)) (sub : Clock) : Undying s (s.fillAll fs sub) :=
  undying_foldl (fun s w => undying_drainRegs s w ..) _ s

theorem blocks_drainRegs (s : State) (w : WavId) (fs : List Fill) (sub : Clock) : (s.drainRegs w fs sub).blocks = s.blocks := by
  unfold State.drainRegs
  rw [State.modWav_blocks]
  induction fs generalizing s with
  | nil => rfl
  | cons f fs ih => rw [List.foldl_cons, ih, State.modLane_blocks]

theorem blocks_fillAll (s : State) (fs : List (WavId × Fill)) (sub : Clock) : (s.fillAll fs sub).blocks = s.blocks := by
  unfold State.fillAll
  generalize (fs.map (·.1)).eraseDups = ws
  induction ws generalizing s with
  | nil => rfl
  | cons w ws ih => rw [List.foldl_cons, ih, blocks_drainRegs]

theorem noMwait_modWav {f : Wavelet → Wavelet} (hf : ∀ v, (∀ z ∈ v.lanes, ∀ d, z.wait ≠ .mwait d) → ∀ z ∈ (f v).lanes, ∀ d, z.wait ≠ .mwait d)
    (h : NoMwait s) (w : WavId) : NoMwait (s.modWav w f) := by
  intro u y hy
  by_cases hu : w = u
  · subst hu
    cases hv : s.wav? w with
    | none =>
      unfold State.modWav at hy
      rw [hv] at hy
      exact absurd (hv.symm.trans hy) (by simp)
    | some v =>
      rw [wav?_modWav _ hv] at hy
      cases hy
      exact hf v (h _ _ hv)
  · rw [wav?_modWav_of_ne _ hu] at hy
    exact h _ _ hy

theorem noMwait_modLane {f : Strand → Strand} (hf : ∀ x, (f x).wait = x.wait) (h : NoMwait s) (w : WavId) (l : Nat) : NoMwait (s.modLane w l f) := by
  refine noMwait_modWav (fun v hv z hz d => ?_) h w
  rcases mem_listModify hz with hz | ⟨x, hx, rfl⟩
  · exact hv z hz d
  · rw [hf]; exact hv x hx d

theorem noMwait_drainRegs (h : NoMwait s) (w : WavId) (fs : List Fill) (sub : Clock) : NoMwait (s.drainRegs w fs sub) := by
  unfold State.drainRegs
  refine noMwait_modWav (fun v hv z hz d => ?_) ?_ w
  · obtain ⟨x, hx, rfl⟩ := List.mem_map.1 hz
    exact wait_settle (hv x hx d)
  · induction fs generalizing s with
    | nil => exact h
    | cons f fs ih =>
      refine ih (noMwait_modLane ?_ h w f.lane)
      exact fun _ => rfl

theorem noMwait_fillAll (h : NoMwait s) (fs : List (WavId × Fill)) (sub : Clock) : NoMwait (s.fillAll fs sub) := by
  unfold State.fillAll
  generalize (fs.map (·.1)).eraseDups = ws
  induction ws generalizing s with
  | nil => exact h
  | cons w ws ih => exact ih (noMwait_drainRegs h w _ sub)

/-! Commands at the head of their block (R178), and commands that fail (R205). -/

theorem matrixDue_spec {n : Nat} (h : s.matrixDue n = some (o, m, fence, x, e)) : s.op? n = some o ∧ o.id = n ∧ s.env? o.wid = some e := by
  unfold State.matrixDue at h
  split at h
  · cases h
  · rename_i p hp
    split at h
    · rename_i he
      split at h
      · cases h
        exact ⟨hp, (op?_spec hp).2, he⟩
      · cases h
    · cases h

theorem op?_cancelDone (s : State) (o : Op) (e : Env) (m : Matrix) : (s.cancelDone o e m).op? o.id = none := op?_matrixDone ..
theorem op?_failMatrix (s : State) (o : Op) (e : Env) (m : Matrix) (cause : Nat) : (s.failMatrix o e m cause).op? o.id = none := op?_matrixDone ..

/-- The report of a block whose command fails: the first cause stands (R205). -/
def failing (cause later : Nat) (k : Block) : Block :=
  { k with fail := match k.fail with | some r => some (r.1, r.2 + 1 + later) | none => some (cause, 1 + later) }

/-- The commands behind one that fails are cancelled. -/
def cancelled (s : State) (later : List (Op × Matrix × Fence × Bool)) : State :=
  later.foldl (fun s x => s.setOp x.1.id (.matrix x.2.1 x.2.2.1 true)) s

theorem cancelled_eq (s : State) (later : List (Op × Matrix × Fence × Bool)) : cancelled s later = { s with ops := (cancelled s later).ops } := by
  unfold cancelled
  induction later generalizing s with
  | nil => rfl
  | cons x later ih => rw [List.foldl_cons, ih]; rfl

theorem failMatrix_eq (s : State) (o : Op) (e : Env) (m : Matrix) (cause : Nat) : ∃ later fs, s.failMatrix o e m cause =
    (((cancelled s later).modBlk o.wid.block (failing cause later.length)).fillAll fs o.sub).matrixDone o := ⟨_, _, rfl⟩

/-- A command that fails where no lane waits in `mwait` leaves its cause in its block, unless one failed before it. -/
theorem fail_failMatrix {k : Block} (cause : Nat) (hno : NoMwait s) (hkeep : Keeps s o.wid) (hk : s.blk? o.wid.block = some k) :
    ∃ j c, (s.failMatrix o e m cause).blk? o.wid.block = some j ∧ j.fail = some c ∧ (k.fail = none → c.1 = cause) := by
  obtain ⟨later, fs, hs⟩ := failMatrix_eq s o e m cause
  obtain ⟨u, hu⟩ : ∃ u, u = (cancelled s later).modBlk o.wid.block (failing cause later.length) := ⟨_, rfl⟩
  have hund : Undying s (cancelled s later) := by rw [cancelled_eq]; exact undying_of_eq rfl rfl rfl
  have hukeep : Keeps u o.wid := by rw [hu]; exact (hkeep.undying hund).modBlk fun _ => rfl
  have hublk : u.blk? o.wid.block = some (failing cause later.length k) := by
    rw [hu, blk?_modBlk, if_pos rfl, cancelled_eq]
    exact congrArg (Option.map _) hk
  have huno : NoMwait u := by
    intro w' y hy
    refine hno w' y ?_
    rw [hu, cancelled_eq] at hy
    unfold State.wav? at *
    rwa [State.modBlk_wavs] at hy
  have hfill : (u.fillAll fs o.sub).blk? o.wid.block = some (failing cause later.length k) := by
    unfold State.blk? at *; rwa [blocks_fillAll]
  obtain ⟨j, hj, hjfail⟩ := fail_matrixDone (noMwait_fillAll huno fs o.sub) (hukeep.undying (undying_fillAll ..)) hfill
  rw [hs, ← hu]
  cases hfail : k.fail with
  | none => exact ⟨j, (cause, 1 + later.length), hj, by rw [hjfail]; simp only [failing, hfail], fun _ => rfl⟩
  | some r => exact ⟨j, (r.1, r.2 + 1 + later.length), hj, by rw [hjfail]; simp only [failing, hfail], fun h => nomatch h⟩

/-- MATRIX_COMMAND_FAIL for a command that reads accumulators (R205, R165). -/
theorem exec_matrixCommandFail_mma {n : Nat} {dual : Bool} {p : Par} (h : s.matrixDue n = some (o, .mma dual p, fence, false, e)) :
    exec (.matrixCommandFail n eIntegrity) s = .next (s.failMatrix o e (.mma dual p) eIntegrity) := by
  change execMatrixCommandFail n eIntegrity s = _
  unfold execMatrixCommandFail
  rw [h]
  rfl

/-- MATRIX_COMMAND_FAIL for a command that fills a slot: with the cause that it meets (R205). -/
theorem exec_matrixCommandFail {n cause : Nat} {u : State} (h : s.matrixDue n = some (o, m, fence, false, e)) (hm : ∀ dual p, m ≠ .mma dual p)
    (htile : s.tileOf e m fence = (.error cause, u)) : exec (.matrixCommandFail n cause) s = .next (u.failMatrix o e m cause) := by
  change execMatrixCommandFail n cause s = _
  unfold execMatrixCommandFail
  rw [h]
  dsimp only
  split
  · rename_i dual p
    exact absurd rfl (hm dual p)
  · rw [htile]
    simp

end Sys2Proof.Device
end

section
/-! MLD_FILL (R199, R200, R323, R324): the tile that a command's slot takes. -/

namespace Sys2Proof.Device

open Sys2Proof Sys2Proof.Machine Sys2Proof.Claim

variable {s t u : State} {b : BlkId} {o : Op} {m : Matrix} {fence : Fence} {x : Bool} {e : Env}

/-! The state that the reading leaves. -/

theorem caches_tileReach (role n : Nat) (ty : Ty) (tr : Bool) (a : W64) (pitch : Nat) : Caches s (s.tileReach e role n ty tr a pitch) := by
  unfold State.tileReach
  dsimp only
  have hindex : ∀ (c : Bool) (a : W64) (k : Nat) (u : State), Caches s u → Caches s (if c = true then u.engReach e a k else u) := by
    intro c a k u hu
    split
    · exact hu.trans (caches_engReach ..)
    · exact hu
  refine hindex _ _ _ _ (caches_foldl (fun s i => ?_) _ s)
  refine (caches_engReach ..).trans (caches_foldl (fun s j => ?_) _ _)
  split
  · split
    · exact caches_engReach ..
    · rfl
  · rfl

/-- Reading for a tile changes the caches and the free choices alone. -/
theorem tileOf_state (s : State) (e : Env) (m : Matrix) (fence : Fence) :
    (s.tileOf e m fence).2 = { s with llc := (s.tileOf e m fence).2.llc, charges := (s.tileOf e m fence).2.charges,
                                      clusters := (s.tileOf e m fence).2.clusters, free := (s.tileOf e m fence).2.free } := by
  cases m with
  | mld slot role n ty tr a pitch lane =>
    have h : Caches s (s.tileReach e role n ty tr a pitch) := caches_tileReach ..
    unfold Caches at h
    unfold State.tileOf
    dsimp only
    rw [h]
  | mconst slot role kind ty b => rfl
  | mma dual p => rfl

theorem undying_tileOf (s : State) (e : Env) (m : Matrix) (fence : Fence) : Undying s (s.tileOf e m fence).2 := by
  rw [tileOf_state]
  exact undying_of_eq rfl rfl rfl

/-! The slot that is filled. -/

theorem fill_ended (k : Block) (n : Nat) (z : Tile) : (k.fill n z).ended = k.ended := by
  unfold Block.fill
  dsimp only
  split <;> rfl

/-- A slot that the block holds has the tile that filled it, whatever else the block releases. -/
theorem tile?_fill {j k : Block} {n : Nat} {z : Tile} (hholds : k.holds n = true) (hj : j.slots = (k.fill n z).slots) : j.tile? n = some z := by
  have hslots : (k.fill n z).slots = k.slots.map fun p => if p.1 == n then (n, some z) else p := by
    unfold Block.fill
    rw [if_pos hholds]
  obtain ⟨q, hq, hqn⟩ := List.any_eq_true.1 hholds
  obtain ⟨p, hp⟩ : ∃ p, k.slots.find? (·.1 == n) = some p := Option.isSome_iff_exists.1 (List.find?_isSome.2 ⟨q, hq, hqn⟩)
  have hfind : j.slots.find? (·.1 == n) = some (n, some z) := by
    rw [hj, hslots, List.find?_map]
    have hcomp : ((fun p : Nat × Option Tile => p.1 == n) ∘ fun p => if (p.1 == n) = true then (n, some z) else p) = fun p => p.1 == n := by
      funext p
      simp only [Function.comp_apply]
      split
      · rename_i h; simpa using h.symm
      · rfl
    rw [hcomp, hp]
    have hpn : (p.1 == n) = true := List.find?_some (p := fun q : Nat × Option Tile => q.1 == n) hp
    rw [Option.map_some, if_pos hpn]
  unfold Block.tile?
  rw [hfind]

theorem undying_noteScales (s : State) (w : WavId) (m : Matrix) (z : Tile) : Undying s (s.noteScales w m z) := by
  unfold State.noteScales
  split
  · split
    · refine undying_foldl (fun s l => undying_modLane ?_ s w l) _ s
      exact fun _ => rfl
    · exact undying_of_eq rfl rfl rfl
  · exact undying_of_eq rfl rfl rfl

/-- MLD_FILL where the command is not cancelled and its tile is read. -/
theorem exec_mldFill {n slot : Nat} {z : Tile} (h : s.matrixDue n = some (o, m, fence, false, e)) (hm : ∀ dual p, m ≠ .mma dual p)
    (htile : s.tileOf e m fence = (.ok (slot, z), u)) :
    exec (.mldFill n) s = .next (((u.modBlk o.wid.block (·.fill slot z)).noteScales o.wid m z).matrixDone o) := by
  change execMldFill n s = _
  unfold execMldFill
  rw [h]
  cases m with
  | mma dual p => exact absurd rfl (hm dual p)
  | mld _ _ _ _ _ _ _ _ => dsimp only; rw [htile]; rfl
  | mconst _ _ _ _ _ => dsimp only; rw [htile]; rfl

/-- MLD_FILL ends its command: cancelled, failed or filled. -/
theorem exec_mldFill_ends {n : Nat} (h : s.matrixDue n = some (o, m, fence, x, e)) (hm : ∀ dual p, m ≠ .mma dual p) :
    ∃ t, exec (.mldFill n) s = .next t ∧ t.op? o.id = none := by
  have hrun : exec (.mldFill n) s = if x = true then .next (s.cancelDone o e m) else match s.tileOf e m fence with
      | (.error cause, t) => .next (t.failMatrix o e m cause)
      | (.ok (slot, tile), t) => .next (((t.modBlk o.wid.block (·.fill slot tile)).noteScales o.wid m tile).matrixDone o) := by
    change execMldFill n s = _
    unfold execMldFill
    rw [h]
    cases m with
    | mma dual p => exact absurd rfl (hm dual p)
    | mld _ _ _ _ _ _ _ _ => rfl
    | mconst _ _ _ _ _ => rfl
  cases x with
  | true => exact ⟨_, hrun, op?_cancelDone ..⟩
  | false =>
    cases htile : s.tileOf e m fence with
    | mk r u =>
      rw [htile] at hrun
      cases r with
      | error cause => exact ⟨_, hrun, op?_failMatrix ..⟩
      | ok q => exact ⟨_, hrun, op?_matrixDone ..⟩

/-- The slot of a block that goes on has the tile that was read. -/
theorem tile?_mldFill {w : WavId} {slot : Nat} {z : Tile} (hw : o.wid = w) (hkeep : Keeps s w) (he : s.env? w = some e) (hholds : e.blk.holds slot = true)
    (hu : Undying s u) (hblk : u.blk? w.block = s.blk? w.block) :
    ∃ k, (((u.modBlk o.wid.block (·.fill slot z)).noteScales o.wid m z).matrixDone o).blk? w.block = some k ∧ k.tile? slot = some z := by
  subst hw
  obtain ⟨-, hb, -⟩ := env?_parts he
  have hfill : (u.modBlk o.wid.block (·.fill slot z)).blk? o.wid.block = some (e.blk.fill slot z) := by
    rw [blk?_modBlk, if_pos rfl, hblk, hb]
    rfl
  have hkeep' : Keeps (u.modBlk o.wid.block (·.fill slot z)) o.wid := (hkeep.undying hu).modBlk fun k => fill_ended k slot z
  obtain ⟨j, hj, -, hslots⟩ := (undying_noteScales (u.modBlk o.wid.block (·.fill slot z)) o.wid m z).2.2 _ _ hfill
  obtain ⟨k, hk, hk'⟩ := slots_matrixDone (hkeep'.undying (undying_noteScales ..)) hj
  exact ⟨k, hk, tile?_fill hholds (hk'.trans hslots)⟩

/-! What an mld reads (R199, R323). -/

/-- A view differs from the machine in its free choices and its blocks alone. -/
def Viewed (s v : State) : Prop := v = { s with free := v.free, blocks := v.blocks }

theorem viewed_viewScr (b : BlkId) (fence n : Nat) : ∀ (u : Nat) (s : State), Viewed s (s.viewScr b fence u n) := by
  induction n with
  | zero => exact fun u s => rfl
  | succ n ih =>
    intro u s
    unfold State.viewScr
    split
    · rfl
    · rename_i k hk
      obtain ⟨r, hr⟩ : ∃ r, r = s.choose (Sparse.readN k.scratch (16 * u) 16)
        (k.past.filterMap fun p => if p.1 == u && fence < p.2.1 then some p.2.2.toNat else none) := ⟨_, rfl⟩
      have hchoose : Viewed s r.2 := by
        rw [hr]
        unfold State.choose
        split <;> rfl
      have hmod : Viewed r.2 (r.2.modBlk b fun k => { k with scratch := Sparse.writeN k.scratch (16 * u) 16 r.1 }) := by
        rw [modBlk_eq]; rfl
      have hrec := ih (u + 1) (r.2.modBlk b fun k => { k with scratch := Sparse.writeN k.scratch (16 * u) 16 r.1 })
      rw [hr] at hrec hmod hchoose
      unfold Viewed at *
      dsimp only
      rw [hrec, hmod, hchoose]

/-- An engine's read below the scratchpad windows is the same in a view. -/
theorem engPart_viewed {v : State} (hv : Viewed s v) {a : W64} (n : Nat) (ha : a.toNat < 2 ^ 57) : v.engPart e a n = s.engPart e a n := by
  by_cases hlt : a.toNat < 2 ^ 56
  · cases hx : e.spot .load false (fun _ => n) a with
    | none => unfold State.engPart Env.engSpot; rw [hx]
    | some y =>
      obtain ⟨p, lf, -, -, hloc⟩ := spot_glob (window_of_lt hlt) hx
      have hfails : v.fails e .load false n y = s.fails e .load false n y := by rw [hv]; rfl
      have hread : v.readLoc e.wid 0 y.loc n = s.readLoc e.wid 0 y.loc n := by rw [hv, hloc]; rfl
      unfold State.engPart Env.engSpot
      rw [hx]
      dsimp only
      rw [hfails, hread]
  · unfold State.engPart Env.engSpot
    rw [spot_behind (by omega) ha]

theorem engRead_viewed {v : State} (hv : Viewed s v) {a : W64} {n : Nat} (ha : a.toNat + n < 2 ^ 57) : v.engRead e a n = s.engRead e a n := by
  rw [engRead_eq, engRead_eq]
  refine List.foldl_ext _ _ _ fun acc r hr => ?_
  obtain ⟨k, hk, hrk⟩ := List.mem_map.1 hr
  have hoff : r.1 ≤ n := by
    rw [← hrk]
    exact (runAt_spec (List.mem_range.1 hk)).1 ▸ covered_le ..
  have hlt : (a + BitVec.ofNat 64 r.1).toNat < 2 ^ 57 := by
    rw [BitVec.toNat_add, BitVec.toNat_ofNat]
    omega
  unfold readRun
  rw [engPart_viewed hv _ hlt]

theorem elemBits_le (t : Ty) : t.elemBits ≤ 64 := by cases t <;> decide

/-- The codes of a row in the global window are the same in a view. -/
theorem codeAt_viewed {v : State} (hv : Viewed s v) {ty : Ty} {a : W64} {j : Nat} (ha : isGlob a = true) (hj : j < 256) :
    v.codeAt e ty a j = s.codeAt e ty a j := by
  have hlt := isGlob_lt ha
  have hbits := elemBits_le ty
  have hmul : j * ty.elemBits ≤ 256 * 64 := Nat.mul_le_mul hj.le hbits
  have haddr : (a + BitVec.ofNat 64 (j * ty.elemBits / 8)).toNat + (ty.elemBits + 7) / 8 < 2 ^ 57 := by
    rw [BitVec.toNat_add, BitVec.toNat_ofNat]
    omega
  unfold State.codeAt
  dsimp only
  rw [engRead_viewed hv haddr]

/-- All of a list without an error. -/
theorem allOk_ok {α : Type} {xs : List (Except Nat α)} {ys : List α} (h : allOk xs = .ok ys) : xs = ys.map .ok := by
  induction xs generalizing ys with
  | nil => cases h; rfl
  | cons x xs ih =>
    cases x with
    | error c => cases h
    | ok a =>
      unfold allOk at h
      split at h
      · rename_i zs hzs
        cases h
        rw [ih hzs]
        rfl
      · cases h

theorem storedCodes_of_ne {ty : Ty} (h : ty ≠ .i4o) : ∀ cs, storedCodes ty cs = cs
  | a :: b :: c :: d :: xs => by
    have hty : (ty == Ty.i4o) = false := by simpa using h
    unfold storedCodes
    rw [storedCodes_of_ne h xs, hty]
    rfl
  | [] | [_] | [_, _] | [_, _, _] => rfl

/-- A line that no check refuses has the codes that were read. -/
theorem line_codes {c d : Prop} [Decidable c] [Decidable d] {cs : List Nat} {r : Except Nat (List (Option Nat))} {l : List Nat × List (Option Nat)}
    (h : (if c then .error eFmt else if d then .ok (cs, []) else match r with | .error k => .error k | .ok sc => .ok (cs, sc)) = Except.ok l) :
    l.1 = cs := by
  split at h
  · cases h
  · split at h
    · cases h; rfl
    · split at h
      · cases h
      · cases h; rfl

/-- The codes of a tile's line are those of its elements. -/
theorem tileLine_ok {ty : Ty} {tr along : Bool} {pitch n : Nat} {a : W64} {l : List Nat × List (Option Nat)} (hty : ty ≠ .i4o)
    (h : s.tileLine e ty tr along pitch a n = .ok l) : (List.range n).map (fun j => s.codeAt e ty a j) = l.1.map .ok := by
  unfold State.tileLine at h
  dsimp only at h
  cases hcs : allOk ((List.range n).map fun j => s.codeAt e ty a j) with
  | error c => rw [hcs] at h; cases h
  | ok cs =>
    have hl : l.1 = cs := by
      rw [hcs] at h
      dsimp only at h
      rw [storedCodes_of_ne hty] at h
      split at h <;> exact line_codes h
    rw [hl]
    exact allOk_ok hcs

/-- An element of lines of one length, put one behind the other. -/
theorem getD_flatten {α : Type} {n : Nat} (d : α) : ∀ (xs : List (List α)) {i j : Nat}, (∀ x ∈ xs, x.length = n) → i < xs.length → j < n →
    xs.flatten.getD (i * n + j) d = (xs.getD i []).getD j d
  | x :: xs, 0, j, hlen, _, hj => by
    have hx := hlen x List.mem_cons_self
    simp [List.getD_eq_getElem?_getD, List.getElem?_append_left (show j < x.length by omega)]
  | x :: xs, i + 1, j, hlen, hi, hj => by
    have hx := hlen x List.mem_cons_self
    have hrest := getD_flatten d xs (i := i) (fun y hy => hlen y (List.mem_cons_of_mem _ hy)) (by simpa using hi) hj
    have hpos : (i + 1) * n + j - x.length = i * n + j := by rw [hx, Nat.succ_mul]; omega
    have hge : x.length ≤ (i + 1) * n + j := by rw [hx, Nat.succ_mul]; omega
    simp only [List.getD_eq_getElem?_getD, List.flatten_cons, List.getElem?_append_right hge, hpos, List.getElem?_cons_succ] at hrest ⊢
    exact hrest

theorem matShape_le {ty : Ty} {m n k : Nat} (h : matShape ty = some (m, n, k)) : m ≤ 256 ∧ n ≤ 256 ∧ k ≤ 256 := by
  unfold matShape at h
  split at h <;> cases h <;> decide

theorem tileSize_le (ty : Ty) (role : Nat) : (tileSize ty role).2 ≤ 256 := by
  unfold tileSize
  split
  · rename_i m n k h
    obtain ⟨-, hn, hk⟩ := matShape_le h
    split
    · exact hn
    · exact hk
  · exact Nat.zero_le _

theorem map_ok {α β : Type} {r : Except Nat α} {f : α → β} {y : β} (h : r.map f = .ok y) : ∃ x, r = .ok x ∧ f x = y := by
  cases r with
  | error c => cases h
  | ok x => exact ⟨x, rfl, by cases h; rfl⟩

/-- The elements of a dense tile in row order are those that its rows hold (R199). -/
theorem loadTile_dense {role n : Nat} {ty : Ty} {a : W64} {pitch : Nat} {z : Tile} (hrole : role ≤ 1) (hty : ty ≠ .i4o)
    (h : s.loadTile e role n ty false a pitch = .ok z) : z.ty = ty ∧ z.role = role ∧ z.sp = 0 ∧ (z.rows, z.cols) = tileSize ty role ∧
      ∀ i j c, i < z.rows → j < z.cols → s.codeAt e ty (a + BitVec.ofNat 64 (i * pitch)) j = .ok c → z.elems.getD (i * z.cols + j) none = some c := by
  have hrole' : (role == 2) = false := by simp only [beq_eq_false_iff_ne]; omega
  unfold State.loadTile at h
  simp only [hrole', Bool.false_eq_true, if_false] at h
  split at h
  · cases h
  · rename_i ls hls
    cases h
    refine ⟨rfl, rfl, rfl, rfl, fun i j c hi hj hc => ?_⟩
    have hlines := allOk_ok hls
    have hlen : ls.length = (tileSize ty role).1 := by simpa using (congrArg List.length hlines).symm
    have hline : ∀ i (hi : i < ls.length), (List.range (tileSize ty role).2).map (fun j => s.codeAt e ty (a + BitVec.ofNat 64 (i * pitch)) j) =
        ls[i].1.map .ok := by
      intro i hi
      have hi' := congrArg (·[i]?) hlines
      simp only [List.getElem?_map, List.getElem?_range (hlen ▸ hi), Option.map_some, List.getElem?_eq_getElem hi, Option.some.injEq] at hi'
      exact tileLine_ok hty hi'
    have hrows : ∀ x ∈ ls.map fun l => l.1.map some, x.length = (tileSize ty role).2 := by
      intro x hx
      obtain ⟨y, hy, rfl⟩ := List.mem_map.1 hx
      obtain ⟨i, hi, rfl⟩ := List.mem_iff_getElem.1 hy
      simpa using (congrArg List.length (hline i hi)).symm
    have hi' : i < ls.length := hlen ▸ hi
    have hcode := congrArg (·[j]?) (hline i hi')
    simp only [List.getElem?_map, List.getElem?_range hj, Option.map_some, hc] at hcode
    have helem : ls[i].1[j]? = some c := by
      cases hx : ls[i].1[j]? with
      | none => rw [hx] at hcode; cases hcode
      | some y => rw [hx] at hcode; cases hcode; rfl
    change ((ls.map (·.1)).flatten.map some).getD (i * (tileSize ty role).2 + j) none = some c
    rw [List.map_flatten, List.map_map]
    refine (getD_flatten none _ hrows (by simpa using hi') hj).trans ?_
    simp [List.getD_eq_getElem?_getD, hi', helem]

/-- The tile that an mld reads has, in the rows that lie in the global window, the codes that memory holds (R199, R323). -/
theorem tileOf_mld {slot slot' role sp pitch lane : Nat} {ty : Ty} {a : W64} {z : Tile} (hrole : role ≤ 1) (hty : ty ≠ .i4o)
    (h : s.tileOf e (.mld slot' role sp ty false a pitch lane) fence = (.ok (slot, z), u)) :
    z.ty = ty ∧ z.role = role ∧ z.sp = 0 ∧ (z.rows, z.cols) = tileSize ty role ∧
      ∀ i j c, i < z.rows → j < z.cols → isGlob (a + BitVec.ofNat 64 (i * pitch)) = true →
        s.codeAt e ty (a + BitVec.ofNat 64 (i * pitch)) j = .ok c → z.elems.getD (i * z.cols + j) none = some c := by
  obtain ⟨v, hv, hload⟩ : ∃ v, Viewed s v ∧ v.loadTile e role sp ty false a pitch = .ok z := by
    unfold State.tileOf at h
    dsimp only at h
    have htile := congrArg Prod.fst h
    dsimp only at htile
    obtain ⟨y, hload, hy⟩ := map_ok htile
    cases hy
    refine ⟨_, ?_, hload⟩
    split
    · exact viewed_viewScr ..
    · rfl
  obtain ⟨hzty, hzrole, hsp, hsize, helems⟩ := loadTile_dense hrole hty hload
  refine ⟨hzty, hzrole, hsp, hsize, fun i j c hi hj hglob hc => helems i j c hi hj ?_⟩
  have hcols : z.cols = (tileSize ty role).2 := congrArg Prod.snd hsize
  rw [codeAt_viewed hv hglob (lt_of_lt_of_le hj (hcols ▸ tileSize_le ty role)), hc]

/-! What an mconst holds (R200). -/

theorem constTile_elems (ty : Ty) (role : Nat) (b : Int) (idx : Nat → Nat) : (constTile ty role 0 b idx).elems =
    ((List.range (tileSize ty role).1).map fun i => (List.range (tileSize ty role).2).map fun j =>
      some (if j == i then (if ty == .i4o then 0x38 else Lit.one.elem ty 0) else 0)).flatten := rfl

/-- The element of a table of rows of one length. -/
theorem getD_table {α : Type} {rows cols i j : Nat} (f : Nat → Nat → α) (d : α) (hi : i < rows) (hj : j < cols) :
    ((List.range rows).map fun i => (List.range cols).map (f i)).flatten.getD (i * cols + j) d = f i j := by
  refine (getD_flatten d _ (fun x hx => ?_) (by simpa using hi) hj).trans ?_
  · obtain ⟨r, -, rfl⟩ := List.mem_map.1 hx
    simp
  · simp [List.getD_eq_getElem?_getD, hi, hj]

/-- The identity has one on its diagonal and zero elsewhere. -/
theorem constTile_identity {ty : Ty} {role : Nat} {b : Int} {idx : Nat → Nat} {i j : Nat} (hi : i < (constTile ty role 0 b idx).rows)
    (hj : j < (constTile ty role 0 b idx).cols) : (constTile ty role 0 b idx).elems.getD (i * (constTile ty role 0 b idx).cols + j) none =
      some (if i = j then (if ty = .i4o then 0x38 else Lit.one.elem ty 0) else 0) := by
  rw [constTile_elems]
  refine (getD_table _ _ hi hj).trans ?_
  by_cases hij : i = j
  · rw [if_pos hij, if_pos (beq_iff_eq.2 hij.symm)]
    simp only [beq_iff_eq]
  · rw [if_neg hij, if_neg fun h => hij (beq_iff_eq.1 h).symm]

/-- The tile of an identity mconst. -/
theorem tileOf_ident (slot role : Nat) (ty : Ty) (b : Int) : ∃ idx v, s.tileOf e (.mconst slot role 0 ty b) fence =
    (.ok (slot, constTile ty role 0 b idx), v) := ⟨_, _, rfl⟩

end Sys2Proof.Device
end

section
/-! MATRIX_DRAIN (R109, R202, R203): the accumulators that a command writes. -/

namespace Sys2Proof.Device

open Sys2Proof Sys2Proof.Machine Sys2Proof.Claim

variable {s t u : State} {w : WavId} {b : BlkId} {o : Op} {fence : Fence} {x : Bool} {e : Env} {v : Wavelet} {p : Par} {place : Place} {zero : Bool}

/-! Fills (R203). -/

/-- A wavelet has a lane, and its register files are in their canonical form. -/
def HasLane (s : State) (w : WavId) (l : Nat) : Prop :=
  ∃ v, s.wav? w = some v ∧ l < v.lanes.length ∧ ∀ x ∈ v.lanes, Sparse.wf ({} : Reg) x.regs = true

/-- Such a wavelet holds a value in a register of the lane. -/
def HasReg (s : State) (w : WavId) (l r : Nat) (val : Reg) : Prop :=
  ∃ v, s.wav? w = some v ∧ l < v.lanes.length ∧ (∀ x ∈ v.lanes, Sparse.wf ({} : Reg) x.regs = true) ∧ (v.lane l).reg r = val

theorem HasReg.lane {l r : Nat} {val : Reg} (h : HasReg s w l r val) : HasLane s w l := by
  obtain ⟨v, hv, hl, hwf, -⟩ := h
  exact ⟨v, hv, hl, hwf⟩

theorem HasLane.congr {l : Nat} (h : HasLane s w l) (hw : t.wav? w = s.wav? w) : HasLane t w l := by
  unfold HasLane; rwa [hw]

theorem HasReg.congr {l r : Nat} {val : Reg} (h : HasReg s w l r val) (hw : t.wav? w = s.wav? w) : HasReg t w l r val := by
  unfold HasReg; rwa [hw]

/-- The strand that a drain's fill of one register leaves. -/
def drained (sub : Clock) (f : Fill) (x : Strand) : Strand := (x.drainReg f.reg f.val).arrive f.reg sub

theorem reg_drained {f : Fill} {x : Strand} (sub : Clock) (h : Sparse.wf ({} : Reg) x.regs = true) (r : Nat) :
    (drained sub f x).reg r = if f.reg = r then f.val else x.reg r := Sparse.get_put _ _ _ h

/-- One fill of a wavelet's lanes. -/
theorem hasReg_drained {l r : Nat} {val : Reg} {f : Fill} (sub : Clock) (hlane : HasLane s w l) (hval : f.lane = l → f.reg = r → f.val = val)
    (h : HasReg s w l r val ∨ f.lane = l ∧ f.reg = r) : HasReg (s.modLane w f.lane (drained sub f)) w l r val := by
  obtain ⟨v, hv, hl, hwf⟩ := hlane
  refine ⟨_, wav?_modLane hv _ _, (length_listModify ..).symm ▸ hl, fun y hy => ?_, ?_⟩
  · rcases mem_listModify hy with hy | ⟨x, hx, rfl⟩
    · exact hwf y hy
    · exact Sparse.wf_put _ _ (hwf x hx)
  · have hlx : Sparse.wf ({} : Reg) (v.lane l).regs = true := by
      rw [Wavelet.lane, List.getD_eq_getElem _ _ hl]
      exact hwf _ (List.getElem_mem hl)
    change ((listModify (drained sub f) v.lanes f.lane).getD l {}).reg r = val
    rw [getD_listModify]
    by_cases htarget : f.lane = l ∧ f.reg = r
    · rw [if_pos ⟨htarget.1.symm, hl⟩]
      exact (reg_drained sub hlx r).trans ((if_pos htarget.2).trans (hval htarget.1 htarget.2))
    · obtain ⟨v', hv', -, -, hreg⟩ := h.resolve_right htarget
      cases hv.symm.trans hv'
      split
      · rename_i hlane
        exact (reg_drained sub hlx r).trans ((if_neg fun hr => htarget ⟨hlane.1.symm, hr⟩).trans hreg)
      · exact hreg

theorem hasLane_drained {l : Nat} {f : Fill} (sub : Clock) (h : HasLane s w l) : HasLane (s.modLane w f.lane (drained sub f)) w l := by
  obtain ⟨v, hv, hl, hwf⟩ := h
  refine ⟨_, wav?_modLane hv _ _, (length_listModify ..).symm ▸ hl, fun y hy => ?_⟩
  rcases mem_listModify hy with hy | ⟨x, hx, rfl⟩
  · exact hwf y hy
  · exact Sparse.wf_put _ _ (hwf x hx)

/-- What a wavelet's fills put into a register stays there. -/
theorem hasReg_foldl {l r : Nat} {val : Reg} (sub : Clock) (fs : List Fill) (s : State) (hlane : HasLane s w l)
    (hval : ∀ f ∈ fs, f.lane = l → f.reg = r → f.val = val) (h : HasReg s w l r val ∨ ∃ f ∈ fs, f.lane = l ∧ f.reg = r) :
    HasReg (fs.foldl (fun s f => s.modLane w f.lane (drained sub f)) s) w l r val := by
  induction fs generalizing s with
  | nil => simpa using h
  | cons f fs ih =>
    refine ih _ (hasLane_drained sub hlane) (fun g hg => hval g (List.mem_cons_of_mem _ hg)) ?_
    by_cases hf : HasReg s w l r val ∨ f.lane = l ∧ f.reg = r
    · exact .inl (hasReg_drained sub hlane (hval f List.mem_cons_self) hf)
    · rw [not_or] at hf
      obtain ⟨g, hg, hgt⟩ := h.resolve_left hf.1
      rcases List.mem_cons.1 hg with rfl | hg
      · exact absurd hgt hf.2
      · exact .inr ⟨g, hg, hgt⟩

theorem hasLane_foldl {l : Nat} (sub : Clock) (fs : List Fill) (s : State) (h : HasLane s w l) :
    HasLane (fs.foldl (fun s f => s.modLane w f.lane (drained sub f)) s) w l := by
  induction fs generalizing s with
  | nil => exact h
  | cons f fs ih => exact ih _ (hasLane_drained sub h)

/-- Lanes that go on keep their registers. -/
theorem lane_settle {v : Wavelet} {l : Nat} (step : Nat) (hl : l < v.lanes.length) : (v.settle step).lane l = (v.lane l).settle step := by
  simp [Wavelet.lane, Wavelet.settle, List.getD_eq_getElem?_getD, hl]

theorem wf_settle {v : Wavelet} (step : Nat) (h : ∀ x ∈ v.lanes, Sparse.wf ({} : Reg) x.regs = true) :
    ∀ x ∈ (v.settle step).lanes, Sparse.wf ({} : Reg) x.regs = true := by
  intro x hx
  obtain ⟨y, hy, rfl⟩ := List.mem_map.1 hx
  rw [regs_settle]
  exact h y hy

theorem hasLane_settle {l : Nat} (step : Nat) (h : HasLane s w l) : HasLane (s.modWav w (·.settle step)) w l := by
  obtain ⟨v, hv, hl, hwf⟩ := h
  exact ⟨_, wav?_modWav _ hv, by simpa [Wavelet.settle] using hl, wf_settle step hwf⟩

theorem hasReg_settle {l r : Nat} {val : Reg} (step : Nat) (h : HasReg s w l r val) : HasReg (s.modWav w (·.settle step)) w l r val := by
  obtain ⟨v, hv, hl, hwf, hreg⟩ := h
  refine ⟨_, wav?_modWav _ hv, by simpa [Wavelet.settle] using hl, wf_settle step hwf, ?_⟩
  rw [lane_settle step hl, Strand.reg, regs_settle]
  exact hreg

theorem hasLane_drainRegs {l : Nat} (fs : List Fill) (sub : Clock) (h : HasLane s w l) : HasLane (s.drainRegs w fs sub) w l :=
  hasLane_settle _ (hasLane_foldl sub fs s h)

theorem hasReg_drainRegs {l r : Nat} {val : Reg} {fs : List Fill} (sub : Clock) (hlane : HasLane s w l)
    (hval : ∀ f ∈ fs, f.lane = l → f.reg = r → f.val = val) (h : HasReg s w l r val ∨ ∃ f ∈ fs, f.lane = l ∧ f.reg = r) :
    HasReg (s.drainRegs w fs sub) w l r val :=
  hasReg_settle _ (hasReg_foldl sub fs s hlane hval h)

theorem wav?_drainRegs_of_ne {c : WavId} (fs : List Fill) (sub : Clock) (h : c ≠ w) : (s.drainRegs c fs sub).wav? w = s.wav? w := by
  refine (wav?_modWav_of_ne _ h).trans ?_
  induction fs generalizing s with
  | nil => rfl
  | cons f fs ih => exact ih.trans (wav?_modWav_of_ne _ h)

/-- The fills of a command, all in one event: what one of them puts into a register stays there where none puts another value. -/
theorem hasReg_fillAll {l r : Nat} {val : Reg} {fs : List (WavId × Fill)} (sub : Clock) (hlane : HasLane s w l)
    (hval : ∀ f ∈ fs, f.1 = w → f.2.lane = l → f.2.reg = r → f.2.val = val) (h : ∃ f ∈ fs, f.1 = w ∧ f.2.lane = l ∧ f.2.reg = r) :
    HasReg (s.fillAll fs sub) w l r val := by
  have hfold : ∀ (ws : List WavId) (s : State), HasLane s w l → HasReg s w l r val ∨ w ∈ ws →
      HasReg (ws.foldl (fun s c => s.drainRegs c ((fs.filter (·.1 == c)).map (·.2)) sub) s) w l r val := by
    intro ws
    induction ws with
    | nil => exact fun s _ h => h.resolve_right List.not_mem_nil
    | cons c ws ih =>
      intro s hlane h
      by_cases hc : c = w
      · subst hc
        refine ih _ (hasLane_drainRegs _ sub hlane) (.inl (hasReg_drainRegs sub hlane (fun f hf => ?_) (.inr ?_)))
        · obtain ⟨g, hg, rfl⟩ := List.mem_map.1 hf
          obtain ⟨hg, hgc⟩ := List.mem_filter.1 hg
          exact hval g hg (by simpa using hgc)
        · obtain ⟨g, hg, hgc, hgl, hgr⟩ := ‹∃ f ∈ fs, f.1 = c ∧ f.2.lane = l ∧ f.2.reg = r›
          exact ⟨g.2, List.mem_map.2 ⟨g, List.mem_filter.2 ⟨hg, by simpa using hgc⟩, rfl⟩, hgl, hgr⟩
      · have hsame := wav?_drainRegs_of_ne (s := s) ((fs.filter (·.1 == c)).map (·.2)) sub hc
        refine ih _ (hlane.congr hsame) (h.imp (fun h => h.congr hsame) fun h => ?_)
        exact (List.mem_cons.1 h).resolve_left fun h => hc h.symm
  refine hfold _ s hlane (.inr ?_)
  obtain ⟨f, hf, hfw, -⟩ := h
  exact List.mem_eraseDups.2 (List.mem_map.2 ⟨f, hf, hfw⟩)

/-! Placements (R202). -/

/-- A list that loses nothing with its duplicates has none. -/
theorem nodup_of_eraseDups : ∀ (n : Nat) (xs : List Nat), xs.length ≤ n → xs.eraseDups.length ≤ xs.length ∧
    (xs.eraseDups.length = xs.length → xs.Nodup)
  | _, [], _ => ⟨by simp, fun _ => List.nodup_nil⟩
  | n + 1, a :: xs, hn => by
    have hfilter : (xs.filter fun b => !b == a).length ≤ xs.length := List.length_filter_le ..
    obtain ⟨hle, hnodup⟩ := nodup_of_eraseDups n (xs.filter fun b => !b == a) (by simp only [List.length_cons] at hn; omega)
    rw [List.eraseDups_cons]
    simp only [List.length_cons]
    refine ⟨by omega, fun h => ?_⟩
    have hall : xs.filter (fun b => !b == a) = xs := List.filter_eq_self.2 ((List.length_filter_eq_length_iff).1 (by omega))
    rw [hall] at hnodup
    refine List.nodup_cons.2 ⟨fun ha => ?_, hnodup (by rw [hall] at h; omega)⟩
    have := (List.filter_eq_self.1 hall) a ha
    simp at this

/-- The form of a placement: its elements fill the lanes of distinct wavelets evenly. -/
structure Even (place : Place) (width regs size : Nat) : Prop where
  hwidth : place.w = width
  hregs : place.regs = regs
  hsize : place.size = size
  heven : place.per * (place.wvs.length * width) = size
  hnodup : place.wvs.Nodup

theorem even_of {q width regs size nwavs : Nat} (h : Place.of q width regs size nwavs = some place) : Even place width regs size := by
  unfold Place.of at h
  dsimp only at h
  split at h
  · rename_i hc
    simp only [Bool.and_eq_true, beq_iff_eq] at hc
    obtain ⟨⟨⟨⟨⟨-, heven⟩, -⟩, -⟩, -⟩, hdups⟩ := hc
    cases h
    exact ⟨rfl, rfl, rfl, by rw [List.length_map, List.length_range]; exact heven, (nodup_of_eraseDups _ _ le_rfl).2 hdups⟩
  · cases h

/-- The placement of an mma's accumulators. -/
theorem even_places {width nwavs : Nat} {rest : List Place} (h : Par.places p false width nwavs = some (place :: rest)) :
    ∃ rows cols depth, matShape (Par.afmt p) = some (rows, cols, depth) ∧
      Even place width (if Par.afmt p == .f64 then 2 else 1) (rows * cols) := by
  unfold Par.places at h
  split at h
  · cases h
  · rename_i rows cols depth hshape
    dsimp only at h
    split at h
    · cases h
    · rename_i y hy
      cases h
      exact ⟨rows, cols, depth, hshape, even_of hy⟩

/-- Where the elements of a placement lie. -/
theorem pos_spec {width regs size i wi l k : Nat} (h : Even place width regs size) (hi : i < place.size) (hpos : place.pos i = (wi, l, k)) :
    0 < place.per ∧ i / place.per / width < place.wvs.length ∧ wi = place.wvs.getD (i / place.per / width) 0 ∧ l = i / place.per % width ∧ l < width ∧
      k = place.base + regs * (i % place.per) := by
  obtain ⟨hwidth, hregs, hsize, heven, -⟩ := h
  unfold Place.pos at hpos
  rw [hwidth, hregs] at hpos
  cases hpos
  rw [hsize, ← heven] at hi
  have hper : 0 < place.per := Nat.pos_of_ne_zero fun h => by simp [h] at hi
  have hwpos : 0 < width := Nat.pos_of_ne_zero fun h => by simp [h] at hi
  have hst : i / place.per < place.wvs.length * width := Nat.div_lt_of_lt_mul hi
  exact ⟨hper, Nat.div_lt_of_lt_mul (by rwa [Nat.mul_comm] at hst), rfl, rfl, Nat.mod_lt _ hwpos, rfl⟩

theorem mem_wvs {width regs size i wi l k : Nat} (h : Even place width regs size) (hi : i < place.size) (hpos : place.pos i = (wi, l, k)) :
    wi ∈ place.wvs := by
  obtain ⟨-, hlt, rfl, -⟩ := pos_spec h hi hpos
  rw [List.getD_eq_getElem _ _ hlt]
  exact List.getElem_mem hlt

/-- No two elements of a placement share a register of a lane. -/
theorem pos_inj {width regs size i j wi l k k' c d : Nat} (h : Even place width regs size) (hi : i < place.size) (hj : j < place.size)
    (hpos : place.pos i = (wi, l, k)) (hpos' : place.pos j = (wi, l, k')) (hc : c < regs) (hd : d < regs) (hreg : k + c = k' + d) : i = j ∧ c = d := by
  obtain ⟨hper, hlt, hwi, hl, -, rfl⟩ := pos_spec h hi hpos
  obtain ⟨-, hlt', hwi', hl', -, rfl⟩ := pos_spec h hj hpos'
  have hwvs : i / place.per / width = j / place.per / width := by
    rw [hwi', List.getD_eq_getElem _ _ hlt, List.getD_eq_getElem _ _ hlt'] at hwi
    exact ((List.Nodup.getElem_inj_iff h.hnodup).1 hwi).symm
  have hst : i / place.per = j / place.per := by
    rw [← Nat.div_add_mod (i / place.per) width, ← Nat.div_add_mod (j / place.per) width, hwvs, ← hl, ← hl']
  have hsum : regs * (i % place.per) + c = regs * (j % place.per) + d := by omega
  have hcd : c = d := by
    have := congrArg (· % regs) hsum
    simpa [Nat.mul_add_mod, Nat.mod_eq_of_lt hc, Nat.mod_eq_of_lt hd] using this
  have hmod : i % place.per = j % place.per := Nat.eq_of_mul_eq_mul_left (Nat.zero_lt_of_lt hc) (by omega)
  exact ⟨by rw [← Nat.div_add_mod i place.per, ← Nat.div_add_mod j place.per, hst, hmod], hcd⟩

/-! Accumulators (R109, R177). -/

/-- Reading accumulators takes free choices alone. -/
def Chosen (s t : State) : Prop := t = { s with free := t.free }

theorem Chosen.trans (h : Chosen s t) (k : Chosen t u) : Chosen s u := by
  unfold Chosen at *
  rw [k, h]

theorem Chosen.wavs (h : Chosen s t) : t.wavs = s.wavs := by rw [h]

theorem chosen_choose (s : State) (now : Nat) (old : List Nat) : Chosen s (s.choose now old).2 := by
  unfold State.choose
  split <;> rfl

theorem chosen_accReg (s : State) (w : WavId) (l r : Nat) (fence : Fence) : Chosen s (s.accReg w l r fence).2 := by
  unfold State.accReg
  split
  · rfl
  · exact chosen_choose ..

/-- A register without overwritten values has one value to start from. -/
theorem accReg_of_clean {l r : Nat} (hv : s.wav? w = some v) (h : ∀ q ∈ (v.lane l).past, q.1 ≠ r) :
    (s.accReg w l r fence).1 = ((v.lane l).reg r).bits.toNat := by
  have hnone : ((v.lane l).past.filterMap fun q => if q.1 == r && q.2.1.all (fence.upTo w l < ·) then some q.2.2.toNat else none) = [] :=
    List.filterMap_eq_nil_iff.2 fun q hq => if_neg (by simp [h q hq])
  unfold State.accReg
  rw [hv]
  dsimp only
  rw [hnone]
  rfl

/-- The read of an element's register, or of its low half. -/
def lowRead (s : State) (b : BlkId) (place : Place) (fence : Fence) (zero : Bool) (i : Nat) : Nat × State :=
  if zero then (0, s) else s.accReg (wavOf b (place.pos i).1) (place.pos i).2.1 (place.pos i).2.2 fence

/-- The read of an element's high half. -/
def highRead (s : State) (b : BlkId) (place : Place) (fence : Fence) (zero : Bool) (i : Nat) : Nat × State :=
  if zero || !(place.regs == 2) then (0, s) else s.accReg (wavOf b (place.pos i).1) (place.pos i).2.1 ((place.pos i).2.2 + 1) fence

/-- The value that an accumulator starts from, and the state that its reading leaves. -/
def startValue (s : State) (b : BlkId) (place : Place) (fence : Fence) (zero : Bool) (i : Nat) : Nat × State :=
  let lo := lowRead s b place fence zero i
  let hi := highRead lo.2 b place fence zero i
  (lo.1 + hi.1 * 2 ^ 32, hi.2)

theorem chosen_lowRead (s : State) (i : Nat) : Chosen s (lowRead s b place fence zero i).2 := by
  unfold lowRead
  split
  · rfl
  · exact chosen_accReg ..

theorem chosen_highRead (s : State) (i : Nat) : Chosen s (highRead s b place fence zero i).2 := by
  unfold highRead
  split
  · rfl
  · exact chosen_accReg ..

theorem chosen_startValue (s : State) (i : Nat) : Chosen s (startValue s b place fence zero i).2 := by
  unfold startValue
  dsimp only
  exact (chosen_lowRead s i).trans (chosen_highRead _ i)

theorem startValue_zero (s : State) (i : Nat) : (startValue s b place fence true i).1 = 0 := by
  have hlo : (lowRead s b place fence true i).1 = 0 := rfl
  have hhi : ∀ u, (highRead u b place fence true i).1 = 0 := fun u => rfl
  unfold startValue
  dsimp only
  rw [hlo, hhi, Nat.zero_mul]

/-- An accumulator that nothing overwrote starts from its registers. -/
theorem startValue_clean {i wi l k : Nat} (hpos : place.pos i = (wi, l, k)) (hv : s.wav? (wavOf b wi) = some v)
    (hclean : ∀ q ∈ (v.lane l).past, k ≤ q.1 → q.1 < k + place.regs → False) (hregs : place.regs = 1 ∨ place.regs = 2) :
    (startValue s b place fence false i).1 = ((v.lane l).reg k).bits.toNat + if place.regs = 2 then ((v.lane l).reg (k + 1)).bits.toNat * 2 ^ 32 else 0 := by
  have hlo : (lowRead s b place fence false i).1 = ((v.lane l).reg k).bits.toNat := by
    unfold lowRead
    rw [hpos]
    exact accReg_of_clean hv fun q hq hk => hclean q hq hk.ge (by rw [hk]; dsimp only; omega)
  have hv' : (lowRead s b place fence false i).2.wav? (wavOf b wi) = some v := by
    unfold State.wav?
    rw [(chosen_lowRead ..).wavs]
    exact hv
  have hhi : (highRead (lowRead s b place fence false i).2 b place fence false i).1 = if place.regs = 2 then ((v.lane l).reg (k + 1)).bits.toNat else 0 := by
    unfold highRead
    rw [hpos]
    rcases hregs with hr | hr
    · simp [hr]
    · simp only [hr, beq_self_eq_true, Bool.not_true, Bool.or_self, Bool.false_eq_true, if_false, if_true]
      exact accReg_of_clean hv' fun q hq hk => hclean q hq (by omega) (by omega)
  unfold startValue
  dsimp only
  rw [hlo, hhi]
  split
  · rfl
  · rw [Nat.zero_mul]

/-- The fills of one element. -/
def elemFills (b : BlkId) (place : Place) (i y : Nat) : List (WavId × Fill) :=
  let (wi, l, r) := place.pos i
  let tag := if place.regs == 2 then Ty.f64.tag else Ty.f32.tag
  (wavOf b wi, (⟨l, r, { bits := BitVec.ofNat 32 y, tag := tag }⟩ : Fill)) ::
    (if place.regs == 2 then [(wavOf b wi, ⟨l, r + 1, { bits := BitVec.ofNat 32 (y / 2 ^ 32), tag := tag }⟩)] else [])

/-- One element of a drain. -/
def drainStep (b : BlkId) (place : Place) (cols : Nat) (fence : Fence) (zero : Bool) (f : Nat → Nat → Nat → Nat)
    (acc : State × List (WavId × Fill) × List Nat) (i : Nat) : State × List (WavId × Fill) × List Nat :=
  let x := startValue acc.1 b place fence zero i
  let y := f (i / cols) (i % cols) x.1
  (x.2, acc.2.1 ++ elemFills b place i y, acc.2.2 ++ [y])

/-- A drain up to an element. -/
def drainTo (s : State) (b : BlkId) (place : Place) (cols : Nat) (fence : Fence) (zero : Bool) (f : Nat → Nat → Nat → Nat) (n : Nat) :
    State × List (WavId × Fill) × List Nat :=
  (List.range n).foldl (drainStep b place cols fence zero f) (s, [], [])

theorem drainPlace_eq (s : State) (b : BlkId) (place : Place) (cols : Nat) (fence : Fence) (zero : Bool) (f : Nat → Nat → Nat → Nat) :
    s.drainPlace b place cols fence zero f = drainTo s b place cols fence zero f place.size := by
  unfold State.drainPlace drainTo
  dsimp only
  refine congrArg (fun F => List.foldl F (s, [], []) (List.range place.size)) (funext fun acc => funext fun i => ?_)
  unfold drainStep startValue lowRead highRead elemFills
  obtain ⟨wi, l, r⟩ := place.pos i
  dsimp only

variable {cols : Nat} {f : Nat → Nat → Nat → Nat}

theorem drainTo_succ (n : Nat) : drainTo s b place cols fence zero f (n + 1) =
    drainStep b place cols fence zero f (drainTo s b place cols fence zero f n) n := by
  unfold drainTo
  rw [List.range_succ, List.foldl_append]
  rfl

theorem chosen_drainTo (n : Nat) : Chosen s (drainTo s b place cols fence zero f n).1 := by
  induction n with
  | zero => rfl
  | succ n ih => rw [drainTo_succ]; exact ih.trans (chosen_startValue _ n)

/-- The value that element `i` of a drain starts from. -/
def accOf (s : State) (b : BlkId) (place : Place) (cols : Nat) (fence : Fence) (zero : Bool) (f : Nat → Nat → Nat → Nat) (i : Nat) : Nat :=
  (startValue (drainTo s b place cols fence zero f i).1 b place fence zero i).1

/-- The fills of a drain are those of its elements. -/
theorem mem_drainTo {n : Nat} {g : WavId × Fill} : g ∈ (drainTo s b place cols fence zero f n).2.1 ↔
    ∃ i, i < n ∧ g ∈ elemFills b place i (f (i / cols) (i % cols) (accOf s b place cols fence zero f i)) := by
  induction n with
  | zero => simp [drainTo]
  | succ n ih =>
    rw [drainTo_succ]
    refine (List.mem_append.trans (or_congr_left ih)).trans ⟨?_, ?_⟩
    · rintro (⟨i, hi, hg⟩ | hg)
      · exact ⟨i, hi.trans (Nat.lt_succ_self n), hg⟩
      · exact ⟨n, Nat.lt_succ_self n, hg⟩
    · rintro ⟨i, hi, hg⟩
      rcases Nat.lt_succ_iff_lt_or_eq.1 hi with hi | rfl
      · exact .inl ⟨i, hi, hg⟩
      · exact .inr hg

/-- A half of an element's result. -/
def half (place : Place) (y c : Nat) : Reg :=
  { bits := BitVec.ofNat 32 (if c = 0 then y else y / 2 ^ 32), tag := if place.regs = 2 then Ty.f64.tag else Ty.f32.tag }

theorem half_high (h : place.regs = 2) (y : Nat) : half place y 1 = { bits := BitVec.ofNat 32 (y / 2 ^ 32), tag := Ty.f64.tag } := by
  simp [half, h]

theorem mem_elemFills {i wi l k y : Nat} {g : WavId × Fill} (hpos : place.pos i = (wi, l, k)) (hregs : place.regs = 1 ∨ place.regs = 2) :
    g ∈ elemFills b place i y ↔ ∃ c, c < place.regs ∧ g = (wavOf b wi, ⟨l, k + c, half place y c⟩) := by
  unfold elemFills
  rw [hpos]
  rcases hregs with hr | hr
  · simp [hr, half]
  · rw [hr]
    refine ⟨fun hg => ?_, fun ⟨c, hc, hg⟩ => ?_⟩
    · rcases List.mem_cons.1 hg with hg | hg
      · exact ⟨0, by decide, by simpa [half, hr] using hg⟩
      · exact ⟨1, by decide, by simpa [half, hr] using hg⟩
    · interval_cases c
      · simp [half, hr, hg]
      · simp [half, hr, hg]

/-- A drain leaves in each register of an element the element's result. -/
theorem hasReg_drain {width regs size i wi l k c : Nat} (sub : Clock) (heven : Even place width regs size) (hregs : regs = 1 ∨ regs = 2) (hi : i < place.size)
    (hpos : place.pos i = (wi, l, k)) (hc : c < regs) (hlane : HasLane u (wavOf b wi) l) :
    HasReg (u.fillAll (s.drainPlace b place cols fence zero f).2.1 sub) (wavOf b wi) l (k + c)
      (half place (f (i / cols) (i % cols) (accOf s b place cols fence zero f i)) c) := by
  have hregs' : place.regs = 1 ∨ place.regs = 2 := heven.hregs ▸ hregs
  rw [drainPlace_eq]
  refine hasReg_fillAll sub hlane (fun g hg hgw hgl hgr => ?_) ⟨_, mem_drainTo.2 ⟨i, hi, (mem_elemFills hpos hregs').2 ⟨c, heven.hregs ▸ hc, rfl⟩⟩, rfl, rfl, rfl⟩
  obtain ⟨j, hj, hg⟩ := mem_drainTo.1 hg
  obtain ⟨wj, lj, kj, hposj⟩ : ∃ wj lj kj, place.pos j = (wj, lj, kj) := ⟨_, _, _, rfl⟩
  obtain ⟨d, hd, rfl⟩ := (mem_elemFills hposj hregs').1 hg
  have hwj : wj = wi := congrArg WavId.wid hgw
  subst hwj
  dsimp only at hgl hgr
  subst hgl
  obtain ⟨rfl, rfl⟩ := pos_inj heven hi hj hpos hposj hc (heven.hregs ▸ hd) hgr.symm
  rfl

end Sys2Proof.Device
end

section
/-! The events of the matrix engine, the copy channels, mclaim and the groups (R14, R109, R178, R193, R196, R199, R200, R203, R205,
R217, R318). -/

namespace Sys2Proof.Device

open Sys2Proof Sys2Proof.Machine Sys2Proof.Claim

section

variable {s t u : State} {w : WavId} {b : BlkId} {o : Op} {m : Matrix} {fence : Fence} {x : Bool} {e : Env} {v : Wavelet} {p : Par} {place : Place}
  {n : Nat} {dual : Bool}

/-- The element of a product in row `i` and column `j`, added to an accumulator (R109). -/
def product (s : State) (b : BlkId) (p : Par) (cols depth i j acc : Nat) : Nat :=
  accumulate (Par.afmt p == .f64) depth (fun q => (((s.blk? b).bind (·.tile? (Par.aslot p))).elim #[] Tile.values).getD (i * depth + q) none)
    (fun q => (((s.blk? b).bind (·.tile? (Par.bslot p))).elim #[] Tile.values).getD (q * cols + j) none) acc

theorem compute_mma {rows cols depth : Nat} (rest : List Place) (hshape : matShape (Par.afmt p) = some (rows, cols, depth)) :
    s.compute b p false fence (place :: rest) = s.drainPlace b place cols fence (Par.zero p) (product s b p cols depth) := by
  unfold State.compute
  rw [hshape]
  rfl

/-- MATRIX_DRAIN where the command is not cancelled: it fills what it computed, and what else it changes before its end is the free
choices and a max-magnitude register. -/
theorem exec_matrixDrain (h : s.matrixDue n = some (o, .mma dual p, fence, false, e)) : ∃ c u, c = s.compute o.wid.block p dual fence (s.placesOf e (.mma dual p)) ∧
    exec (.matrixDrain n) s = .next ((u.fillAll c.2.1 o.sub).matrixDone o) ∧ u.wavs = c.1.wavs ∧ Undying c.1 u := by
  obtain ⟨c, hc⟩ : ∃ c, c = s.compute o.wid.block p dual fence (s.placesOf e (.mma dual p)) := ⟨_, rfl⟩
  have hrun : exec (.matrixDrain n) s = .next (((if Par.amxe p then c.1.modBlk o.wid.block fun k =>
      { k with amax := listSet k.amax (Par.amxi p) (if F32.isNan (k.amax.getD (Par.amxi p) 0) || F32.isNan (amaxOf (Par.afmt p == .f64) c.2.2) then F32.qnan
        else F32.max (k.amax.getD (Par.amxi p) 0) (amaxOf (Par.afmt p == .f64) c.2.2)) } else c.1).fillAll c.2.1 o.sub).matrixDone o) := by
    change execMatrixDrain n s = _
    unfold execMatrixDrain
    rw [h, hc]
    rfl
  refine ⟨c, _, hc, hrun, ?_, ?_⟩
  · split
    · exact State.modBlk_wavs ..
    · rfl
  · split
    · refine undying_modBlk ?_ ?_ _ _
      · exact fun _ => rfl
      · exact fun _ => rfl
    · exact undying_of_eq rfl rfl rfl

/-- MATRIX_DRAIN ends its command. -/
theorem exec_matrixDrain_ends (h : s.matrixDue n = some (o, .mma dual p, fence, x, e)) : ∃ t, exec (.matrixDrain n) s = .next t ∧ t.op? o.id = none := by
  cases x with
  | true =>
    refine ⟨s.cancelDone o e (.mma dual p), ?_, op?_cancelDone ..⟩
    change execMatrixDrain n s = _
    unfold execMatrixDrain
    rw [h]
    rfl
  | false =>
    obtain ⟨c, u, -, hrun, -⟩ := exec_matrixDrain h
    exact ⟨_, hrun, op?_matrixDone ..⟩

/-- Accumulators that live wavelets hold are, after a drain, the sums of the chunks over what they held (R109, R203). -/
theorem exec_matrixDrain_sums {rest : List Place} (h : s.matrixDue n = some (o, .mma false p, fence, false, e))
    (hplaces : Par.places p false e.blk.width (s.wavsOf e.wid.block).length = some (place :: rest))
    (halive : ∀ w ∈ place.wvs, ∃ v, Alive s (wavOf o.wid.block w) v ∧ v.width = e.blk.width) (hno : NoMwait s) {i wi l k : Nat} (hi : i < place.size)
    (hpos : place.pos i = (wi, l, k)) : ∃ t v y acc rows cols depth, exec (.matrixDrain n) s = .next t ∧ matShape (Par.afmt p) = some (rows, cols, depth) ∧
      s.wav? (wavOf o.wid.block wi) = some v ∧ t.wav? (wavOf o.wid.block wi) = some y ∧ (Par.zero p = true → acc = 0) ∧
      (Par.zero p = false → (∀ q ∈ (v.lane l).past, k ≤ q.1 → q.1 < k + place.regs → False) →
        acc = ((v.lane l).reg k).bits.toNat + if place.regs = 2 then ((v.lane l).reg (k + 1)).bits.toNat * 2 ^ 32 else 0) ∧
      (y.lane l).reg k = half place (product s o.wid.block p cols depth (i / cols) (i % cols) acc) 0 ∧
      (place.regs = 2 → (y.lane l).reg (k + 1) = half place (product s o.wid.block p cols depth (i / cols) (i % cols) acc) 1) := by
  obtain ⟨-, -, he⟩ := matrixDue_spec h
  obtain ⟨rows, cols, depth, hshape, heven⟩ := even_places hplaces
  obtain ⟨-, -, -, -, hl, -⟩ := pos_spec heven hi hpos
  obtain ⟨v, hv, hwidth⟩ := halive wi (mem_wvs heven hi hpos)
  have hkeep := keeps_of_alive hv
  obtain ⟨hwav, ⟨hlen, -, -, hwf⟩, -⟩ := hv
  obtain ⟨c, u, hc, hrun, huwavs, hund⟩ := exec_matrixDrain h
  have hplacesOf : s.placesOf e (.mma false p) = place :: rest := by
    unfold State.placesOf
    dsimp only
    rw [hplaces]
    rfl
  rw [hplacesOf, compute_mma rest hshape] at hc
  have hdrain := drainPlace_eq s o.wid.block place cols fence (Par.zero p) (product s o.wid.block p cols depth)
  have hchosen : Chosen s c.1 := by rw [hc, hdrain]; exact chosen_drainTo _
  have hwavs : u.wavs = s.wavs := huwavs.trans hchosen.wavs
  have hsu : Undying s u := by
    refine Undying.trans ?_ hund
    rw [hchosen]
    exact undying_of_eq rfl rfl rfl
  have hnou : NoMwait u := by unfold NoMwait State.wav?; rw [hwavs]; exact hno
  have hlane : HasLane u (wavOf o.wid.block wi) l := ⟨v, by unfold State.wav?; rw [hwavs]; exact hwav, by rw [hlen, hwidth]; exact hl, hwf⟩
  have hregs : (if Par.afmt p == .f64 then 2 else 1) = 1 ∨ (if Par.afmt p == .f64 then 2 else 1) = 2 := by split <;> simp
  have hreg : ∀ d, d < place.regs → HasReg (u.fillAll c.2.1 o.sub) (wavOf o.wid.block wi) l (k + d) (half place (product s o.wid.block p cols depth (i / cols)
      (i % cols) (accOf s o.wid.block place cols fence (Par.zero p) (product s o.wid.block p cols depth) i)) d) := by
    intro d hd
    rw [hc]
    exact hasReg_drain o.sub heven hregs hi hpos (heven.hregs ▸ hd) hlane
  have hplace : place.regs = 1 ∨ place.regs = 2 := heven.hregs ▸ hregs
  obtain ⟨z, hz, -, -, hlow⟩ := hreg 0 (by omega)
  obtain ⟨clk, ht⟩ := wav?_matrixDone (o := o) (noMwait_fillAll hnou c.2.1 o.sub) (hkeep.undying (hsu.trans (undying_fillAll ..))) rfl hz
  refine ⟨_, v, _, accOf s o.wid.block place cols fence (Par.zero p) (product s o.wid.block p cols depth) i, rows, cols, depth, hrun, hshape, hwav, ht,
    fun hzero => ?_, fun hzero hclean => ?_, hlow, fun htwo => ?_⟩
  · unfold accOf
    rw [hzero]
    exact startValue_zero _ i
  · unfold accOf
    rw [hzero]
    refine startValue_clean hpos ?_ hclean hplace
    unfold State.wav?
    rw [(chosen_drainTo i).wavs]
    exact hwav
  · obtain ⟨z', hz', -, -, hhigh⟩ := hreg 1 (by omega)
    cases hz.symm.trans hz'
    exact hhigh

/-! What a due command does. -/

/-- MLD_FILL (R199, R200). -/
theorem fill_due (h : s.matrixDue n = some (o, m, fence, x, e)) (hm : ∀ dual p, m ≠ .mma dual p) :
    ∃ t, exec (.mldFill n) s = .next t ∧ t.op? n = none ∧
      (∀ slot z u v, x = false → s.tileOf e m fence = (.ok (slot, z), u) → Alive s o.wid v → e.blk.holds slot = true →
        ∃ k, t.blk? o.wid.block = some k ∧ k.tile? slot = some z) := by
  obtain ⟨-, hid, he⟩ := matrixDue_spec h
  obtain ⟨t, hrun, hop⟩ := exec_mldFill_ends h hm
  refine ⟨t, hrun, hid ▸ hop, fun slot z u v hx htile halive hholds => ?_⟩
  subst hx
  have hu : u = (s.tileOf e m fence).2 := by rw [htile]
  have hblk : u.blk? o.wid.block = s.blk? o.wid.block := by rw [hu, tileOf_state]; rfl
  have hfill := exec_mldFill h hm htile
  cases hrun.symm.trans hfill
  exact tile?_mldFill rfl (keeps_of_alive halive) he hholds (hu ▸ undying_tileOf ..) hblk

/-- MATRIX_COMMAND_FAIL of a product (R165, R205). -/
theorem fail_due (h : s.matrixDue n = some (o, .mma dual p, fence, false, e)) :
    ∃ t, exec (.matrixCommandFail n eIntegrity) s = .next t ∧ t.op? n = none ∧ ∀ v, Alive s o.wid v → NoMwait s →
      ∃ k c, t.blk? o.wid.block = some k ∧ k.fail = some c ∧ (e.blk.fail = none → c.1 = eIntegrity) := by
  obtain ⟨-, hid, he⟩ := matrixDue_spec h
  obtain ⟨-, hb, -⟩ := env?_parts he
  exact ⟨_, exec_matrixCommandFail_mma h, hid ▸ op?_failMatrix .., fun v halive hno => fail_failMatrix eIntegrity hno (keeps_of_alive halive) hb⟩

/-- MATRIX_COMMAND_FAIL of a command that meets its cause (R205). -/
theorem fail_tile {cause : Nat} (h : s.matrixDue n = some (o, m, fence, false, e)) (hm : ∀ dual p, m ≠ .mma dual p)
    (htile : s.tileOf e m fence = (.error cause, u)) : ∃ t, exec (.matrixCommandFail n cause) s = .next t ∧ t.op? n = none := by
  obtain ⟨-, hid, -⟩ := matrixDue_spec h
  exact ⟨_, exec_matrixCommandFail h hm htile, hid ▸ op?_failMatrix ..⟩

/-- MATRIX_DRAIN (R109, R203). -/
theorem drain_due (h : s.matrixDue n = some (o, .mma dual p, fence, x, e)) : ∃ t, exec (.matrixDrain n) s = .next t ∧ t.op? n = none := by
  obtain ⟨-, hid, -⟩ := matrixDue_spec h
  obtain ⟨t, hrun, hop⟩ := exec_matrixDrain_ends h
  exact ⟨t, hrun, hid ▸ hop⟩

end

/-- The ranks of a collective that began before the spare joined. -/
theorem present_rejoined {s : State} {x : Group} {rank n c : Nat} {recs : List Contrib} (h : n < s.nextOp) :
    (rejoined s x rank).present n recs c = x.present n recs c := by
  unfold Group.present
  simp only [absence_rejoined _ h]
  rfl

/-- Settles O43: every event ends its command (`matrixDone`) and leaves the rest as its rule says; what it fills is read off the
command's tile, the chunk sums of its accumulators, the bytes of the copy or the group. -/
theorem engineEvents : Obligations.EngineEvents := by
  unfold Obligations.EngineEvents
  refine ⟨fun n s o m fence x e h => ⟨fun hm => ?_, fun dual p hm => ?_, fun dual p hm hx => ?_, fun cause u hm hx htile => ?_⟩, ?_, ?_, ?_, ?_⟩
  · obtain ⟨t, hrun, hop, hslot⟩ := fill_due h hm
    refine ⟨t, hrun, hop, fun slot z u v hx htile halive hholds => ?_, fun slot role ty b v hmc hx halive hholds => ?_⟩
    · obtain ⟨k, hk, hz⟩ := hslot slot z u v hx htile halive hholds
      refine ⟨k, hk, hz, fun role sp ty a pitch lane hmld hrole hty => ?_⟩
      subst hmld
      exact tileOf_mld hrole hty htile
    · subst hmc
      obtain ⟨idx, u, htile⟩ := tileOf_ident (s := s) (e := e) (fence := fence) slot role ty b
      obtain ⟨k, hk, hz⟩ := hslot slot _ u v hx htile halive hholds
      exact ⟨k, _, hk, hz, rfl, rfl, fun i j hi hj => constTile_identity hi hj⟩
  · subst hm
    obtain ⟨t, hrun, hop⟩ := drain_due h
    refine ⟨t, hrun, hop, fun place rest hx hdual hplaces halive hno i w l k hi hpos => ?_⟩
    subst hx hdual
    obtain ⟨t', v, y, acc, rows, cols, depth, hrun', hshape, hv, hy, hzero, hclean, hlow, hhigh⟩ := exec_matrixDrain_sums h hplaces halive hno hi hpos
    cases hrun.symm.trans hrun'
    refine ⟨v, y, acc, hv, hy, hzero, hclean, fun rows' cols' depth' val hshape' hval => ?_⟩
    cases hshape.symm.trans hshape'
    subst hval
    exact ⟨hlow, fun htwo => (hhigh htwo).trans (half_high htwo _)⟩
  · subst hm hx
    exact fail_due h
  · subst hx
    exact fail_tile h hm htile
  · intro w s e cl n he hstall hstage hclaim hhead hfree
    exact exec_mclaimGrant he hstall hstage hclaim hhead hfree
  · intro n s o c e h
    obtain ⟨hop, he⟩ := copyDue_op h
    obtain ⟨t, hrun, hmem⟩ := exec_bulkCopyRow h
    refine ⟨⟨t, hrun⟩, fun cause hmove => exec_bulkCopyFail h hmove, fun u hmove hstat => ⟨t, hrun, hmem u hmove hstat, ?_⟩⟩
    intro hcan hcvt hxp x y hx hy p hruns va hwin hinj j b q hj hb hq
    subst hx hy
    rw [hmem u hmove hstat]
    exact moveRow_raw he hcan hmove hcvt hxp hruns hwin hinj hj hb hq
  · intro s g x rank reached hg hrank hself hfenced
    exact ⟨droppedOut s x rank reached, rfl, exec_rankDropout reached hg hrank hself hfenced,
      fun n recs c hnone => present_droppedOut reached hrank hnone⟩
  · intro s g x rank hg hfenced
    exact ⟨_, rejoined s x rank, exec_spareJoining hg hfenced, rfl, rfl, fun n recs c => ⟨fun hn => present_rejoined hn, fun hn hrank hgone =>
      (mem_present (g := rejoined s x rank) hrank).2 fun cs hcs => nomatch (absence_rejoined_none hn hgone).symm.trans hcs⟩⟩

end Sys2Proof.Device
end
